-- ==== Sys2Proof/Word.lean ====
section
/-! DEFINITION. The word types of the TCC-6: bytes and the three kinds of index. -/

namespace Sys2Proof

/-- One byte of the register window. -/
abbrev Byte := BitVec 8

/-- An input index, 0..5 (00_scope.md, Units and quantities). -/
abbrev InputIx := Fin 6

/-- A catalog slot index, 0..63 (R1). -/
abbrev SlotIx := Fin 64

/-- A classifier requester: inputs 0..5, and the probe as requester 6 (R47). -/
abbrev Requester := Fin 7

end Sys2Proof
end

