-- ==== Sys2Proof/Config.lean ====
section
/-! DEFINITION. The choices the manual leaves open, as constants without a body.
Each is applied to the counter `freeIndex` of the state, so every use is a fresh value. -/

namespace Sys2Proof

/-- At one horizontal edge a counter may expire (the line counter reaching 4096, R83, or the V pin
quiet counter reaching 4096, R84) and the closed line may also be due at the separator or the
fault detection (R75). The manual does not say which comes first. True: the expiry.
Free value, assumption log 6. -/
opaque Config.expiryFirst : Nat → Bool

/-- At that edge the separator may also produce a vertical edge, which sets the line counter to 3
(R82, R86). The manual does not say whether a loss at 4096 taken second still takes place then. True:
it does. Free value, assumption log 6. -/
opaque Config.lossStands : Nat → Bool

/-- A broad line that closes at the edge at which the V pin quiet counter reaches 4096 closes under
one vertical source and leaves another (R84). The manual does not say which of them the line ring
judges it by (R80). True: the separator, the source after the edge. Free value, assumption log 6. -/
opaque Config.ringAfter : Nat → Bool

/-- Several inputs may submit at one event to an idle classifier, and either may be taken first
(R52). The value picks the one that is. Free value, assumption log 7. -/
opaque Config.firstSubmission : Nat → Nat

end Sys2Proof
end

