-- ==== Sys2Proof/Syntax.lean ====
section
/-! DEFINITION. The commands of the block: one constructor of `Instr` for each row of the table of
operations and events, with the operands the environment gives it. -/

namespace Sys2Proof

/-- The two sync pins of an input port (00_scope.md, Pin list). -/
inductive Pin where
  | h
  | v
  deriving DecidableEq, Repr

/-- The level of a pin. -/
inductive Level where
  | low
  | high
  deriving DecidableEq, Repr

/-- The direction bit of an address byte: 0 write, 1 read (R193). -/
inductive Direction where
  | write
  | read
  deriving DecidableEq, Repr

/-- Which of the two acts due at the end of a third start is taken first (R62). -/
inductive OpeningOrder where
  | heldFirst
  | grantFirst
  deriving DecidableEq, Repr

/-- A completion of a start: the tick at which it comes, which tells a detection at the same event
(R105), and the order of the two acts due at the end of a third start (R62). -/
structure Completion where
  order : OpeningOrder
  tick : Nat
  deriving DecidableEq, Repr

/-- What a rejection counted against an open period is (R73): a pulse shorter than the glitch
window, seen when the pin returns to `level` at `tick`, or a horizontal edge that its filter
accepts less than 160 ticks after the last accepted one (R74). -/
inductive RejectionCause where
  | glitch (pin : Pin) (level : Level) (tick : Nat)
  | closeEdge
  deriving DecidableEq, Repr

/-- The event at which the port takes a byte for sending (R195): the acknowledge of an address
byte, or the host's acknowledge of the byte before. -/
inductive ReadCause where
  | addressByte (address : BitVec 7)
  | hostAcknowledge
  deriving DecidableEq, Repr

/-- The commands. `n` is an input, `value` the data byte the host writes at the address pointer. -/
inductive Instr where
  /-- Power-up or RST#, with the level of ADR at its end (R136, R193). -/
  | powerOnReset (adr : Level)
  /-- A sync pin is at a new level from `tick` on (R71). -/
  | pinTransition (n : InputIx) (pin : Pin) (level : Level) (tick : Nat)
  /-- The glitch window of the transition waiting in a filter runs out (R71). -/
  | transitionAccepted (n : InputIx) (pin : Pin)
  /-- The accepted edge at which the gain count reaches 8 (R79). -/
  | hActivityGained (n : InputIx)
  /-- 8192 ticks without an accepted horizontal edge in QUIET (R78). -/
  | gainCountTimeout (n : InputIx)
  /-- 8192 ticks after the last accepted horizontal edge (R76). -/
  | hActivityLost (n : InputIx)
  /-- The accepted edge at which the short-line run reaches 8 (R80). -/
  | ringRefill (n : InputIx)
  /-- The accepted edge at which the line counter reaches 4096 (R83). -/
  | vActivityLost (n : InputIx)
  /-- The accepted edge at which the V pin quiet counter reaches 4096 (R84). -/
  | vpinQuietTimeout (n : InputIx)
  /-- The accepted edge that closes the third broad line of a run (R86). -/
  | separatorVerticalEdge (n : InputIx)
  /-- The rejection that brings the count of the open period to 32 (R95). -/
  | noise (n : InputIx) (cause : RejectionCause)
  /-- The end of a 4-tick step of the pass in flight (R55). -/
  | classifierStep
  /-- The completion of a start after its last step (R55, R62). -/
  | passComplete (completion : Completion)
  /-- The held catalog change executes at the opening of the gate (R157). -/
  | heldCommandExecute
  /-- The first byte after a start condition (R193). -/
  | addressByte (address : BitVec 7) (direction : Direction)
  /-- The first data byte of a write transaction (R194). -/
  | pointerByte (value : Byte)
  /-- A data byte at a position without behaviour of its own (R197). -/
  | registerWrite (value : Byte)
  /-- The enable bit goes from disabled to enabled (R111). -/
  | enableWrite (value : Byte)
  /-- The enable bit goes from enabled to disabled (R112). -/
  | disableWrite (value : Byte)
  /-- A byte for the settle and coast position, named for its settle count (R119). -/
  | settleCountWrite (value : Byte)
  /-- A byte for the settle and coast position, named for its coast budget (R126). -/
  | coastBudgetWrite (value : Byte)
  /-- A byte for a glitch window (R72). -/
  | glitchWindowWrite (value : Byte)
  /-- A byte for the fault enables (R98). -/
  | faultEnablesWrite (value : Byte)
  /-- A byte for a notice position (R185). -/
  | noticeClear (value : Byte)
  /-- A byte for a mask position (R187). -/
  | maskWrite (value : Byte)
  /-- A byte for the view selector (R200). -/
  | viewSelectorWrite (value : Byte)
  /-- A byte for the staging record (R199). -/
  | stagingWrite (value : Byte)
  /-- The read of position 0x80 (R201). -/
  | viewLatch (cause : ReadCause)
  /-- The state byte written in DONE (R159). -/
  | acknowledge (value : Byte)
  /-- The state byte written in HELD or WAITING (R160). -/
  | mailboxWithdraw (value : Byte)
  /-- The command byte written while the mailbox is not EMPTY (R162). -/
  | overrun (value : Byte)
  /-- The twelve command codes, written to the command byte in EMPTY (R155, R207). -/
  | commit
  | fetchEntry
  | suspend
  | resume
  | retire
  | clearCatalog
  | findTag
  | probe
  | rebind
  | clearFault
  | restartCore
  | nop
  /-- A code that is none of the twelve, written in EMPTY (R179). -/
  | unknownCommand (code : Byte)
  /-- The host's acknowledge or not-acknowledge of a byte the port sent (R195). -/
  | byteSent (acknowledged : Bool)
  deriving DecidableEq, Repr

end Sys2Proof
end

