-- ==== Sys2Proof/WellFormed.lean ====
section
/-! DEFINITION. Well-formed commands. Input, pin and address operands are in range by their types;
what is left to check is that an unknown code is unknown. -/

namespace Sys2Proof

/-- The twelve command codes are 0x01..0x0C (R207). -/
def isCommandCode (code : Byte) : Bool := 1 ≤ code.toNat && code.toNat ≤ 12

/-- UNKNOWN_COMMAND carries one of the other 244 values (R179, R207). Every other command is
well-formed whatever its operands. -/
def Instr.wellFormed : Instr → Bool
  | .unknownCommand code => !isCommandCode code
  | .powerOnReset _ | .pinTransition _ _ _ _ | .transitionAccepted _ _ | .hActivityGained _
  | .gainCountTimeout _ | .hActivityLost _ | .ringRefill _ | .vActivityLost _
  | .vpinQuietTimeout _ | .separatorVerticalEdge _ | .noise _ _ | .classifierStep
  | .passComplete _ | .heldCommandExecute | .addressByte _ _ | .pointerByte _ | .registerWrite _
  | .enableWrite _ | .disableWrite _ | .settleCountWrite _ | .coastBudgetWrite _
  | .glitchWindowWrite _ | .faultEnablesWrite _ | .noticeClear _ | .maskWrite _
  | .viewSelectorWrite _ | .stagingWrite _ | .viewLatch _ | .acknowledge _ | .mailboxWithdraw _
  | .overrun _ | .commit | .fetchEntry | .suspend | .resume | .retire | .clearCatalog | .findTag
  | .probe | .rebind | .clearFault | .restartCore | .nop | .byteSent _ => true

end Sys2Proof
end

