-- ==== Sys2Proof/Decode.lean ====
section
/-! DEFINITION. The table gives none of its rows any bits (every row's list of fields is empty and
none has a fixed pattern), so no word spells a command. -/

namespace Sys2Proof

/-- The command a word of the table spells: none, for every word (assumption log 29). -/
def decodeTableWord (_nbits _w : Nat) : Option Instr := none

end Sys2Proof
end

