-- ==== Sys2Proof/Machine/State.lean ====
section
/-! DEFINITION. What the block holds: plain data, one structure per record the manual describes,
and its value after power-on reset. -/

namespace Sys2Proof.Machine

/-- Why a step could stop with a fault. The manual gives the block no way to stop: a measurement
fault, a refused command and a busy mailbox are all effects on the state. No constructor, so no
fault can be raised (safe). -/
inductive Fault where
  deriving DecidableEq, Repr

/-- Why a command could be refused. -/
inductive Refusal where
  /-- Raised by an arm of `exec` for a command without a meaning; no arm is (safe: the run stops
  where the hardware goes on). -/
  | notModelled (mnemonic : String)
  deriving DecidableEq, Repr

/-! ### Quantities of a measurement -/

/-- Polarity of a sync pulse (R75, R85). -/
inductive Polarity where
  | negative
  | positive
  deriving DecidableEq, Repr

/-- Scan of a measurement set (R88). -/
inductive Scan where
  | progressive
  | interlaced
  deriving DecidableEq, Repr

/-- Source of the closing vertical edge, as a set reports it (R88). -/
inductive SyncForm where
  | separate
  | composite
  deriving DecidableEq, Repr

/-- The three kinds of measurement fault (chapter 5). -/
inductive FaultKind where
  | noise
  | shortFrame
  | polarityFlip
  deriving DecidableEq, Repr

/-- A set of fault kinds: a fault latch, a period fault record, or the enables (R94, R98, R101). -/
structure FaultSet where
  noise : Bool
  shortFrame : Bool
  polarityFlip : Bool
  deriving DecidableEq, Repr

/-- The eight fields matching reads (R27). h_period and h_width are in eighths of a tick, v_lines
and v_width in lines. A probe set is exactly this. -/
structure SyncSet where
  hPeriod : Nat
  hWidth : Nat
  hPolarity : Polarity
  vLines : Nat
  vWidth : Nat
  vPolarity : Polarity
  scan : Scan
  form : SyncForm
  deriving DecidableEq, Repr

/-- A published measurement set (R88). -/
structure MeasSet where
  seq : Byte
  sync : SyncSet
  halfLine : Bool
  noiseSeen : Bool
  deriving DecidableEq, Repr

/-! ### The timing catalog (chapter 1) -/

/-- Lifecycle of a slot (R1, R4). -/
inductive SlotState where
  | free
  | active
  | suspended
  deriving DecidableEq, Repr

/-- A catalog window: a min and a max (R1). -/
structure Window where
  min : Nat
  max : Nat
  deriving DecidableEq, Repr

/-- The presentation block (R3). -/
structure Presentation where
  totalPx : Nat
  activePx : Nat
  activeLines : Nat
  firstPx : Nat
  firstLine : Nat
  deriving DecidableEq, Repr

/-- The fields of an entry that the host sets (R1). A constraint of `none` is ANY; an absent
optional window or block is `none` (R2, R3). -/
structure Entry where
  tag : Nat
  rank : Nat
  hPeriod : Window
  vLines : Window
  hWidth : Option Window
  vWidth : Option Window
  hPolarity : Option Polarity
  vPolarity : Option Polarity
  scan : Option Scan
  form : Option SyncForm
  presentation : Option Presentation
  deriving DecidableEq, Repr

/-- The fields of a FREE slot, all zero (R1). -/
def zeroEntry : Entry :=
  { tag := 0, rank := 0, hPeriod := ⟨0, 0⟩, vLines := ⟨0, 0⟩, hWidth := none, vWidth := none,
    hPolarity := none, vPolarity := none, scan := none, form := none, presentation := none }

/-- One catalog slot (R1). State, generation and bind_count are the catalog's own. -/
structure Slot where
  state : SlotState
  generation : Byte
  bindCount : Nat
  entry : Entry
  deriving DecidableEq, Repr

/-- A FREE slot (R1). -/
def freeSlotValue : Slot := { state := .free, generation := 0, bindCount := 0, entry := zeroEntry }

/-- The catalog: 64 slots, the occupancy count and the tag map (R1, R6, R7). The tag map is kept
sorted by tag. -/
structure Catalog where
  slots : Vector Slot 64
  occupancy : Nat
  tagMap : List (Nat × SlotIx)
  deriving DecidableEq, Repr

/-! ### The classifier (chapters 2 and 3) -/

/-- The kinds of pass (section 2.3). -/
inductive PassKind where
  | search
  | verifyBound
  | verifyRecall
  deriving DecidableEq, Repr

/-- The set a request carries (R47): a measurement set for an input, the probe set for the probe. -/
inductive RequestSet where
  | measured (m : MeasSet)
  | probe (p : SyncSet)
  deriving DecidableEq, Repr

/-- A request waiting in a slot (R47). The sequence is absent for the probe. -/
structure Request where
  kind : PassKind
  set : RequestSet
  seq : Option Byte
  deriving DecidableEq, Repr

/-- A candidate of a search in flight, with the rank read at its examination (section 2.4). -/
structure Candidate where
  slot : SlotIx
  rank : Nat
  deriving DecidableEq, Repr

/-- The tally of a search (section 2.4). -/
structure Tally where
  candidates : List Candidate
  firstGeneration : Byte
  matchCount : Nat
  topRank : Option Nat
  topCount : Nat
  deriving DecidableEq, Repr

/-- What a verify's one examination found (R33, R34, R41, R42), kept until its completion. -/
inductive Verdict where
  | bound (pass : Bool) (generation : Byte)
  | recallPass (slot : SlotIx) (generation : Byte)
  | recallFail
  deriving DecidableEq, Repr

/-- The pass record (R54). `verdict` is the model's own (assumption log 16). -/
structure Pass where
  requester : Requester
  kind : PassKind
  set : RequestSet
  seq : Option Byte
  probeCurrent : Option Bool
  start : Nat
  disturbed : Bool
  position : Nat
  tally : Option Tally
  verdict : Option Verdict
  deriving DecidableEq, Repr

/-- The gate (R61, R62). -/
inductive Gate where
  | opened
  | closed
  deriving DecidableEq, Repr

/-- The classifier: seven request slots, the rotation pointer, the pass record and the gate. `endTick`
is the model's own: the tick of the completion that last ended a pass (R58, assumption log 34). -/
structure Classifier where
  requests : Vector (Option Request) 7
  pointer : Requester
  pass : Option Pass
  gate : Gate
  endTick : Option Nat
  deriving DecidableEq, Repr

/-- The contents of a search MATCH, or of a recall PASS in the same form (R40, R42). -/
structure Match where
  candidates : List SlotIx
  ambiguity : Nat
  overflow : Bool
  generation : Byte
  deriving DecidableEq, Repr

/-- The result of a pass (R57). -/
inductive PassResult where
  | matched (m : Match)
  | noMatch
  | bound (pass : Bool) (generation : Byte)
  | recalled (m : Match)
  | recallFailed
  deriving DecidableEq, Repr

/-! ### The measurement unit (chapters 4 and 5) -/

/-- The unit states. -/
inductive UnitState where
  | off
  | quiet
  | unprimed
  | priming
  | publishing
  deriving DecidableEq, Repr

/-- A transition a filter has not yet judged: the tick at which it reached the pin, and the glitch
window in force then (R71, R72). -/
structure Waiting where
  tick : Nat
  window : BitVec 4
  deriving DecidableEq, Repr

/-- A pin's glitch filter (R71). -/
structure PinFilter where
  passed : Level
  waiting : Option Waiting
  deriving DecidableEq, Repr

/-- A line of the ring: period and width in ticks, detected polarity (R80). -/
structure Line where
  period : Nat
  width : Nat
  polarity : Polarity
  deriving DecidableEq, Repr

/-- The line in progress: its opening edge, the line counter at that edge (R86) and the end of its
active phase once it has come (R75). -/
structure OpenLine where
  openTick : Nat
  openCount : Nat
  activeEnd : Option Nat
  deriving DecidableEq, Repr

/-- What the separator records at the first broad line of a run (R86): the line counter at the
line's opening edge, that edge, and the offset of that edge (R88). -/
structure RunStart where
  count : Nat
  tick : Nat
  offset : Nat
  deriving DecidableEq, Repr

/-- A line as characterised at its close (R75), with the facts of its opening edge. -/
structure ClosedLine where
  line : Line
  broad : Bool
  start : RunStart
  deriving DecidableEq, Repr

/-- The open vertical period: opening edge, width of its opening pulse once known, rejection count
(R73), period fault record and previous line polarity (R94). -/
structure OpenPeriod where
  openTick : Nat
  width : Option Nat
  rejections : Nat
  faults : FaultSet
  prevPolarity : Option Polarity
  deriving DecidableEq, Repr

/-- The two vertical sources (section 4.7). -/
inductive VSource where
  | vPin
  | separator
  deriving DecidableEq, Repr

/-- A vertical edge: its source, its tick, its offset (R88), the line count it closes a period with
and the line counter the next period starts with (R82, R86). -/
structure VEdge where
  source : VSource
  tick : Nat
  offset : Nat
  count : Nat
  newCount : Nat
  deriving DecidableEq, Repr

/-- A measurement unit. The gain count and the short-line run are the lengths of `gainLines` and
`shortLines` (assumption log 17). -/
structure MeasUnit where
  state : UnitState
  hFilter : PinFilter
  vFilter : PinFilter
  hRef : Polarity
  vRef : Polarity
  lastHEdge : Option Nat
  prevHEdge : Option Nat
  line : Option OpenLine
  gainLines : List Line
  ring : List Line
  shortLines : List Line
  lineCounter : Nat
  vQuiet : Nat
  sepRun : Nat
  sepArmed : Bool
  runStart : Option RunStart
  period : Option OpenPeriod
  halfLineRef : Option Bool
  setSeq : Byte
  lastSet : Option MeasSet
  deriving DecidableEq, Repr

/-- What a measurement unit reports: activity gained and lost, a published set, and a detected
fault kind, which latches if it is enabled (opening of chapter 4, R98). -/
inductive Report where
  | hGained
  | hLost
  | vLost
  | published (m : MeasSet)
  | detected (kind : FaultKind)
  deriving DecidableEq, Repr

/-! ### The input tracker (chapters 6 and 7) -/

/-- The eight tracker states. -/
inductive TrackerState where
  | idle
  | silent
  | settling
  | pending
  | bound
  | coasting
  | unmatched
  | fault
  deriving DecidableEq, Repr

/-- The kind of pass that made a binding (R138). -/
inductive Via where
  | search
  | byRecall
  deriving DecidableEq, Repr

/-- The binding record (R138). Its coast field is the tracker's coast counter. -/
structure Binding where
  slot : SlotIx
  generation : Byte
  via : Via
  ambiguity : Nat
  candidates : List SlotIx
  overflow : Bool
  deriving DecidableEq, Repr

/-- The recall reference (R145). -/
structure Recall where
  slot : SlotIx
  generation : Byte
  deriving DecidableEq, Repr

/-- The eight release reasons (R147). -/
inductive Reason where
  | signalLost
  | deviated
  | entryEdited
  | entryRetired
  | hostRebind
  | fault
  | inputDisabled
  | coreRestart
  deriving DecidableEq, Repr

/-- The last-loss record (R144). -/
structure LastLoss where
  reason : Reason
  slot : SlotIx
  generation : Byte
  deriving DecidableEq, Repr

/-- What a tracker holds (R108). `lossTick` is the model's own: the tick of the result whose release
wrote the last-loss record, and absent where another release wrote it (R105, assumption log 31). -/
structure Tracker where
  state : TrackerState
  held : Option MeasSet
  settleRef : Option MeasSet
  settleCounter : Nat
  coast : Nat
  binding : Option Binding
  recallRef : Option Recall
  recheck : Bool
  latch : FaultSet
  lastLoss : Option LastLoss
  lossTick : Option Nat
  reqSeq : Byte
  deriving DecidableEq, Repr

/-- An input's configuration (R136). -/
structure InputConfig where
  enabled : Bool
  settle : BitVec 4
  budget : BitVec 4
  glitch : BitVec 4
  enables : FaultSet
  deriving DecidableEq, Repr

/-- One input: its two pins, its configuration, its measurement unit and its tracker. -/
structure Input where
  hPin : Level
  vPin : Level
  config : InputConfig
  unit : MeasUnit
  tracker : Tracker
  deriving DecidableEq, Repr

/-! ### The command mailbox (chapter 8) -/

/-- The mailbox states. -/
inductive MailboxState where
  | empty
  | held
  | waiting
  | done
  deriving DecidableEq, Repr

/-- The nine result codes (R163). -/
inductive ResultCode where
  | ok
  | noMatch
  | badCommand
  | badSlot
  | badInput
  | badState
  | badRecord
  | duplicateTag
  | notFound
  deriving DecidableEq, Repr

/-- The accepted command copy (R153, R155). The image is present for a COMMIT. -/
structure Accepted where
  code : Byte
  args : Vector Byte 8
  image : Option (Vector Byte 32)
  deriving DecidableEq, Repr

/-- The mailbox (R154). -/
structure Mailbox where
  state : MailboxState
  command : Byte
  args : Vector Byte 8
  accepted : Option Accepted
  result : Option ResultCode
  data : Vector Byte 21
  deriving DecidableEq, Repr

/-! ### The notice unit (chapter 9) -/

/-- The six per-input notices (R183). -/
inductive InputNotice where
  | acquired
  | bound
  | lost
  | disrupt
  | unmatched
  | fault
  deriving DecidableEq, Repr

/-- The three global notices (R184). -/
inductive GlobalNotice where
  | mailboxDone
  | mailboxOverrun
  | gate
  deriving DecidableEq, Repr

/-- Flags and masks, as the bits of their window positions (R206). A set mask bit masks. -/
structure Notices where
  flags : Vector (BitVec 6) 6
  masks : Vector (BitVec 6) 6
  globalFlags : BitVec 3
  globalMasks : BitVec 3
  deriving DecidableEq, Repr

/-! ### The host port (chapter 10) -/

/-- The records a view can name (R200). -/
inductive ViewRecord where
  | catalogEntry (i : SlotIx)
  | inputStatus (n : InputIx)
  | measurement (n : InputIx)
  deriving DecidableEq, Repr

/-- Where a serial transaction stands (R193 to R196, assumption log 12). -/
inductive BusPhase where
  /-- No transaction. -/
  | idle
  /-- Another address was named: the port drives nothing. -/
  | ignoring
  /-- A write; the next data byte is the pointer byte. -/
  | pointerNext
  /-- A write; the next data byte goes to the byte at the pointer. -/
  | dataNext
  /-- A read; `b` is being sent from the position at the pointer. -/
  | sending (b : Byte)
  /-- A read that the host has not-acknowledged. -/
  | released
  deriving DecidableEq, Repr

/-- The host port. -/
structure Port where
  address : BitVec 7
  pointer : Byte
  staging : Vector Byte 32
  viewKind : Byte
  viewIndex : Byte
  snapshot : Vector Byte 63
  follows : Option ViewRecord
  since : Bool
  bus : BusPhase
  acked : Bool
  deriving DecidableEq, Repr

/-- The block. `pending` is the queue of commands, first in first out; `freeIndex` picks the next
free value (assumption log 8). -/
structure State where
  pending : List Instr
  catalog : Catalog
  classifier : Classifier
  inputs : Vector Input 6
  mailbox : Mailbox
  notices : Notices
  port : Port
  freeIndex : Nat
  deriving DecidableEq, Repr

/-! ### Power-on reset -/

/-- No fault kind. -/
def noFaults : FaultSet := { noise := false, shortFrame := false, polarityFlip := false }

/-- A measurement unit after power-on reset (R92). The passed levels of the filters, which hold
nothing, are a DESIGN CHOICE (assumption log 10). -/
def resetUnit : MeasUnit :=
  { state := .off
    hFilter := { passed := .low, waiting := none }
    vFilter := { passed := .low, waiting := none }
    hRef := .negative
    vRef := .negative
    lastHEdge := none
    prevHEdge := none
    line := none
    gainLines := []
    ring := []
    shortLines := []
    lineCounter := 0
    vQuiet := 4096
    sepRun := 0
    sepArmed := true
    runStart := none
    period := none
    halfLineRef := none
    setSeq := 0
    lastSet := none }

/-- A tracker after power-on reset (R136). -/
def resetTracker : Tracker :=
  { state := .idle, held := none, settleRef := none, settleCounter := 0, coast := 0,
    binding := none, recallRef := none, recheck := false, latch := noFaults, lastLoss := none,
    lossTick := none, reqSeq := 0 }

/-- The configuration defaults (R136). -/
def resetConfig : InputConfig :=
  { enabled := false, settle := 3, budget := 2, glitch := 4,
    enables := { noise := true, shortFrame := true, polarityFlip := true } }

/-- An input after power-on reset. The pin levels are a DESIGN CHOICE (assumption log 10). -/
def resetInput : Input :=
  { hPin := .low, vPin := .low, config := resetConfig, unit := resetUnit, tracker := resetTracker }

/-- The catalog after power-on reset (R26). -/
def resetCatalog : Catalog :=
  { slots := Vector.replicate 64 freeSlotValue, occupancy := 0, tagMap := [] }

/-- The classifier after power-on reset (R68), and after a core restart (R67). -/
def resetClassifier : Classifier :=
  { requests := Vector.replicate 7 none, pointer := 0, pass := none, gate := .opened,
    endTick := none }

/-- The mailbox after power-on reset (R180). -/
def resetMailbox : Mailbox :=
  { state := .empty, command := 0, args := Vector.replicate 8 0, accepted := none,
    result := none, data := Vector.replicate 21 0 }

/-- The notice unit after power-on reset (R192): flags clear, masks set. -/
def resetNotices : Notices :=
  { flags := Vector.replicate 6 0, masks := Vector.replicate 6 0x3F, globalFlags := 0,
    globalMasks := 7 }

/-- The serial address ADR selects (R193). -/
def addressOfAdr : Level → BitVec 7
  | .low => 0x3A
  | .high => 0x3B

/-- The host port after power-on reset (R204). No transaction is in progress (assumption log 12). -/
def resetPort (adr : Level) : Port :=
  { address := addressOfAdr adr, pointer := 0, staging := Vector.replicate 32 0, viewKind := 0,
    viewIndex := 0, snapshot := Vector.replicate 63 0, follows := some (.catalogEntry 0),
    since := false, bus := .idle, acked := false }

/-- The block right after power-on reset, with ADR low (assumption log 11). -/
def State.reset : State :=
  { pending := []
    catalog := resetCatalog
    classifier := resetClassifier
    inputs := Vector.replicate 6 resetInput
    mailbox := resetMailbox
    notices := resetNotices
    port := resetPort .low
    freeIndex := 0 }

end Sys2Proof.Machine
end

