-- ==== Sys2Proof/Machine/Ops.lean ====
section
/-! DEFINITION. Named reads and updates of the state. The other files of the machine touch the
records of the state through these. -/

namespace Sys2Proof.Machine

/-- The outcome of a step of this block. -/
abbrev Outcome := Host.Outcome State Fault Refusal

/-- Every input, in index order. -/
def allInputs : List InputIx := [0, 1, 2, 3, 4, 5]

/-- The request slot of an input: slots 0..5 belong to inputs 0..5 (R47). -/
def inputRequester (n : InputIx) : Requester := n.castSucc

/-- The request slot of the probe (R47). -/
def probeRequester : Requester := 6

/-- The input of a requester, absent for the probe. -/
def requesterInput (r : Requester) : Option InputIx :=
  if h : r.val < 6 then some ⟨r.val, h⟩ else none

/-- A vector with `f` applied to every element. -/
def mapVec {α β : Type} {n : Nat} (f : α → β) (v : Vector α n) : Vector β n :=
  ⟨⟨v.toArray.toList.map f⟩, by simp⟩

/-! ### Inputs -/

/-- Input `n`. -/
def State.input (s : State) (n : InputIx) : Input := s.inputs[n]

/-- The tracker of input `n`. -/
def State.tracker (s : State) (n : InputIx) : Tracker := (s.input n).tracker

/-- The measurement unit of input `n`. -/
def State.unit (s : State) (n : InputIx) : MeasUnit := (s.input n).unit

/-- The configuration of input `n`. -/
def State.config (s : State) (n : InputIx) : InputConfig := (s.input n).config

/-- `s` with input `n` replaced. -/
def State.withInput (s : State) (n : InputIx) (x : Input) : State :=
  { s with inputs := s.inputs.set n x }

/-- `s` with the tracker of input `n` replaced. -/
def State.withTracker (s : State) (n : InputIx) (t : Tracker) : State :=
  s.withInput n { s.input n with tracker := t }

/-- `s` with the measurement unit of input `n` replaced. -/
def State.withUnit (s : State) (n : InputIx) (u : MeasUnit) : State :=
  s.withInput n { s.input n with unit := u }

/-- `s` with the configuration of input `n` replaced. -/
def State.withConfig (s : State) (n : InputIx) (c : InputConfig) : State :=
  s.withInput n { s.input n with config := c }

/-- The level of a pin of input `n`. -/
def State.pinLevel (s : State) (n : InputIx) : Pin → Level
  | .h => (s.input n).hPin
  | .v => (s.input n).vPin

/-- `s` with a pin of input `n` at a level. -/
def State.withPin (s : State) (n : InputIx) (pin : Pin) (level : Level) : State :=
  match pin with
  | .h => s.withInput n { s.input n with hPin := level }
  | .v => s.withInput n { s.input n with vPin := level }

/-! ### Catalog -/

/-- Slot `i` of the catalog. -/
def State.slot (s : State) (i : SlotIx) : Slot := s.catalog.slots[i]

/-- `s` with the catalog replaced. -/
def State.withCatalog (s : State) (c : Catalog) : State := { s with catalog := c }

/-- `s` with slot `i` replaced. -/
def State.withSlot (s : State) (i : SlotIx) (x : Slot) : State :=
  s.withCatalog { s.catalog with slots := s.catalog.slots.set i x }

/-! ### Classifier -/

/-- `s` with the classifier replaced. -/
def State.withClassifier (s : State) (c : Classifier) : State := { s with classifier := c }

/-- The request waiting in slot `r`. -/
def State.request (s : State) (r : Requester) : Option Request := s.classifier.requests[r]

/-- `s` with the contents of request slot `r` replaced. -/
def State.withRequest (s : State) (r : Requester) (q : Option Request) : State :=
  s.withClassifier { s.classifier with requests := s.classifier.requests.set r q }

/-- `s` with the pass record replaced. -/
def State.withPass (s : State) (p : Option Pass) : State :=
  s.withClassifier { s.classifier with pass := p }

/-! ### Mailbox, notices, port -/

/-- `s` with the mailbox replaced. -/
def State.withMailbox (s : State) (m : Mailbox) : State := { s with mailbox := m }

/-- `s` with the notice unit replaced. -/
def State.withNotices (s : State) (x : Notices) : State := { s with notices := x }

/-- `s` with the host port replaced. -/
def State.withPort (s : State) (p : Port) : State := { s with port := p }

/-- The free value in use has been read; the next use takes the next one. -/
def State.nextFree (s : State) : State := { s with freeIndex := s.freeIndex + 1 }

end Sys2Proof.Machine
end

