-- ==== Sys2Proof/Machine/Flags.lean ====
section
/-! DEFINITION. Levels, polarities, sets of fault kinds, notice flags and masks, and what is derived
from them: the input summary and ATN#. -/

namespace Sys2Proof.Machine

/-- The other level of a pin. -/
def otherLevel : Level → Level
  | .low => .high
  | .high => .low

/-- The other polarity. -/
def otherPolarity : Polarity → Polarity
  | .negative => .positive
  | .positive => .negative

/-- The active level of a reference polarity: an active edge falls under NEGATIVE and rises under
POSITIVE (R74, R85). -/
def activeLevel : Polarity → Level
  | .negative => .low
  | .positive => .high

/-! ### Fault kinds -/

/-- Whether a set of fault kinds holds a kind. -/
def FaultSet.has (f : FaultSet) : FaultKind → Bool
  | .noise => f.noise
  | .shortFrame => f.shortFrame
  | .polarityFlip => f.polarityFlip

/-- A set of fault kinds with one kind added. -/
def FaultSet.add (f : FaultSet) : FaultKind → FaultSet
  | .noise => { f with noise := true }
  | .shortFrame => { f with shortFrame := true }
  | .polarityFlip => { f with polarityFlip := true }

/-- Whether a set holds no kind. -/
def FaultSet.isEmpty (f : FaultSet) : Bool := !f.noise && !f.shortFrame && !f.polarityFlip

/-- The byte of a set: bit 0 NOISE, 1 SHORT_FRAME, 2 POLARITY_FLIP (R206, R210). -/
def FaultSet.toByte (f : FaultSet) : Byte :=
  BitVec.ofNat 8 (f.noise.toNat + 2 * f.shortFrame.toNat + 4 * f.polarityFlip.toNat)

/-- The set a byte gives; the other bits are discarded (R197, R206). -/
def faultSetOfByte (b : Byte) : FaultSet :=
  { noise := b.getLsbD 0, shortFrame := b.getLsbD 1, polarityFlip := b.getLsbD 2 }

/-! ### Notices -/

/-- The bit of a per-input notice (R206). -/
def inputNoticeBit : InputNotice → BitVec 6
  | .acquired => 0x01
  | .bound => 0x02
  | .lost => 0x04
  | .disrupt => 0x08
  | .unmatched => 0x10
  | .fault => 0x20

/-- The bit of a global notice (R206). -/
def globalNoticeBit : GlobalNotice → BitVec 3
  | .mailboxDone => 1
  | .mailboxOverrun => 2
  | .gate => 4

/-- Sets a per-input notice (R182, R183). -/
def State.setNotice (s : State) (n : InputIx) (k : InputNotice) : State :=
  s.withNotices
    { s.notices with flags := s.notices.flags.set n (s.notices.flags[n] ||| inputNoticeBit k) }

/-- Sets a global notice (R182, R184). -/
def State.setGlobalNotice (s : State) (k : GlobalNotice) : State :=
  s.withNotices { s.notices with globalFlags := s.notices.globalFlags ||| globalNoticeBit k }

/-- Whether a per-input notice is set. -/
def State.hasNotice (s : State) (n : InputIx) (k : InputNotice) : Bool :=
  s.notices.flags[n] &&& inputNoticeBit k != 0

/-- Whether a global notice is set. -/
def State.hasGlobalNotice (s : State) (k : GlobalNotice) : Bool :=
  s.notices.globalFlags &&& globalNoticeBit k != 0

/-- The indication of input `n` in the summary: some flag of the input is set, whatever the masks
(R188). -/
def summaryOf (x : Notices) (n : InputIx) : Bool := x.flags[n] != 0

/-- The summary byte, bit n for input n (R188, R206). -/
def summaryByte (x : Notices) : Byte :=
  allInputs.foldl (fun b n => if summaryOf x n then b ||| (1 <<< n.val) else b) 0

/-- ATN# is asserted exactly when some set flag has a clear mask (R189). -/
def atnAsserted (x : Notices) : Bool :=
  x.globalFlags &&& ~~~x.globalMasks != 0
    || allInputs.any fun n => x.flags[n] &&& ~~~x.masks[n] != 0

/-- Clears the flags of input `n` that are written with 1 (R185). -/
def clearInputNotices (n : InputIx) (value : Byte) (s : State) : State :=
  s.withNotices
    { s.notices with flags := s.notices.flags.set n (s.notices.flags[n] &&& ~~~value.setWidth 6) }

/-- Clears the global flags that are written with 1 (R185). -/
def clearGlobalNotices (value : Byte) (s : State) : State :=
  s.withNotices
    { s.notices with globalFlags := s.notices.globalFlags &&& ~~~value.setWidth 3 }

/-- Writes the masks of input `n`: 1 sets a mask and 0 clears it (R187). -/
def writeInputMasks (n : InputIx) (value : Byte) (s : State) : State :=
  s.withNotices { s.notices with masks := s.notices.masks.set n (value.setWidth 6) }

/-- Writes the global masks (R187). -/
def writeGlobalMasks (value : Byte) (s : State) : State :=
  s.withNotices { s.notices with globalMasks := value.setWidth 3 }

/-- The notices after a core restart, before its own completion: every flag clear but
MAILBOX_DONE, the masks kept (R191). -/
def restartNotices (x : Notices) : Notices :=
  { x with
    flags := Vector.replicate 6 0
    globalFlags := x.globalFlags &&& globalNoticeBit .mailboxDone }

end Sys2Proof.Machine
end

