-- ==== Sys2Proof/Machine/Operands.lean ====
section
/-! DEFINITION. Byte layouts (chapter 10): the positions of the register window, the entry image,
the command codes and arguments, the result data and the view snapshots. -/

namespace Sys2Proof.Machine

/-! ### Bytes -/

/-- The low byte of a quantity. -/
def loByte (x : Nat) : Byte := BitVec.ofNat 8 x

/-- The high byte of a two-byte quantity. -/
def hiByte (x : Nat) : Byte := BitVec.ofNat 8 (x / 256)

/-- The two bytes of a field, low byte first (R198). -/
def wordBytes (x : Nat) : List Byte := [loByte x, hiByte x]

/-- A byte of a buffer, zero past its end. -/
def byteAt {k : Nat} (v : Vector Byte k) (i : Nat) : Byte := v[i]?.getD 0

/-- A byte of a buffer as a number. -/
def numAt {k : Nat} (v : Vector Byte k) (i : Nat) : Nat := (byteAt v i).toNat

/-- A two-byte field of a buffer, low byte first (R198). -/
def wordAt {k : Nat} (v : Vector Byte k) (i : Nat) : Nat := numAt v i + 256 * numAt v (i + 1)

/-- Two bits of a byte, from bit `lo` up. -/
def twoBits (b : Byte) (lo : Nat) : Nat := b.toNat / 2 ^ lo % 4

/-- A list of bytes as a buffer of `k` bytes, filled up with zeros. -/
def padTo (k : Nat) (l : List Byte) : Vector Byte k := ⟨⟨(l ++ List.replicate k 0).take k⟩, by simp⟩

/-! ### Positions of the register window (R206) -/

/-- The owner of a position, by the table of R206. -/
inductive Pos where
  | identity
  | revision
  | globalNotices
  | globalMasks
  | summary
  | viewKind
  | viewIndex
  | occupancy
  | classifierStatus
  | notices (n : InputIx)
  | masks (n : InputIx)
  | enable (n : InputIx)
  | settleCoast (n : InputIx)
  | glitch (n : InputIx)
  | faultEnables (n : InputIx)
  | command
  | mailboxState
  | argument (k : Fin 8)
  | resultCode
  | resultData (k : Fin 21)
  | staging (k : Fin 32)
  | view (k : Fin 63)
  | sinceLatch
  | unassigned
  deriving DecidableEq, Repr

/-- The position of input `n`'s notices or masks, two bytes per input from 0x10. -/
def noticePos (n : InputIx) (r : Nat) : Pos := if r = 0 then .notices n else .masks n

/-- The position of input `n`'s configuration, four bytes per input from 0x20. -/
def configPos (n : InputIx) (r : Nat) : Pos :=
  if r = 0 then .enable n
  else if r = 1 then .settleCoast n
  else if r = 2 then .glitch n
  else .faultEnables n

/-- What stands at an offset of the register window (R206). -/
def windowPos (pointer : Byte) : Pos :=
  let p := pointer.toNat
  if p = 0x00 then .identity
  else if p = 0x01 then .revision
  else if p = 0x02 then .globalNotices
  else if p = 0x03 then .globalMasks
  else if p = 0x04 then .summary
  else if p = 0x05 then .viewKind
  else if p = 0x06 then .viewIndex
  else if p = 0x07 then .occupancy
  else if p = 0x08 then .classifierStatus
  else if p < 0x10 then .unassigned
  else if h : p < 0x1C then noticePos ⟨(p - 0x10) / 2, by omega⟩ ((p - 0x10) % 2)
  else if p < 0x20 then .unassigned
  else if h : p < 0x38 then configPos ⟨(p - 0x20) / 4, by omega⟩ ((p - 0x20) % 4)
  else if p < 0x40 then .unassigned
  else if p = 0x40 then .command
  else if p = 0x41 then .mailboxState
  else if h : p < 0x4A then .argument ⟨p - 0x42, by omega⟩
  else if p = 0x4A then .resultCode
  else if h : p < 0x60 then .resultData ⟨p - 0x4B, by omega⟩
  else if h : p < 0x80 then .staging ⟨p - 0x60, by omega⟩
  else if h : p < 0xBF then .view ⟨p - 0x80, by omega⟩
  else if p = 0xBF then .sinceLatch
  else .unassigned

/-! ### Codes -/

/-- Slot states in a byte (R208). -/
def slotStateCode : SlotState → Byte
  | .free => 0
  | .active => 1
  | .suspended => 2

/-- Tracker states in a byte (R210). -/
def trackerStateCode : TrackerState → Byte
  | .idle => 0
  | .silent => 1
  | .settling => 2
  | .pending => 3
  | .bound => 4
  | .coasting => 5
  | .unmatched => 6
  | .fault => 7

/-- Mailbox states in a byte (R206). -/
def mailboxStateCode : MailboxState → Byte
  | .empty => 0
  | .held => 1
  | .waiting => 2
  | .done => 3

/-- Release reasons in a byte (R210). -/
def reasonCode : Reason → Byte
  | .signalLost => 1
  | .deviated => 2
  | .entryEdited => 3
  | .entryRetired => 4
  | .hostRebind => 5
  | .fault => 6
  | .inputDisabled => 7
  | .coreRestart => 8

/-- Result codes in a byte (R207). -/
def resultCodeByte : ResultCode → Byte
  | .ok => 1
  | .noMatch => 2
  | .badCommand => 3
  | .badSlot => 4
  | .badInput => 5
  | .badState => 6
  | .badRecord => 7
  | .duplicateTag => 8
  | .notFound => 9

/-- The twelve commands of the mailbox (R156). -/
inductive Command where
  | commit
  | fetchEntry
  | suspend
  | resume
  | retire
  | clearCatalog
  | findTag
  | probe
  | rebind
  | clearFault
  | restartCore
  | nop
  deriving DecidableEq, Repr

/-- The code of a command (R207). -/
def commandCode : Command → Byte
  | .commit => 0x01
  | .fetchEntry => 0x02
  | .suspend => 0x03
  | .resume => 0x04
  | .retire => 0x05
  | .clearCatalog => 0x06
  | .findTag => 0x07
  | .probe => 0x08
  | .rebind => 0x09
  | .clearFault => 0x0A
  | .restartCore => 0x0B
  | .nop => 0x0C

/-- The command a code names, if any (R179, R207). -/
def commandOfCode (code : Byte) : Option Command :=
  [Command.commit, .fetchEntry, .suspend, .resume, .retire, .clearCatalog, .findTag, .probe,
    .rebind, .clearFault, .restartCore, .nop].find? fun c => commandCode c == code

/-- The classifier status byte (R207). -/
def classifierStatus (c : Classifier) : Byte :=
  let gate : Nat := match c.gate with | .opened => 0 | .closed => 2
  match c.pass with
  | some p => BitVec.ofNat 8 (1 + gate + 16 * p.requester.val)
  | none => BitVec.ofNat 8 (gate + 16 * 7)

/-! ### The entry image (R208, R209) -/

/-- A polarity constraint: 0 ANY, 1 POSITIVE, 2 NEGATIVE (R209). -/
def polarityCode : Option Polarity → Nat
  | none => 0
  | some .positive => 1
  | some .negative => 2

/-- A scan constraint: 0 ANY, 1 PROGRESSIVE, 2 INTERLACED (R209). -/
def scanCode : Option Scan → Nat
  | none => 0
  | some .progressive => 1
  | some .interlaced => 2

/-- A sync_form constraint: 0 ANY, 1 SEPARATE, 2 COMPOSITE (R209). -/
def formCode : Option SyncForm → Nat
  | none => 0
  | some .separate => 1
  | some .composite => 2

/-- The polarity constraint of a two-bit field. -/
def polarityOf (c : Nat) : Option Polarity :=
  if c = 1 then some .positive else if c = 2 then some .negative else none

/-- The scan constraint of a two-bit field. -/
def scanOf (c : Nat) : Option Scan :=
  if c = 1 then some .progressive else if c = 2 then some .interlaced else none

/-- The sync_form constraint of a two-bit field. -/
def formOf (c : Nat) : Option SyncForm :=
  if c = 1 then some .separate else if c = 2 then some .composite else none

/-- The bounds of an optional window, zero while it is absent (R2). -/
def windowBounds (w : Option Window) : Window := w.getD ⟨0, 0⟩

/-- The fields of the presentation block, zero while it is absent (R3). -/
def presentationFields (p : Option Presentation) : Presentation := p.getD ⟨0, 0, 0, 0, 0⟩

/-- The 32 bytes of a non-FREE slot (R208). -/
def entryImage (x : Slot) : List Byte :=
  let e := x.entry
  let hw := windowBounds e.hWidth
  let vw := windowBounds e.vWidth
  let p := presentationFields e.presentation
  [slotStateCode x.state, x.generation, loByte x.bindCount, loByte e.rank]
    ++ wordBytes e.tag ++ wordBytes e.hPeriod.min ++ wordBytes e.hPeriod.max
    ++ wordBytes e.vLines.min ++ wordBytes e.vLines.max
    ++ [loByte (e.hWidth.isSome.toNat + 4 * e.vWidth.isSome.toNat
          + 16 * e.presentation.isSome.toNat),
        loByte (polarityCode e.hPolarity + 4 * polarityCode e.vPolarity + 16 * scanCode e.scan
          + 64 * formCode e.form)]
    ++ wordBytes hw.min ++ wordBytes hw.max ++ [loByte vw.min, loByte vw.max]
    ++ wordBytes p.totalPx ++ wordBytes p.activePx ++ wordBytes p.activeLines
    ++ wordBytes p.firstPx ++ wordBytes p.firstLine

/-- The image of a slot: a FREE slot reads zero throughout (R1, R24). -/
def slotImage (x : Slot) : List Byte :=
  match x.state with
  | .free => List.replicate 32 0
  | .active | .suspended => entryImage x

/-- The presence field of a staged image at bit `lo` of byte 14 (R209). -/
def presenceAt (img : Vector Byte 32) (lo : Nat) : Nat := twoBits (byteAt img 14) lo

/-- The constraint field of a staged image at bit `lo` of byte 15 (R209). -/
def constraintAt (img : Vector Byte 32) (lo : Nat) : Nat := twoBits (byteAt img 15) lo

/-- The entry a staged image holds (R208, R209). -/
def stagedEntry (img : Vector Byte 32) : Entry :=
  { tag := wordAt img 4
    rank := numAt img 3
    hPeriod := ⟨wordAt img 6, wordAt img 8⟩
    vLines := ⟨wordAt img 10, wordAt img 12⟩
    hWidth := if presenceAt img 0 = 1 then some ⟨wordAt img 16, wordAt img 18⟩ else none
    vWidth := if presenceAt img 2 = 1 then some ⟨numAt img 20, numAt img 21⟩ else none
    hPolarity := polarityOf (constraintAt img 0)
    vPolarity := polarityOf (constraintAt img 2)
    scan := scanOf (constraintAt img 4)
    form := formOf (constraintAt img 6)
    presentation :=
      if presenceAt img 4 = 1 then
        some { totalPx := wordAt img 22, activePx := wordAt img 24, activeLines := wordAt img 26,
               firstPx := wordAt img 28, firstLine := wordAt img 30 }
      else none }

/-- Whether a value lies in a range. -/
def within (lo hi x : Nat) : Bool := lo ≤ x && x ≤ hi

/-- A window whose bounds lie in a range and in order. -/
def windowOk (lo hi : Nat) (w : Window) : Bool :=
  within lo hi w.min && within lo hi w.max && w.min ≤ w.max

/-- The field checks of a commit in the order of R10: each code with whether its check fails. The
block checks 12 to 16 look at the block only when it is present. -/
def fieldChecks (img : Vector Byte 32) : List (Nat × Bool) :=
  let block := presenceAt img 4 = 1
  let totalPx := wordAt img 22
  let activePx := wordAt img 24
  [ (1, wordAt img 4 = 0),
    (2, 15 < numAt img 3),
    (3, !windowOk 1280 65528 ⟨wordAt img 6, wordAt img 8⟩),
    (4, !windowOk 16 4095 ⟨wordAt img 10, wordAt img 12⟩),
    (5, 1 < presenceAt img 0 || (presenceAt img 0 = 1 && wordAt img 18 < wordAt img 16)),
    (6, 1 < presenceAt img 2 || (presenceAt img 2 = 1 && numAt img 21 < numAt img 20)),
    (7, constraintAt img 0 = 3),
    (8, constraintAt img 2 = 3),
    (9, constraintAt img 4 = 3),
    (10, constraintAt img 6 = 3),
    (11, 1 < presenceAt img 4),
    (12, block && !within 1 8191 totalPx),
    (13, block && !within 1 totalPx activePx),
    (14, block && !within 1 4095 (wordAt img 26)),
    (15, block && totalPx - activePx < wordAt img 28),
    (16, block && 4095 < wordAt img 30) ]

/-- The field code of the first failing check, if any (R10). -/
def fieldFailure (img : Vector Byte 32) : Option Nat :=
  ((fieldChecks img).find? fun c => c.2).map Prod.fst

/-! ### Mailbox arguments and result data (R171, R210) -/

/-- The probe set of the arguments (R171, R210). -/
def probeSet (args : Vector Byte 8) : SyncSet :=
  let flags := byteAt args 7
  { hPeriod := wordAt args 0
    hWidth := wordAt args 2
    vLines := wordAt args 4
    vWidth := numAt args 6
    hPolarity := if flags.getLsbD 0 then .positive else .negative
    vPolarity := if flags.getLsbD 1 then .positive else .negative
    scan := if flags.getLsbD 2 then .interlaced else .progressive
    form := if flags.getLsbD 3 then .composite else .separate }

/-- The checks of PROBE in the order of R171. -/
def probeChecks (args : Vector Byte 8) : List (Nat × Bool) :=
  [ (1, !within 1280 65528 (wordAt args 0)),
    (2, wordAt args 0 ≤ wordAt args 2),
    (3, !within 16 4095 (wordAt args 4)),
    (4, 15 < numAt args 7) ]

/-- The field code of the first failing check of a probe set, if any (R171). -/
def probeFailure (args : Vector Byte 8) : Option Nat :=
  ((probeChecks args).find? fun c => c.2).map Prod.fst

/-- The slot argument: 0..63 names a slot (R9). -/
def slotArg (args : Vector Byte 8) : Option SlotIx :=
  if h : numAt args 0 < 64 then some ⟨numAt args 0, h⟩ else none

/-- The input argument: 0..5 names an input (R174). -/
def inputArg (args : Vector Byte 8) : Option InputIx :=
  if h : numAt args 0 < 6 then some ⟨numAt args 0, h⟩ else none

/-- A slot index as a byte. -/
def slotByte (i : SlotIx) : Byte := loByte i.val

/-- An input index as a byte. -/
def inputByte (n : InputIx) : Byte := loByte n.val

/-- A set of inputs, bit n for input n (R210). -/
def inputSetByte (l : List InputIx) : Byte :=
  l.foldl (fun b n => b ||| (1 <<< n.val)) 0

/-- A truth value as a byte. -/
def boolByte (b : Bool) : Byte := if b then 1 else 0

/-- Four bytes that hold a candidate list; positions past its end read 0 (R210, R211). -/
def candidateBytes (l : List SlotIx) : List Byte :=
  (l.map slotByte ++ [0, 0, 0, 0]).take 4

/-! ### View snapshots (R210) -/

/-- What an INPUT_STATUS view shows of a tracker (R134). -/
structure StatusRecord where
  state : TrackerState
  settleCounter : Nat
  coast : Nat
  latch : FaultSet
  binding : Option Binding
  lastLoss : Option LastLoss
  recallRef : Option Recall
  deriving DecidableEq, Repr

/-- What a view shows (R200). -/
inductive ShownRecord where
  | entry (x : Slot)
  | status (x : StatusRecord)
  | measured (x : Option MeasSet)
  deriving DecidableEq, Repr

/-- The status record of a tracker (R134). -/
def statusRecord (t : Tracker) : StatusRecord :=
  { state := t.state, settleCounter := t.settleCounter, coast := t.coast, latch := t.latch,
    binding := t.binding, lastLoss := t.lastLoss, recallRef := t.recallRef }

/-- The record a view names, as it stands (R201). -/
def shownRecord (s : State) : ViewRecord → ShownRecord
  | .catalogEntry i => .entry (s.slot i)
  | .inputStatus n => .status (statusRecord (s.tracker n))
  | .measurement n => .measured (s.unit n).lastSet

/-- The set flags (R210). -/
def setFlagsByte (m : MeasSet) : Byte :=
  let h : Nat := if m.sync.hPolarity = .positive then 1 else 0
  let v : Nat := if m.sync.vPolarity = .positive then 2 else 0
  let i : Nat := if m.sync.scan = .interlaced then 4 else 0
  let c : Nat := if m.sync.form = .composite then 8 else 0
  loByte (h + v + i + c + 16 * m.halfLine.toNat + 32 * m.noiseSeen.toNat)

/-- The bytes of a MEASUREMENT snapshot from 0x82 (R210). -/
def measurementBytes : Option MeasSet → List Byte
  | none => []
  | some m =>
    [1, m.seq] ++ wordBytes m.sync.hPeriod ++ wordBytes m.sync.hWidth ++ wordBytes m.sync.vLines
      ++ [loByte m.sync.vWidth, setFlagsByte m]

/-- The bytes of the binding record in an INPUT_STATUS snapshot, 0x86 to 0x90. -/
def bindingBytes : Option Binding → List Byte
  | none => List.replicate 11 0
  | some b =>
    [1, slotByte b.slot, b.generation, boolByte (b.via == .byRecall), loByte b.ambiguity,
      boolByte b.overflow, loByte b.candidates.length] ++ candidateBytes b.candidates

/-- The bytes of the last-loss record, 0x91 to 0x94. -/
def lastLossBytes : Option LastLoss → List Byte
  | none => [0, 0, 0, 0]
  | some l => [1, reasonCode l.reason, slotByte l.slot, l.generation]

/-- The bytes of the recall reference, 0x95 to 0x97. -/
def recallBytes : Option Recall → List Byte
  | none => [0, 0, 0]
  | some r => [1, slotByte r.slot, r.generation]

/-- The bytes of an INPUT_STATUS snapshot from 0x82 (R210). -/
def statusBytes (x : StatusRecord) : List Byte :=
  [trackerStateCode x.state, loByte x.settleCounter, loByte x.coast, x.latch.toByte]
    ++ bindingBytes x.binding ++ lastLossBytes x.lastLoss ++ recallBytes x.recallRef

/-- The body of a snapshot, from 0x82. -/
def shownBytes : ShownRecord → List Byte
  | .entry x => slotImage x
  | .status x => statusBytes x
  | .measured m => measurementBytes m

/-- The first two bytes of a snapshot: the kind and the index latched (R210). -/
def viewHeader : ViewRecord → List Byte
  | .catalogEntry i => [0, slotByte i]
  | .inputStatus n => [1, inputByte n]
  | .measurement n => [2, inputByte n]

/-- The record a selector names; absent when the selector is bad (R201). -/
def selectedRecord (kind index : Byte) : Option ViewRecord :=
  if kind = 0 then (if h : index.toNat < 64 then some (.catalogEntry ⟨index.toNat, h⟩) else none)
  else if kind = 1 then (if h : index.toNat < 6 then some (.inputStatus ⟨index.toNat, h⟩) else none)
  else if kind = 2 then (if h : index.toNat < 6 then some (.measurement ⟨index.toNat, h⟩) else none)
  else none

/-- The snapshot of a record; for a bad selector, zeros with the mark in the first byte (R201). -/
def snapshotOf (s : State) : Option ViewRecord → Vector Byte 63
  | none => padTo 63 [0x80]
  | some r => padTo 63 (viewHeader r ++ shownBytes (shownRecord s r))

end Sys2Proof.Machine
end

