-- ==== Sys2Proof/Machine/Measure.lean ====
section
/-! DEFINITION. The measurement unit (chapter 4) and the detection of measurement faults
(chapter 5): functions of one unit, which answer the unit after an event and what it reports to
its tracker, in the order in which it reports it. -/

namespace Sys2Proof.Machine

/-- A unit after an event, with its reports. -/
abbrev Measured := MeasUnit × List Report

/-! ### Small readings of a unit -/

/-- Horizontal activity is present (UNPRIMED, PRIMING or PUBLISHING). -/
def isRunning (u : MeasUnit) : Bool :=
  match u.state with
  | .off | .quiet => false
  | .unprimed | .priming | .publishing => true

/-- The vertical source: the V pin while its quiet counter is below 4096 (R84). -/
def vSourceOf (u : MeasUnit) : VSource := if u.vQuiet < 4096 then .vPin else .separator

/-- The sum of the eight periods: the average period in eighths of a tick (R80, R81). -/
def ringPeriods (u : MeasUnit) : Nat := (u.ring.map Line.period).sum

/-- The sum of the eight widths (R81). -/
def ringWidths (u : MeasUnit) : Nat := (u.ring.map Line.width).sum

/-- The detected polarity of the newest line of the ring (R81). -/
def ringPolarity (u : MeasUnit) : Polarity :=
  match u.ring.getLast? with
  | some l => l.polarity
  | none => u.hRef

/-- The filter of a pin. -/
def filterOf (u : MeasUnit) : Pin → PinFilter
  | .h => u.hFilter
  | .v => u.vFilter

/-- A unit with the filter of a pin replaced. -/
def withFilter (u : MeasUnit) (pin : Pin) (f : PinFilter) : MeasUnit :=
  match pin with
  | .h => { u with hFilter := f }
  | .v => { u with vFilter := f }

/-- A unit in which a transition waits in a pin's filter. -/
def withWaiting (u : MeasUnit) (pin : Pin) (w : Option Waiting) : MeasUnit :=
  withFilter u pin { filterOf u pin with waiting := w }

/-- The tick of a transition of the H pin into the active level that waits in its filter. The active
level is that of the reference as it stands now. R76 leaves open what a change of the reference
during the wait does (R77): DESIGN CHOICE (assumption log 33). -/
def waitingHEdge (u : MeasUnit) : Option Nat :=
  if otherLevel u.hFilter.passed = activeLevel u.hRef then u.hFilter.waiting.map Waiting.tick
  else none

/-! ### Discards, losses and the reference polarity -/

/-- What a disable, a CLEAR_FAULT, a loss of horizontal activity and a core restart discard: the
line in progress, the gain count, the ring, the short-line run, the line counter, the separator
run, the open period and the half-line reference; the separator becomes the source (R69, R70,
R76, R93). The time of the last accepted edge goes with them (DEDUCED, assumption log 9). -/
def discardMeasurement (u : MeasUnit) : MeasUnit :=
  { u with
    lastHEdge := none
    prevHEdge := none
    line := none
    gainLines := []
    ring := []
    shortLines := []
    lineCounter := 0
    vQuiet := 4096
    sepRun := 0
    sepArmed := true
    runStart := none
    period := none
    halfLineRef := none }

/-- Loss of horizontal activity (R76). -/
def loseHorizontal (u : MeasUnit) : Measured :=
  ({ discardMeasurement u with state := .quiet }, [.hLost])

/-- 8192 ticks without an accepted edge in QUIET: the gain count returns to 0 and the line in
progress is discarded (R78). -/
def gainTimeout (u : MeasUnit) : MeasUnit :=
  { u with gainLines := [], line := none, lastHEdge := none, prevHEdge := none }

/-- What 8192 ticks without an accepted horizontal edge do in each unit state (R76, R78). -/
def expireHorizontal (u : MeasUnit) : Measured :=
  match u.state with
  | .off => (u, [])
  | .quiet => (gainTimeout u, [])
  | .unprimed | .priming | .publishing => loseHorizontal u

/-- The horizontal reference becomes `p`; a change abandons the line in progress (R77). -/
def setHRef (p : Polarity) (u : MeasUnit) : MeasUnit :=
  if u.hRef = p then u else { u with hRef := p, line := none }

/-- Loss of vertical activity at the edge that closed a line of polarity `p` (R83). -/
def loseVertical (p : Polarity) (u : MeasUnit) : Measured :=
  (setHRef p
    { u with
      state := .unprimed
      period := none
      halfLineRef := none
      lineCounter := 0
      sepRun := 0
      sepArmed := true
      runStart := none },
   [.vLost])

/-! ### Rejections and NOISE -/

/-- A rejection: counted while a period is open, saturating at 255 (R73). The 32nd detects NOISE,
once in a period (R94, R95). -/
def countRejection (u : MeasUnit) : Measured :=
  match u.period with
  | none => (u, [])
  | some p =>
    let detects := p.rejections == 31 && !p.faults.noise
    ({ u with
        period := some
          { p with
            rejections := min 255 (p.rejections + 1)
            faults := if detects then p.faults.add .noise else p.faults } },
     if detects then [.detected .noise] else [])

/-! ### Vertical edges, periods and sets -/

/-- The offset of a V pin edge: the ticks from the last accepted horizontal edge before it (R88). A
horizontal edge that reached its pin later but was accepted earlier is not before it. -/
def vPinOffset (u : MeasUnit) (tick : Nat) : Nat :=
  match u.lastHEdge with
  | none => 0
  | some a =>
    if a ≤ tick then tick - a
    else match u.prevHEdge with
      | none => 0
      | some b => tick - b

/-- half_line: the offset lies within 3/8 to 5/8 of the ring's average period, both ends included
(R88). With the average in eighths, 3/8 of it is 3·sum/64 ticks. -/
def halfLineAt (u : MeasUnit) (offset : Nat) : Bool :=
  3 * ringPeriods u ≤ 64 * offset && 64 * offset ≤ 5 * ringPeriods u

/-- The edge opens a period (R87): counter, rejection count 0, empty record (R94), the opening
width not yet known. -/
def openPeriodAt (e : VEdge) (u : MeasUnit) : MeasUnit :=
  { u with
    lineCounter := e.newCount
    period := some
      { openTick := e.tick, width := none, rejections := 0, faults := noFaults,
        prevPolarity := none } }

/-- The opening width of a period at its closing edge (R85). Its pulse has ended by then; a pulse
that has not has lasted the whole period. -/
def openingWidth (p : OpenPeriod) (e : VEdge) : Nat := p.width.getD e.count

/-- The set composed for period `p` at its closing edge (R81, R88). -/
def composeSet (u : MeasUnit) (p : OpenPeriod) (e : VEdge) : MeasSet :=
  { seq := u.setSeq + 1
    sync :=
      { hPeriod := ringPeriods u
        hWidth := ringWidths u
        hPolarity := ringPolarity u
        vLines := e.count
        vWidth := min 255 (openingWidth p e)
        vPolarity := match e.source with | .vPin => u.vRef | .separator => ringPolarity u
        scan := if u.halfLineRef = some (halfLineAt u e.offset) then .progressive else .interlaced
        form := match e.source with | .vPin => .separate | .separator => .composite }
    halfLine := halfLineAt u e.offset
    noiseSeen := 1 ≤ p.rejections }

/-- The table of R99: a set is withheld for SHORT_FRAME and for POLARITY_FLIP. -/
def publishes (record : FaultSet) : Bool := !record.shortFrame && !record.polarityFlip

/-- The set becomes the last published set (R90). -/
def publishSet (m : MeasSet) (u : MeasUnit) : MeasUnit :=
  { u with setSeq := m.seq, lastSet := some m }

/-- The closing edge in PUBLISHING of a period of 16 lines or more whose vertical reference stands:
compose, publish or withhold, take the half-line and horizontal references from the set (R81, R88,
R89, R99), and open the next period. -/
def closeWithSet (record : FaultSet) (p : OpenPeriod) (e : VEdge) (u : MeasUnit) : Measured :=
  let m := composeSet u p e
  let referenced := setHRef m.sync.hPolarity { u with halfLineRef := some m.halfLine }
  if publishes record then (openPeriodAt e (publishSet m referenced), [.published m])
  else (openPeriodAt e referenced, [])

/-- The polarity check of R85: the opening pulse is longer than the rest of the period. -/
def referenceWrong (p : OpenPeriod) (e : VEdge) : Bool :=
  e.source == .vPin && e.count - openingWidth p e < openingWidth p e

/-- The vertical reference is inverted: no set, no half-line reference, UNPRIMED, no open period
(R85). -/
def invertVRef (u : MeasUnit) : MeasUnit :=
  { u with
    vRef := otherPolarity u.vRef
    state := .unprimed
    period := none
    halfLineRef := none
    lineCounter := 0 }

/-- A closing edge after the SHORT_FRAME test, in PRIMING or PUBLISHING (R87). -/
def closeTested (record : FaultSet) (p : OpenPeriod) (e : VEdge) (u : MeasUnit) : Measured :=
  if referenceWrong p e then (invertVRef u, [])
  else if e.count < 16 then (openPeriodAt e u, [])
  else if u.state = .publishing then closeWithSet record p e u
  else
    (openPeriodAt e { u with state := .publishing, halfLineRef := some (halfLineAt u e.offset) }, [])

/-- A closing edge: the SHORT_FRAME test first (R96), then the rest. -/
def closePeriod (p : OpenPeriod) (e : VEdge) (u : MeasUnit) : Measured :=
  if e.count < 16 then
    let r := closeTested (p.faults.add .shortFrame) p e u
    (r.1, .detected .shortFrame :: r.2)
  else closeTested p.faults p e u

/-- A vertical edge, by unit state (R87). -/
def verticalEdge (e : VEdge) (u : MeasUnit) : Measured :=
  match u.state with
  | .off | .quiet => (u, [])
  | .unprimed => (openPeriodAt e { u with state := .priming }, [])
  | .priming | .publishing =>
    match u.period with
    | some p => closePeriod p e u
    | none => (openPeriodAt e u, [])

/-! ### Lines -/

/-- A line in progress is closed by an edge at tick `t`: period, width, detected polarity and
whether it is broad (R75), with the facts of its opening edge for the separator (R86, R88). -/
def characterise (u : MeasUnit) (o : OpenLine) (t : Nat) : ClosedLine :=
  let period := t - o.openTick
  let active := (o.activeEnd.getD t) - o.openTick
  let idle := period - active
  { line :=
      { period := period
        width := if active = idle then period / 2 else min active idle
        polarity := if active ≤ idle then u.hRef else otherPolarity u.hRef }
    broad := period < 4 * active
    start :=
      { count := o.openCount
        tick := o.openTick
        offset := match u.prevHEdge with | none => 0 | some a => o.openTick - a } }

/-- A line is short when its period is less than three quarters of the ring's average (R75). -/
def isShort (u : MeasUnit) (l : Line) : Bool := 32 * l.period < 3 * ringPeriods u

/-- The line counter and the V pin quiet counter at an edge that closes a line (R82). -/
def countLine (u : MeasUnit) : MeasUnit :=
  { u with lineCounter := u.lineCounter + 1, vQuiet := min 4096 (u.vQuiet + 1) }

/-- How a counter that expires at an edge and the line that closes there are ordered (assumption
log 6): whether the expiry acts first, whether a loss taken second stands although the line's
vertical edge has set the line counter anew, and whether the ring judges the line by the vertical
source as the edge leaves it. -/
structure ExpiryOrder where
  first : Bool
  stands : Bool
  ringAfter : Bool
  deriving DecidableEq, Repr

/-- The vertical source by which the ring judges a line (R80). The manual leaves it open for the edge
at which the V pin quiet counter reaches 4096 (R84); the order says (assumption log 6). -/
def ringSource (order : ExpiryOrder) (u : MeasUnit) : VSource :=
  if order.ringAfter then vSourceOf (countLine u) else vSourceOf u

/-- Admission of a closed line to the ring under vertical source `src` (R80). The eighth short line
of a run refills it. -/
def admitLine (src : VSource) (l : ClosedLine) (u : MeasUnit) : MeasUnit :=
  if l.broad && src == .separator then u
  else if isShort u l.line then
    let shorts := u.shortLines ++ [l.line]
    if 8 ≤ shorts.length then { u with ring := shorts, shortLines := [] }
    else { u with shortLines := shorts }
  else { u with ring := u.ring.drop 1 ++ [l.line], shortLines := [] }

/-- The width of a separator edge's pulse is the length of its run, known when the run ends (R86). -/
def endRunPulse (src : VSource) (run : Nat) (p : OpenPeriod) : OpenPeriod :=
  match src, p.width with
  | .separator, none => { p with width := some run }
  | _, _ => p

/-- A line that is not broad ends the run, and the separator re-arms (R86). -/
def endRun (src : VSource) (u : MeasUnit) : MeasUnit :=
  { u with
    period := if 0 < u.sepRun then u.period.map (endRunPulse src u.sepRun) else u.period
    sepRun := 0
    sepArmed := true
    runStart := none }

/-- A broad line raises the run; the first records its opening edge (R86). The run is held at
4095, the longest the manual gives it (assumption log 20). -/
def extendRun (l : ClosedLine) (u : MeasUnit) : MeasUnit :=
  { u with
    sepRun := min 4095 (u.sepRun + 1)
    runStart := if u.sepRun = 0 then some l.start else u.runStart }

/-- The vertical edge of a run (R86): dated at its first broad line, closing the count recorded
there, with three lines of the new period already closed. -/
def separatorEdge (r : RunStart) : VEdge :=
  { source := .separator, tick := r.tick, offset := r.offset, count := r.count, newCount := 3 }

/-- The separator takes a closed line while `src` is the vertical source (R86). -/
def separatorTakes (src : VSource) (l : ClosedLine) (u : MeasUnit) : Measured :=
  if l.broad then
    let extended := extendRun l u
    if u.sepArmed && extended.sepRun == 3 then
      let disarmed := { extended with sepArmed := false }
      match src, disarmed.runStart with
      | .separator, some r => verticalEdge (separatorEdge r) disarmed
      | _, _ => (disarmed, [])
    else (extended, [])
  else (endRun src u, [])

/-- POLARITY_FLIP: a line closed in an open period while the V pin is the source is compared with
the one before it (R89, R97). -/
def flipTest (src : VSource) (l : ClosedLine) (u : MeasUnit) : Measured :=
  match src, u.period with
  | .vPin, some p =>
    let detects :=
      match p.prevPolarity with
      | none => false
      | some q => q != l.line.polarity && !p.faults.polarityFlip
    ({ u with
        period := some
          { p with
            prevPolarity := some l.line.polarity
            faults := if detects then p.faults.add .polarityFlip else p.faults } },
     if detects then [.detected .polarityFlip] else [])
  | _, _ => (u, [])

/-- A closed line is handed to the separator and then to the fault detection (R75). -/
def handOnLine (src : VSource) (l : ClosedLine) (u : MeasUnit) : Measured :=
  let a := separatorTakes src l u
  let b := flipTest src l a.1
  (b.1, a.2 ++ b.2)

/-- A line has closed in UNPRIMED, PRIMING or PUBLISHING: ring, counters, separator, fault
detection and the expiry of the line counter (R75, R80, R82, R83, R84, R86, R89). A loss taken first
leaves the run at 0 and no period open, so the line is not handed on after it (assumption log 6). -/
def lineClosed (order : ExpiryOrder) (l : ClosedLine) (u : MeasUnit) : Measured :=
  let before := vSourceOf u
  let counted := countLine (admitLine (ringSource order u) l u)
  if order.first then
    if 4096 ≤ counted.lineCounter then loseVertical l.line.polarity counted
    else handOnLine (vSourceOf counted) l counted
  else
    let handed := handOnLine before l counted
    if 4096 ≤ handed.1.lineCounter || (order.stands && 4096 ≤ counted.lineCounter) then
      let lost := loseVertical l.line.polarity handed.1
      (lost.1, handed.2 ++ lost.2)
    else handed

/-- Horizontal activity is gained with the eight lines of the gain count (R79). -/
def gainHorizontal (lines : List Line) (newest : Line) (u : MeasUnit) : Measured :=
  (setHRef newest.polarity
    { u with
      state := .unprimed
      gainLines := []
      ring := lines
      shortLines := []
      lineCounter := 0
      vQuiet := 4096
      sepRun := 0
      sepArmed := true
      runStart := none
      halfLineRef := none },
   [.hGained])

/-- A line has closed in QUIET: the gain count rises by 1, and at 8 activity is gained (R78, R79). -/
def gainLine (l : Line) (u : MeasUnit) : Measured :=
  let lines := u.gainLines ++ [l]
  if 8 ≤ lines.length then gainHorizontal lines l u
  else ({ u with gainLines := lines }, [])

/-! ### Horizontal edges -/

/-- An accepted horizontal edge opens a line (R74). -/
def startLine (t : Nat) (u : MeasUnit) : MeasUnit :=
  { u with
    line := some { openTick := t, openCount := u.lineCounter, activeEnd := none }
    prevHEdge := u.lastHEdge
    lastHEdge := some t }

/-- The line opened at this edge keeps the line counter as the edge leaves it (R86). -/
def settleOpenCount (u : MeasUnit) : MeasUnit :=
  { u with line := u.line.map fun o => { o with openCount := u.lineCounter } }

/-- What an accepted transition of the H pin into the active level is, at tick `t`. -/
inductive HEdge where
  /-- No line is in progress: it opens one (R74, R77, R78). -/
  | opens
  /-- Less than 160 ticks after the last accepted edge: dropped (R74). -/
  | dropped
  /-- 8192 ticks or more after the last accepted edge: it comes after the loss (R76). -/
  | late
  /-- It closes the line in progress and opens the next (R74). -/
  | closes (l : ClosedLine)
  deriving DecidableEq, Repr

/-- Which of the four an edge is. After a change of the reference, with no line in progress, R77 has
the next edge open a line, and R74 drops an edge less than 160 ticks after the last accepted one. The
manual does not say which holds for an edge to which both apply. DESIGN CHOICE: it is dropped, and
counted as R73 says (assumption log 30). -/
def hEdgeAt (u : MeasUnit) (t : Nat) : HEdge :=
  match u.lastHEdge with
  | none => .opens
  | some a =>
    if t - a < 160 then .dropped
    else if 8192 ≤ t - a then .late
    else match u.line with
      | none => .opens
      | some o => .closes (characterise u o t)

/-- An accepted transition of the H pin into the active level (R74, R76, R78). -/
def horizontalEdge (order : ExpiryOrder) (t : Nat) (u : MeasUnit) : Measured :=
  match hEdgeAt u t with
  | .opens => (startLine t u, [])
  | .dropped => countRejection u
  | .late =>
    let r := expireHorizontal u
    (startLine t r.1, r.2)
  | .closes l =>
    let r :=
      if isRunning u then lineClosed order l (startLine t u)
      else gainLine l.line (startLine t u)
    (settleOpenCount r.1, r.2)

/-- An accepted transition of the H pin out of the active level ends the active phase of the line
in progress (R74, R75). -/
def endActivePhase (t : Nat) (u : MeasUnit) : MeasUnit :=
  { u with
    line := u.line.map fun o =>
      { o with activeEnd := match o.activeEnd with | none => some t | some a => some a } }

/-! ### Transitions of the V pin -/

/-- An accepted transition of the V pin sets the quiet counter to 0; if the separator was the
source the V pin becomes it and the unit goes to UNPRIMED (R82, R84). -/
def vPinSeen (u : MeasUnit) : MeasUnit :=
  match vSourceOf u with
  | .vPin => { u with vQuiet := 0 }
  | .separator =>
    { u with vQuiet := 0, state := .unprimed, period := none, halfLineRef := none }

/-- The end of a vertical pulse: its width is the lines counted since the edge (R85). -/
def endVPulse (u : MeasUnit) : MeasUnit :=
  { u with
    period := u.period.map fun p =>
      { p with width := match p.width with | none => some u.lineCounter | some w => some w } }

/-- An accepted transition of the V pin to `level` (R84, R85). In QUIET and OFF it is not taken. -/
def vTransition (level : Level) (t : Nat) (u : MeasUnit) : Measured :=
  if isRunning u then
    let seen := vPinSeen u
    if level = activeLevel seen.vRef then
      verticalEdge
        { source := .vPin, tick := t, offset := vPinOffset seen t, count := seen.lineCounter,
          newCount := 0 } seen
    else (endVPulse seen, [])
  else (u, [])

/-! ### The glitch filters -/

/-- The transition waiting in a pin's filter is accepted, stamped with the tick at which it reached
the pin (R71). -/
def acceptTransition (order : ExpiryOrder) (pin : Pin) (u : MeasUnit) : Measured :=
  match u.state, (filterOf u pin).waiting with
  | .off, _ => (u, [])
  | _, none => (u, [])
  | _, some w =>
    let level := otherLevel (filterOf u pin).passed
    let passed := withFilter u pin { passed := level, waiting := none }
    match pin with
    | .h =>
      if level = activeLevel u.hRef then horizontalEdge order w.tick passed
      else (endActivePhase w.tick passed, [])
    | .v => vTransition level w.tick passed

/-- The 8192 ticks after the last accepted edge ran out, at or before `t`, while a transition into
the active level that had reached the pin before was waiting (R76, R78). The reference at `t` says
which level that is: DESIGN CHOICE (assumption log 33). -/
def expiryWaited (u : MeasUnit) (t : Nat) : Bool :=
  match waitingHEdge u, u.lastHEdge with
  | some w, some a => w < a + 8192 && a + 8192 ≤ t
  | _, _ => false

/-- The pulse in a pin's filter is rejected at `t` and counted (R71, R73); a loss that had waited
for the filter's judgement then takes place (R76). -/
def rejectPulse (pin : Pin) (t : Nat) (u : MeasUnit) : Measured :=
  let counted := countRejection (withWaiting u pin none)
  if pin = .h && expiryWaited u t then
    let r := expireHorizontal counted.1
    (r.1, counted.2 ++ r.2)
  else counted

/-- A pin changes to `level` at `t`, with glitch window `window` in force (R71, R72). A transition
that has waited out its own window has been accepted by then (assumption log 15). -/
def pinChange (order : ExpiryOrder) (pin : Pin) (level : Level) (t : Nat) (window : BitVec 4)
    (u : MeasUnit) : Measured :=
  match u.state, (filterOf u pin).waiting with
  | .off, _ => (u, [])
  | _, none =>
    if level = (filterOf u pin).passed then (u, [])
    else (withWaiting u pin (some { tick := t, window := window }), [])
  | _, some w =>
    if t - w.tick < w.window.toNat then rejectPulse pin t u
    else
      let r := acceptTransition order pin u
      (withWaiting r.1 pin (some { tick := t, window := window }), r.2)

/-- Each filter starts at its pin's level and holds nothing (R71). -/
def seedFilters (hLevel vLevel : Level) (u : MeasUnit) : MeasUnit :=
  { u with
    hFilter := { passed := hLevel, waiting := none }
    vFilter := { passed := vLevel, waiting := none } }

/-- Transitions held in the filters are dropped without being counted (R69). -/
def dropWaiting (u : MeasUnit) : MeasUnit :=
  { u with
    hFilter := { u.hFilter with waiting := none }
    vFilter := { u.vFilter with waiting := none } }

/-! ### Enabling, disabling and re-detection -/

/-- OFF to QUIET at an enable (R69, R71). -/
def enableUnit (hLevel vLevel : Level) (u : MeasUnit) : MeasUnit :=
  seedFilters hLevel vLevel { discardMeasurement u with state := .quiet }

/-- To OFF at a disable (R69). -/
def disableUnit (u : MeasUnit) : MeasUnit :=
  dropWaiting { discardMeasurement u with state := .off }

/-- Back to QUIET at a CLEAR_FAULT (R70, R71). -/
def redetectUnit (hLevel vLevel : Level) (u : MeasUnit) : MeasUnit :=
  seedFilters hLevel vLevel { discardMeasurement u with state := .quiet }

/-- A core restart: the values of power-on reset, in QUIET if the input is enabled and in OFF if
not (R93). -/
def restartUnit (enabled : Bool) (hLevel vLevel : Level) : MeasUnit :=
  seedFilters hLevel vLevel { resetUnit with state := if enabled then .quiet else .off }

/-! ### Consistency -/

/-- Two sets are consistent (R91). -/
def consistent (a b : MeasSet) : Bool :=
  a.sync.hPeriod ≤ b.sync.hPeriod + 8 && b.sync.hPeriod ≤ a.sync.hPeriod + 8
    && a.sync.vLines ≤ b.sync.vLines + 1 && b.sync.vLines ≤ a.sync.vLines + 1
    && a.sync.hPolarity == b.sync.hPolarity && a.sync.vPolarity == b.sync.vPolarity
    && a.sync.scan == b.sync.scan && a.sync.form == b.sync.form

end Sys2Proof.Machine
end

