-- ==== Sys2Proof/Machine/Matching.lean ====
section
/-! DEFINITION. Matching (chapter 2): the fit of an entry to a set, the tally of a search, the
examination of a slot by each kind of pass, and the results. -/

namespace Sys2Proof.Machine

/-- A window accepts a value between its bounds, both included (R28). -/
def windowAccepts (w : Window) (x : Nat) : Bool := w.min ≤ x && x ≤ w.max

/-- An optional window accepts every value while it is absent (R29). -/
def optWindowAccepts (w : Option Window) (x : Nat) : Bool :=
  match w with
  | none => true
  | some w => windowAccepts w x

/-- A constraint accepts a value when it is ANY or names it (R30). -/
def constraintAccepts {α : Type} [DecidableEq α] (c : Option α) (x : α) : Bool :=
  match c with
  | none => true
  | some y => decide (y = x)

/-- The fit: all eight tests accept the set (R31). -/
def fits (e : Entry) (m : SyncSet) : Bool :=
  windowAccepts e.hPeriod m.hPeriod && windowAccepts e.vLines m.vLines
    && optWindowAccepts e.hWidth m.hWidth && optWindowAccepts e.vWidth m.vWidth
    && constraintAccepts e.hPolarity m.hPolarity && constraintAccepts e.vPolarity m.vPolarity
    && constraintAccepts e.scan m.scan && constraintAccepts e.form m.form

/-- The eight fields of a request's set (R27, R47). -/
def RequestSet.sync : RequestSet → SyncSet
  | .measured m => m.sync
  | .probe p => p

/-! ### The tally of a search -/

/-- The empty tally (R36). -/
def emptyTally : Tally :=
  { candidates := [], firstGeneration := 0, matchCount := 0, topRank := none, topCount := 0 }

/-- Placement directly after every candidate of at least the same rank and before every candidate
of lower rank (R37). -/
def placeCandidate (c : Candidate) : List Candidate → List Candidate
  | [] => [c]
  | d :: ds => if c.rank ≤ d.rank then d :: placeCandidate c ds else c :: d :: ds

/-- Whether a slot of this rank is placed first. -/
def placedFirst (rank : Nat) : List Candidate → Bool
  | [] => true
  | d :: _ => d.rank < rank

/-- The tally after a considered slot whose entry fits (R37). -/
def tallyFit (i : SlotIx) (x : Slot) (t : Tally) : Tally :=
  let rank := x.entry.rank
  { candidates := (placeCandidate { slot := i, rank := rank } t.candidates).take 4
    firstGeneration := if placedFirst rank t.candidates then x.generation else t.firstGeneration
    matchCount := t.matchCount + 1
    topRank :=
      match t.topRank with
      | none => some rank
      | some r => some (max r rank)
    topCount :=
      match t.topRank with
      | none => 1
      | some r => if r < rank then 1 else if r = rank then t.topCount + 1 else t.topCount }

/-- A search examines a slot: only an ACTIVE slot is considered (R32). -/
def tallySlot (i : SlotIx) (x : Slot) (m : SyncSet) (t : Tally) : Tally :=
  if x.state = .active && fits x.entry m then tallyFit i x t else t

/-! ### The examinations of a pass -/

/-- The outcome of a bound verify's examination (R33): PASS when the slot of the binding is ACTIVE
or SUSPENDED and its entry fits; the generation is reported, 0 without a binding. -/
def examineBound (s : State) (b : Option Binding) (m : SyncSet) : Verdict :=
  match b with
  | none => .bound false 0
  | some b =>
    let x := s.slot b.slot
    .bound (x.state != .free && fits x.entry m) x.generation

/-- The outcome of a recall verify's examination (R34). -/
def examineRecall (s : State) (r : Option Recall) (m : SyncSet) : Verdict :=
  match r with
  | none => .recallFail
  | some r =>
    let x := s.slot r.slot
    if x.state = .active && x.generation = r.generation && fits x.entry m then
      .recallPass r.slot x.generation
    else .recallFail

/-- The steps of a start: 64 for a search and 1 for a verify (R55). -/
def passLength : PassKind → Nat
  | .search => 64
  | .verifyBound | .verifyRecall => 1

/-- Every step of the start has been taken. -/
def passFinished (p : Pass) : Bool := passLength p.kind ≤ p.position

/-- The verify's outcome, read from the binding or recall reference of its input (R33, R34). -/
def examineVerify (s : State) (p : Pass) : Option Verdict :=
  match requesterInput p.requester, p.kind with
  | some n, .verifyBound => some (examineBound s (s.tracker n).binding p.set.sync)
  | some n, .verifyRecall => some (examineRecall s (s.tracker n).recallRef p.set.sync)
  | _, _ => p.verdict

/-- One examination: the pass after the step at its position (R32 to R35, R55). -/
def examineStep (s : State) (p : Pass) : Pass :=
  match p.kind with
  | .search =>
    if h : p.position < 64 then
      let i : SlotIx := ⟨p.position, h⟩
      { p with
        position := p.position + 1
        tally := p.tally.map (tallySlot i (s.slot i) p.set.sync) }
    else p
  | .verifyBound | .verifyRecall =>
    { p with position := p.position + 1, verdict := examineVerify s p }

/-! ### Results -/

/-- The result of a finished search (R38 to R40). -/
def searchResult (t : Tally) : PassResult :=
  if t.matchCount = 0 then .noMatch
  else
    .matched
      { candidates := t.candidates.map Candidate.slot
        ambiguity := t.topCount
        overflow := 4 < t.matchCount
        generation := t.firstGeneration }

/-- A recall PASS in the form of a MATCH (R42). -/
def recallMatch (i : SlotIx) (generation : Byte) : Match :=
  { candidates := [i], ambiguity := 1, overflow := false, generation := generation }

/-- The result of a finished verify (R41, R42). A verify that has no outcome has failed. -/
def verdictResult (k : PassKind) : Option Verdict → PassResult
  | some (.bound pass g) => .bound pass g
  | some (.recallPass i g) => .recalled (recallMatch i g)
  | some .recallFail => .recallFailed
  | none => if k = .verifyBound then .bound false 0 else .recallFailed

/-- The result of a finished pass (R57). -/
def passResult (p : Pass) : PassResult :=
  match p.kind with
  | .search => searchResult (p.tally.getD emptyTally)
  | .verifyBound | .verifyRecall => verdictResult p.kind p.verdict

end Sys2Proof.Machine
end

