-- ==== Sys2Proof/Machine/Classifier.lean ====
section
/-! DEFINITION. The classifier (chapter 3): submission, arbitration, grant, restart, the gate and
the abort. -/

namespace Sys2Proof.Machine

/-- The request slots in the order arbitration examines them: pointer, pointer + 1, ... modulo 7
(R52). -/
def arbitrationOrder (pointer : Requester) : List Requester :=
  [pointer, pointer + 1, pointer + 2, pointer + 3, pointer + 4, pointer + 5, pointer + 6]

/-- The first occupied slot from the pointer on (R52). -/
def nextRequester (c : Classifier) : Option Requester :=
  (arbitrationOrder c.pointer).find? fun r => c.requests[r].isSome

/-- The pass record a grant makes (R54). -/
def grantedPass (r : Requester) (q : Request) : Pass :=
  { requester := r
    kind := q.kind
    set := q.set
    seq := q.seq
    probeCurrent := if r = probeRequester then some true else none
    start := 1
    disturbed := false
    position := 0
    tally := match q.kind with | .search => some emptyTally | .verifyBound | .verifyRecall => none
    verdict := none }

/-- The grant of slot `r`: the request leaves its slot, and the pointer moves past it (R53, R54). -/
def grant (r : Requester) (q : Request) (c : Classifier) : Classifier :=
  { c with requests := c.requests.set r none, pointer := r + 1, pass := some (grantedPass r q) }

/-- Arbitration: while idle with some slot occupied, the first from the pointer is granted (R52). -/
def arbitrateClassifier (c : Classifier) : Classifier :=
  match c.pass, nextRequester c with
  | none, some r =>
    match c.requests[r] with
    | some q => grant r q c
    | none => c
  | _, _ => c

/-- Arbitration in the state. -/
def arbitrate (s : State) : State := s.withClassifier (arbitrateClassifier s.classifier)

/-- A submission: it occupies or supersedes in its slot, and arbitration runs if the classifier is
idle (R49, R50). -/
def submit (r : Requester) (q : Request) (s : State) : State :=
  arbitrate (s.withRequest r (some q))

/-- The pass in flight was granted at the event of the submission of `q` by `r` at `tick`, on the request
of `r` that `q` supersedes: a completion has ended a pass at this tick, `r` has nothing waiting, and a
superseding request keeps the number (R48). The manual's "the same requester" is read as the
requester of the waiting request, whichever pass has completed, and equal ticks as one event: DESIGN
CHOICE (assumption log 34). -/
def supersedesGranted (r : Requester) (q : Request) (tick : Nat) (s : State) (p : Pass) : Bool :=
  s.classifier.endTick == some tick && (s.request r).isNone && p.requester == r
    && p.seq == q.seq && p.start == 1

/-- A submission at `tick` (R49, R50). One that supersedes a request granted at this very event, the end
of a pass having been taken first, takes the place of that request in the pass: the newer request
is the one that the arbitration sees, whatever the order (R58). -/
def submitAt (r : Requester) (q : Request) (tick : Nat) (s : State) : State :=
  match s.classifier.pass with
  | none => submit r q s
  | some p =>
    if supersedesGranted r q tick s p then
      s.withPass (some { grantedPass r q with disturbed := p.disturbed })
    else submit r q s

/-- Whether a completed pass is still wanted: an input's by its request sequence number, the
probe's by its current mark (R48, R55). A recall verify whose reference a RETIRE or CLEAR_CATALOG has
cleared in PENDING is still wanted: DESIGN CHOICE between R56 and R21, R34, R109 and R122 (assumption
log 32). -/
def passCurrent (s : State) (p : Pass) : Bool :=
  match requesterInput p.requester with
  | some n => p.seq == some (s.tracker n).reqSeq
  | none => p.probeCurrent == some true

/-- A restart: the same pass from slot 0 with the next start count, an empty tally and the
disturbed mark clear (R60). -/
def restartedPass (p : Pass) : Pass :=
  { p with
    start := p.start + 1
    disturbed := false
    position := 0
    tally := p.tally.map fun _ => emptyTally
    verdict := none }

/-- A restart that brings the start count to 3 closes the gate and sets the GATE notice (R61). -/
def restartPass (p : Pass) (s : State) : State :=
  let restarted := s.withPass (some (restartedPass p))
  if p.start + 1 = 3 then
    (restarted.withClassifier { restarted.classifier with gate := .closed }).setGlobalNotice .gate
  else restarted

/-- The end of a pass at `tick`: the classifier is idle, and the end of a third start opens the gate
(R55, R62). -/
def clearPass (tick : Nat) (p : Pass) (s : State) : State :=
  s.withClassifier
    { s.classifier with
      pass := none, gate := if p.start = 3 then .opened else s.classifier.gate
      endTick := some tick }

/-- A catalog change sets the disturbed mark of the pass in flight (R18, R59). -/
def disturbPass (s : State) : State :=
  s.withPass (s.classifier.pass.map fun p => { p with disturbed := true })

/-- The withdrawal of the probe (R64, R160): its waiting request is removed; if it has been granted
its pass loses the probe current mark. -/
def withdrawProbe (s : State) : State :=
  match s.request probeRequester with
  | some _ => s.withRequest probeRequester none
  | none =>
    s.withPass (s.classifier.pass.map fun p =>
      if p.requester = probeRequester then { p with probeCurrent := some false } else p)

end Sys2Proof.Machine
end

