-- ==== Sys2Proof/Machine/Tracker.lean ====
section
/-! DEFINITION. The input tracker and the binding (chapters 6 and 7): changes of state, requests,
settling, binding, release, and what each report and each result does. -/

namespace Sys2Proof.Machine

/-! ### Changes of state and requests -/

/-- A change between BOUND and COASTING keeps a waiting verify (R109). -/
def keepsRequest : TrackerState → TrackerState → Bool
  | .bound, .coasting => true
  | .coasting, .bound => true
  | _, _ => false

/-- The states in which the held stable set is absent (R108, R109). -/
def dropsHeld : TrackerState → Bool
  | .idle | .silent | .settling | .fault => true
  | .pending | .bound | .coasting | .unmatched => false

/-- A tracker after a change of state: steps 1, 3 and 4 of R109. -/
def changedTracker (new : TrackerState) (t : Tracker) : Tracker :=
  { t with
    state := new
    reqSeq := t.reqSeq + 1
    settleCounter := if t.state = .settling then 0 else t.settleCounter
    settleRef := if t.state = .settling then none else t.settleRef
    coast := if t.state = .coasting then 0 else t.coast
    recheck := if t.state = .unmatched then false else t.recheck
    held := if dropsHeld new then none else t.held }

/-- The waiting request after a change of state: step 2 of R109. -/
def changedRequest (old new : TrackerState) (seq : Byte) (q : Option Request) : Option Request :=
  if keepsRequest old new then q.map fun q => { q with seq := some seq } else none

/-- A tracker changes state (R109). -/
def changeState (n : InputIx) (new : TrackerState) (s : State) : State :=
  let t := s.tracker n
  let r := inputRequester n
  (s.withRequest r (changedRequest t.state new (t.reqSeq + 1) (s.request r))).withTracker n
    (changedTracker new t)

/-- A tracker submits a request with its current sequence number (R48, R110). -/
def submitSet (n : InputIx) (kind : PassKind) (m : MeasSet) (s : State) : State :=
  submit (inputRequester n) { kind := kind, set := .measured m, seq := some (s.tracker n).reqSeq } s

/-- A tracker in BOUND or COASTING submits a verify of a set published at `tick` (R58, R110, R123). -/
def submitVerify (n : InputIx) (tick : Nat) (m : MeasSet) (s : State) : State :=
  submitAt (inputRequester n)
    { kind := .verifyBound, set := .measured m, seq := some (s.tracker n).reqSeq } tick s

/-- A tracker submits a request on its held stable set (R110). -/
def submitHeld (n : InputIx) (kind : PassKind) (s : State) : State :=
  match (s.tracker n).held with
  | some m => submitSet n kind m s
  | none => s

/-- The held stable set becomes `m`. -/
def holdSet (n : InputIx) (m : Option MeasSet) (s : State) : State :=
  s.withTracker n { s.tracker n with held := m }

/-! ### Settling -/

/-- Settling completes with `m` (R118): PENDING, with a recall verify if a recall reference is
present and a search if none is. -/
def completeSettling (n : InputIx) (m : MeasSet) (s : State) : State :=
  let held := holdSet n (some m) (changeState n .pending s)
  match (held.tracker n).recallRef with
  | some _ => submitHeld n .verifyRecall held
  | none => submitHeld n .search held

/-- The settle counter becomes `c` and `m` the settling reference, and the counter is compared with
the settle count (R117). -/
def settleWith (n : InputIx) (c : Nat) (m : MeasSet) (s : State) : State :=
  let counted := s.withTracker n { s.tracker n with settleCounter := c, settleRef := some m }
  if (s.config n).settle.toNat ≤ c then completeSettling n m counted else counted

/-- Into SETTLING with a counter of 1 and `m` as the reference (R117, R120, R124, R128). -/
def settleAfresh (n : InputIx) (m : MeasSet) (s : State) : State :=
  settleWith n 1 m (changeState n .settling s)

/-- The settle counter for a set taken in SETTLING (R117). -/
def nextSettle (t : Tracker) (m : MeasSet) : Nat :=
  match t.settleRef with
  | none => 1
  | some r => if consistent r m then t.settleCounter + 1 else 1

/-! ### Binding and release -/

/-- Whether a tracker's binding names slot `i`. -/
def boundTo (t : Tracker) (i : SlotIx) : Bool :=
  match t.binding with
  | some b => b.slot == i
  | none => false

/-- A bind or unbind claim changes the slot's bind_count (R22). -/
def claim (i : SlotIx) (f : Nat → Nat) (s : State) : State :=
  s.withSlot i { s.slot i with bindCount := f (s.slot i).bindCount }

/-- The recall reference after a release: written for SIGNAL_LOST and DEVIATED, cleared for every
other reason (R145, R146). -/
def recallAfter (reason : Reason) (b : Binding) : Option Recall :=
  match reason with
  | .signalLost | .deviated => some { slot := b.slot, generation := b.generation }
  | .entryEdited | .entryRetired | .hostRebind | .fault | .inputDisabled | .coreRestart => none

/-- A tracker after the release of binding `b` (R146). -/
def releasedTracker (reason : Reason) (b : Binding) (t : Tracker) : Tracker :=
  { t with
    binding := none
    lastLoss := some { reason := reason, slot := b.slot, generation := b.generation }
    lossTick := none
    recallRef := recallAfter reason b }

/-- A release (R146): unbind claim, last-loss record, recall reference, LOST except for
CORE_RESTART. Without a binding nothing is released (R147). -/
def release (n : InputIx) (reason : Reason) (s : State) : State :=
  match (s.tracker n).binding with
  | none => s
  | some b =>
    let claimed := claim b.slot (· - 1) s
    let released := claimed.withTracker n (releasedTracker reason b (claimed.tracker n))
    if reason = .coreRestart then released else released.setNotice n .lost

/-- A release that a result delivered at `tick` makes (R124, R125): the tick is kept with the
last-loss record it writes (R105, assumption log 31). -/
def releaseByResult (n : InputIx) (reason : Reason) (tick : Nat) (s : State) : State :=
  let released := release n reason s
  released.withTracker n { released.tracker n with lossTick := some tick }

/-- The binding a result makes (R139). -/
def bindingOf (via : Via) (i : SlotIx) (m : Match) : Binding :=
  { slot := i, generation := m.generation, via := via, ambiguity := m.ambiguity,
    candidates := m.candidates, overflow := m.overflow }

/-- A tracker in PENDING makes a binding from a result (R121, R122, R139). -/
def bindTo (n : InputIx) (via : Via) (m : Match) (s : State) : State :=
  match m.candidates with
  | [] => s
  | i :: _ =>
    let claimed := claim i (· + 1) s
    let bound := claimed.withTracker n
      { claimed.tracker n with binding := some (bindingOf via i m), recallRef := none }
    (changeState n .bound bound).setNotice n .bound

/-! ### Reports of the measurement unit -/

/-- H activity gained (R114). -/
def takeHGained (n : InputIx) (s : State) : State :=
  match (s.tracker n).state with
  | .silent => (changeState n .settling s).setNotice n .acquired
  | .idle | .settling | .pending | .bound | .coasting | .unmatched | .fault => s

/-- H activity lost (R115). -/
def takeHLost (n : InputIx) (s : State) : State :=
  match (s.tracker n).state with
  | .settling | .pending | .bound | .coasting | .unmatched =>
    changeState n .silent (release n .signalLost s)
  | .idle | .silent | .fault => s

/-- V activity lost (R116). In SETTLING the state does not change and the count starts again. -/
def takeVLost (n : InputIx) (s : State) : State :=
  match (s.tracker n).state with
  | .settling => s.withTracker n { s.tracker n with settleCounter := 0, settleRef := none }
  | .pending | .bound | .coasting | .unmatched =>
    changeState n .settling (release n .signalLost s)
  | .idle | .silent | .fault => s

/-- Whether a set is consistent with the held stable set (R120, R128). -/
def consistentWithHeld (t : Tracker) (m : MeasSet) : Bool :=
  match t.held with
  | some h => consistent h m
  | none => false

/-- A set published at `tick` (R117, R120, R123, R128, R131). -/
def takeSet (n : InputIx) (tick : Nat) (m : MeasSet) (s : State) : State :=
  let t := s.tracker n
  match t.state with
  | .settling => settleWith n (nextSettle t m) m s
  | .pending => if consistentWithHeld t m then s else settleAfresh n m s
  | .bound | .coasting => submitVerify n tick m s
  | .unmatched =>
    if consistentWithHeld t m then
      (if t.recheck then submitHeld n .search (changeState n .pending s) else s)
    else settleAfresh n m s
  | .idle | .silent | .fault => s

/-- A fault kind is added to the latch. -/
def addToLatch (n : InputIx) (k : FaultKind) (s : State) : State :=
  s.withTracker n { s.tracker n with latch := (s.tracker n).latch.add k }

/-- The last-loss record names FAULT where a result delivered at this tick has written it, whatever
reason that result's release gave; its slot and generation stay (R105). R144 and R147 have a record
written by a release alone, and R105, to which R130, R133 and R149 hand the pairing of a fault with
a result, is followed for this pairing. DESIGN CHOICE (assumption log 31). -/
def nameFault (tick : Nat) (t : Tracker) : Tracker :=
  if t.lossTick = some tick then
    { t with lastLoss := t.lastLoss.map fun l => { l with reason := .fault } }
  else t

/-- The binding of a tracker that a fault detected at `tick` takes into FAULT is released, and the
last-loss record names FAULT where R105 says so. -/
def releaseForFault (n : InputIx) (tick : Nat) (s : State) : State :=
  let released := release n .fault s
  released.withTracker n (nameFault tick (released.tracker n))

/-- A fault latched at `tick` (R101, R102, R105, R130): any binding is released, the tracker goes to
FAULT, or stays there, and the FAULT notice is set. A tracker in IDLE cannot be told of a fault.
After a result that released the binding at this tick the last-loss record names FAULT, and the
recall reference stays as that release left it: the model's reading of R105 beside R144 and R147
(assumption log 31). -/
def latchFault (n : InputIx) (k : FaultKind) (tick : Nat) (s : State) : State :=
  match (s.tracker n).state with
  | .idle => s
  | .fault => (addToLatch n k s).setNotice n .fault
  | .silent | .settling | .pending | .bound | .coasting | .unmatched =>
    (changeState n .fault (releaseForFault n tick (addToLatch n k s))).setNotice n .fault

/-- A fault kind detected at `tick` latches if it is enabled for the input (R98, R101). -/
def takeDetection (n : InputIx) (k : FaultKind) (tick : Nat) (s : State) : State :=
  if (s.config n).enables.has k then latchFault n k tick s else s

/-- One report that the measurement unit makes at `tick` reaches its tracker. -/
def takeReport (n : InputIx) (tick : Nat) (s : State) : Report → State
  | .hGained => takeHGained n s
  | .hLost => takeHLost n s
  | .vLost => takeVLost n s
  | .published m => takeSet n tick m s
  | .detected k => takeDetection n k tick s

/-- A unit after an event at `tick`, and its reports in turn. -/
def applyMeasured (n : InputIx) (tick : Nat) (r : Measured) (s : State) : State :=
  r.2.foldl (takeReport n tick) (s.withUnit n r.1)

/-! ### Results of the classifier -/

/-- A search MATCH or recall PASS in PENDING (R121, R122). -/
def takeMatch (n : InputIx) (via : Via) (m : Match) (s : State) : State :=
  match (s.tracker n).state with
  | .pending => bindTo n via m s
  | .idle | .silent | .settling | .bound | .coasting | .unmatched | .fault => s

/-- A search NO_MATCH in PENDING (R121). -/
def takeNoMatch (n : InputIx) (s : State) : State :=
  match (s.tracker n).state with
  | .pending => (changeState n .unmatched s).setNotice n .unmatched
  | .idle | .silent | .settling | .bound | .coasting | .unmatched | .fault => s

/-- A recall verify FAIL in PENDING (R122): the reference is cleared and a search submitted. A FAIL for
a reference that a RETIRE or CLEAR_CATALOG has cleared comes here too and is not orphaned, as R21, R34
and R122 say beside R56: DESIGN CHOICE (assumption log 32). -/
def takeRecallFail (n : InputIx) (s : State) : State :=
  match (s.tracker n).state with
  | .pending => submitHeld n .search (s.withTracker n { s.tracker n with recallRef := none })
  | .idle | .silent | .settling | .bound | .coasting | .unmatched | .fault => s

/-- A passed bound verify (R124, R125, R142): the binding's generation is brought up to the
result's, and COASTING ends. -/
def takeVerifyPass (n : InputIx) (g : Byte) (b : Binding) (s : State) : State :=
  let judged := s.withTracker n { s.tracker n with binding := some { b with generation := g } }
  if (s.tracker n).state = .coasting then changeState n .bound judged else judged

/-- A deviation (R124, R125, R142): within the budget the input coasts, one failure further; past
it the binding is released with DEVIATED and the failing set starts settling. -/
def takeDeviation (n : InputIx) (tick : Nat) (m : MeasSet) (s : State) : State :=
  let t := s.tracker n
  if t.coast + 1 ≤ (s.config n).budget.toNat then
    let coasting := if t.state = .bound then changeState n .coasting s else s
    (coasting.withTracker n { coasting.tracker n with coast := t.coast + 1 }).setNotice n .disrupt
  else settleAfresh n m (releaseByResult n .deviated tick s)

/-- A failed verify of an edited entry (R124, R125, R142): released with ENTRY_EDITED at once, and
a search on the failing set. -/
def takeEdited (n : InputIx) (tick : Nat) (m : MeasSet) (s : State) : State :=
  submitHeld n .search
    (holdSet n (some m) (changeState n .pending (releaseByResult n .entryEdited tick s)))

/-- A bound verify result on set `m` in BOUND or COASTING: the edit check (R142). -/
def takeVerify (n : InputIx) (tick : Nat) (pass : Bool) (g : Byte) (m : MeasSet) (s : State) :
    State :=
  let t := s.tracker n
  match t.state, t.binding with
  | .bound, some b | .coasting, some b =>
    if pass then takeVerifyPass n g b s
    else if g = b.generation then takeDeviation n tick m s
    else takeEdited n tick m s
  | _, _ => s

/-- A result delivered at `tick` reaches the tracker of input `n` (R57). -/
def takeResult (n : InputIx) (tick : Nat) (p : Pass) (s : State) : State :=
  match passResult p, p.set with
  | .matched m, _ => takeMatch n .search m s
  | .noMatch, _ => takeNoMatch n s
  | .recalled m, _ => takeMatch n .byRecall m s
  | .recallFailed, _ => takeRecallFail n s
  | .bound pass g, .measured m => takeVerify n tick pass g m s
  | .bound _ _, .probe _ => s

/-! ### Enable, disable, core restart -/

/-- The tracker's part of an enable (R111). -/
def enableTracker (n : InputIx) (s : State) : State := changeState n .silent s

/-- The tracker's part of a disable (R112): any binding is released with INPUT_DISABLED, then
IDLE, with the recall reference cleared and the fault latch emptied. -/
def disableTracker (n : InputIx) (s : State) : State :=
  let idle := changeState n .idle (release n .inputDisabled s)
  idle.withTracker n { idle.tracker n with recallRef := none, latch := noFaults }

/-- A tracker after a core restart (R135), once its binding is released. -/
def restartedTracker (enabled : Bool) (t : Tracker) : Tracker :=
  { resetTracker with
    state := if enabled then .silent else .idle
    lastLoss := t.lastLoss }

/-- The recheck mark of a tracker at a catalog change (R19). -/
def markRecheck (t : Tracker) : Tracker :=
  if t.state = .unmatched then { t with recheck := true } else t

end Sys2Proof.Machine
end

