-- ==== Sys2Proof/Machine/Catalog.lean ====
section
/-! DEFINITION. The catalog changes (sections 1.4 to 1.7), the reads of the catalog (section 1.9),
and what a change hands on to the classifier and the trackers. -/

namespace Sys2Proof.Machine

/-- A command that has been executed: the state, the result code and the named result data
(R156, R163). -/
structure Executed where
  state : State
  code : ResultCode
  data : List Byte
  deriving DecidableEq, Repr

/-- A refusal: nothing changes beyond its result (R163). -/
def refuse (code : ResultCode) (data : List Byte) (s : State) : Executed :=
  { state := s, code := code, data := data }

/-! ### The tag map and generations -/

/-- The slot a tag is associated with (R6). -/
def findTag (tag : Nat) : List (Nat × SlotIx) → Option SlotIx
  | [] => none
  | a :: l => if a.1 = tag then some a.2 else findTag tag l

/-- An association is made; the list stays sorted by tag (R6). -/
def insertTag (tag : Nat) (i : SlotIx) : List (Nat × SlotIx) → List (Nat × SlotIx)
  | [] => [(tag, i)]
  | a :: l => if tag ≤ a.1 then (tag, i) :: a :: l else a :: insertTag tag i l

/-- The associations of a slot are removed (R6). -/
def eraseSlotTag (i : SlotIx) (l : List (Nat × SlotIx)) : List (Nat × SlotIx) :=
  l.filter fun a => a.2 != i

/-- The generation after a commit: 1 from FREE (generation 0) and after 255, otherwise one more
(R5). -/
def nextGeneration (g : Byte) : Byte := if g = 255 then 1 else g + 1

/-! ### What a change hands on -/

/-- Every tracker with `f` applied. -/
def mapTrackers (f : Tracker → Tracker) (s : State) : State :=
  { s with inputs := mapVec (fun x => { x with tracker := f x.tracker }) s.inputs }

/-- The two marks of a catalog change: the pass in flight is disturbed and every unmatched input is
marked for a recheck (R18, R19). -/
def handMarks (s : State) : State := mapTrackers markRecheck (disturbPass s)

/-- A bound input of a freed slot is released with ENTRY_RETIRED and goes to PENDING (R127); its
search is submitted once the change has handed on its marks (R49). -/
def retireInput (s : State) (n : InputIx) : State :=
  changeState n .pending (release n .entryRetired s)

/-- Whether a recall reference names slot `i`. -/
def recallNames (i : SlotIx) (t : Tracker) : Bool :=
  match t.recallRef with
  | some r => r.slot == i
  | none => false

/-- The recall reference of a tracker is cleared if it names slot `i` (R21). The number of a tracker in
PENDING does not move with it (R109, R122), so its recall verify is delivered as a FAIL (R21, R34),
where R56 says orphaned. DESIGN CHOICE (assumption log 32). -/
def clearRecallOf (i : SlotIx) (t : Tracker) : Tracker :=
  if recallNames i t then { t with recallRef := none } else t

/-- A list turned so that its `k`-th element, counted modulo its length, comes first. -/
def rotated (k : Nat) (l : List InputIx) : List InputIx :=
  l.drop (k % l.length) ++ l.take (k % l.length)

/-- The order in which the released inputs submit: any of them may be the first (R52), by a free
value (assumption log 7). -/
def submissionOrder (s : State) (l : List InputIx) : List InputIx :=
  rotated (Config.firstSubmission s.freeIndex) l

/-- The searches of the released inputs on their held stable sets (R127). -/
def submitReleased (l : List InputIx) (s : State) : State :=
  if 2 ≤ l.length then
    (submissionOrder s l).foldl (fun s n => submitHeld n .search s) s.nextFree
  else l.foldl (fun s n => submitHeld n .search s) s

/-! ### COMMIT -/

/-- The slot after the staged entry is installed (R12). -/
def installedSlot (e : Entry) (x : Slot) : Slot :=
  { state := match x.state with | .free => .active | .active => .active | .suspended => .suspended
    generation := nextGeneration x.generation
    bindCount := match x.state with | .free => 0 | .active | .suspended => x.bindCount
    entry := e }

/-- The catalog after a commit (R6, R7, R12). -/
def installEntry (i : SlotIx) (e : Entry) (c : Catalog) : Catalog :=
  { slots := c.slots.set i (installedSlot e c.slots[i])
    occupancy := if c.slots[i].state = .free then c.occupancy + 1 else c.occupancy
    tagMap := insertTag e.tag i (eraseSlotTag i c.tagMap) }

/-- Slot, state and generation, as several results report them (R163). -/
def slotReport (i : SlotIx) (x : Slot) : List Byte :=
  [slotByte i, slotStateCode x.state, x.generation]

/-- Slot, state, generation and bind_count (R163). -/
def slotReportCount (i : SlotIx) (x : Slot) : List Byte := slotReport i x ++ [loByte x.bindCount]

/-- The installation of a commit that has passed its checks (R12, R164). -/
def commitPassed (i : SlotIx) (e : Entry) (s : State) : Executed :=
  let installed := s.withCatalog (installEntry i e s.catalog)
  { state := handMarks installed, code := .ok, data := slotReport i (installed.slot i) }

/-- The tag check (R11). -/
def commitFields (i : SlotIx) (e : Entry) (s : State) : Executed :=
  match findTag e.tag s.catalog.tagMap with
  | some j => if j = i then commitPassed i e s else refuse .duplicateTag [slotByte j] s
  | none => commitPassed i e s

/-- COMMIT at its execution: slot, fields, tag, installation (R8 to R12, R164). -/
def runCommit (args : Vector Byte 8) (image : Vector Byte 32) (s : State) : Executed :=
  match slotArg args with
  | none => refuse .badSlot [] s
  | some i =>
    match fieldFailure image with
    | some code => refuse .badRecord [loByte code] s
    | none => commitFields i (stagedEntry image) s

/-! ### SUSPEND and RESUME -/

/-- A change between ACTIVE and SUSPENDED, refused in every other state (R14, R15, R166, R167). -/
def runToggle (required new : SlotState) (args : Vector Byte 8) (s : State) : Executed :=
  match slotArg args with
  | none => refuse .badSlot [] s
  | some i =>
    if (s.slot i).state = required then
      let toggled := s.withSlot i { s.slot i with state := new }
      { state := handMarks toggled, code := .ok, data := slotReportCount i (toggled.slot i) }
    else refuse .badState [slotByte i, slotStateCode (s.slot i).state] s

/-- SUSPEND at its execution (R14, R166). -/
def runSuspend : Vector Byte 8 → State → Executed := runToggle .active .suspended

/-- RESUME at its execution (R15, R167). -/
def runResume : Vector Byte 8 → State → Executed := runToggle .suspended .active

/-! ### RETIRE and CLEAR_CATALOG -/

/-- The set of released inputs and their number, as results report them (R163, R210). -/
def releasedReport (l : List InputIx) : List Byte := [inputSetByte l, loByte l.length]

/-- The inputs bound to slot `i`. -/
def inputsBoundTo (i : SlotIx) (s : State) : List InputIx :=
  allInputs.filter fun n => boundTo (s.tracker n) i

/-- The inputs that hold a binding. -/
def boundInputs (s : State) : List InputIx :=
  allInputs.filter fun n => (s.tracker n).binding.isSome

/-- The catalog with slot `i` freed (R16, step 3). -/
def freeSlot (i : SlotIx) (c : Catalog) : Catalog :=
  { slots := c.slots.set i freeSlotValue
    occupancy := c.occupancy - 1
    tagMap := eraseSlotTag i c.tagMap }

/-- The four steps of a retire (R16), before the searches of the released inputs. -/
def retireSlot (i : SlotIx) (s : State) : State :=
  let released := (inputsBoundTo i s).foldl retireInput s
  let cleared := mapTrackers (clearRecallOf i) released
  handMarks (cleared.withCatalog (freeSlot i cleared.catalog))

/-- RETIRE at its execution (R16, R168). -/
def runRetire (args : Vector Byte 8) (s : State) : Executed :=
  match slotArg args with
  | none => refuse .badSlot [] s
  | some i =>
    if (s.slot i).state = .free then refuse .badState [slotByte i, slotStateCode .free] s
    else
      let l := inputsBoundTo i s
      { state := submitReleased l (retireSlot i s), code := .ok,
        data := slotByte i :: releasedReport l }

/-- Every slot freed, with the releases and marks of the whole command (R17). As at a RETIRE, the
clearing of a recall reference moves no number, R56 notwithstanding: DESIGN CHOICE (assumption
log 32). -/
def clearSlots (s : State) : State :=
  let released := (boundInputs s).foldl retireInput s
  let cleared := mapTrackers (fun t => { t with recallRef := none }) released
  handMarks (cleared.withCatalog resetCatalog)

/-- CLEAR_CATALOG at its execution (R17, R169). -/
def runClear (s : State) : Executed :=
  let l := boundInputs s
  { state := submitReleased l (clearSlots s), code := .ok,
    data := loByte s.catalog.occupancy :: releasedReport l }

/-! ### Reads of the catalog -/

/-- FETCH_ENTRY (R24, R165). -/
def runFetch (args : Vector Byte 8) (s : State) : Executed :=
  match slotArg args with
  | none => refuse .badSlot [] s
  | some i =>
    { state := s.withPort { s.port with staging := padTo 32 (slotImage (s.slot i)) }, code := .ok,
      data := slotReport i (s.slot i) }

/-- FIND_TAG (R6, R170). -/
def runFindTag (args : Vector Byte 8) (s : State) : Executed :=
  match findTag (wordAt args 0) s.catalog.tagMap with
  | some i => { state := s, code := .ok, data := slotReport i (s.slot i) }
  | none => refuse .notFound [] s

end Sys2Proof.Machine
end

