-- ==== Sys2Proof/Machine/Mailbox.lean ====
section
/-! DEFINITION. The command mailbox (chapter 8): acceptance, holding, execution, completion,
withdrawal, and the commands that are not catalog changes or reads. -/

namespace Sys2Proof.Machine

/-- A command completes: result code and data, DONE, MAILBOX_DONE (R156). -/
def completeCommand (r : Executed) : State :=
  (r.state.withMailbox
    { r.state.mailbox with state := .done, result := some r.code, data := padTo 21 r.data
    }).setGlobalNotice .mailboxDone

/-- The accepted command copy: the code, the arguments, and for a COMMIT the staging record
(R153, R155). -/
def acceptedCopy (code : Byte) (s : State) : Accepted :=
  { code := code
    args := s.mailbox.args
    image := if code = commandCode .commit then some s.port.staging else none }

/-- Acceptance, before the command is disposed of: steps 1 and 2 of R155. -/
def acceptCommand (code : Byte) (s : State) : State :=
  s.withMailbox
    { s.mailbox with
      command := code
      accepted := some (acceptedCopy code s)
      result := none
      data := Vector.replicate 21 0 }

/-- The execution of an accepted catalog change (R156, R157); no other command has one. -/
def changeOf (a : Accepted) : Option (State → Executed) :=
  match commandOfCode a.code, a.image with
  | some .commit, some image => some (runCommit a.args image)
  | some .suspend, _ => some (runSuspend a.args)
  | some .resume, _ => some (runResume a.args)
  | some .retire, _ => some (runRetire a.args)
  | some .clearCatalog, _ => some runClear
  | _, _ => none

/-- A catalog change at its acceptance: executed while the gate is open, held while it is closed
(R63, R155, R157). -/
def issueChange (code : Byte) (run : State → Executed) (s : State) : State :=
  let taken := acceptCommand code s
  match taken.classifier.gate with
  | .opened => completeCommand (run taken)
  | .closed => taken.withMailbox { taken.mailbox with state := .held }

/-- A command that executes at its acceptance whatever the gate (R155). -/
def issueNow (code : Byte) (run : State → Executed) (s : State) : State :=
  completeCommand (run (acceptCommand code s))

/-! ### PROBE -/

/-- The request the mailbox places in slot 6 (R64, R172). -/
def probeRequest (args : Vector Byte 8) : Request :=
  { kind := .search, set := .probe (probeSet args), seq := none }

/-- PROBE at its acceptance: checked, then WAITING with its request placed (R171, R172). -/
def issueProbe (s : State) : State :=
  let taken := acceptCommand (commandCode .probe) s
  match probeFailure s.mailbox.args with
  | some code => completeCommand (refuse .badRecord [loByte code] taken)
  | none =>
    submit probeRequester (probeRequest s.mailbox.args)
      (taken.withMailbox { taken.mailbox with state := .waiting })

/-- The result data of a matched probe (R173, R210, R211). -/
def probeReport (m : Match) : List Byte :=
  loByte m.candidates.length :: candidateBytes m.candidates
    ++ [loByte m.ambiguity, boolByte m.overflow, m.generation]

/-- The probe's result reaches the mailbox (R57, R173). It is WAITING then (R64). -/
def takeProbeResult (r : PassResult) (s : State) : State :=
  match s.mailbox.state, r with
  | .waiting, .matched m => completeCommand { state := s, code := .ok, data := probeReport m }
  | .waiting, .noMatch => completeCommand (refuse .noMatch [] s)
  | _, _ => s

/-! ### Input commands -/

/-- Input and state found, as a BAD_STATE and a REBIND report them (R163). -/
def inputReport (n : InputIx) (s : State) : List Byte :=
  [inputByte n, trackerStateCode (s.tracker n).state]

/-- The released slot and generation of a REBIND result (R163, R211). -/
def reboundReport (t : Tracker) : List Byte :=
  match t.binding with
  | some b => [1, slotByte b.slot, b.generation]
  | none => [0, 0, 0]

/-- A bound input is rebound: HOST_REBIND, then PENDING with a search on its last published set
(R132). -/
def rebindBound (n : InputIx) (s : State) : State :=
  submitHeld n .search
    (holdSet n (s.unit n).lastSet (changeState n .pending (release n .hostRebind s)))

/-- REBIND of input `n` (R132, R175). -/
def rebindInput (n : InputIx) (s : State) : Executed :=
  let data := inputReport n s ++ reboundReport (s.tracker n)
  match (s.tracker n).state with
  | .bound | .coasting => { state := rebindBound n s, code := .ok, data := data }
  | .unmatched =>
    { state := submitHeld n .search (changeState n .pending s), code := .ok, data := data }
  | .idle | .silent | .settling | .pending | .fault => refuse .badState (inputReport n s) s

/-- REBIND at its execution (R174, R175). -/
def runRebind (args : Vector Byte 8) (s : State) : Executed :=
  match inputArg args with
  | none => refuse .badInput [] s
  | some n => rebindInput n s

/-- CLEAR_FAULT of an input in FAULT (R70, R103, R131). -/
def clearFaultInput (n : InputIx) (s : State) : State :=
  let x := s.input n
  let emptied := s.withTracker n { s.tracker n with latch := noFaults }
  (changeState n .silent emptied).withUnit n (redetectUnit x.hPin x.vPin x.unit)

/-- CLEAR_FAULT at its execution (R174, R176). -/
def runClearFault (args : Vector Byte 8) (s : State) : Executed :=
  match inputArg args with
  | none => refuse .badInput [] s
  | some n =>
    if (s.tracker n).state = .fault then
      { state := clearFaultInput n s, code := .ok,
        data := [inputByte n, (s.tracker n).latch.toByte] }
    else refuse .badState (inputReport n s) s

/-! ### RESTART_CORE -/

/-- An input after a core restart (R93, R135, R177). -/
def restartedInput (x : Input) : Input :=
  { x with
    unit := restartUnit x.config.enabled x.hPin x.vPin
    tracker := restartedTracker x.config.enabled x.tracker }

/-- The catalog after a core restart: every bind_count 0, all else kept (R25). -/
def restartedCatalog (c : Catalog) : Catalog :=
  { c with slots := mapVec (fun x => { x with bindCount := 0 }) c.slots }

/-- The aborted pass, as the result reports it (R178, R211). -/
def abortReport : Option Pass → List Byte
  | some p => [1, loByte p.requester.val]
  | none => [0, 0]

/-- The core restart's effect on every block but the mailbox (R177). -/
def restartBlocks (s : State) : State :=
  let released := (boundInputs s).foldl (fun s n => release n .coreRestart s) s
  { released with
    catalog := restartedCatalog released.catalog
    classifier := resetClassifier
    inputs := mapVec restartedInput released.inputs
    notices := restartNotices released.notices }

/-- RESTART_CORE at its execution (R177, R178). -/
def runRestart (s : State) : Executed :=
  { state := restartBlocks s, code := .ok,
    data := releasedReport (boundInputs s) ++ abortReport s.classifier.pass }

/-! ### The state byte and the gate's opening -/

/-- The command is discarded and the mailbox EMPTY (R159, R160). -/
def emptyMailbox (s : State) : State :=
  s.withMailbox { s.mailbox with state := .empty, accepted := none }

/-- The write of the state byte in HELD or WAITING (R160). An arbitration that was left to the
held change runs once the change is gone (assumption log 5). -/
def withdrawCommand (s : State) : State :=
  match s.mailbox.state with
  | .held => arbitrate (emptyMailbox s)
  | .waiting => withdrawProbe (emptyMailbox s)
  | .empty | .done => s

/-- The execution of the held command (R157, R158), and the arbitration that the end of the third
start called for if it has not run (R62, assumption log 5). -/
def executeHeld (s : State) : State :=
  match s.mailbox.state, s.classifier.gate, s.mailbox.accepted with
  | .held, .opened, some a =>
    match changeOf a with
    | some run => arbitrate (completeCommand (run s))
    | none => s
  | _, _, _ => s

/-- A pass that has ended: a delivered or orphaned start, then the gate's opening, then the
arbitration, which waits for the held change if that is taken first (R55, R62). -/
def endPass (c : Completion) (p : Pass) (s : State) : State :=
  let ended := clearPass c.tick p s
  if p.start = 3 && s.mailbox.state == .held && c.order == .heldFirst then ended
  else arbitrate ended

/-- A result delivered at `tick` (R57). -/
def deliver (tick : Nat) (p : Pass) (s : State) : State :=
  match requesterInput p.requester with
  | some n => takeResult n tick p s
  | none => takeProbeResult (passResult p) s

/-- The completion of a start: orphaned, restarted or delivered, in that order (R55). An orphaned result
has no effect (R56). -/
def completeStart (c : Completion) (p : Pass) (s : State) : State :=
  if !passCurrent s p then endPass c p s
  else if p.disturbed then restartPass p s
  else endPass c p (deliver c.tick p s)

end Sys2Proof.Machine
end

