-- ==== Sys2Proof/Machine/Window.lean ====
section
/-! DEFINITION. The host port (chapter 10): what a read of a position returns, the view latch, the
pointer, and what a written byte does at each position. -/

namespace Sys2Proof.Machine

/-! ### Reads -/

/-- The settle and coast byte of a configuration (R206). -/
def settleCoastByte (c : InputConfig) : Byte := c.budget ++ c.settle

/-- The result code byte: 0 while the code is absent (R154, R207). -/
def resultByte : Option ResultCode → Byte
  | none => 0
  | some c => resultCodeByte c

/-- The byte a read of a position returns (R197, R206). -/
def readPos (s : State) : Pos → Byte
  | .identity => 0xE6
  | .revision => 0x01
  | .globalNotices => s.notices.globalFlags.setWidth 8
  | .globalMasks => s.notices.globalMasks.setWidth 8
  | .summary => summaryByte s.notices
  | .viewKind => s.port.viewKind
  | .viewIndex => s.port.viewIndex
  | .occupancy => loByte s.catalog.occupancy
  | .classifierStatus => classifierStatus s.classifier
  | .notices n => s.notices.flags[n].setWidth 8
  | .masks n => s.notices.masks[n].setWidth 8
  | .enable n => boolByte (s.config n).enabled
  | .settleCoast n => settleCoastByte (s.config n)
  | .glitch n => (s.config n).glitch.setWidth 8
  | .faultEnables n => (s.config n).enables.toByte
  | .command => s.mailbox.command
  | .mailboxState => mailboxStateCode s.mailbox.state
  | .argument k => s.mailbox.args[k]
  | .resultCode => resultByte s.mailbox.result
  | .resultData k => s.mailbox.data[k]
  | .staging k => s.port.staging[k]
  | .view k => s.port.snapshot[k]
  | .sinceLatch => boolByte s.port.since
  | .unassigned => 0

/-- The byte at the address pointer. -/
def readByte (s : State) : Byte := readPos s (windowPos s.port.pointer)

/-- A latch: the snapshot of the selected record, and the since-latch indicator cleared (R201). -/
def latchView (s : State) : State :=
  let r := selectedRecord s.port.viewKind s.port.viewIndex
  s.withPort { s.port with snapshot := snapshotOf s r, follows := r, since := false }

/-- Whether the byte at the pointer is the first of the view area. -/
def atViewStart (s : State) : Bool := s.port.pointer == 0x80

/-- The port takes the byte at the pointer for sending; at 0x80 it latches first (R195, R201). -/
def takeByte (s : State) : State :=
  let latched := if atViewStart s then latchView s else s
  latched.withPort { latched.port with bus := .sending (readByte latched) }

/-- Whether the record the latch follows holds another value than before (R203). -/
def recordChanged (s s' : State) : Bool :=
  match s'.port.follows with
  | none => false
  | some r => shownRecord s r != shownRecord s' r

/-- The since-latch indicator after an event that took `s` to `s'` (R203). -/
def noteChange (s s' : State) : State :=
  s'.withPort { s'.port with since := s'.port.since || recordChanged s s' }

/-! ### Transactions -/

/-- The transaction the acknowledge of the port's own address begins (R193 to R195). -/
def beginTransaction (direction : Direction) (s : State) : State :=
  match direction with
  | .write => s.withPort { s.port with bus := .pointerNext, acked := true }
  | .read => takeByte (s.withPort { s.port with acked := true })

/-- An address byte (R193). Any other address is not acknowledged and changes no state but where
the transaction stands. -/
def takeAddress (address : BitVec 7) (direction : Direction) (s : State) : State :=
  if address = s.port.address then beginTransaction direction s
  else s.withPort { s.port with bus := .ignoring, acked := false }

/-- The first data byte of a write sets the pointer (R194). -/
def takePointer (value : Byte) (s : State) : State :=
  match s.port.bus with
  | .pointerNext => s.withPort { s.port with pointer := value, bus := .dataNext, acked := true }
  | .idle | .ignoring | .dataNext | .sending _ | .released => s

/-- The pointer moves past a byte (R194 to R196). -/
def advancePointer (s : State) : State :=
  s.withPort { s.port with pointer := s.port.pointer + 1 }

/-- The end of a byte the port sent (R195): the pointer advances, and after an acknowledge the next
byte is taken. -/
def endByte (acknowledged : Bool) (s : State) : State :=
  let advanced := advancePointer s
  if acknowledged then takeByte advanced
  else advanced.withPort { advanced.port with bus := .released }

/-- The host's acknowledge or not-acknowledge of the byte being sent. -/
def takeHostAck (acknowledged : Bool) (s : State) : State :=
  match s.port.bus with
  | .sending _ => endByte acknowledged s
  | .idle | .ignoring | .pointerNext | .dataNext | .released => s

/-- Whether an event takes the byte at 0x80 for sending (R195, R201). -/
def takesViewStart (cause : ReadCause) (s : State) : Bool :=
  match cause, s.port.bus with
  | .addressByte address, _ => address == s.port.address && atViewStart s
  | .hostAcknowledge, .sending _ => atViewStart (advancePointer s)
  | .hostAcknowledge, _ => false

/-- The read of 0x80 by that event (R201). -/
def viewRead (cause : ReadCause) (s : State) : State :=
  if takesViewStart cause s then
    match cause with
    | .addressByte address => takeAddress address .read s
    | .hostAcknowledge => takeHostAck true s
  else s

/-- Where the next data byte of a write goes, while one may come (R194). -/
def dataPos (s : State) : Option Pos :=
  match s.port.bus with
  | .dataNext => some (windowPos s.port.pointer)
  | .idle | .ignoring | .pointerNext | .sending _ | .released => none

/-- A data byte at a position `f` accepts: its effect, then the pointer moves on, and the byte is
acknowledged (R194). -/
def onDataByte (f : Pos → Option (State → State)) (s : State) : State :=
  match (dataPos s).bind f with
  | none => s
  | some act =>
    let acted := act s
    advancePointer (acted.withPort { acted.port with acked := true })

/-! ### Writes -/

/-- An argument byte is stored (R154). -/
def storeArgument (k : Fin 8) (value : Byte) (s : State) : State :=
  s.withMailbox { s.mailbox with args := s.mailbox.args.set k value }

/-- A staging byte is stored (R199). -/
def storeStaging (k : Fin 32) (value : Byte) (s : State) : State :=
  s.withPort { s.port with staging := s.port.staging.set k value }

/-- A selector byte is stored (R200). -/
def storeViewKind (value : Byte) (s : State) : State :=
  s.withPort { s.port with viewKind := value }

/-- A selector byte is stored (R200). -/
def storeViewIndex (value : Byte) (s : State) : State :=
  s.withPort { s.port with viewIndex := value }

/-- The enable bit of a configuration byte (R206). -/
def enableBit (value : Byte) : Bool := value.getLsbD 0

/-- An enable (R69, R111). -/
def enableInput (n : InputIx) (s : State) : State :=
  let x := s.input n
  let tracked := enableTracker n (s.withConfig n { x.config with enabled := true })
  tracked.withUnit n (enableUnit x.hPin x.vPin x.unit)

/-- A disable (R69, R112). -/
def disableInput (n : InputIx) (s : State) : State :=
  let tracked := disableTracker n (s.withConfig n { s.config n with enabled := false })
  tracked.withUnit n (disableUnit (tracked.unit n))

/-- The settle count a byte gives: 0 is stored as 1 (R119). -/
def settleOf (value : Byte) : BitVec 4 :=
  if value.setWidth 4 = (0 : BitVec 4) then 1 else value.setWidth 4

/-- The coast budget a byte gives (R126). -/
def budgetOf (value : Byte) : BitVec 4 := (value >>> 4).setWidth 4

/-- The settle and coast byte (R119, R126, R137): both halves are stored, and a coast counter above
the new budget is set to it. -/
def writeSettleCoast (n : InputIx) (value : Byte) (s : State) : State :=
  let stored := s.withConfig n { s.config n with settle := settleOf value, budget := budgetOf value }
  stored.withTracker n
    { stored.tracker n with coast := min (stored.tracker n).coast (budgetOf value).toNat }

/-- The glitch window byte (R72, R137). A transition already waiting keeps its own window. -/
def writeGlitch (n : InputIx) (value : Byte) (s : State) : State :=
  s.withConfig n { s.config n with glitch := value.setWidth 4 }

/-- The fault enables byte (R98, R137). -/
def writeFaultEnables (n : InputIx) (value : Byte) (s : State) : State :=
  s.withConfig n { s.config n with enables := faultSetOfByte value }

/-! ### Which row a data byte belongs to (assumption log 14) -/

/-- The write that changes an enable bit to `on`. -/
def enableAct (on : Bool) (value : Byte) (s : State) : Pos → Option (State → State)
  | .enable n =>
    if enableBit value = on && (s.config n).enabled != on then
      some (if on then enableInput n else disableInput n)
    else none
  | _ => none

/-- The settle and coast position. -/
def settleCoastAct (value : Byte) : Pos → Option (State → State)
  | .settleCoast n => some (writeSettleCoast n value)
  | _ => none

/-- The glitch window position. -/
def glitchAct (value : Byte) : Pos → Option (State → State)
  | .glitch n => some (writeGlitch n value)
  | _ => none

/-- The fault enables position. -/
def faultEnablesAct (value : Byte) : Pos → Option (State → State)
  | .faultEnables n => some (writeFaultEnables n value)
  | _ => none

/-- The notice positions (R185). -/
def noticeAct (value : Byte) : Pos → Option (State → State)
  | .globalNotices => some (clearGlobalNotices value)
  | .notices n => some (clearInputNotices n value)
  | _ => none

/-- The mask positions (R187). -/
def maskAct (value : Byte) : Pos → Option (State → State)
  | .globalMasks => some (writeGlobalMasks value)
  | .masks n => some (writeInputMasks n value)
  | _ => none

/-- The selector positions (R200). -/
def viewSelectorAct (value : Byte) : Pos → Option (State → State)
  | .viewKind => some (storeViewKind value)
  | .viewIndex => some (storeViewIndex value)
  | _ => none

/-- The staging positions (R199). -/
def stagingAct (value : Byte) : Pos → Option (State → State)
  | .staging k => some (storeStaging k value)
  | _ => none

/-- The state byte in DONE (R159). -/
def acknowledgeAct (s : State) : Pos → Option (State → State)
  | .mailboxState => if s.mailbox.state = .done then some emptyMailbox else none
  | _ => none

/-- The state byte in HELD or WAITING (R160). -/
def withdrawAct (s : State) : Pos → Option (State → State)
  | .mailboxState =>
    if s.mailbox.state = .held || s.mailbox.state = .waiting then some withdrawCommand else none
  | _ => none

/-- The command byte while the mailbox is not EMPTY (R162). -/
def overrunAct (s : State) : Pos → Option (State → State)
  | .command =>
    if s.mailbox.state = .empty then none
    else some fun s => s.setGlobalNotice .mailboxOverrun
  | _ => none

/-- The command byte while the mailbox is EMPTY (R155). -/
def commandAct (issue : State → State) (s : State) : Pos → Option (State → State)
  | .command => if s.mailbox.state = .empty then some issue else none
  | _ => none

/-- A position without behaviour of its own (R197): an argument byte stores, a read-only, view or
unassigned position does nothing, an enable byte that leaves the enable as it was changes nothing
(R111), and neither does the state byte in EMPTY (R159). -/
def registerAct (value : Byte) (s : State) : Pos → Option (State → State)
  | .argument k => some (storeArgument k value)
  | .enable n => if enableBit value = (s.config n).enabled then some id else none
  | .mailboxState => if s.mailbox.state = .empty then some id else none
  | .identity | .revision | .summary | .occupancy | .classifierStatus | .resultCode
  | .resultData _ | .view _ | .sinceLatch | .unassigned => some id
  | .globalNotices | .globalMasks | .viewKind | .viewIndex | .notices _ | .masks _
  | .settleCoast _ | .glitch _ | .faultEnables _ | .command | .staging _ => none

end Sys2Proof.Machine
end

