-- ==== Sys2Proof/Machine/Commands.lean ====
section
/-! DEFINITION. The commands of the mailbox: their code written to the command byte while the
mailbox is EMPTY (R155). -/

namespace Sys2Proof.Machine

/-- A code written to the command byte in EMPTY (R155). -/
def onCommand (issue : State → State) (s : State) : Outcome :=
  .next (noteChange s (onDataByte (commandAct issue s) s))

/-- COMMIT (R155, R164). -/
def execCommit (s : State) : Outcome :=
  onCommand (issueChange (commandCode .commit) (runCommit s.mailbox.args s.port.staging)) s

/-- FETCH_ENTRY (R155, R165). -/
def execFetchEntry (s : State) : Outcome :=
  onCommand (issueNow (commandCode .fetchEntry) (runFetch s.mailbox.args)) s

/-- SUSPEND (R155, R166). -/
def execSuspend (s : State) : Outcome :=
  onCommand (issueChange (commandCode .suspend) (runSuspend s.mailbox.args)) s

/-- RESUME (R155, R167). -/
def execResume (s : State) : Outcome :=
  onCommand (issueChange (commandCode .resume) (runResume s.mailbox.args)) s

/-- RETIRE (R155, R168). -/
def execRetire (s : State) : Outcome :=
  onCommand (issueChange (commandCode .retire) (runRetire s.mailbox.args)) s

/-- CLEAR_CATALOG (R155, R169). -/
def execClearCatalog (s : State) : Outcome :=
  onCommand (issueChange (commandCode .clearCatalog) runClear) s

/-- FIND_TAG (R155, R170). -/
def execFindTag (s : State) : Outcome :=
  onCommand (issueNow (commandCode .findTag) (runFindTag s.mailbox.args)) s

/-- PROBE (R155, R171, R172). -/
def execProbe (s : State) : Outcome := onCommand issueProbe s

/-- REBIND (R155, R175). -/
def execRebind (s : State) : Outcome :=
  onCommand (issueNow (commandCode .rebind) (runRebind s.mailbox.args)) s

/-- CLEAR_FAULT (R155, R176). -/
def execClearFault (s : State) : Outcome :=
  onCommand (issueNow (commandCode .clearFault) (runClearFault s.mailbox.args)) s

/-- RESTART_CORE (R155, R177, R178). -/
def execRestartCore (s : State) : Outcome :=
  onCommand (issueNow (commandCode .restartCore) runRestart) s

/-- NOP (R155, R179). -/
def execNop (s : State) : Outcome :=
  onCommand (issueNow (commandCode .nop) (refuse .ok [])) s

/-- UNKNOWN_COMMAND (R155, R179). A code that is one of the twelve is another command. -/
def execUnknownCommand (code : Byte) (s : State) : Outcome :=
  if (commandOfCode code).isSome then .next s
  else onCommand (issueNow code (refuse .badCommand [code])) s

end Sys2Proof.Machine
end

