-- ==== Sys2Proof/Machine/Passes.lean ====
section
/-! DEFINITION. The commands of the classifier's clock (chapter 3): a step, the completion of a
start, and the held change at the gate's opening. -/

namespace Sys2Proof.Machine

/-- The pass in flight examines the slot at its position (R55). A finished start has no step left. -/
def classifierStep (s : State) : State :=
  match s.classifier.pass with
  | some p => if passFinished p then s else s.withPass (some (examineStep s p))
  | none => s

/-- The completion of a start whose steps have all been taken (R55). -/
def passComplete (c : Completion) (s : State) : State :=
  match s.classifier.pass with
  | some p => if passFinished p then completeStart c p s else s
  | none => s

/-- CLASSIFIER_STEP (R37, R55). -/
def execClassifierStep (s : State) : Outcome := .next (noteChange s (classifierStep s))

/-- PASS_COMPLETE (R55 to R62). -/
def execPassComplete (c : Completion) (s : State) : Outcome :=
  .next (noteChange s (passComplete c s))

/-- HELD_COMMAND_EXECUTE (R62, R157, R158). -/
def execHeldCommandExecute (s : State) : Outcome := .next (noteChange s (executeHeld s))

end Sys2Proof.Machine
end

