-- ==== Sys2Proof/Machine/Reset.lean ====
section
/-! DEFINITION. POWER_ON_RESET. -/

namespace Sys2Proof.Machine

/-- The pins are outside the part and keep their levels through a reset (assumption log 10). -/
def resetKeepingPins (x : Input) : Input := { resetInput with hPin := x.hPin, vPin := x.vPin }

/-- Every block at its power-on value, the serial address taken from ADR (R26, R46, R68, R92, R106,
R136, R152, R180, R192, R193, R204). -/
def powerOnReset (adr : Level) (s : State) : State :=
  { State.reset with
    pending := s.pending
    inputs := mapVec resetKeepingPins s.inputs
    port := resetPort adr
    freeIndex := s.freeIndex }

/-- POWER_ON_RESET (R136, R193). -/
def execPowerOnReset (adr : Level) (s : State) : Outcome := .next (powerOnReset adr s)

end Sys2Proof.Machine
end

