-- ==== Sys2Proof/Machine/Serial.lean ====
section
/-! DEFINITION. The commands of a serial transaction (section 10.1) and the read of the view. -/

namespace Sys2Proof.Machine

/-- ADDRESS_BYTE (R193, R195). -/
def execAddressByte (address : BitVec 7) (direction : Direction) (s : State) : Outcome :=
  .next (noteChange s (takeAddress address direction s))

/-- POINTER_BYTE (R194, R196). -/
def execPointerByte (value : Byte) (s : State) : Outcome :=
  .next (noteChange s (takePointer value s))

/-- VIEW_LATCH (R195, R201). -/
def execViewLatch (cause : ReadCause) (s : State) : Outcome :=
  .next (noteChange s (viewRead cause s))

/-- BYTE_SENT (R195, R196). -/
def execByteSent (acknowledged : Bool) (s : State) : Outcome :=
  .next (noteChange s (takeHostAck acknowledged s))

end Sys2Proof.Machine
end

