-- ==== Sys2Proof/Machine/Sync.lean ====
section
/-! DEFINITION. The commands of the sync pins and of the reference clock (chapters 4 and 5). The
rows that name what an accepted edge brings about are the acceptance of that edge, taken only
where it does bring that about (assumption log 4). -/

namespace Sys2Proof.Machine

/-- An event of the measurement unit of input `n` at `tick`: the unit after it, and its reports to
the tracker. -/
def onUnit (n : InputIx) (tick : Nat) (f : MeasUnit → Measured) (s : State) : State :=
  applyMeasured n tick (f (s.unit n)) s

/-- The tick at which the transition waiting in a pin's filter is accepted: it has then stayed for
its window (R71, R72). With nothing waiting there is no such tick. -/
def acceptTick (pin : Pin) (u : MeasUnit) : Nat :=
  match (filterOf u pin).waiting with
  | some w => w.tick + w.window.toNat
  | none => 0

/-- The tick at which the 8192 ticks after the last accepted edge run out (R76, R78). -/
def expiryTick (u : MeasUnit) : Nat := u.lastHEdge.getD 0 + 8192

/-- The change of a pin at `tick` rejects the pulse waiting in its filter (R71). -/
def pulseRejected (pin : Pin) (tick : Nat) (u : MeasUnit) : Bool :=
  match u.state, (filterOf u pin).waiting with
  | .off, _ => false
  | _, none => false
  | _, some w => tick - w.tick < w.window.toNat

/-- The tick of what the change of a pin at `tick` brings about: of the rejection the change itself,
and of the acceptance it finds overdue the end of the window (R71, assumption log 15). -/
def changeTick (pin : Pin) (tick : Nat) (u : MeasUnit) : Nat :=
  if pulseRejected pin tick u then tick else acceptTick pin u

/-- The line that the acceptance of the waiting H transition closes (R74). -/
def closingLine (u : MeasUnit) : Option ClosedLine :=
  match u.state, waitingHEdge u with
  | .off, _ => none
  | _, none => none
  | _, some t =>
    match hEdgeAt u t with
    | .closes l => some l
    | .opens | .dropped | .late => none

/-- The acceptance of the transition waiting in the pin's filter would close a line that brings a
counter to 4096 (R83, R84). -/
def expiryDue (pin : Pin) (u : MeasUnit) : Bool :=
  match pin with
  | .h =>
    (closingLine u).isSome && isRunning u && (4095 ≤ u.lineCounter || u.vQuiet == 4095)
  | .v => false

/-- How a counter that expires and the closed line are ordered: the free values where one expires
(assumption log 6). -/
def expiryChoice (n : InputIx) (pin : Pin) (s : State) : ExpiryOrder :=
  if expiryDue pin (s.unit n) then
    { first := Config.expiryFirst s.freeIndex, stands := Config.lossStands s.freeIndex
      ringAfter := Config.ringAfter s.freeIndex }
  else { first := true, stands := true, ringAfter := true }

/-- The free values have been used where one expires. -/
def spendChoice (n : InputIx) (pin : Pin) (s : State) : State :=
  if expiryDue pin (s.unit n) then s.nextFree else s

/-- The acceptance of the transition waiting in a filter (R71). -/
def acceptPin (n : InputIx) (pin : Pin) (s : State) : State :=
  onUnit n (acceptTick pin (s.unit n)) (acceptTransition (expiryChoice n pin s) pin)
    (spendChoice n pin s)

/-- A change of a pin's level (R71). A pin that is at the level already has not changed. -/
def movePin (n : InputIx) (pin : Pin) (level : Level) (tick : Nat) (s : State) : State :=
  if s.pinLevel n pin = level then s
  else
    onUnit n (changeTick pin tick (s.unit n))
      (pinChange (expiryChoice n pin s) pin level tick (s.config n).glitch)
      (spendChoice n pin (s.withPin n pin level))

/-! ### When the named rows take place -/

/-- It is the eighth line of the gain count (R79). -/
def gainDue (u : MeasUnit) : Bool :=
  match closingLine u with
  | some _ => u.state == .quiet && 7 ≤ u.gainLines.length
  | none => false

/-- It is the eighth short line of a run (R80). -/
def refillDue (order : ExpiryOrder) (u : MeasUnit) : Bool :=
  match closingLine u with
  | some l =>
    isRunning u && !(l.broad && ringSource order u == .separator) && isShort u l.line
      && 7 ≤ u.shortLines.length
  | none => false

/-- It brings the V pin quiet counter to 4096 (R84). -/
def quietTimeoutDue (u : MeasUnit) : Bool :=
  match closingLine u with
  | some _ => isRunning u && u.vQuiet == 4095
  | none => false

/-- The reports of the acceptance include the loss of vertical activity (R83). -/
def verticalLossDue (order : ExpiryOrder) (u : MeasUnit) : Bool :=
  (acceptTransition order .h u).2.contains .vLost

/-- It is the third broad line of a run, the separator is armed and is the source when the line is
handed to it, and no expiry of the line counter comes before (R83, R84, R86). -/
def separatorEdgeDue (order : ExpiryOrder) (u : MeasUnit) : Bool :=
  match closingLine u with
  | some l =>
    let source := if order.first then vSourceOf (countLine u) else vSourceOf u
    isRunning u && l.broad && u.sepArmed && u.sepRun == 2 && source == .separator
      && !(order.first && 4095 ≤ u.lineCounter)
  | none => false

/-- The next rejection is the 32nd of the open period (R95). -/
def noiseDue (u : MeasUnit) : Bool :=
  match u.period with
  | some p => p.rejections == 31 && !p.faults.noise
  | none => false

/-- The acceptance of the waiting H transition drops it as too close to the last edge (R74). -/
def closeEdgeDropped (u : MeasUnit) : Bool :=
  match u.state, waitingHEdge u with
  | .off, _ => false
  | _, none => false
  | _, some t => hEdgeAt u t == .dropped

/-- The 8192 ticks after the last accepted edge have run out: no transition into the active level
that reached the pin within them is still waiting in the filter (R76). A change of the reference
during the wait may end it or begin it: DESIGN CHOICE (assumption log 33). -/
def expiryStands (u : MeasUnit) : Bool :=
  match u.lastHEdge, waitingHEdge u with
  | none, _ => false
  | some _, none => true
  | some a, some w => a + 8192 ≤ w

/-! ### The commands -/

/-- PIN_TRANSITION (R71 to R73). -/
def execPinTransition (n : InputIx) (pin : Pin) (level : Level) (tick : Nat) (s : State) :
    Outcome :=
  .next (noteChange s (movePin n pin level tick s))

/-- TRANSITION_ACCEPTED (R71, R74, R75, R85, R87, R88). -/
def execTransitionAccepted (n : InputIx) (pin : Pin) (s : State) : Outcome :=
  .next (noteChange s (acceptPin n pin s))

/-- H_ACTIVITY_GAINED (R79, R114). -/
def execHActivityGained (n : InputIx) (s : State) : Outcome :=
  .next (if gainDue (s.unit n) then noteChange s (acceptPin n .h s) else s)

/-- GAIN_COUNT_TIMEOUT (R78). -/
def execGainCountTimeout (n : InputIx) (s : State) : Outcome :=
  .next
    (if (s.unit n).state == .quiet && expiryStands (s.unit n) then
      noteChange s (onUnit n (expiryTick (s.unit n)) (fun u => (gainTimeout u, [])) s)
    else s)

/-- H_ACTIVITY_LOST (R76, R115). -/
def execHActivityLost (n : InputIx) (s : State) : Outcome :=
  .next
    (if isRunning (s.unit n) && expiryStands (s.unit n) then
      noteChange s (onUnit n (expiryTick (s.unit n)) loseHorizontal s)
    else s)

/-- RING_REFILL (R80). -/
def execRingRefill (n : InputIx) (s : State) : Outcome :=
  .next
    (if refillDue (expiryChoice n .h s) (s.unit n) then noteChange s (acceptPin n .h s) else s)

/-- V_ACTIVITY_LOST (R83, R116). -/
def execVActivityLost (n : InputIx) (s : State) : Outcome :=
  .next
    (if verticalLossDue (expiryChoice n .h s) (s.unit n) then
      noteChange s (acceptPin n .h s)
    else s)

/-- VPIN_QUIET_TIMEOUT (R84). -/
def execVpinQuietTimeout (n : InputIx) (s : State) : Outcome :=
  .next (if quietTimeoutDue (s.unit n) then noteChange s (acceptPin n .h s) else s)

/-- SEPARATOR_VERTICAL_EDGE (R86, R87). -/
def execSeparatorVerticalEdge (n : InputIx) (s : State) : Outcome :=
  .next
    (if separatorEdgeDue (expiryChoice n .h s) (s.unit n) then
      noteChange s (acceptPin n .h s)
    else s)

/-- The rejection counted is the 32nd of the open period, by a pulse too short or an edge too
close (R73, R74, R95). -/
def noiseEvent (n : InputIx) (cause : RejectionCause) (s : State) : State :=
  match cause with
  | .glitch pin level tick =>
    if s.pinLevel n pin != level && pulseRejected pin tick (s.unit n) && noiseDue (s.unit n) then
      noteChange s (movePin n pin level tick s)
    else s
  | .closeEdge =>
    if closeEdgeDropped (s.unit n) && noiseDue (s.unit n) then noteChange s (acceptPin n .h s)
    else s

/-- NOISE (R94, R95, R101). -/
def execNoise (n : InputIx) (cause : RejectionCause) (s : State) : Outcome :=
  .next (noiseEvent n cause s)

end Sys2Proof.Machine
end

