-- ==== Sys2Proof/Machine/Writes.lean ====
section
/-! DEFINITION. The commands that are a data byte written at the address pointer, but for the
mailbox's command codes (R194, R197). Each takes place where the byte at the pointer is of its own
kind (assumption log 14). -/

namespace Sys2Proof.Machine

/-- REGISTER_WRITE (R154, R197). -/
def execRegisterWrite (value : Byte) (s : State) : Outcome :=
  .next (noteChange s (onDataByte (registerAct value s) s))

/-- ENABLE_WRITE (R69, R111). -/
def execEnableWrite (value : Byte) (s : State) : Outcome :=
  .next (noteChange s (onDataByte (enableAct true value s) s))

/-- DISABLE_WRITE (R69, R112). -/
def execDisableWrite (value : Byte) (s : State) : Outcome :=
  .next (noteChange s (onDataByte (enableAct false value s) s))

/-- SETTLE_COUNT_WRITE (R119, R137). -/
def execSettleCountWrite (value : Byte) (s : State) : Outcome :=
  .next (noteChange s (onDataByte (settleCoastAct value) s))

/-- COAST_BUDGET_WRITE (R126, R137): the same byte, named for its other half. -/
def execCoastBudgetWrite (value : Byte) (s : State) : Outcome :=
  .next (noteChange s (onDataByte (settleCoastAct value) s))

/-- GLITCH_WINDOW_WRITE (R72, R137). -/
def execGlitchWindowWrite (value : Byte) (s : State) : Outcome :=
  .next (noteChange s (onDataByte (glitchAct value) s))

/-- FAULT_ENABLES_WRITE (R98, R137). -/
def execFaultEnablesWrite (value : Byte) (s : State) : Outcome :=
  .next (noteChange s (onDataByte (faultEnablesAct value) s))

/-- NOTICE_CLEAR (R185). -/
def execNoticeClear (value : Byte) (s : State) : Outcome :=
  .next (noteChange s (onDataByte (noticeAct value) s))

/-- MASK_WRITE (R187). -/
def execMaskWrite (value : Byte) (s : State) : Outcome :=
  .next (noteChange s (onDataByte (maskAct value) s))

/-- VIEW_SELECTOR_WRITE (R200). -/
def execViewSelectorWrite (value : Byte) (s : State) : Outcome :=
  .next (noteChange s (onDataByte (viewSelectorAct value) s))

/-- STAGING_WRITE (R199). -/
def execStagingWrite (value : Byte) (s : State) : Outcome :=
  .next (noteChange s (onDataByte (stagingAct value) s))

/-- ACKNOWLEDGE (R159). The value plays no part (R154). -/
def execAcknowledge (_value : Byte) (s : State) : Outcome :=
  .next (noteChange s (onDataByte (acknowledgeAct s) s))

/-- MAILBOX_WITHDRAW (R160). The value plays no part (R154). -/
def execMailboxWithdraw (_value : Byte) (s : State) : Outcome :=
  .next (noteChange s (onDataByte (withdrawAct s) s))

/-- OVERRUN (R162). The code written is not examined. -/
def execOverrun (_value : Byte) (s : State) : Outcome :=
  .next (noteChange s (onDataByte (overrunAct s) s))

end Sys2Proof.Machine
end

