-- ==== Sys2Proof/Machine/Dispatch.lean ====
section
/-! DEFINITION. One arm per command. -/

namespace Sys2Proof.Machine

def exec (i : Instr) (s : State) : Host.Outcome State Fault Refusal :=
  match i with
  | .powerOnReset adr => Sys2Proof.Machine.execPowerOnReset adr s
  | .pinTransition n pin level tick => Sys2Proof.Machine.execPinTransition n pin level tick s
  | .transitionAccepted n pin => Sys2Proof.Machine.execTransitionAccepted n pin s
  | .hActivityGained n => Sys2Proof.Machine.execHActivityGained n s
  | .gainCountTimeout n => Sys2Proof.Machine.execGainCountTimeout n s
  | .hActivityLost n => Sys2Proof.Machine.execHActivityLost n s
  | .ringRefill n => Sys2Proof.Machine.execRingRefill n s
  | .vActivityLost n => Sys2Proof.Machine.execVActivityLost n s
  | .vpinQuietTimeout n => Sys2Proof.Machine.execVpinQuietTimeout n s
  | .separatorVerticalEdge n => Sys2Proof.Machine.execSeparatorVerticalEdge n s
  | .noise n cause => Sys2Proof.Machine.execNoise n cause s
  | .classifierStep => Sys2Proof.Machine.execClassifierStep s
  | .passComplete completion => Sys2Proof.Machine.execPassComplete completion s
  | .heldCommandExecute => Sys2Proof.Machine.execHeldCommandExecute s
  | .addressByte address direction => Sys2Proof.Machine.execAddressByte address direction s
  | .pointerByte value => Sys2Proof.Machine.execPointerByte value s
  | .registerWrite value => Sys2Proof.Machine.execRegisterWrite value s
  | .enableWrite value => Sys2Proof.Machine.execEnableWrite value s
  | .disableWrite value => Sys2Proof.Machine.execDisableWrite value s
  | .settleCountWrite value => Sys2Proof.Machine.execSettleCountWrite value s
  | .coastBudgetWrite value => Sys2Proof.Machine.execCoastBudgetWrite value s
  | .glitchWindowWrite value => Sys2Proof.Machine.execGlitchWindowWrite value s
  | .faultEnablesWrite value => Sys2Proof.Machine.execFaultEnablesWrite value s
  | .noticeClear value => Sys2Proof.Machine.execNoticeClear value s
  | .maskWrite value => Sys2Proof.Machine.execMaskWrite value s
  | .viewSelectorWrite value => Sys2Proof.Machine.execViewSelectorWrite value s
  | .stagingWrite value => Sys2Proof.Machine.execStagingWrite value s
  | .viewLatch cause => Sys2Proof.Machine.execViewLatch cause s
  | .acknowledge value => Sys2Proof.Machine.execAcknowledge value s
  | .mailboxWithdraw value => Sys2Proof.Machine.execMailboxWithdraw value s
  | .overrun value => Sys2Proof.Machine.execOverrun value s
  | .commit => Sys2Proof.Machine.execCommit s
  | .fetchEntry => Sys2Proof.Machine.execFetchEntry s
  | .suspend => Sys2Proof.Machine.execSuspend s
  | .resume => Sys2Proof.Machine.execResume s
  | .retire => Sys2Proof.Machine.execRetire s
  | .clearCatalog => Sys2Proof.Machine.execClearCatalog s
  | .findTag => Sys2Proof.Machine.execFindTag s
  | .probe => Sys2Proof.Machine.execProbe s
  | .rebind => Sys2Proof.Machine.execRebind s
  | .clearFault => Sys2Proof.Machine.execClearFault s
  | .restartCore => Sys2Proof.Machine.execRestartCore s
  | .nop => Sys2Proof.Machine.execNop s
  | .unknownCommand code => Sys2Proof.Machine.execUnknownCommand code s
  | .byteSent acknowledged => Sys2Proof.Machine.execByteSent acknowledged s

end Sys2Proof.Machine
end

