-- ==== Sys2Proof/Safety.lean ====
section
/-! DEFINITION. The laws that every step keeps, in the terms of the manual, the frames that say what
a command leaves alone, what the host reads, and the reference search against which a pass is
judged. -/

namespace Sys2Proof.Machine

/-! ### The catalog (R1, R3, R6, R7) -/

/-- The bounds of a window lie in a range and in order (R1). -/
def Window.legal (lo hi : Nat) (w : Window) : Prop := lo ≤ w.min ∧ w.min ≤ w.max ∧ w.max ≤ hi

/-- The ranges of the presentation block (R3). -/
def Presentation.legal (p : Presentation) : Prop :=
  1 ≤ p.totalPx ∧ p.totalPx ≤ 8191 ∧ 1 ≤ p.activePx ∧ p.activePx ≤ p.totalPx
    ∧ 1 ≤ p.activeLines ∧ p.activeLines ≤ 4095 ∧ p.firstPx ≤ p.totalPx - p.activePx
    ∧ p.firstLine ≤ 4095

/-- The values of an entry's fields (R1). -/
def Entry.legal (e : Entry) : Prop :=
  1 ≤ e.tag ∧ e.tag ≤ 65535 ∧ e.rank ≤ 15
    ∧ e.hPeriod.legal 1280 65528 ∧ e.vLines.legal 16 4095
    ∧ (∀ w, e.hWidth = some w → w.legal 0 65535) ∧ (∀ w, e.vWidth = some w → w.legal 0 255)
    ∧ ∀ p, e.presentation = some p → p.legal

/-- Every slot index, ascending. -/
def allSlots : List SlotIx := List.finRange 64

/-- The number of non-FREE slots. -/
def occupied (c : Catalog) : Nat := allSlots.countP fun i => c.slots[i].state != .free

/-- The catalog's laws: a FREE slot is empty at generation 0 and a non-FREE slot holds a legal entry
at another generation (R1, R5), the occupancy count is the number of non-FREE slots (R7), and the
tag map holds one association for each non-FREE slot, from its tag to its index, with no tag twice
(R6). -/
def CatalogLaw (s : State) : Prop :=
  (∀ i, ((s.slot i).state = .free ↔ (s.slot i).generation = 0)
      ∧ ((s.slot i).state = .free → (s.slot i).entry = zeroEntry)
      ∧ ((s.slot i).state ≠ .free → (s.slot i).entry.legal))
    ∧ s.catalog.occupancy = occupied s.catalog
    ∧ s.catalog.tagMap.Pairwise (fun a b => a.1 < b.1)
    ∧ ∀ t i, (t, i) ∈ s.catalog.tagMap ↔ (s.slot i).state ≠ .free ∧ (s.slot i).entry.tag = t

/-! ### The gate (R60, R61) -/

/-- The gate's law: no request is started more than three times, the gate is closed exactly while a
third start is in flight, and a third start is not disturbed. -/
def GateLaw (s : State) : Prop :=
  match s.classifier.pass with
  | none => s.classifier.gate = .opened
  | some p =>
    1 ≤ p.start ∧ p.start ≤ 3 ∧ (s.classifier.gate = .closed ↔ p.start = 3)
      ∧ (p.start = 3 → p.disturbed = false)

/-! ### The trackers (R104, R108, R112, R145) -/

/-- BOUND or COASTING. -/
def isBoundState (x : TrackerState) : Prop := x = .bound ∨ x = .coasting

/-- PENDING, BOUND, COASTING or UNMATCHED: the states with a held stable set (R108). -/
def isSettledState (x : TrackerState) : Prop :=
  x = .pending ∨ x = .bound ∨ x = .coasting ∨ x = .unmatched

/-- What one tracker may hold in its state (R108), with its latch (R104), its enable (R111, R112),
its recall reference (R145) and the request that waits for it (R109, R110). -/
def TrackerLawAt (n : InputIx) (s : State) : Prop :=
  let t := s.tracker n
  ((s.config n).enabled = false ↔ t.state = .idle)
    ∧ 1 ≤ (s.config n).settle.toNat
    ∧ (t.held.isSome → isSettledState t.state)
    ∧ (t.settleRef.isSome → t.state = .settling)
    ∧ (t.settleCounter ≠ 0 → t.state = .settling) ∧ t.settleCounter ≤ 15
    ∧ (t.coast ≠ 0 → t.state = .coasting) ∧ t.coast ≤ (s.config n).budget.toNat
    ∧ (t.binding.isSome ↔ isBoundState t.state)
    ∧ (t.recallRef.isSome → t.state ≠ .idle ∧ ¬ isBoundState t.state)
    ∧ (t.recheck = true → t.state = .unmatched)
    ∧ (t.latch.isEmpty = false ↔ t.state = .fault)
    ∧ ∀ q, s.request (inputRequester n) = some q →
        q.seq = some t.reqSeq
          ∧ ((t.state = .pending ∧ (q.kind = .search ∨ q.kind = .verifyRecall))
            ∨ (isBoundState t.state ∧ q.kind = .verifyBound))

/-- Every tracker keeps its law. -/
def TrackerLaw (s : State) : Prop := ∀ n, TrackerLawAt n s

/-! ### The measurement units (R80 to R88, R95) -/

/-- A line's period lies in 160..8191 ticks and its width is at most half of it (R74, R75, R81). -/
def Line.legal (l : Line) : Prop := 160 ≤ l.period ∧ l.period ≤ 8191 ∧ 2 * l.width ≤ l.period

/-- The ranges of a published set (R81, R87, R88). -/
def SyncSet.legal (m : SyncSet) : Prop :=
  1280 ≤ m.hPeriod ∧ m.hPeriod ≤ 65528 ∧ m.hWidth < m.hPeriod ∧ 16 ≤ m.vLines
    ∧ m.vLines ≤ 4095 ∧ m.vWidth ≤ 255

/-- A period is open in PRIMING and PUBLISHING (R87). -/
def isOpenState (x : UnitState) : Prop := x = .priming ∨ x = .publishing

/-- What one measurement unit may hold in its state. -/
def MeasUnit.law (u : MeasUnit) : Prop :=
  (u.ring.length = if isRunning u then 8 else 0)
    ∧ (∀ l ∈ u.ring, l.legal) ∧ (∀ l ∈ u.gainLines, l.legal) ∧ (∀ l ∈ u.shortLines, l.legal)
    ∧ u.gainLines.length ≤ 7 ∧ (u.gainLines ≠ [] → u.state = .quiet)
    ∧ u.shortLines.length ≤ 7 ∧ (u.shortLines ≠ [] → isRunning u)
    ∧ u.lineCounter ≤ 4095 ∧ (u.lineCounter ≠ 0 → isRunning u)
    ∧ u.vQuiet ≤ 4096 ∧ (u.vQuiet ≠ 4096 → isRunning u)
    ∧ u.sepRun ≤ 4095 ∧ (u.sepRun ≠ 0 → isRunning u)
    ∧ (∀ r, u.runStart = some r → r.count ≤ 4095)
    ∧ (∀ o, u.line = some o → u.lastHEdge = some o.openTick ∧ o.openCount ≤ 4095)
    ∧ (isRunning u → u.lastHEdge.isSome)
    ∧ (u.period.isSome ↔ isOpenState u.state)
    ∧ (∀ p, u.period = some p → p.rejections ≤ 255 ∧ (p.faults.noise ↔ 32 ≤ p.rejections))
    ∧ (u.halfLineRef.isSome ↔ u.state = .publishing)
    ∧ (u.state = .off → u.hFilter.waiting = none ∧ u.vFilter.waiting = none)
    ∧ ∀ m, u.lastSet = some m → m.sync.legal

/-- Every measurement unit keeps its law. -/
def UnitLaw (s : State) : Prop := ∀ n, (s.unit n).law

/-! ### Tracker and unit together (R113, R114, R130, R132) -/

/-- A unit is OFF exactly while its tracker is IDLE, a tracker in SILENT has its unit in QUIET, a
unit in QUIET has its tracker in SILENT or FAULT, and a settled tracker has a held stable set and a
last published set. -/
def LinkLaw (s : State) : Prop :=
  ∀ n, ((s.unit n).state = .off ↔ (s.tracker n).state = .idle)
    ∧ ((s.tracker n).state = .silent → (s.unit n).state = .quiet)
    ∧ ((s.unit n).state = .quiet →
        (s.tracker n).state = .silent ∨ (s.tracker n).state = .fault)
    ∧ (isSettledState (s.tracker n).state →
        (s.tracker n).held.isSome ∧ (s.unit n).lastSet.isSome)

/-! ### Bindings (R16, R22, R138, R145) -/

/-- What the pass in flight has found, while no catalog change has disturbed it, is ACTIVE in the
catalog as it stands (R22, R37, R57). -/
def FoundActive (s : State) : Prop :=
  ∀ p, s.classifier.pass = some p → p.disturbed = false →
    (∀ t, p.tally = some t → ∀ c ∈ t.candidates, (s.slot c.slot).state = .active)
      ∧ ∀ i g, p.verdict = some (.recallPass i g) → (s.slot i).state = .active

/-- No binding or recall reference names a FREE slot (R16), the slot of a binding is the first of
its candidates (R138), and every bind_count is the number of inputs whose binding names the slot
(R22). -/
def BindingLaw (s : State) : Prop :=
  (∀ n b, (s.tracker n).binding = some b →
      (s.slot b.slot).state ≠ .free ∧ b.candidates.head? = some b.slot)
    ∧ (∀ n r, (s.tracker n).recallRef = some r → (s.slot r.slot).state ≠ .free)
    ∧ (∀ i, (s.slot i).bindCount = (inputsBoundTo i s).length)
    ∧ FoundActive s

/-! ### The mailbox and the probe (R64, R153, R163, R172) -/

/-- The pass in flight is the probe's, and is current. -/
def probePassCurrent (s : State) : Prop :=
  ∃ p, s.classifier.pass = some p ∧ p.requester = probeRequester ∧ p.probeCurrent = some true

/-- The mailbox's laws: the accepted copy is absent in EMPTY alone (R153), only a catalog change is
held (R157), the result code is absent from acceptance to completion (R163), and a PROBE is WAITING
exactly while its request or its current pass, an undisturbed first start, is outstanding (R64,
R172). -/
def MailboxLaw (s : State) : Prop :=
  (s.mailbox.accepted = none ↔ s.mailbox.state = .empty)
    ∧ (∀ a, s.mailbox.accepted = some a → s.mailbox.state = .held → (changeOf a).isSome)
    ∧ (∀ a, s.mailbox.accepted = some a → s.mailbox.state = .waiting →
        a.code = commandCode .probe)
    ∧ (s.mailbox.state = .held ∨ s.mailbox.state = .waiting →
        s.mailbox.result = none ∧ s.mailbox.data = Vector.replicate 21 0)
    ∧ (s.mailbox.state = .done → s.mailbox.result.isSome)
    ∧ (s.mailbox.state = .waiting ↔
        (s.request probeRequester).isSome ∨ probePassCurrent s)
    ∧ ¬ ((s.request probeRequester).isSome ∧ probePassCurrent s)
    ∧ (∀ q, s.request probeRequester = some q → q.kind = .search ∧ q.seq = none)
    ∧ (∀ p, s.classifier.pass = some p → p.requester = probeRequester → p.kind = .search)
    ∧ ∀ p, s.classifier.pass = some p → p.requester = probeRequester →
        p.probeCurrent = some true → p.disturbed = false ∧ p.start = 1

/-! ### The view latch (R203) -/

/-- While the since-latch indicator is clear, the snapshot is that of the followed record as it
stands; a latch with a bad selector follows no record and its indicator is clear. -/
def ViewLaw (s : State) : Prop :=
  match s.port.follows with
  | none => s.port.since = false
  | some r => s.port.since = false → s.port.snapshot = snapshotOf s (some r)

/-! ### Frames -/

/-- `t` is `s` but for the host port. -/
def portOnly (s t : State) : Prop := { t with port := s.port } = s

/-- Every input but `n` is as it was. -/
def otherInputsKept (n : InputIx) (s t : State) : Prop := ∀ m, m ≠ n → t.input m = s.input m

/-- Every request slot but `r` is as it was, and so are the rotation pointer, the pass in flight, the
gate and the tick of the last end of a pass. -/
def otherRequestsKept (r : Requester) (s t : State) : Prop :=
  (∀ q, q ≠ r → t.request q = s.request q) ∧ t.classifier.pointer = s.classifier.pointer
    ∧ t.classifier.pass = s.classifier.pass ∧ t.classifier.gate = s.classifier.gate
    ∧ t.classifier.endTick = s.classifier.endTick

/-- Every flag but those of input `n` is as it was, and so is every mask. -/
def otherNoticesKept (n : InputIx) (s t : State) : Prop :=
  (∀ m : InputIx, m ≠ n → t.notices.flags[m] = s.notices.flags[m])
    ∧ t.notices.masks = s.notices.masks ∧ t.notices.globalFlags = s.notices.globalFlags
    ∧ t.notices.globalMasks = s.notices.globalMasks

/-- Every slot but `i` is as it was, and so are the occupancy count and the tag map. -/
def otherSlotsKept (i : SlotIx) (s t : State) : Prop :=
  (∀ j, j ≠ i → t.slot j = s.slot j) ∧ t.catalog.occupancy = s.catalog.occupancy
    ∧ t.catalog.tagMap = s.catalog.tagMap

/-- The host port is as it was but for the since-latch indicator (R203). -/
def portKept (s t : State) : Prop := t.port = { s.port with since := t.port.since }

/-- The port after a data byte of a write: the pointer moves on by 1, the byte is acknowledged, and
nothing else changes but the since-latch indicator (R194, R203). -/
def portAdvanced (s t : State) : Prop :=
  t.port = { s.port with pointer := s.port.pointer + 1, acked := true, since := t.port.since }

/-- The pins and the configuration of input `n` are as they were. -/
def configKept (n : InputIx) (s t : State) : Prop :=
  t.config n = s.config n ∧ t.pinLevel n = s.pinLevel n

/-! ### What commands do, in the manual's terms -/

/-- A command code may be accepted: the next data byte goes to the command byte and the mailbox is
EMPTY (R155). -/
def commandReady (s : State) : Prop :=
  s.port.bus = .dataNext ∧ windowPos s.port.pointer = .command ∧ s.mailbox.state = .empty

/-- The mailbox and the global notices after the completion of a command accepted with the copy `a`
(R155, R156). -/
def completedWith (a : Accepted) (code : ResultCode) (data : List Byte) (s t : State) : Prop :=
  t.mailbox =
      { state := .done, command := a.code, args := s.mailbox.args, accepted := some a
        result := some code, data := padTo 21 data }
    ∧ t.notices.globalFlags = s.notices.globalFlags ||| globalNoticeBit .mailboxDone
    ∧ t.notices.globalMasks = s.notices.globalMasks ∧ t.notices.masks = s.notices.masks

/-- The accepted copy of a command without a staging image (R153). -/
def copyOf (c : Command) (s : State) : Accepted :=
  { code := commandCode c, args := s.mailbox.args, image := none }

/-- Configuration, pins and measurement unit of every input are as they were. -/
def unitsKept (s t : State) : Prop :=
  ∀ n, t.config n = s.config n ∧ t.pinLevel n = s.pinLevel n ∧ t.unit n = s.unit n

/-- The classifier once a catalog change has marked the pass in flight (R18). -/
def passDisturbed (c : Classifier) : Classifier :=
  { c with pass := c.pass.map fun p => { p with disturbed := true } }

/-- Every unmatched input is marked for a recheck, and the inputs are as they were otherwise (R19). -/
def recheckMarked (s t : State) : Prop :=
  ∀ n, t.input n =
    { s.input n with
      tracker :=
        { s.tracker n with
          recheck := (s.tracker n).recheck || (s.tracker n).state == .unmatched } }

/-- The two marks of a catalog change, and nothing else, at the classifier and the inputs (R18,
R19). -/
def marksHanded (s t : State) : Prop :=
  t.classifier = passDisturbed s.classifier ∧ recheckMarked s t

/-- The field checks of R10, each by its code, spelled on the bytes of the staged image (R208, R209).
Check 15 is that of an image which has passed check 13. -/
def fieldFails (img : Vector Byte 32) (code : Nat) : Bool :=
  let byte (k : Nat) : Nat := (byteAt img k).toNat
  let word (k : Nat) : Nat := byte k + 256 * byte (k + 1)
  let bits (k lo : Nat) : Nat := byte k / 2 ^ lo % 4
  let block : Bool := bits 14 4 = 1
  match code with
  | 1 => word 4 = 0
  | 2 => 15 < byte 3
  | 3 => word 6 < 1280 || 65528 < word 6 || word 8 < 1280 || 65528 < word 8 || word 8 < word 6
  | 4 => word 10 < 16 || 4095 < word 10 || word 12 < 16 || 4095 < word 12 || word 12 < word 10
  | 5 => bits 14 0 = 2 || bits 14 0 = 3 || (bits 14 0 = 1 && word 18 < word 16)
  | 6 => bits 14 2 = 2 || bits 14 2 = 3 || (bits 14 2 = 1 && byte 21 < byte 20)
  | 7 => bits 15 0 = 3
  | 8 => bits 15 2 = 3
  | 9 => bits 15 4 = 3
  | 10 => bits 15 6 = 3
  | 11 => bits 14 4 = 2 || bits 14 4 = 3
  | 12 => block && (word 22 = 0 || 8191 < word 22)
  | 13 => block && (word 24 = 0 || word 22 < word 24)
  | 14 => block && (word 26 = 0 || 4095 < word 26)
  | 15 => block && word 22 < word 24 + word 28
  | 16 => block && 4095 < word 30
  | _ => false

/-- The staged image passes every check of R10. -/
def fieldsPass (img : Vector Byte 32) : Prop := ∀ c, c ≤ 16 → fieldFails img c = false

/-- `code` is that of the first check of R10 which the staged image fails. -/
def firstFieldFailing (img : Vector Byte 32) (code : Nat) : Prop :=
  fieldFails img code = true ∧ ∀ c, c < code → fieldFails img c = false

/-- A COMMIT of image `img` with slot argument `slot` is refused with `code` and `data`: the slot is
checked first, then the fields, then the tag (R8 to R11, R164). -/
def commitRefused (slot : Nat) (img : Vector Byte 32) (s : State) (code : ResultCode)
    (data : List Byte) : Prop :=
  (64 ≤ slot ∧ code = .badSlot ∧ data = [])
    ∨ (slot < 64 ∧ code = .badRecord ∧ ∃ c, firstFieldFailing img c ∧ data = [loByte c])
    ∨ (slot < 64 ∧ fieldsPass img ∧ code = .duplicateTag
        ∧ ∃ j, ((stagedEntry img).tag, j) ∈ s.catalog.tagMap ∧ j.val ≠ slot
          ∧ data = [slotByte j])

/-- The last-loss record a release writes (R144, R146). -/
def lossOf (reason : Reason) (b : Binding) : Option LastLoss :=
  some { reason := reason, slot := b.slot, generation := b.generation }

/-- The catalog after a commit of entry `e` to slot `i` (R12). -/
def entryInstalled (i : SlotIx) (e : Entry) (s t : State) : Prop :=
  t.slot i =
      { state := if (s.slot i).state = .free then .active else (s.slot i).state
        generation :=
          if (s.slot i).state = .free ∨ (s.slot i).generation = 255 then 1
          else (s.slot i).generation + 1
        bindCount := if (s.slot i).state = .free then 0 else (s.slot i).bindCount
        entry := e }
    ∧ (∀ j, j ≠ i → t.slot j = s.slot j)
    ∧ t.catalog.occupancy = s.catalog.occupancy + (if (s.slot i).state = .free then 1 else 0)
    ∧ ∀ tag j, (tag, j) ∈ t.catalog.tagMap ↔
        (j = i ∧ tag = e.tag) ∨ (j ≠ i ∧ (tag, j) ∈ s.catalog.tagMap)

/-- The submission of request `q` by requester `r` (R49, R50, R54): it waits in its slot while the
classifier is busy, and is granted at once if the classifier is idle and no other request waits. -/
def requestSubmitted (r : Requester) (q : Request) (s t : State) : Prop :=
  (s.classifier.pass ≠ none →
      t.classifier =
        { s.classifier with requests := s.classifier.requests.set r (some q) })
    ∧ (s.classifier.pass = none → (∀ k, k ≠ r → s.request k = none) →
      t.classifier =
        { requests := Vector.replicate 7 none
          pointer := r + 1
          pass := some
            { requester := r, kind := q.kind, set := q.set, seq := q.seq
              probeCurrent := if r = probeRequester then some true else none
              start := 1, disturbed := false, position := 0
              tally := if q.kind = .search then some emptyTally else none
              verdict := none }
          gate := s.classifier.gate, endTick := s.classifier.endTick })

/-- The submission at `tick` of a bound input's verify of the set `m` (R58, R110, R123): as any other,
but where a completion of this very tick has granted the verify that the input had waiting, the newer
one takes its place in the pass (assumption log 34). -/
def verifySubmitted (n : InputIx) (tick : Nat) (m : MeasSet) (s t : State) : Prop :=
  let q : Request :=
    { kind := .verifyBound, set := .measured m, seq := some (s.tracker n).reqSeq }
  (∀ p, s.classifier.pass = some p → s.classifier.endTick = some tick →
      s.request (inputRequester n) = none → p.requester = inputRequester n →
      p.seq = some (s.tracker n).reqSeq → p.start = 1 →
      t.classifier =
        { s.classifier with
          pass := some
            { requester := inputRequester n, kind := .verifyBound, set := .measured m
              seq := some (s.tracker n).reqSeq, probeCurrent := none, start := 1
              disturbed := p.disturbed, position := 0, tally := none, verdict := none } })
    ∧ ((∀ p, s.classifier.pass = some p →
          s.classifier.endTick ≠ some tick ∨ s.request (inputRequester n) ≠ none
            ∨ p.requester ≠ inputRequester n ∨ p.seq ≠ some (s.tracker n).reqSeq
            ∨ p.start ≠ 1) →
      requestSubmitted (inputRequester n) q s t)

/-- A release of the binding `b` of input `n` (R146), at the catalog and the notice unit; `raised`
are the notice bits the event sets, LOST among them. -/
def bindingReleased (n : InputIx) (b : Binding) (raised : BitVec 6) (s t : State) : Prop :=
  t.slot b.slot = { s.slot b.slot with bindCount := (s.slot b.slot).bindCount - 1 }
    ∧ otherSlotsKept b.slot s t
    ∧ t.notices.flags[n] = s.notices.flags[n] ||| raised

/-- What a RETIRE or CLEAR_CATALOG does to an input whose binding `b` it releases (R127): PENDING with a
search on the held stable set, which waits in classifier `c` or has been granted undisturbed. -/
def retiredInput (n : InputIx) (b : Binding) (s t : State) (c : Classifier) : Prop :=
  t.tracker n =
      { s.tracker n with
        state := .pending, coast := 0, binding := none, recallRef := none
        lastLoss := lossOf .entryRetired b, lossTick := none
        reqSeq := (s.tracker n).reqSeq + 1 }
    ∧ t.notices.flags[n] = s.notices.flags[n] ||| inputNoticeBit .lost
    ∧ ∀ m, (s.tracker n).held = some m →
      let q : Request :=
        { kind := .search, set := .measured m, seq := some ((s.tracker n).reqSeq + 1) }
      c.requests[inputRequester n] = some q
        ∨ c.pass = some (grantedPass (inputRequester n) q)

/-- A pass in flight is disturbed and stays the one in flight (R18). -/
def flightDisturbed (s : State) (c : Classifier) : Prop :=
  ∀ p, s.classifier.pass = some p →
    c.pass = some { p with disturbed := true } ∧ c.pointer = s.classifier.pointer

/-- The retire of the non-FREE slot `i` (R16, R21, R148); `c` is the classifier the change leaves. -/
def slotRetired (i : SlotIx) (s t : State) (c : Classifier) : Prop :=
  t.slot i = { state := .free, generation := 0, bindCount := 0, entry := zeroEntry }
    ∧ (∀ j, j ≠ i → t.slot j = s.slot j)
    ∧ t.catalog.occupancy = s.catalog.occupancy - 1
    ∧ (∀ tag j, (tag, j) ∈ t.catalog.tagMap ↔ j ≠ i ∧ (tag, j) ∈ s.catalog.tagMap)
    ∧ (∀ n b, (s.tracker n).binding = some b → b.slot = i → retiredInput n b s t c)
    ∧ (∀ n, boundTo (s.tracker n) i = false →
        t.tracker n =
            { s.tracker n with
              recallRef :=
                if (s.tracker n).recallRef.map Recall.slot = some i then none
                else (s.tracker n).recallRef
              recheck := (s.tracker n).recheck || (s.tracker n).state == .unmatched }
          ∧ t.notices.flags[n] = s.notices.flags[n])
    ∧ flightDisturbed s c
    ∧ ∀ q, (∀ n, q = inputRequester n → boundTo (s.tracker n) i = false) →
        s.classifier.pass ≠ none → c.requests[q] = s.classifier.requests[q]

/-- CLEAR_CATALOG (R17); `c` is the classifier the change leaves. -/
def catalogCleared (s t : State) (c : Classifier) : Prop :=
  (∀ i, t.slot i = { state := .free, generation := 0, bindCount := 0, entry := zeroEntry })
    ∧ t.catalog.occupancy = 0 ∧ t.catalog.tagMap = []
    ∧ (∀ n b, (s.tracker n).binding = some b → retiredInput n b s t c)
    ∧ (∀ n, (s.tracker n).binding = none →
        t.tracker n =
            { s.tracker n with
              recallRef := none
              recheck := (s.tracker n).recheck || (s.tracker n).state == .unmatched }
          ∧ t.notices.flags[n] = s.notices.flags[n])
    ∧ flightDisturbed s c
    ∧ ∀ q, (∀ n, q = inputRequester n → (s.tracker n).binding = none) →
        s.classifier.pass ≠ none → c.requests[q] = s.classifier.requests[q]

/-- The completion of the held command with `code` and `data` (R156, R157): the mailbox is DONE with
its copy and command byte as they were, MAILBOX_DONE is set, and nothing changes at the port but the
since-latch indicator. The per-input flags are not spoken of. -/
def heldCompleted (code : ResultCode) (data : List Byte) (s t : State) : Prop :=
  t.mailbox = { s.mailbox with state := .done, result := some code, data := padTo 21 data }
    ∧ t.notices.globalFlags = s.notices.globalFlags ||| globalNoticeBit .mailboxDone
    ∧ t.notices.globalMasks = s.notices.globalMasks ∧ t.notices.masks = s.notices.masks
    ∧ portKept s t

/-- A held change is refused with `code` and `data` at its execution (R157): it is no catalog change,
and the arbitration that the opening of the gate left to it runs if the classifier is idle (R62). -/
def heldRefused (code : ResultCode) (data : List Byte) (s : State) : Prop :=
  ∃ t, exec .heldCommandExecute s = .next t ∧ heldCompleted code data s t
    ∧ t.classifier = arbitrateClassifier s.classifier ∧ t.catalog = s.catalog
    ∧ t.inputs = s.inputs ∧ t.notices.flags = s.notices.flags ∧ t.freeIndex = s.freeIndex

/-- A set of notice bits of input `n` is raised and no other notice or mask changes. -/
def noticesRaised (n : InputIx) (raised : BitVec 6) (s t : State) : Prop :=
  t.notices.flags[n] = s.notices.flags[n] ||| raised ∧ otherNoticesKept n s t

/-- The pass in flight has taken all its steps and is still wanted by its requester (R55). -/
def currentAtEnd (p : Pass) (s : State) : Prop :=
  s.classifier.pass = some p ∧ passLength p.kind ≤ p.position
    ∧ match requesterInput p.requester with
      | some n => p.seq = some (s.tracker n).reqSeq
      | none => p.probeCurrent = some true

/-- The classifier after the end of pass `p` at `tick`, `requests` being the slots as the receiver of the result
has left them (R52, R55): idle, then arbitration. The end of a third start opens the gate, and with a
held change taken first the arbitration waits for it (R62, assumption log 5). -/
def passEnded (p : Pass) (order : OpeningOrder) (tick : Nat) (requests : Vector (Option Request) 7)
    (s t : State) : Prop :=
  let idle : Classifier :=
    { s.classifier with
      requests := requests, pass := none
      gate := if p.start = 3 then .opened else s.classifier.gate
      endTick := some tick }
  t.classifier =
    if p.start = 3 ∧ s.mailbox.state = .held ∧ order = .heldFirst then idle
    else arbitrateClassifier idle

/-! ### What a unit's events do, in the manual's terms -/

/-- A detection of kind `k` at input `n`, made at `tick`, reaches its tracker (R98, R101, R102, R105,
R130): a disabled kind latches nothing; an enabled one joins the latch, takes the tracker to FAULT, a
binding released with reason FAULT first, or finds it there, and sets the FAULT notice. Without a
binding the last-loss record stays, but for a record that a result of the same tick wrote, which then
names FAULT (assumption log 31). -/
def detectionTaken (n : InputIx) (k : FaultKind) (tick : Nat) (s t : State) : Prop :=
  ((s.config n).enables.has k = false →
      t.tracker n = s.tracker n ∧ t.catalog = s.catalog ∧ t.notices = s.notices
        ∧ t.classifier = s.classifier)
    ∧ ((s.config n).enables.has k = true → (s.tracker n).state ≠ .fault →
      t.tracker n =
          { s.tracker n with
            state := .fault, held := none, settleRef := none, settleCounter := 0
            coast := 0, recheck := false, binding := none
            latch := (s.tracker n).latch.add k
            reqSeq := (s.tracker n).reqSeq + 1
            recallRef := if (s.tracker n).binding = none then (s.tracker n).recallRef else none
            lastLoss :=
              match (s.tracker n).binding with
              | some b => lossOf .fault b
              | none =>
                if (s.tracker n).lossTick = some tick then
                  (s.tracker n).lastLoss.map fun l => { l with reason := .fault }
                else (s.tracker n).lastLoss
            lossTick :=
              if (s.tracker n).binding = none then (s.tracker n).lossTick else none }
        ∧ t.request (inputRequester n) = none ∧ otherRequestsKept (inputRequester n) s t
        ∧ (∀ b, (s.tracker n).binding = some b →
            bindingReleased n b (inputNoticeBit .lost ||| inputNoticeBit .fault) s t
              ∧ otherNoticesKept n s t)
        ∧ ((s.tracker n).binding = none →
            t.catalog = s.catalog ∧ noticesRaised n (inputNoticeBit .fault) s t))
    ∧ ((s.config n).enables.has k = true → (s.tracker n).state = .fault →
      t.tracker n = { s.tracker n with latch := (s.tracker n).latch.add k }
        ∧ noticesRaised n (inputNoticeBit .fault) s t ∧ t.catalog = s.catalog
        ∧ t.classifier = s.classifier)

/-- A fault of any enabled kind detected at `tick`, the event at which a result has just released the
binding `b` of input `n`, takes the tracker to FAULT from the state `t` that the result left (R105,
R130): the last-loss record names FAULT with the binding's slot and generation, the recall reference
stays as the result's release left it, LOST is not set again, and there is no claim (assumption log
31). -/
def faultJoinsResult (n : InputIx) (b : Binding) (tick : Nat) (t : State) : Prop :=
  ∀ k, (t.config n).enables.has k = true →
    ∃ f, takeReport n tick t (.detected k) = f
      ∧ (f.tracker n).state = .fault ∧ (f.tracker n).latch = (t.tracker n).latch.add k
      ∧ (f.tracker n).binding = none ∧ (f.tracker n).recallRef = (t.tracker n).recallRef
      ∧ (f.tracker n).lastLoss = lossOf .fault b ∧ f.request (inputRequester n) = none
      ∧ noticesRaised n (inputNoticeBit .fault) t f ∧ f.catalog = t.catalog

/-- A loss of horizontal activity reaches the tracker of input `n` (R115, R131, R146): ignored in FAULT;
otherwise SILENT, the request withdrawn, and a binding released with SIGNAL_LOST first. -/
def horizontalLossTaken (n : InputIx) (s t : State) : Prop :=
  ((s.tracker n).state = .fault →
      t.tracker n = s.tracker n ∧ t.catalog = s.catalog ∧ t.notices = s.notices
        ∧ t.classifier = s.classifier)
    ∧ ((s.tracker n).state ≠ .fault →
      t.tracker n =
          { s.tracker n with
            state := .silent, held := none, settleRef := none, settleCounter := 0, coast := 0
            recheck := false, binding := none, reqSeq := (s.tracker n).reqSeq + 1
            recallRef :=
              match (s.tracker n).binding with
              | some b => some { slot := b.slot, generation := b.generation }
              | none => (s.tracker n).recallRef
            lastLoss :=
              match (s.tracker n).binding with
              | some b => lossOf .signalLost b
              | none => (s.tracker n).lastLoss
            lossTick :=
              if (s.tracker n).binding = none then (s.tracker n).lossTick else none }
        ∧ t.request (inputRequester n) = none ∧ otherRequestsKept (inputRequester n) s t
        ∧ (∀ b, (s.tracker n).binding = some b →
            bindingReleased n b (inputNoticeBit .lost) s t ∧ otherNoticesKept n s t)
        ∧ ((s.tracker n).binding = none → t.catalog = s.catalog ∧ t.notices = s.notices))

/-- A unit after a loss of horizontal activity (R76): QUIET, with its measurement discarded, and its
references, sequence, last published set and filters kept. That the times of the last accepted edges
go with the rest is the model's deduction (assumption log 9). -/
def quietUnit (u : MeasUnit) : MeasUnit :=
  { u with
    state := .quiet, lastHEdge := none, prevHEdge := none, line := none
    gainLines := [], ring := [], shortLines := [], lineCounter := 0, vQuiet := 4096
    sepRun := 0, sepArmed := true, runStart := none, period := none
    halfLineRef := none }

/-- A loss of vertical activity reaches the tracker of input `n` (R116, R131, R146): ignored in FAULT; in
SETTLING the count starts again and nothing else changes; in PENDING, BOUND, COASTING and UNMATCHED the
tracker goes to SETTLING with counter 0 and no reference, the request withdrawn, and a binding released
with SIGNAL_LOST first. -/
def verticalLossTaken (n : InputIx) (s t : State) : Prop :=
  ((s.tracker n).state = .fault →
      t.tracker n = s.tracker n ∧ t.catalog = s.catalog ∧ t.notices = s.notices
        ∧ t.classifier = s.classifier)
    ∧ ((s.tracker n).state = .settling →
      t.tracker n = { s.tracker n with settleCounter := 0, settleRef := none }
        ∧ t.catalog = s.catalog ∧ t.notices = s.notices ∧ t.classifier = s.classifier)
    ∧ (isSettledState (s.tracker n).state →
      t.tracker n =
          { s.tracker n with
            state := .settling, held := none, coast := 0, recheck := false, binding := none
            reqSeq := (s.tracker n).reqSeq + 1
            recallRef :=
              match (s.tracker n).binding with
              | some b => some { slot := b.slot, generation := b.generation }
              | none => (s.tracker n).recallRef
            lastLoss :=
              match (s.tracker n).binding with
              | some b => lossOf .signalLost b
              | none => (s.tracker n).lastLoss
            lossTick :=
              if (s.tracker n).binding = none then (s.tracker n).lossTick else none }
        ∧ t.request (inputRequester n) = none ∧ otherRequestsKept (inputRequester n) s t
        ∧ (∀ b, (s.tracker n).binding = some b →
            bindingReleased n b (inputNoticeBit .lost) s t ∧ otherNoticesKept n s t)
        ∧ ((s.tracker n).binding = none → t.catalog = s.catalog ∧ t.notices = s.notices))

/-- The record of a period opened by an edge at `tick` (R73, R87, R94). -/
def periodOpenedAt (tick : Nat) : OpenPeriod :=
  { openTick := tick, width := none, rejections := 0, faults := noFaults, prevPolarity := none }

/-- half_line at an edge `offset` ticks after the horizontal edge before it: within 3/8 to 5/8 of the
ring's average period, both ends included (R88). The average is an eighth of the sum. -/
def isHalfLine (u : MeasUnit) (offset : Nat) : Prop :=
  3 * (u.ring.map Line.period).sum ≤ 64 * offset ∧ 64 * offset ≤ 5 * (u.ring.map Line.period).sum

/-- `m` is the set composed by unit `u` at an edge that closes period `p` with `count` lines and the
opening width `width`, `offset` ticks after the horizontal edge before it (R81, R88). -/
def composedFrom (u : MeasUnit) (p : OpenPeriod) (newest : Line) (count width offset : Nat)
    (form : SyncForm) (m : MeasSet) : Prop :=
  m.seq = u.setSeq + 1
    ∧ m.sync.hPeriod = (u.ring.map Line.period).sum
    ∧ m.sync.hWidth = (u.ring.map Line.width).sum
    ∧ m.sync.hPolarity = newest.polarity ∧ m.sync.vLines = count
    ∧ m.sync.vWidth = min 255 width
    ∧ m.sync.vPolarity = (match form with | .separate => u.vRef | .composite => newest.polarity)
    ∧ m.sync.form = form
    ∧ (m.halfLine = true ↔ isHalfLine u offset)
    ∧ (m.sync.scan = .progressive ↔ u.halfLineRef = some m.halfLine)
    ∧ (m.noiseSeen = true ↔ 1 ≤ p.rejections)

/-- The set `m`, published at `tick` by the event that leaves input `n` its unit, reaches the tracker, and nothing
else happens but for the since-latch indicator (R90, R203). -/
def setReachesTracker (n : InputIx) (tick : Nat) (m : MeasSet) (s t : State) : Prop :=
  { t with port := s.port } = takeReport n tick (s.withUnit n (t.unit n)) (.published m)
    ∧ portKept s t

/-- A set `m` that is not consistent with the held stable set takes input `n` to SETTLING with a counter
of 1 and `m` as the reference (R117, R120, R128); a settle count of 1 completes there (R118). -/
def settledAfresh (n : InputIx) (m : MeasSet) (s t : State) : Prop :=
  (1 < (s.config n).settle.toNat →
      t.tracker n =
          { s.tracker n with
            state := .settling, held := none, settleRef := some m, settleCounter := 1
            recheck := false, reqSeq := (s.tracker n).reqSeq + 1 }
        ∧ t.request (inputRequester n) = none ∧ otherRequestsKept (inputRequester n) s t)
    ∧ ((s.config n).settle.toNat = 1 →
      t.tracker n =
          { s.tracker n with
            state := .pending, held := some m, recheck := false
            reqSeq := (s.tracker n).reqSeq + 1 + 1 }
        ∧ requestSubmitted (inputRequester n)
          { kind := if (s.tracker n).recallRef = none then .search else .verifyRecall
            set := .measured m, seq := some ((s.tracker n).reqSeq + 1 + 1) } s t)

/-- `a` is the tick of the last accepted horizontal edge before a V pin edge at `tick` (R88): a
horizontal edge that reached its pin later, though accepted earlier, is not before it (assumption
log 26). -/
def lastEdgeBefore (u : MeasUnit) (tick a : Nat) : Prop :=
  (u.lastHEdge = some a ∧ a ≤ tick)
    ∨ ∃ b, u.lastHEdge = some b ∧ tick < b ∧ u.prevHEdge = some a

/-- An acceptance of the V pin's waiting transition at tick `tick`, out of the vertical reference's
active level or into it (R71, R85). -/
def vTransitionWaits (u : MeasUnit) (tick : Nat) (active : Bool) : Prop :=
  isRunning u = true ∧ u.vFilter.waiting.map Waiting.tick = some tick
    ∧ (active = true ↔ otherLevel u.vFilter.passed = activeLevel u.vRef)

/-- A unit whose V pin transition has been accepted: the passed level changes and the V pin quiet
counter is 0 (R71, R82, R84). -/
def vPinTaken (u : MeasUnit) : MeasUnit :=
  { u with
    vQuiet := 0, vFilter := { passed := otherLevel u.vFilter.passed, waiting := none } }

/-- A unit whose H pin transition has been accepted: the passed level changes (R71). -/
def hPinTaken (u : MeasUnit) : MeasUnit :=
  { u with hFilter := { passed := otherLevel u.hFilter.passed, waiting := none } }

/-- A unit whose accepted horizontal edge at tick `w` has opened a line, with the line counter at
`count` (R71, R74, R86). -/
def lineOpenedAt (w count : Nat) (u : MeasUnit) : MeasUnit :=
  { hPinTaken u with
    line := some { openTick := w, openCount := count, activeEnd := none }
    lastHEdge := some w, prevHEdge := u.lastHEdge }

/-! ### What the host reads (sections 10.5 to 10.7) -/

/-- Every position of the register window reads as the table of R206 says, and the classifier status
as R207 says. -/
def windowReads (s : State) : Prop :=
  let read (p : Nat) : Byte := readPos s (windowPos (BitVec.ofNat 8 p))
  read 0x00 = 0xE6 ∧ read 0x01 = 0x01
    ∧ (read 0x02).toNat = s.notices.globalFlags.toNat
    ∧ (read 0x03).toNat = s.notices.globalMasks.toNat
    ∧ read 0x04 = summaryByte s.notices
    ∧ read 0x05 = s.port.viewKind ∧ read 0x06 = s.port.viewIndex
    ∧ (s.catalog.occupancy ≤ 64 → (read 0x07).toNat = s.catalog.occupancy)
    ∧ (read 0x08).toNat =
        (if s.classifier.pass.isSome then 1 else 0)
          + (if s.classifier.gate = .closed then 2 else 0)
          + 16 * (match s.classifier.pass with | some p => p.requester.val | none => 7)
    ∧ (∀ n : InputIx,
        (read (0x10 + 2 * n.val)).toNat = s.notices.flags[n].toNat
          ∧ (read (0x11 + 2 * n.val)).toNat = s.notices.masks[n].toNat
          ∧ (read (0x20 + 4 * n.val)).toNat = (s.config n).enabled.toNat
          ∧ (read (0x21 + 4 * n.val)).toNat
            = (s.config n).settle.toNat + 16 * (s.config n).budget.toNat
          ∧ (read (0x22 + 4 * n.val)).toNat = (s.config n).glitch.toNat
          ∧ (read (0x23 + 4 * n.val)).toNat =
            (s.config n).enables.noise.toNat + 2 * (s.config n).enables.shortFrame.toNat
              + 4 * (s.config n).enables.polarityFlip.toNat)
    ∧ read 0x40 = s.mailbox.command
    ∧ read 0x41 = (match s.mailbox.state with | .empty => 0 | .held => 1 | .waiting => 2 | .done => 3)
    ∧ (∀ k : Fin 8, read (0x42 + k.val) = s.mailbox.args[k])
    ∧ read 0x4A =
        (match s.mailbox.result with
        | none => 0
        | some .ok => 1
        | some .noMatch => 2
        | some .badCommand => 3
        | some .badSlot => 4
        | some .badInput => 5
        | some .badState => 6
        | some .badRecord => 7
        | some .duplicateTag => 8
        | some .notFound => 9)
    ∧ (∀ k : Fin 21, read (0x4B + k.val) = s.mailbox.data[k])
    ∧ (∀ k : Fin 32, read (0x60 + k.val) = s.port.staging[k])
    ∧ (∀ k : Fin 63, read (0x80 + k.val) = s.port.snapshot[k])
    ∧ read 0xBF = (if s.port.since then 1 else 0)
    ∧ ∀ p, (0x09 ≤ p ∧ p ≤ 0x0F) ∨ (0x1C ≤ p ∧ p ≤ 0x1F) ∨ (0x38 ≤ p ∧ p ≤ 0x3F)
        ∨ (0xC0 ≤ p ∧ p ≤ 0xFF) → read p = 0

/-- The notices stand at the bits that the table of R206 gives them. -/
def noticeBitsPlaced : Prop :=
  (∀ k, inputNoticeBit k =
      match k with
      | .acquired => 1 <<< 0
      | .bound => 1 <<< 1
      | .lost => 1 <<< 2
      | .disrupt => 1 <<< 3
      | .unmatched => 1 <<< 4
      | .fault => 1 <<< 5)
    ∧ ∀ k, globalNoticeBit k =
      match k with
      | .mailboxDone => 1 <<< 0
      | .mailboxOverrun => 1 <<< 1
      | .gate => 1 <<< 2

/-- The CATALOG_ENTRY snapshot of slot `i`, by the offsets of R210: its entry image, and 0 past it. -/
def entryShown (s : State) (i : SlotIx) : Prop :=
  let byte (p : Nat) : Byte := byteAt (snapshotOf s (some (.catalogEntry i))) (p - 0x80)
  byte 0x80 = 0 ∧ (byte 0x81).toNat = i.val
    ∧ (∀ k, k < 32 → byte (0x82 + k) = byteAt (padTo 32 (slotImage (s.slot i))) k)
    ∧ ∀ p, 0xA2 ≤ p → p ≤ 0xBE → byte p = 0

/-- The MEASUREMENT snapshot of input `n`, by the offsets of R210. -/
def measurementShown (s : State) (n : InputIx) : Prop :=
  let byte (p : Nat) : Byte := byteAt (snapshotOf s (some (.measurement n))) (p - 0x80)
  let word (p : Nat) : Nat := (byte p).toNat + 256 * (byte (p + 1)).toNat
  byte 0x80 = 2 ∧ (byte 0x81).toNat = n.val
    ∧ ((s.unit n).lastSet = none → ∀ p, 0x82 ≤ p → p ≤ 0xBE → byte p = 0)
    ∧ ∀ m, (s.unit n).lastSet = some m → m.sync.legal →
      byte 0x82 = 1 ∧ byte 0x83 = m.seq ∧ word 0x84 = m.sync.hPeriod
        ∧ word 0x86 = m.sync.hWidth ∧ word 0x88 = m.sync.vLines
        ∧ (byte 0x8A).toNat = m.sync.vWidth
        ∧ (byte 0x8B).toNat =
            (if m.sync.hPolarity = .positive then 1 else 0)
              + (if m.sync.vPolarity = .positive then 2 else 0)
              + (if m.sync.scan = .interlaced then 4 else 0)
              + (if m.sync.form = .composite then 8 else 0)
              + (if m.halfLine then 16 else 0) + (if m.noiseSeen then 32 else 0)
        ∧ ∀ p, 0x8C ≤ p → p ≤ 0xBE → byte p = 0

/-- The INPUT_STATUS snapshot of input `n`, by the offsets of R210; absent records read 0. -/
def statusShown (s : State) (n : InputIx) : Prop :=
  let byte (p : Nat) : Byte := byteAt (snapshotOf s (some (.inputStatus n))) (p - 0x80)
  let t := s.tracker n
  byte 0x80 = 1 ∧ (byte 0x81).toNat = n.val
    ∧ byte 0x82 =
        (match t.state with
        | .idle => 0
        | .silent => 1
        | .settling => 2
        | .pending => 3
        | .bound => 4
        | .coasting => 5
        | .unmatched => 6
        | .fault => 7)
    ∧ (t.settleCounter ≤ 15 → (byte 0x83).toNat = t.settleCounter)
    ∧ (t.coast ≤ 15 → (byte 0x84).toNat = t.coast)
    ∧ (byte 0x85).toNat =
        t.latch.noise.toNat + 2 * t.latch.shortFrame.toNat + 4 * t.latch.polarityFlip.toNat
    ∧ (t.binding = none → ∀ p, 0x86 ≤ p → p ≤ 0x90 → byte p = 0)
    ∧ (∀ b, t.binding = some b →
        byte 0x86 = 1 ∧ (byte 0x87).toNat = b.slot.val ∧ byte 0x88 = b.generation
          ∧ byte 0x89 = (match b.via with | .search => 0 | .byRecall => 1)
          ∧ (b.ambiguity ≤ 64 → (byte 0x8A).toNat = b.ambiguity)
          ∧ byte 0x8B = (if b.overflow then 1 else 0)
          ∧ (b.candidates.length ≤ 4 → (byte 0x8C).toNat = b.candidates.length)
          ∧ ∀ k, k < 4 → (byte (0x8D + k)).toNat =
            match b.candidates[k]? with
            | some c => c.val
            | none => 0)
    ∧ (t.lastLoss = none → ∀ p, 0x91 ≤ p → p ≤ 0x94 → byte p = 0)
    ∧ (∀ l, t.lastLoss = some l →
        byte 0x91 = 1 ∧ (byte 0x93).toNat = l.slot.val ∧ byte 0x94 = l.generation
          ∧ byte 0x92 =
            match l.reason with
            | .signalLost => 1
            | .deviated => 2
            | .entryEdited => 3
            | .entryRetired => 4
            | .hostRebind => 5
            | .fault => 6
            | .inputDisabled => 7
            | .coreRestart => 8)
    ∧ (t.recallRef = none → ∀ p, 0x95 ≤ p → p ≤ 0x97 → byte p = 0)
    ∧ (∀ r, t.recallRef = some r →
        byte 0x95 = 1 ∧ (byte 0x96).toNat = r.slot.val ∧ byte 0x97 = r.generation)
    ∧ ∀ p, 0x98 ≤ p → p ≤ 0xBE → byte p = 0

/-! ### The reference search (R31, R32, R36 to R40) -/

/-- A list of candidates in order: rank descending, equal ranks by ascending slot. -/
def candidatesOrdered (l : List Candidate) : Prop :=
  l.Pairwise fun c d => d.rank < c.rank ∨ (c.rank = d.rank ∧ c.slot < d.slot)

/-- The ACTIVE slots whose entries fit a set, ascending (R32). -/
def fittingSlots (s : State) (m : SyncSet) : List SlotIx :=
  allSlots.filter fun i => (s.slot i).state == .active && fits (s.slot i).entry m

/-- The highest rank of a list of slots. -/
def topRankOf (s : State) (l : List SlotIx) : Nat :=
  (l.map fun i => (s.slot i).entry.rank).foldl max 0

/-- Rank descending, equal ranks in the order they stand in (R37). -/
def rankedSlots (s : State) (l : List SlotIx) : List SlotIx :=
  (List.range 16).reverse.flatMap fun r => l.filter fun i => (s.slot i).entry.rank == r

/-- The result of a search against the catalog as it stands (R38 to R40). -/
def referenceSearch (s : State) (m : SyncSet) : PassResult :=
  let l := fittingSlots s m
  match rankedSlots s l with
  | [] => .noMatch
  | i :: rest =>
    .matched
      { candidates := (i :: rest).take 4
        ambiguity := l.countP fun j => (s.slot j).entry.rank == topRankOf s l
        overflow := 4 < l.length
        generation := (s.slot i).generation }

/-- A pass after `k` examinations against the catalog as it stands (R55). -/
def examineSteps (s : State) : Nat → Pass → Pass
  | 0, p => p
  | k + 1, p => examineSteps s k (examineStep s p)

end Sys2Proof.Machine
end

