-- ==== Sys2Proof/Certificates/Slice0/Obligations.lean ====
section
/-! DEFINITION. The statements for the provers. -/

open Sys2Proof Sys2Proof.Machine

/-! ### The block as a machine -/

/-- A step runs the command at the front of the queue on the state with the rest of the queue; on an
empty queue the block idles (the model's choice, assumption log 2). Every command answers a next
state and leaves the queue alone: none stops the block. -/
def Obligations.StepRunsFrontCommand : Prop :=
  (∀ c rest s, s.pending = c :: rest → step s = exec c { s with pending := rest })
    ∧ (∀ s, s.pending = [] → step s = .next s)
    ∧ ∀ c s, ∃ t, exec c s = .next t ∧ t.pending = s.pending

/-- Power-on reset (R26, R68, R92, R106, R152, R180, R192, R204): every block at its reset values, the
serial address taken from ADR. -/
def Obligations.PowerOnResetLeavesResetValues : Prop :=
  ∀ adr s, ∃ t, exec (.powerOnReset adr) s = .next t
    ∧ (∀ i, t.slot i = { state := .free, generation := 0, bindCount := 0, entry := zeroEntry })
    ∧ t.catalog.occupancy = 0 ∧ t.catalog.tagMap = []
    ∧ t.classifier =
        { requests := Vector.replicate 7 none, pointer := 0, pass := none, gate := .opened,
          endTick := t.classifier.endTick }
    ∧ (∀ n, (t.tracker n).state = .idle ∧ (t.tracker n).binding = none
        ∧ (t.tracker n).recallRef = none ∧ (t.tracker n).lastLoss = none
        ∧ (t.tracker n).held = none ∧ (t.tracker n).settleRef = none
        ∧ (t.tracker n).settleCounter = 0 ∧ (t.tracker n).coast = 0
        ∧ (t.tracker n).recheck = false ∧ (t.tracker n).latch = noFaults
        ∧ (t.tracker n).reqSeq = 0)
    ∧ (∀ n, t.config n =
        { enabled := false, settle := 3, budget := 2, glitch := 4,
          enables := { noise := true, shortFrame := true, polarityFlip := true } })
    ∧ (∀ n, (t.unit n).state = .off ∧ (t.unit n).hRef = .negative ∧ (t.unit n).vRef = .negative
        ∧ (t.unit n).hFilter.waiting = none ∧ (t.unit n).vFilter.waiting = none
        ∧ (t.unit n).setSeq = 0 ∧ (t.unit n).lastSet = none ∧ (t.unit n).period = none
        ∧ (t.unit n).gainLines = [] ∧ (t.unit n).shortLines = [] ∧ (t.unit n).ring = []
        ∧ (t.unit n).lineCounter = 0 ∧ (t.unit n).vQuiet = 4096
        ∧ vSourceOf (t.unit n) = .separator ∧ (t.unit n).sepRun = 0
        ∧ (t.unit n).sepArmed = true ∧ (t.unit n).halfLineRef = none)
    ∧ t.mailbox =
        { state := .empty, command := 0, args := Vector.replicate 8 0, accepted := none,
          result := none, data := Vector.replicate 21 0 }
    ∧ t.notices =
        { flags := Vector.replicate 6 0, masks := Vector.replicate 6 0x3F, globalFlags := 0,
          globalMasks := 7 }
    ∧ summaryByte t.notices = 0 ∧ atnAsserted t.notices = false
    ∧ t.port.address = (match adr with | .low => 0x3A | .high => 0x3B)
    ∧ t.port.pointer = 0 ∧ t.port.staging = Vector.replicate 32 0
    ∧ t.port.viewKind = 0 ∧ t.port.viewIndex = 0 ∧ t.port.snapshot = Vector.replicate 63 0
    ∧ t.port.follows = some (.catalogEntry 0) ∧ t.port.since = false

/-! ### The laws every step keeps -/

/-- The state after reset is the one that POWER_ON_RESET with ADR low leaves, and it meets every law
below. Its pin levels, serial address and transaction are the model's choice (assumption logs 10
to 12). -/
def Obligations.ResetMeetsEveryLaw : Prop :=
  exec (.powerOnReset .low) State.reset = .next State.reset
    ∧ CatalogLaw State.reset ∧ GateLaw State.reset ∧ TrackerLaw State.reset
    ∧ UnitLaw State.reset ∧ LinkLaw State.reset ∧ BindingLaw State.reset
    ∧ MailboxLaw State.reset ∧ ViewLaw State.reset

/-- Every step keeps the laws of the catalog: slots, occupancy count and tag map (R1, R6, R7). -/
def Obligations.StepKeepsCatalogLaw : Prop :=
  ∀ s t, CatalogLaw s → step s = .next t → CatalogLaw t

/-- Every step keeps the gate's law (R60, R61). -/
def Obligations.StepKeepsGateLaw : Prop :=
  ∀ s t, GateLaw s → step s = .next t → GateLaw t

/-- Every step keeps what each tracker may hold in its state (R104, R108). -/
def Obligations.StepKeepsTrackerLaw : Prop :=
  ∀ s t, TrackerLaw s → step s = .next t → TrackerLaw t

/-- Every step keeps what each measurement unit may hold, and the ranges of published sets. -/
def Obligations.StepKeepsUnitLaw : Prop :=
  ∀ s t, UnitLaw s → step s = .next t → UnitLaw t

/-- Every step keeps tracker and unit in agreement. -/
def Obligations.StepKeepsLinkLaw : Prop :=
  ∀ s t, TrackerLaw s → UnitLaw s → LinkLaw s → step s = .next t → LinkLaw t

/-- Every step keeps bindings, recall references and bind counts true (R16, R22). -/
def Obligations.StepKeepsBindingLaw : Prop :=
  ∀ s t, TrackerLaw s → BindingLaw s → step s = .next t → BindingLaw t

/-- Every step keeps the mailbox's laws (R153, R172). -/
def Obligations.StepKeepsMailboxLaw : Prop :=
  ∀ s t, MailboxLaw s → step s = .next t → MailboxLaw t

/-- Every step keeps the view latch's law (R203). -/
def Obligations.StepKeepsViewLaw : Prop :=
  ∀ s t, ViewLaw s → step s = .next t → ViewLaw t

/-! ### The serial port (chapter 10) -/

/-- Address and pointer bytes (section 10.1): the part's own address is acknowledged, another one
leaves everything but the transaction as it was, and the first data byte of a write sets the
pointer.

Bytes read away from 0x80 (section 10.1): the value sent is the owner's as it stands, the
pointer advances by 1 at the end of each byte, and after a not-acknowledge no byte is taken.

Every position reads as the table of section 10.5 says (windowReads spells it), and the notices stand
at the bits that table gives them. -/
def Obligations.SerialBytesReadWindow : Prop :=
  ((∀ s, exec (.addressByte s.port.address .write) s =
      .next { s with port := { s.port with bus := .pointerNext, acked := true } })
    ∧ (∀ a d s, a ≠ s.port.address →
        exec (.addressByte a d) s =
          .next { s with port := { s.port with bus := .ignoring, acked := false } })
    ∧ ∀ v s, s.port.bus = .pointerNext →
        exec (.pointerByte v) s =
          .next { s with port := { s.port with pointer := v, bus := .dataNext, acked := true } })
    ∧ ((∀ s, s.port.pointer ≠ 0x80 →
      exec (.addressByte s.port.address .read) s =
        .next { s with
          port := { s.port with
            bus := .sending (readPos s (windowPos s.port.pointer)), acked := true } })
    ∧ (∀ s b, s.port.bus = .sending b → s.port.pointer + 1 ≠ 0x80 →
        exec (.byteSent true) s =
          .next { s with
            port := { s.port with
              pointer := s.port.pointer + 1
              bus := .sending (readPos s (windowPos (s.port.pointer + 1))) } })
    ∧ ∀ s b, s.port.bus = .sending b →
        exec (.byteSent false) s =
          .next { s with port := { s.port with pointer := s.port.pointer + 1, bus := .released } })
    ∧ (∀ s, windowReads s) ∧ noticeBitsPlaced

/-- The read of 0x80 latches the selected record as it stands, clears the since-latch indicator and
sends the first byte of the new snapshot (R201); it changes nothing else, at either event at which
the byte can be taken, whether the event is named for itself or for the latch.

The bad selectors, and what a latch with one shows (section 10.3). The three snapshots byte by byte, by
the offsets of section 10.7 (entryShown, statusShown and measurementShown spell them). -/
def Obligations.ReadOfViewStartLatches : Prop :=
  (∀ s r c, selectedRecord s.port.viewKind s.port.viewIndex = r →
    (s.port.pointer = 0x80 →
        c ∈ [Instr.viewLatch (.addressByte s.port.address), .addressByte s.port.address .read] →
        exec c s =
          .next { s with
            port := { s.port with
              snapshot := snapshotOf s r, follows := r, since := false
              bus := .sending (snapshotOf s r)[0], acked := true } })
      ∧ ∀ b, s.port.bus = .sending b → s.port.pointer = 0x7F →
        c ∈ [Instr.viewLatch .hostAcknowledge, .byteSent true] →
        exec c s =
          .next { s with
            port := { s.port with
              pointer := 0x80, snapshot := snapshotOf s r, follows := r, since := false
              bus := .sending (snapshotOf s r)[0] } })
    ∧ ((∀ kind index : Byte, selectedRecord kind index = none ↔
      3 ≤ kind.toNat ∨ (kind.toNat = 0 ∧ 64 ≤ index.toNat)
        ∨ ((kind.toNat = 1 ∨ kind.toNat = 2) ∧ 6 ≤ index.toNat))
    ∧ ∀ s, (snapshotOf s none)[0] = 0x80 ∧ ∀ k : Fin 63, k ≠ 0 → (snapshotOf s none)[k] = 0)
    ∧ (∀ i, selectedRecord 0 (slotByte i) = some (.catalogEntry i))
    ∧ (∀ n, selectedRecord 1 (inputByte n) = some (.inputStatus n)
        ∧ selectedRecord 2 (inputByte n) = some (.measurement n))
    ∧ ∀ s, (∀ i, entryShown s i) ∧ ∀ n, statusShown s n ∧ measurementShown s n

/-- The since-latch indicator after every command that is neither a reset nor a latch, the pointer at
0x80 or not: set if it was set before or some field the view shows has changed (section 10.3). The
commands that latch are the reads of 0x80: an address byte with the pointer there, and a host's
acknowledge that moves the pointer there. -/
def Obligations.SinceLatchFollowsRecord : Prop :=
  ∀ c s t r, exec c s = .next t → (∀ adr, c ≠ .powerOnReset adr) → s.port.follows = some r →
    (s.port.pointer = 0x80 →
      c ≠ .addressByte s.port.address .read ∧ c ≠ .viewLatch (.addressByte s.port.address)) →
    (∀ b, s.port.bus = .sending b → s.port.pointer = 0x7F →
      c ≠ .byteSent true ∧ c ≠ .viewLatch .hostAcknowledge) →
    t.port.follows = some r
      ∧ (t.port.since = true ↔ s.port.since = true ∨ shownRecord s r ≠ shownRecord t r)

/-! ### Data bytes of a write -/

/-- A data byte at a position without behaviour of its own: an argument byte is stored, every other
such position keeps its contents, and the pointer moves on (section 10.1).

The view selector is stored as written, whatever the value, and the snapshot, the record it
follows and the since-latch indicator stay (R200); a staging byte is stored at its position
(section 10.2). -/
def Obligations.PlainPositionsStoreOrIgnore : Prop :=
  (∀ v s, s.port.bus = .dataNext →
    (∀ k, windowPos s.port.pointer = .argument k →
        exec (.registerWrite v) s =
          .next { s with
            mailbox := { s.mailbox with args := s.mailbox.args.set k v }
            port := { s.port with pointer := s.port.pointer + 1, acked := true } })
      ∧ ((windowPos s.port.pointer ∈
            [.identity, .revision, .summary, .occupancy, .classifierStatus, .resultCode,
              .sinceLatch, .unassigned]
          ∨ (∃ k, windowPos s.port.pointer = .resultData k)
          ∨ (∃ k, windowPos s.port.pointer = .view k)
          ∨ (∃ n, windowPos s.port.pointer = .enable n ∧ v.getLsbD 0 = (s.config n).enabled)
          ∨ (windowPos s.port.pointer = .mailboxState ∧ s.mailbox.state = .empty)) →
        exec (.registerWrite v) s =
          .next { s with port := { s.port with pointer := s.port.pointer + 1, acked := true } }))
    ∧ (∀ v s, s.port.bus = .dataNext →
    (windowPos s.port.pointer = .viewKind →
        exec (.viewSelectorWrite v) s =
          .next { s with
            port := { s.port with
              viewKind := v, pointer := s.port.pointer + 1, acked := true } })
      ∧ (windowPos s.port.pointer = .viewIndex →
        exec (.viewSelectorWrite v) s =
          .next { s with
            port := { s.port with
              viewIndex := v, pointer := s.port.pointer + 1, acked := true } })
      ∧ ∀ k, windowPos s.port.pointer = .staging k →
        exec (.stagingWrite v) s =
          .next { s with
            port := { s.port with
              staging := s.port.staging.set k v, pointer := s.port.pointer + 1, acked := true } })

/-- Writing 1 clears a notice flag and writing 0 leaves it, flag by flag; masks and everything else
stay (section 9.2).

A mask byte sets the masks written with 1 and clears those written with 0; the flags stay
(section 9.3). -/
def Obligations.NoticeAndMaskBytes : Prop :=
  (∀ v s, s.port.bus = .dataNext →
    (∀ n, windowPos s.port.pointer = .notices n →
        ∃ f, exec (.noticeClear v) s =
            .next { s with
              notices := { s.notices with flags := s.notices.flags.set n f }
              port := { s.port with pointer := s.port.pointer + 1, acked := true } }
          ∧ ∀ k, k < 6 → f.getLsbD k = (s.notices.flags[n].getLsbD k && !v.getLsbD k))
      ∧ (windowPos s.port.pointer = .globalNotices →
        ∃ f, exec (.noticeClear v) s =
            .next { s with
              notices := { s.notices with globalFlags := f }
              port := { s.port with pointer := s.port.pointer + 1, acked := true } }
          ∧ ∀ k, k < 3 → f.getLsbD k = (s.notices.globalFlags.getLsbD k && !v.getLsbD k)))
    ∧ (∀ v s, s.port.bus = .dataNext →
    (∀ n, windowPos s.port.pointer = .masks n →
        ∃ m, exec (.maskWrite v) s =
            .next { s with
              notices := { s.notices with masks := s.notices.masks.set n m }
              port := { s.port with pointer := s.port.pointer + 1, acked := true } }
          ∧ ∀ k, k < 6 → m.getLsbD k = v.getLsbD k)
      ∧ (windowPos s.port.pointer = .globalMasks →
        ∃ m, exec (.maskWrite v) s =
            .next { s with
              notices := { s.notices with globalMasks := m }
              port := { s.port with pointer := s.port.pointer + 1, acked := true } }
          ∧ ∀ k, k < 3 → m.getLsbD k = v.getLsbD k))

/-- ATN# is asserted exactly when some set flag's mask is clear (R189); the summary shows the inputs
with a set flag, whatever the masks (R188). -/
def Obligations.AttentionAndSummaryFollowFlags : Prop :=
  ∀ x : Notices,
    (atnAsserted x = true ↔
        (∃ k, k < 3 ∧ x.globalFlags.getLsbD k = true ∧ x.globalMasks.getLsbD k = false)
          ∨ ∃ n : InputIx, ∃ k, k < 6 ∧ x.flags[n].getLsbD k = true
            ∧ x.masks[n].getLsbD k = false)
      ∧ (∀ n : InputIx, (summaryByte x).getLsbD n = true ↔
          ∃ k, k < 6 ∧ x.flags[n].getLsbD k = true)
      ∧ (summaryByte x).getLsbD 6 = false ∧ (summaryByte x).getLsbD 7 = false

/-- The glitch window and the fault enables are stored; nothing in the tracker or the measurement
unit changes at that event (sections 4.2, 5.3, 6.12).

The settle and coast byte, under either of its two names (R126 and sections 6.4, 6.6): the
settle count is stored, 0 as 1, the budget is stored, and a coast counter above the new budget is
set to it, the tracker staying in its state with its request sequence number. -/
def Obligations.ConfigurationBytesStore : Prop :=
  (∀ v s n, s.port.bus = .dataNext →
    (windowPos s.port.pointer = .glitch n →
        ∃ g, exec (.glitchWindowWrite v) s =
            .next { s with
              inputs := s.inputs.set n
                { s.inputs[n] with config := { s.inputs[n].config with glitch := g } }
              port := { s.port with pointer := s.port.pointer + 1, acked := true } }
          ∧ g.toNat = v.toNat % 16)
      ∧ (windowPos s.port.pointer = .faultEnables n →
        exec (.faultEnablesWrite v) s =
          .next { s with
            inputs := s.inputs.set n
              { s.inputs[n] with
                config :=
                  { s.inputs[n].config with
                    enables :=
                      { noise := v.getLsbD 0, shortFrame := v.getLsbD 1,
                        polarityFlip := v.getLsbD 2 } } }
            port := { s.port with pointer := s.port.pointer + 1, acked := true } }))
    ∧ (∀ c v s n, (c = .settleCountWrite v ∨ c = .coastBudgetWrite v) → s.port.bus = .dataNext →
    windowPos s.port.pointer = .settleCoast n →
    ∃ t, exec c s = .next t
      ∧ (t.config n).settle.toNat = (if v.toNat % 16 = 0 then 1 else v.toNat % 16)
      ∧ (t.config n).budget.toNat = v.toNat / 16
      ∧ t.tracker n =
          { s.tracker n with
            coast := if v.toNat / 16 < (s.tracker n).coast then v.toNat / 16
              else (s.tracker n).coast }
      ∧ (t.config n).enabled = (s.config n).enabled ∧ (t.config n).glitch = (s.config n).glitch
      ∧ (t.config n).enables = (s.config n).enables ∧ t.unit n = s.unit n
      ∧ t.pinLevel n = s.pinLevel n ∧ otherInputsKept n s t ∧ portAdvanced s t
      ∧ t.catalog = s.catalog ∧ t.classifier = s.classifier ∧ t.mailbox = s.mailbox
      ∧ t.notices = s.notices ∧ t.freeIndex = s.freeIndex)

/-- An enable takes the tracker from IDLE to SILENT and the unit from OFF to QUIET, each filter at
its pin's level, with no notice and the last-loss record kept (sections 4.1, 6.2).

A disable releases any binding with INPUT_DISABLED and takes the tracker to IDLE and the unit to
OFF; the last-loss record, the reference polarities, the set sequence and the last published set
stay (sections 4.1, 6.2, 7.5).
The tracker's lossTick is the model's own field (assumption log 31). -/
def Obligations.EnableBitStartsAndStopsInput : Prop :=
  (∀ v s n, TrackerLaw s → s.port.bus = .dataNext →
    windowPos s.port.pointer = .enable n → v.getLsbD 0 = true → (s.config n).enabled = false →
    ∃ t, exec (.enableWrite v) s = .next t
      ∧ t.config n = { s.config n with enabled := true }
      ∧ t.tracker n =
          { s.tracker n with state := .silent, reqSeq := (s.tracker n).reqSeq + 1 }
      ∧ (t.unit n).state = .quiet ∧ (t.unit n).gainLines = [] ∧ (t.unit n).line = none
      ∧ (t.unit n).hFilter = { passed := s.pinLevel n .h, waiting := none }
      ∧ (t.unit n).vFilter = { passed := s.pinLevel n .v, waiting := none }
      ∧ (t.unit n).hRef = (s.unit n).hRef ∧ (t.unit n).vRef = (s.unit n).vRef
      ∧ (t.unit n).setSeq = (s.unit n).setSeq ∧ (t.unit n).lastSet = (s.unit n).lastSet
      ∧ t.pinLevel n = s.pinLevel n ∧ otherInputsKept n s t ∧ portAdvanced s t
      ∧ t.catalog = s.catalog ∧ t.classifier = s.classifier ∧ t.mailbox = s.mailbox
      ∧ t.notices = s.notices ∧ t.freeIndex = s.freeIndex)
    ∧ (∀ v s n, TrackerLaw s → s.port.bus = .dataNext → windowPos s.port.pointer = .enable n →
    v.getLsbD 0 = false → (s.config n).enabled = true →
    ∃ t, exec (.disableWrite v) s = .next t
      ∧ t.config n = { s.config n with enabled := false }
      ∧ t.tracker n =
          { state := .idle, held := none, settleRef := none, settleCounter := 0, coast := 0
            binding := none, recallRef := none, recheck := false, latch := noFaults
            lastLoss :=
              match (s.tracker n).binding with
              | some b => some ⟨.inputDisabled, b.slot, b.generation⟩
              | none => (s.tracker n).lastLoss
            lossTick := if (s.tracker n).binding = none then (s.tracker n).lossTick else none
            reqSeq := (s.tracker n).reqSeq + 1 }
      ∧ t.request (inputRequester n) = none ∧ otherRequestsKept (inputRequester n) s t
      ∧ (∀ b, (s.tracker n).binding = some b →
          t.slot b.slot = { s.slot b.slot with bindCount := (s.slot b.slot).bindCount - 1 }
            ∧ otherSlotsKept b.slot s t
            ∧ t.notices.flags[n] = s.notices.flags[n] ||| inputNoticeBit .lost
            ∧ otherNoticesKept n s t)
      ∧ ((s.tracker n).binding = none → t.catalog = s.catalog ∧ t.notices = s.notices)
      ∧ (t.unit n).state = .off ∧ (t.unit n).ring = [] ∧ (t.unit n).line = none
      ∧ (t.unit n).gainLines = [] ∧ (t.unit n).shortLines = [] ∧ (t.unit n).lineCounter = 0
      ∧ (t.unit n).sepRun = 0 ∧ (t.unit n).period = none ∧ (t.unit n).halfLineRef = none
      ∧ (t.unit n).vQuiet = 4096 ∧ (t.unit n).hFilter.waiting = none
      ∧ (t.unit n).vFilter.waiting = none
      ∧ (t.unit n).hRef = (s.unit n).hRef ∧ (t.unit n).vRef = (s.unit n).vRef
      ∧ (t.unit n).setSeq = (s.unit n).setSeq ∧ (t.unit n).lastSet = (s.unit n).lastSet
      ∧ t.pinLevel n = s.pinLevel n ∧ otherInputsKept n s t ∧ portAdvanced s t
      ∧ t.mailbox = s.mailbox ∧ t.freeIndex = s.freeIndex)

/-! ### The mailbox (chapter 8) -/

/-- The state byte: in DONE the command is acknowledged and its result stays (R159), and in EMPTY
the write has no effect. Nothing but the mailbox's state and copy and the pointer changes.

The state byte in HELD or WAITING withdraws the command (section 8.4): the mailbox is EMPTY with
no result, a probe still waiting leaves slot 6, and a probe's pass in flight loses its current
mark. Nothing else changes, the catalog and the notices included. -/
def Obligations.StateByteAcknowledgesOrWithdraws : Prop :=
  (∀ v s, s.port.bus = .dataNext → windowPos s.port.pointer = .mailboxState →
    (s.mailbox.state = .done →
        exec (.acknowledge v) s =
          .next { s with
            mailbox := { s.mailbox with state := .empty, accepted := none }
            port := { s.port with pointer := s.port.pointer + 1, acked := true } })
      ∧ (s.mailbox.state = .empty →
        exec (.registerWrite v) s =
          .next { s with port := { s.port with pointer := s.port.pointer + 1, acked := true } }))
    ∧ (∀ v s, s.port.bus = .dataNext → windowPos s.port.pointer = .mailboxState →
    (s.mailbox.state = .held → s.classifier.pass ≠ none →
        exec (.mailboxWithdraw v) s =
          .next { s with
            mailbox := { s.mailbox with state := .empty, accepted := none }
            port := { s.port with pointer := s.port.pointer + 1, acked := true } })
      ∧ (s.mailbox.state = .waiting → (s.request probeRequester).isSome →
        exec (.mailboxWithdraw v) s =
          .next { s with
            mailbox := { s.mailbox with state := .empty, accepted := none }
            classifier :=
              { s.classifier with
                requests := s.classifier.requests.set probeRequester none }
            port := { s.port with pointer := s.port.pointer + 1, acked := true } })
      ∧ ∀ p, s.mailbox.state = .waiting → s.request probeRequester = none →
        s.classifier.pass = some p → p.requester = probeRequester →
        exec (.mailboxWithdraw v) s =
          .next { s with
            mailbox := { s.mailbox with state := .empty, accepted := none }
            classifier :=
              { s.classifier with pass := some { p with probeCurrent := some false } }
            port := { s.port with pointer := s.port.pointer + 1, acked := true } })

/-- The command byte while the mailbox is not EMPTY is an overrun, whatever the code: it sets
MAILBOX_OVERRUN and leaves the mailbox as it is (R162).

While it is EMPTY, NOP completes with OK and zero data and an unknown code with BAD_COMMAND and the
code written, whatever the gate, and neither touches any block but the mailbox (R179). -/
def Obligations.OverrunNopAndUnknownCodes : Prop :=
  (∀ v s, s.port.bus = .dataNext → windowPos s.port.pointer = .command →
    s.mailbox.state ≠ .empty →
    exec (.overrun v) s =
      .next { s with
        notices :=
          { s.notices with
            globalFlags := s.notices.globalFlags ||| globalNoticeBit .mailboxOverrun }
        port := { s.port with pointer := s.port.pointer + 1, acked := true } })
    ∧ (∀ s, commandReady s →
    (exec .nop s =
        .next { s with
          mailbox :=
            { state := .done, command := 0x0C, args := s.mailbox.args
              accepted := some { code := 0x0C, args := s.mailbox.args, image := none }
              result := some .ok, data := Vector.replicate 21 0 }
          notices :=
            { s.notices with
              globalFlags := s.notices.globalFlags ||| globalNoticeBit .mailboxDone }
          port := { s.port with pointer := s.port.pointer + 1, acked := true } })
      ∧ ∀ code, (Instr.unknownCommand code).wellFormed = true →
        exec (.unknownCommand code) s =
          .next { s with
            mailbox :=
              { state := .done, command := code, args := s.mailbox.args
                accepted := some { code := code, args := s.mailbox.args, image := none }
                result := some .badCommand, data := (Vector.replicate 21 0).set 0 code }
            notices :=
              { s.notices with
                globalFlags := s.notices.globalFlags ||| globalNoticeBit .mailboxDone }
            port := { s.port with pointer := s.port.pointer + 1, acked := true } })

/-- FETCH_ENTRY writes the slot's whole image into the staging record and reports the slot, and
changes no other block; with a slot argument of 64..255 it is refused and the staging record stays.
FIND_TAG reports the slot that holds the tag, or NOT_FOUND (section 8.6). -/
def Obligations.CatalogReadsReport : Prop :=
  ∀ s, commandReady s →
    (∀ i, (s.mailbox.args[0]).toNat = i.val →
        ∃ t, exec .fetchEntry s = .next t
          ∧ t.port =
              { s.port with
                pointer := s.port.pointer + 1, acked := true
                staging := padTo 32 (slotImage (s.slot i)) }
          ∧ completedWith (copyOf .fetchEntry s) .ok
              [slotByte i, slotStateCode (s.slot i).state, (s.slot i).generation] s t
          ∧ t.notices.flags = s.notices.flags
          ∧ t.catalog = s.catalog ∧ t.classifier = s.classifier ∧ t.inputs = s.inputs
          ∧ t.freeIndex = s.freeIndex)
      ∧ (64 ≤ (s.mailbox.args[0]).toNat →
        ∃ t, exec .fetchEntry s = .next t
          ∧ t.port = { s.port with pointer := s.port.pointer + 1, acked := true }
          ∧ completedWith (copyOf .fetchEntry s) .badSlot [] s t
          ∧ t.notices.flags = s.notices.flags
          ∧ t.catalog = s.catalog ∧ t.classifier = s.classifier ∧ t.inputs = s.inputs
          ∧ t.freeIndex = s.freeIndex)
      ∧ ∀ tag, (s.mailbox.args[0]).toNat + 256 * (s.mailbox.args[1]).toNat = tag →
        CatalogLaw s →
        ∃ t, exec .findTag s = .next t
          ∧ (∀ i, (tag, i) ∈ s.catalog.tagMap →
              completedWith (copyOf .findTag s) .ok
                [slotByte i, slotStateCode (s.slot i).state, (s.slot i).generation] s t)
          ∧ ((∀ i, (tag, i) ∉ s.catalog.tagMap) →
              completedWith (copyOf .findTag s) .notFound [] s t)
          ∧ t.port = { s.port with pointer := s.port.pointer + 1, acked := true }
          ∧ t.notices.flags = s.notices.flags
          ∧ t.catalog = s.catalog ∧ t.classifier = s.classifier ∧ t.inputs = s.inputs
          ∧ t.freeIndex = s.freeIndex

/-- The image of a slot that holds a legal entry reads back, as a staged image, to the same entry,
passes every field check, and carries state, generation and bind_count in its first three bytes:
no field of the entry image is dropped by a fetch or by a commit (sections 10.6 and 1.4). -/
def Obligations.EntryImageReadsBack : Prop :=
  ∀ x : Slot, x.state ≠ .free → x.entry.legal → x.bindCount ≤ 6 →
    stagedEntry (padTo 32 (slotImage x)) = x.entry
      ∧ fieldsPass (padTo 32 (slotImage x))
      ∧ (padTo 32 (slotImage x))[0] = slotStateCode x.state
      ∧ (padTo 32 (slotImage x))[1] = x.generation
      ∧ ((padTo 32 (slotImage x))[2]).toNat = x.bindCount

/-- A COMMIT that passes its checks while the gate is open installs the staged entry, hands on the
two marks, and reports slot, state and generation; no binding, recall reference, request or
per-input notice changes (section 1.4). -/
def Obligations.CommitInstallsEntry : Prop :=
  ∀ s i, CatalogLaw s → commandReady s → s.classifier.gate = .opened →
    (s.mailbox.args[0]).toNat = i.val → fieldsPass s.port.staging →
    (∀ j, ((stagedEntry s.port.staging).tag, j) ∈ s.catalog.tagMap → j = i) →
    ∃ t, exec .commit s = .next t
      ∧ entryInstalled i (stagedEntry s.port.staging) s t ∧ marksHanded s t
      ∧ completedWith
          { code := 0x01, args := s.mailbox.args, image := some s.port.staging } .ok
          [slotByte i, slotStateCode (t.slot i).state, (t.slot i).generation] s t
      ∧ t.notices.flags = s.notices.flags ∧ portAdvanced s t ∧ t.freeIndex = s.freeIndex

/-- A COMMIT is checked for its slot, then its sixteen fields in the order of the table of R10
(fieldFails spells it on the staged bytes), then its tag, and the first check that fails refuses it
with that check's code and detail; a refused commit changes nothing but the mailbox and
MAILBOX_DONE, and sets no mark (section 1.4). -/
def Obligations.CommitRefusalsChangeNothing : Prop :=
  ∀ s code data, CatalogLaw s → commandReady s → s.classifier.gate = .opened →
    commitRefused (s.mailbox.args[0]).toNat s.port.staging s code data →
    ∃ t, exec .commit s = .next t
      ∧ completedWith
          { code := 0x01, args := s.mailbox.args, image := some s.port.staging } code data s t
      ∧ t.notices.flags = s.notices.flags ∧ t.catalog = s.catalog
      ∧ t.classifier = s.classifier ∧ t.inputs = s.inputs ∧ t.freeIndex = s.freeIndex
      ∧ t.port = { s.port with pointer := s.port.pointer + 1, acked := true }

/-- A catalog change accepted while the gate is closed is held with its copy and has no effect on
any block; its arguments are not looked at (section 8.3). -/
def Obligations.ClosedGateHoldsCatalogChanges : Prop :=
  ∀ s c code, commandReady s → s.classifier.gate = .closed →
    (c, code) ∈
      [(Instr.commit, 0x01), (.suspend, 0x03), (.resume, 0x04), (.retire, 0x05),
        (.clearCatalog, (0x06 : Byte))] →
    exec c s =
      .next { s with
        mailbox :=
          { state := .held, command := code, args := s.mailbox.args
            accepted :=
              some
                { code := code, args := s.mailbox.args
                  image := if code = 0x01 then some s.port.staging else none }
            result := none, data := Vector.replicate 21 0 }
        port := { s.port with pointer := s.port.pointer + 1, acked := true } }

/-- SUSPEND takes an ACTIVE slot to SUSPENDED and RESUME a SUSPENDED slot to ACTIVE, with the slot's
fields, generation and bind_count kept and the two marks handed on; in every other state, and for a
slot argument of 64..255, they are refused and change nothing (sections 1.5 and 8.6). -/
def Obligations.SuspendAndResumeToggle : Prop :=
  ∀ s c required new,
    (c, required, new) ∈
      [(Command.suspend, SlotState.active, SlotState.suspended), (.resume, .suspended, .active)] →
    commandReady s → s.classifier.gate = .opened →
    ∃ t, exec (if c = .suspend then .suspend else .resume) s = .next t
      ∧ portAdvanced s t ∧ t.notices.flags = s.notices.flags ∧ t.freeIndex = s.freeIndex
      ∧ (∀ i, (s.mailbox.args[0]).toNat = i.val → (s.slot i).state = required →
          t.slot i = { s.slot i with state := new } ∧ otherSlotsKept i s t ∧ marksHanded s t
            ∧ completedWith (copyOf c s) .ok
              [slotByte i, slotStateCode new, (s.slot i).generation,
                loByte (s.slot i).bindCount] s t)
      ∧ (∀ i, (s.mailbox.args[0]).toNat = i.val → (s.slot i).state ≠ required →
          t.catalog = s.catalog ∧ t.classifier = s.classifier ∧ t.inputs = s.inputs
            ∧ completedWith (copyOf c s) .badState
              [slotByte i, slotStateCode (s.slot i).state] s t)
      ∧ (64 ≤ (s.mailbox.args[0]).toNat →
          t.catalog = s.catalog ∧ t.classifier = s.classifier ∧ t.inputs = s.inputs
            ∧ completedWith (copyOf c s) .badSlot [] s t)

/-- RETIRE of a non-FREE slot while the gate is open (section 1.6): every input bound to the slot is
released with ENTRY_RETIRED, with LOST, and goes to PENDING with a search on its held stable set,
which waits or is granted undisturbed; every recall reference that names the slot is cleared; the
slot is FREE and its tag gone; the two marks are handed on; other slots, inputs and notices stay. That
the number of an input in PENDING stays with its reference gone is the model's choice (assumption
log 32). For a FREE slot and for an argument of 64..255 it is refused and changes nothing. -/
def Obligations.RetireFreesSlot : Prop :=
  ∀ s, TrackerLaw s → commandReady s → s.classifier.gate = .opened →
    ∃ t, exec .retire s = .next t ∧ portAdvanced s t ∧ unitsKept s t
      ∧ (∀ i, (s.mailbox.args[0]).toNat = i.val → (s.slot i).state ≠ .free →
          slotRetired i s t t.classifier
            ∧ completedWith (copyOf .retire s) .ok
              [slotByte i, inputSetByte (inputsBoundTo i s), loByte (inputsBoundTo i s).length]
              s t)
      ∧ (∀ i, (s.mailbox.args[0]).toNat = i.val → (s.slot i).state = .free →
          t.catalog = s.catalog ∧ t.classifier = s.classifier ∧ t.inputs = s.inputs
            ∧ t.notices.flags = s.notices.flags
            ∧ completedWith (copyOf .retire s) .badState [slotByte i, 0] s t)
      ∧ (64 ≤ (s.mailbox.args[0]).toNat →
          t.catalog = s.catalog ∧ t.classifier = s.classifier ∧ t.inputs = s.inputs
            ∧ t.notices.flags = s.notices.flags
            ∧ completedWith (copyOf .retire s) .badSlot [] s t)

/-- CLEAR_CATALOG while the gate is open (section 1.6): every slot is FREE, every binding is released
once with ENTRY_RETIRED and searches, every recall reference is cleared, and the two marks are
handed on even when every slot was FREE already. That the number of an input in PENDING stays with
its reference gone is the model's choice (assumption log 32). -/
def Obligations.ClearCatalogFreesEverySlot : Prop :=
  ∀ s, TrackerLaw s → commandReady s → s.classifier.gate = .opened →
    ∃ t, exec .clearCatalog s = .next t ∧ portAdvanced s t ∧ unitsKept s t
      ∧ catalogCleared s t t.classifier
      ∧ completedWith (copyOf .clearCatalog s) .ok
        [loByte s.catalog.occupancy, inputSetByte (boundInputs s),
          loByte (boundInputs s).length] s t

/-- PROBE (section 8.7): a probe set that passes its checks goes to requester slot 6 as a search and
the mailbox waits, with no completion; one that fails the first of them in order completes with
BAD_RECORD and its field code, and places no request. The gate plays no part. -/
def Obligations.ProbePlacesRequest : Prop :=
  ∀ s, commandReady s →
    ∃ t, exec .probe s = .next t ∧ t.catalog = s.catalog ∧ t.inputs = s.inputs
      ∧ t.port = { s.port with pointer := s.port.pointer + 1, acked := true }
      ∧ t.notices.flags = s.notices.flags ∧ t.freeIndex = s.freeIndex
      ∧ ((probeSet s.mailbox.args).legal ∧ (s.mailbox.args[7]).toNat ≤ 15 →
          requestSubmitted probeRequester
              { kind := .search, set := .probe (probeSet s.mailbox.args), seq := none } s t
            ∧ t.notices = s.notices
            ∧ t.mailbox =
              { state := .waiting, command := 0x08, args := s.mailbox.args
                accepted := some (copyOf .probe s), result := none
                data := Vector.replicate 21 0 })
      ∧ ∀ code : Nat,
        (let m := probeSet s.mailbox.args
         let bad1 := m.hPeriod < 1280 ∨ 65528 < m.hPeriod
         let bad3 := m.vLines < 16 ∨ 4095 < m.vLines
         (code = 1 ∧ bad1) ∨ (code = 2 ∧ ¬ bad1 ∧ m.hPeriod ≤ m.hWidth)
          ∨ (code = 3 ∧ ¬ bad1 ∧ m.hWidth < m.hPeriod ∧ bad3)
          ∨ (code = 4 ∧ ¬ bad1 ∧ m.hWidth < m.hPeriod ∧ ¬ bad3
              ∧ 15 < (s.mailbox.args[7]).toNat)) →
        t.classifier = s.classifier
          ∧ completedWith (copyOf .probe s) .badRecord [BitVec.ofNat 8 code] s t

/-- REBIND of a bound or coasting input (sections 6.9 and 8.8): released with HOST_REBIND and LOST,
then PENDING with a search on its last published set.

REBIND of an unmatched input searches again on its held stable set, with no release and no
per-input notice; in IDLE, SILENT, SETTLING, PENDING and FAULT it is refused with BAD_STATE, and
for an argument of 6..255 with BAD_INPUT, and changes nothing (sections 6.9 and 8.8).
The tracker's lossTick is the model's own field (assumption log 31). -/
def Obligations.RebindClassifiesAgain : Prop :=
  (∀ s n b m, TrackerLaw s → commandReady s → (s.mailbox.args[0]).toNat = n.val →
    (s.tracker n).binding = some b → (s.unit n).lastSet = some m →
    ∃ t, exec .rebind s = .next t ∧ portAdvanced s t ∧ unitsKept s t ∧ otherInputsKept n s t
      ∧ t.tracker n =
          { s.tracker n with
            state := .pending, held := some m, coast := 0, binding := none, recallRef := none
            lastLoss := lossOf .hostRebind b, lossTick := none
            reqSeq := (s.tracker n).reqSeq + 1 }
      ∧ requestSubmitted (inputRequester n)
          { kind := .search, set := .measured m, seq := some ((s.tracker n).reqSeq + 1) } s t
      ∧ bindingReleased n b (inputNoticeBit .lost) s t
      ∧ (∀ k : InputIx, k ≠ n → t.notices.flags[k] = s.notices.flags[k])
      ∧ completedWith (copyOf .rebind s) .ok
        [inputByte n, trackerStateCode (s.tracker n).state, 1, slotByte b.slot, b.generation] s t
      ∧ t.freeIndex = s.freeIndex)
    ∧ (∀ s, TrackerLaw s → commandReady s →
    (∀ n, (s.mailbox.args[0]).toNat = n.val → ¬ isBoundState (s.tracker n).state) →
    ∃ t, exec .rebind s = .next t ∧ portAdvanced s t ∧ unitsKept s t
      ∧ t.catalog = s.catalog ∧ t.notices.flags = s.notices.flags ∧ t.freeIndex = s.freeIndex
      ∧ (∀ n m, (s.mailbox.args[0]).toNat = n.val → (s.tracker n).state = .unmatched →
          (s.tracker n).held = some m →
          t.tracker n =
              { s.tracker n with
                state := .pending, recheck := false, reqSeq := (s.tracker n).reqSeq + 1 }
            ∧ otherInputsKept n s t
            ∧ requestSubmitted (inputRequester n)
              { kind := .search, set := .measured m
                seq := some ((s.tracker n).reqSeq + 1) } s t
            ∧ completedWith (copyOf .rebind s) .ok [inputByte n, 6, 0, 0, 0] s t)
      ∧ (∀ n, (s.mailbox.args[0]).toNat = n.val →
          (s.tracker n).state ∈ [.idle, .silent, .settling, .pending, .fault] →
          t.inputs = s.inputs ∧ t.classifier = s.classifier
            ∧ completedWith (copyOf .rebind s) .badState
              [inputByte n, trackerStateCode (s.tracker n).state] s t)
      ∧ (6 ≤ (s.mailbox.args[0]).toNat →
          t.inputs = s.inputs ∧ t.classifier = s.classifier
            ∧ completedWith (copyOf .rebind s) .badInput [] s t))

/-- CLEAR_FAULT of an input in FAULT empties its latch, takes its tracker to SILENT and its
measurement unit to QUIET, each filter at its pin's level, and reports the latch as it stood; the
recall reference, the last-loss record and the FAULT notice stay. In every other state it is
refused (sections 4.1, 6.8, 8.8). -/
def Obligations.ClearFaultRestartsDetection : Prop :=
  ∀ s, TrackerLaw s → commandReady s →
    ∃ t, exec .clearFault s = .next t ∧ portAdvanced s t ∧ t.catalog = s.catalog
      ∧ t.classifier = s.classifier ∧ t.notices.flags = s.notices.flags
      ∧ t.freeIndex = s.freeIndex
      ∧ (∀ n, (s.mailbox.args[0]).toNat = n.val → (s.tracker n).state = .fault →
          t.tracker n =
              { s.tracker n with
                state := .silent, latch := noFaults, reqSeq := (s.tracker n).reqSeq + 1 }
            ∧ (t.unit n).state = .quiet ∧ (t.unit n).period = none ∧ (t.unit n).ring = []
            ∧ (t.unit n).gainLines = [] ∧ (t.unit n).line = none
            ∧ (t.unit n).lineCounter = 0 ∧ (t.unit n).vQuiet = 4096
            ∧ (t.unit n).halfLineRef = none
            ∧ (t.unit n).hFilter = { passed := s.pinLevel n .h, waiting := none }
            ∧ (t.unit n).vFilter = { passed := s.pinLevel n .v, waiting := none }
            ∧ (t.unit n).hRef = (s.unit n).hRef ∧ (t.unit n).vRef = (s.unit n).vRef
            ∧ (t.unit n).setSeq = (s.unit n).setSeq ∧ (t.unit n).lastSet = (s.unit n).lastSet
            ∧ configKept n s t ∧ otherInputsKept n s t
            ∧ completedWith (copyOf .clearFault s) .ok
              [inputByte n, (s.tracker n).latch.toByte] s t)
      ∧ (∀ n, (s.mailbox.args[0]).toNat = n.val → (s.tracker n).state ≠ .fault →
          t.inputs = s.inputs
            ∧ completedWith (copyOf .clearFault s) .badState
              [inputByte n, trackerStateCode (s.tracker n).state] s t)
      ∧ (6 ≤ (s.mailbox.args[0]).toNat →
          t.inputs = s.inputs ∧ completedWith (copyOf .clearFault s) .badInput [] s t)

/-- RESTART_CORE, whatever the gate (sections 3.6, 6.12, 7.8, 8.9, 9.5): the pass is aborted, the
request slots are emptied and the gate is open; every binding is released with CORE_RESTART and no
LOST; trackers start afresh, and every unit takes its values of power-on reset in QUIET or OFF, the
filters of an enabled input starting at its pins' levels (section 4.10); every bind_count is 0;
every notice but MAILBOX_DONE is clear. The catalog's entries, the configuration, the masks and the
port stay.
The tracker's lossTick is the model's own field (assumption log 31).
The classifier's endTick is the model's own field (assumption log 34). -/
def Obligations.RestartCoreResetsTracking : Prop :=
  ∀ s, commandReady s →
    ∃ t, exec .restartCore s = .next t ∧ portAdvanced s t
      ∧ t.classifier =
          { requests := Vector.replicate 7 none, pointer := 0, pass := none, gate := .opened,
            endTick := none }
      ∧ (∀ n, t.tracker n =
          { state := if (s.config n).enabled then .silent else .idle
            held := none, settleRef := none, settleCounter := 0, coast := 0, binding := none
            recallRef := none, recheck := false, latch := noFaults
            lastLoss :=
              match (s.tracker n).binding with
              | some b => lossOf .coreRestart b
              | none => (s.tracker n).lastLoss
            lossTick := none, reqSeq := 0 })
      ∧ (∀ n, (t.unit n).state = (if (s.config n).enabled then .quiet else .off)
          ∧ (t.unit n).hRef = .negative ∧ (t.unit n).vRef = .negative
          ∧ (t.unit n).period = none ∧ (t.unit n).setSeq = 0 ∧ (t.unit n).lastSet = none
          ∧ (t.unit n).line = none ∧ (t.unit n).ring = [] ∧ (t.unit n).gainLines = []
          ∧ (t.unit n).shortLines = [] ∧ (t.unit n).lineCounter = 0 ∧ (t.unit n).sepRun = 0
          ∧ (t.unit n).sepArmed = true ∧ (t.unit n).vQuiet = 4096
          ∧ vSourceOf (t.unit n) = .separator ∧ (t.unit n).halfLineRef = none
          ∧ (t.unit n).hFilter.waiting = none ∧ (t.unit n).vFilter.waiting = none
          ∧ ((s.config n).enabled = true →
              (t.unit n).hFilter.passed = s.pinLevel n .h
                ∧ (t.unit n).vFilter.passed = s.pinLevel n .v)
          ∧ configKept n s t)
      ∧ (∀ i, t.slot i = { s.slot i with bindCount := 0 })
      ∧ t.catalog.occupancy = s.catalog.occupancy ∧ t.catalog.tagMap = s.catalog.tagMap
      ∧ t.notices =
          { flags := Vector.replicate 6 0, masks := s.notices.masks, globalFlags := 1
            globalMasks := s.notices.globalMasks }
      ∧ completedWith (copyOf .restartCore s) .ok
        [inputSetByte (boundInputs s), loByte (boundInputs s).length,
          if s.classifier.pass = none then 0 else 1,
          match s.classifier.pass with | some p => BitVec.ofNat 8 p.requester.val | none => 0]
        { s with notices := { s.notices with globalFlags := 0 } } t
      ∧ t.freeIndex = s.freeIndex

/-- The held command executes at the gate's opening from its accepted copy, against the catalog as it
stands then, whatever the window's staging record and arguments hold by then, and completes (section
8.3). A change hands on its marks, which reach the pass in flight if the following grant was taken
first (section 3.4); a refusal is no catalog change. The state in which the gate is open, the
command still held and the arbitration perhaps still to run is the model's (assumption log 5), and
so is the arbitration that follows the change in it. That the number of an input in PENDING stays
when its reference is cleared is the model's choice too (assumption log 32). -/
def Obligations.HeldChangesExecuteFromCopy : Prop :=
  ∀ s a, s.mailbox.state = .held → s.classifier.gate = .opened → s.mailbox.accepted = some a →
    (∀ image i, CatalogLaw s → a.code = 0x01 → a.image = some image →
      (a.args[0]).toNat = i.val → fieldsPass image →
      (∀ j, ((stagedEntry image).tag, j) ∈ s.catalog.tagMap → j = i) →
      ∃ t, exec .heldCommandExecute s = .next t
        ∧ entryInstalled i (stagedEntry image) s t ∧ recheckMarked s t
        ∧ t.classifier = arbitrateClassifier (passDisturbed s.classifier)
        ∧ heldCompleted .ok
            [slotByte i, slotStateCode (t.slot i).state, (t.slot i).generation] s t
        ∧ t.notices.flags = s.notices.flags ∧ t.freeIndex = s.freeIndex)
      ∧ (∀ image code data, CatalogLaw s → a.code = 0x01 → a.image = some image →
        commitRefused (a.args[0]).toNat image s code data → heldRefused code data s)
      ∧ (∀ required new,
        (a.code, required, new) ∈
          [((0x03 : Byte), SlotState.active, SlotState.suspended), (0x04, .suspended, .active)] →
        (∀ i, (a.args[0]).toNat = i.val → (s.slot i).state = required →
            ∃ t, exec .heldCommandExecute s = .next t
              ∧ t.slot i = { s.slot i with state := new } ∧ otherSlotsKept i s t
              ∧ recheckMarked s t
              ∧ t.classifier = arbitrateClassifier (passDisturbed s.classifier)
              ∧ heldCompleted .ok
                [slotByte i, slotStateCode new, (s.slot i).generation,
                  loByte (s.slot i).bindCount] s t
              ∧ t.notices.flags = s.notices.flags ∧ t.freeIndex = s.freeIndex)
          ∧ (∀ i, (a.args[0]).toNat = i.val → (s.slot i).state ≠ required →
            heldRefused .badState [slotByte i, slotStateCode (s.slot i).state] s)
          ∧ (64 ≤ (a.args[0]).toNat → heldRefused .badSlot [] s))
      ∧ (a.code = 0x05 →
        (∀ i, TrackerLaw s → (a.args[0]).toNat = i.val → (s.slot i).state ≠ .free →
            ∃ t c, exec .heldCommandExecute s = .next t ∧ slotRetired i s t c
              ∧ t.classifier = arbitrateClassifier c ∧ unitsKept s t
              ∧ heldCompleted .ok
                [slotByte i, inputSetByte (inputsBoundTo i s), loByte (inputsBoundTo i s).length]
                s t)
          ∧ (∀ i, (a.args[0]).toNat = i.val → (s.slot i).state = .free →
            heldRefused .badState [slotByte i, 0] s)
          ∧ (64 ≤ (a.args[0]).toNat → heldRefused .badSlot [] s))
      ∧ (a.code = 0x06 → TrackerLaw s →
        ∃ t c, exec .heldCommandExecute s = .next t ∧ catalogCleared s t c
          ∧ t.classifier = arbitrateClassifier c ∧ unitsKept s t
          ∧ heldCompleted .ok
            [loByte s.catalog.occupancy, inputSetByte (boundInputs s),
              loByte (boundInputs s).length] s t)

/-! ### Matching (chapter 2) -/

/-- An entry fits a set exactly when its two required windows hold the values, each present optional
window holds its value, and each constraint is ANY or names its value (R28 to R31). -/
def Obligations.FitIsEightTests : Prop :=
  ∀ (e : Entry) (m : SyncSet), fits e m = true ↔
    (e.hPeriod.min ≤ m.hPeriod ∧ m.hPeriod ≤ e.hPeriod.max)
      ∧ (e.vLines.min ≤ m.vLines ∧ m.vLines ≤ e.vLines.max)
      ∧ (∀ w, e.hWidth = some w → w.min ≤ m.hWidth ∧ m.hWidth ≤ w.max)
      ∧ (∀ w, e.vWidth = some w → w.min ≤ m.vWidth ∧ m.vWidth ≤ w.max)
      ∧ (∀ x, e.hPolarity = some x → m.hPolarity = x)
      ∧ (∀ x, e.vPolarity = some x → m.vPolarity = x)
      ∧ (∀ x, e.scan = some x → m.scan = x) ∧ ∀ x, e.form = some x → m.form = x

/-- A step of a search examines the slot at its position and updates the tally as R37 lays down; the
candidate list stays in order, without repeats and at most four long. The step changes nothing
else. -/
def Obligations.SearchStepUpdatesTally : Prop :=
  ∀ s p tally (i : SlotIx), s.classifier.pass = some p → p.kind = .search →
    p.position = i.val → p.tally = some tally → candidatesOrdered tally.candidates →
    (∀ c ∈ tally.candidates, c.slot < i) → tally.candidates.length ≤ 4 →
    ∃ new : Tally,
      exec .classifierStep s =
          .next { s with
            classifier :=
              { s.classifier with
                pass := some { p with position := i.val + 1, tally := some new } } }
        ∧ candidatesOrdered new.candidates ∧ new.candidates.length ≤ 4
        ∧ (∀ c ∈ new.candidates, c.slot ≤ i)
        ∧ (¬ ((s.slot i).state = .active ∧ fits (s.slot i).entry p.set.sync = true) →
            new = tally)
        ∧ ((s.slot i).state = .active ∧ fits (s.slot i).entry p.set.sync = true →
            new.matchCount = tally.matchCount + 1
              ∧ (let rank := (s.slot i).entry.rank
                 (tally.topRank = none ∨ (∃ r, tally.topRank = some r ∧ r < rank) →
                    new.topRank = some rank ∧ new.topCount = 1)
                  ∧ (tally.topRank = some rank →
                    new.topRank = some rank ∧ new.topCount = tally.topCount + 1)
                  ∧ (∀ r, tally.topRank = some r → rank < r →
                    new.topRank = some r ∧ new.topCount = tally.topCount)
                  ∧ ∃ before after, tally.candidates = before ++ after
                    ∧ (∀ c ∈ before, rank ≤ c.rank) ∧ (∀ c ∈ after, c.rank < rank)
                    ∧ new.candidates =
                        (before ++ { slot := i, rank := rank } :: after).take 4
                    ∧ (before = [] → new.firstGeneration = (s.slot i).generation)
                    ∧ (before ≠ [] → new.firstGeneration = tally.firstGeneration)))

/-- The 64 examinations of a search against an unchanged catalog give the reference result: the
ACTIVE fitting slots by rank and then by index, the first four of them, the number that share the
winner's rank, whether there are more than four, and the winner's generation (sections 2.3 to
2.5). -/
def Obligations.SearchFindsReferenceResult : Prop :=
  ∀ s r q, CatalogLaw s → q.kind = .search →
    passResult (examineSteps s 64 (grantedPass r q)) = referenceSearch s q.set.sync

/-- The one step of a verify (R33, R34): a bound verify passes when the slot of the input's binding
is ACTIVE or SUSPENDED and its entry fits, and reports the generation it read, 0 without a binding;
a recall verify passes when the reference's slot is ACTIVE, at the recorded generation, and fits.
Nothing but the pass record changes. -/
def Obligations.VerifyStepExaminesOneSlot : Prop :=
  ∀ s p n, s.classifier.pass = some p → p.requester = inputRequester n → p.position = 0 →
    (p.kind = .verifyBound →
        exec .classifierStep s =
          .next { s with
            classifier :=
              { s.classifier with
                pass := some
                  { p with
                    position := 1
                    verdict :=
                      match (s.tracker n).binding with
                      | none => some (.bound false 0)
                      | some b =>
                        some
                          (.bound
                            (((s.slot b.slot).state == .active
                                || (s.slot b.slot).state == .suspended)
                              && fits (s.slot b.slot).entry p.set.sync)
                            (s.slot b.slot).generation) } } })
      ∧ (p.kind = .verifyRecall →
        ∃ v, exec .classifierStep s =
            .next { s with
              classifier :=
                { s.classifier with
                  pass := some { p with position := 1, verdict := some v } } }
          ∧ ∀ i g, v = .recallPass i g ↔
            (s.tracker n).recallRef = some { slot := i, generation := g }
              ∧ (s.slot i).state = .active ∧ (s.slot i).generation = g
              ∧ fits (s.slot i).entry p.set.sync = true)

/-! ### The classifier (chapter 3) -/

/-- Arbitration of an idle classifier grants the first occupied slot from the rotation pointer on,
sets the pointer past it and starts its pass; every other request stays, one place of the rotation
or more nearer to its grant, so that none waits for more than six other passes (R52, R53).
The classifier's endTick is the model's own field (assumption log 34). -/
def Obligations.ArbitrationRotates : Prop :=
  ∀ c : Classifier, c.pass = none → (∃ r : Requester, c.requests[r].isSome) →
    ∃ (r : Requester) (q : Request), c.requests[r] = some q ∧ arbitrateClassifier c =
        { requests := c.requests.set r none, pointer := r + 1, gate := c.gate
          endTick := c.endTick
          pass := some (grantedPass r q) }
      ∧ (∀ k : Requester, c.requests[k].isSome → (r - c.pointer).val ≤ (k - c.pointer).val)
      ∧ ∀ k : Requester, k ≠ r → c.requests[k].isSome →
        (k - (r + 1)).val < (k - c.pointer).val ∧ (k - c.pointer).val ≤ 6

/-- A pass that is no longer current at its completion is orphaned, disturbed or not: no block but
the classifier changes, and the gate opens if the start was the third (sections 3.3 and 3.4). The
classifier goes on to the next request at once, but with a held change taken first it stays idle
until that has executed (section 3.4, assumption log 5).

A current, disturbed pass restarts (R60): the same pass from slot 0 with the start count one
higher, the mark clear and an empty tally, with no grant and no delivery. A restart that brings the
start count to 3 closes the gate and sets the GATE notice, and no other does (R61).
The classifier's endTick is the model's own field (assumption log 34). -/
def Obligations.StaleOrDisturbedPassAtCompletion : Prop :=
  (∀ s p order tick, s.classifier.pass = some p → passLength p.kind ≤ p.position →
    (match requesterInput p.requester with
      | some n => p.seq ≠ some (s.tracker n).reqSeq
      | none => p.probeCurrent ≠ some true) →
    ∃ t, exec (.passComplete ⟨order, tick⟩) s = .next t
      ∧ passEnded p order tick s.classifier.requests s t
      ∧ t = { s with classifier := t.classifier })
    ∧ (∀ s p order tick, currentAtEnd p s → p.disturbed = true →
    exec (.passComplete ⟨order, tick⟩) s =
      .next { s with
        classifier :=
          { s.classifier with
            pass := some
              { p with
                start := p.start + 1, disturbed := false, position := 0
                tally := p.tally.map fun _ => emptyTally, verdict := none }
            gate := if p.start + 1 = 3 then .closed else s.classifier.gate }
        notices :=
          if p.start + 1 = 3 then
            { s.notices with
              globalFlags := s.notices.globalFlags ||| globalNoticeBit .gate }
          else s.notices })

/-- A search MATCH or a recall PASS delivered in PENDING makes a binding (sections 6.5 and 7.1): the
record is the result's, with a bind claim on the slot, the recall reference cleared, BOUND entered
and the BOUND notice set. The classifier goes idle and arbitrates; the end of a third start opens the
gate after the delivery, in either order with a held change (section 3.4, assumption log 5).
The classifier's endTick is the model's own field (assumption log 34). -/
def Obligations.MatchBindsInput : Prop :=
  ∀ s p order tick n m i rest via, currentAtEnd p s → p.disturbed = false →
    p.requester = inputRequester n → (s.tracker n).state = .pending → TrackerLaw s →
    ((passResult p = .matched m ∧ via = .search)
      ∨ (passResult p = .recalled m ∧ via = .byRecall)) →
    m.candidates = i :: rest →
    ∃ t, exec (.passComplete ⟨order, tick⟩) s = .next t
      ∧ t.tracker n =
          { s.tracker n with
            state := .bound, recallRef := none, reqSeq := (s.tracker n).reqSeq + 1
            binding := some
              { slot := i, generation := m.generation, via := via, ambiguity := m.ambiguity
                candidates := m.candidates, overflow := m.overflow } }
      ∧ t.slot i = { s.slot i with bindCount := (s.slot i).bindCount + 1 }
      ∧ otherSlotsKept i s t ∧ noticesRaised n (inputNoticeBit .bound) s t
      ∧ unitsKept s t ∧ otherInputsKept n s t
      ∧ passEnded p order tick (s.classifier.requests.set (inputRequester n) none) s t
      ∧ t.mailbox = s.mailbox ∧ portKept s t ∧ t.freeIndex = s.freeIndex

/-- NO_MATCH in PENDING takes the input to UNMATCHED with its held stable set and the UNMATCHED
notice; a recall FAIL clears the recall reference and searches on the held stable set, the tracker
staying in PENDING with its number (section 6.5). That a FAIL is delivered too where a RETIRE or
CLEAR_CATALOG has cleared the reference is the model's choice (assumption log 32). The end of a third start opens the gate after the
delivery, in either order with a held change (section 3.4, assumption log 5).
The classifier's endTick is the model's own field (assumption log 34). -/
def Obligations.FailedSearchAndRecall : Prop :=
  ∀ s p order tick n, currentAtEnd p s → p.disturbed = false →
    p.requester = inputRequester n → (s.tracker n).state = .pending → TrackerLaw s →
    (passResult p = .noMatch →
        ∃ t, exec (.passComplete ⟨order, tick⟩) s = .next t
          ∧ t.tracker n =
              { s.tracker n with
                state := .unmatched, reqSeq := (s.tracker n).reqSeq + 1 }
          ∧ noticesRaised n (inputNoticeBit .unmatched) s t
          ∧ passEnded p order tick (s.classifier.requests.set (inputRequester n) none) s t
          ∧ t.catalog = s.catalog ∧ unitsKept s t ∧ otherInputsKept n s t
          ∧ t.mailbox = s.mailbox ∧ portKept s t ∧ t.freeIndex = s.freeIndex)
      ∧ ∀ h, passResult p = .recallFailed → (s.tracker n).held = some h →
        ∃ t, exec (.passComplete ⟨order, tick⟩) s = .next t
          ∧ t.tracker n = { s.tracker n with recallRef := none }
          ∧ passEnded p order tick
            (s.classifier.requests.set (inputRequester n)
              (some
                { kind := .search, set := .measured h, seq := some (s.tracker n).reqSeq })) s t
          ∧ t.notices = s.notices ∧ t.catalog = s.catalog ∧ unitsKept s t
          ∧ otherInputsKept n s t ∧ t.mailbox = s.mailbox ∧ portKept s t
          ∧ t.freeIndex = s.freeIndex

/-- A bound verify's PASS, in BOUND or COASTING (the first two rows of the edit check, section 7.2):
the binding's generation becomes the result's, COASTING ends with the coast counter at 0 and a
waiting verify kept with the new number, and no notice, claim or other field changes.

A bound verify's FAIL (the last two rows of the edit check, section 7.2, and section 6.6). With
equal generations and failures left in the budget the input coasts, one failure further, with
DISRUPT; past the budget it is released with DEVIATED, keeping a recall reference, and settles from
the failing set. With differing generations it is released with ENTRY_EDITED at once, whatever the
coast and the budget, and searches on the failing set. A fault detected at the tick of such a release
takes the input on into FAULT, and the last-loss record then names FAULT with the slot and generation
of the released binding (section 5.5); that the two come at one event when their ticks are equal, and
that the recall reference stays, is the model's choice (assumption log 31). The end of a third start
opens the gate after the delivery, in either order with a held change (section 3.4, assumption
log 5).
The classifier's endTick is the model's own field (assumption log 34). -/
def Obligations.EditCheckJudgesVerify : Prop :=
  (∀ s p order tick n b g m, currentAtEnd p s → p.disturbed = false →
    p.requester = inputRequester n → TrackerLaw s → (s.tracker n).binding = some b →
    passResult p = .bound true g → p.set = .measured m →
    ∃ t, exec (.passComplete ⟨order, tick⟩) s = .next t
      ∧ ((s.tracker n).state = .bound →
          t.tracker n = { s.tracker n with binding := some { b with generation := g } }
            ∧ passEnded p order tick s.classifier.requests s t)
      ∧ ((s.tracker n).state = .coasting →
          t.tracker n =
              { s.tracker n with
                state := .bound, coast := 0, reqSeq := (s.tracker n).reqSeq + 1
                binding := some { b with generation := g } }
            ∧ passEnded p order tick
              (s.classifier.requests.set (inputRequester n)
                ((s.request (inputRequester n)).map fun q =>
                  { q with seq := some ((s.tracker n).reqSeq + 1) })) s t)
      ∧ t.catalog = s.catalog ∧ t.notices = s.notices ∧ unitsKept s t
      ∧ otherInputsKept n s t ∧ t.mailbox = s.mailbox ∧ portKept s t
      ∧ t.freeIndex = s.freeIndex)
    ∧ (∀ s p order tick n b g m, currentAtEnd p s → p.disturbed = false →
    p.requester = inputRequester n → TrackerLaw s → (s.tracker n).binding = some b →
    passResult p = .bound false g → p.set = .measured m →
    ∃ t, exec (.passComplete ⟨order, tick⟩) s = .next t
      ∧ (g = b.generation → (s.tracker n).coast + 1 ≤ (s.config n).budget.toNat →
          t.tracker n =
              { s.tracker n with
                state := .coasting, coast := (s.tracker n).coast + 1
                reqSeq :=
                  if (s.tracker n).state = .bound then (s.tracker n).reqSeq + 1
                  else (s.tracker n).reqSeq }
            ∧ passEnded p order tick
              (if (s.tracker n).state = .bound then
                s.classifier.requests.set (inputRequester n)
                  ((s.request (inputRequester n)).map fun q =>
                    { q with seq := some ((s.tracker n).reqSeq + 1) })
              else s.classifier.requests) s t
            ∧ noticesRaised n (inputNoticeBit .disrupt) s t ∧ t.catalog = s.catalog)
      ∧ (g = b.generation → (s.config n).budget.toNat < (s.tracker n).coast + 1 →
          1 < (s.config n).settle.toNat →
          t.tracker n =
              { s.tracker n with
                state := .settling, held := none, settleRef := some m, settleCounter := 1
                coast := 0, binding := none
                recallRef := some { slot := b.slot, generation := b.generation }
                lastLoss := lossOf .deviated b, lossTick := some tick
                reqSeq := (s.tracker n).reqSeq + 1 }
            ∧ faultJoinsResult n b tick t
            ∧ passEnded p order tick (s.classifier.requests.set (inputRequester n) none) s t
            ∧ bindingReleased n b (inputNoticeBit .lost) s t ∧ otherNoticesKept n s t)
      ∧ (g = b.generation → (s.config n).budget.toNat < (s.tracker n).coast + 1 →
          (s.config n).settle.toNat = 1 →
          t.tracker n =
              { s.tracker n with
                state := .pending, held := some m, coast := 0, binding := none
                recallRef := some { slot := b.slot, generation := b.generation }
                lastLoss := lossOf .deviated b, lossTick := some tick
                reqSeq := (s.tracker n).reqSeq + 1 + 1 }
            ∧ faultJoinsResult n b tick t
            ∧ passEnded p order tick
              (s.classifier.requests.set (inputRequester n)
                (some
                  { kind := .verifyRecall, set := .measured m
                    seq := some ((s.tracker n).reqSeq + 1 + 1) })) s t
            ∧ bindingReleased n b (inputNoticeBit .lost) s t ∧ otherNoticesKept n s t)
      ∧ (g ≠ b.generation →
          t.tracker n =
              { s.tracker n with
                state := .pending, held := some m, coast := 0, binding := none
                recallRef := none, lastLoss := lossOf .entryEdited b
                lossTick := some tick, reqSeq := (s.tracker n).reqSeq + 1 }
            ∧ faultJoinsResult n b tick t
            ∧ passEnded p order tick
              (s.classifier.requests.set (inputRequester n)
                (some
                  { kind := .search, set := .measured m
                    seq := some ((s.tracker n).reqSeq + 1) })) s t
            ∧ bindingReleased n b (inputNoticeBit .lost) s t ∧ otherNoticesKept n s t)
      ∧ unitsKept s t ∧ otherInputsKept n s t ∧ t.mailbox = s.mailbox ∧ portKept s t
      ∧ t.freeIndex = s.freeIndex)

/-- A delivered probe result completes the PROBE (section 8.7): OK with the candidates, ambiguity,
overflow and winner's generation, or NO_MATCH with zero data; no binding, bind_count, tracker or
tracker notice changes.
The classifier's endTick is the model's own field (assumption log 34). -/
def Obligations.ProbeResultCompletesProbe : Prop :=
  ∀ s p order tick, currentAtEnd p s → p.disturbed = false →
    p.requester = probeRequester → s.mailbox.state = .waiting →
    (∀ m, passResult p = .matched m →
        exec (.passComplete ⟨order, tick⟩) s =
          .next { s with
            mailbox :=
              { s.mailbox with
                state := .done, result := some .ok
                data :=
                  padTo 21
                    ([loByte m.candidates.length] ++ (m.candidates.map slotByte ++ [0, 0, 0, 0]).take 4
                      ++ [loByte m.ambiguity, if m.overflow then 1 else 0, m.generation]) }
            notices :=
              { s.notices with
                globalFlags := s.notices.globalFlags ||| globalNoticeBit .mailboxDone }
            classifier :=
              arbitrateClassifier
                { s.classifier with
                  pass := none, gate := if p.start = 3 then .opened else s.classifier.gate
                  endTick := some tick } })
      ∧ (passResult p = .noMatch →
        exec (.passComplete ⟨order, tick⟩) s =
          .next { s with
            mailbox :=
              { s.mailbox with
                state := .done, result := some .noMatch, data := Vector.replicate 21 0 }
            notices :=
              { s.notices with
                globalFlags := s.notices.globalFlags ||| globalNoticeBit .mailboxDone }
            classifier :=
              arbitrateClassifier
                { s.classifier with
                  pass := none, gate := if p.start = 3 then .opened else s.classifier.gate
                  endTick := some tick } })

/-! ### The tracker's own procedures (chapters 6 and 7) -/

/-- Two sets are consistent when h_period differs by 8 eighths or less, v_lines by 1 or less, and the
two polarities, scan and sync_form are equal; no other field takes part. The relation is symmetric
and not transitive (R91). -/
def Obligations.ConsistencyOfSets : Prop :=
  (∀ a b : MeasSet, consistent a b = true ↔
      ((a.sync.hPeriod : Int) - b.sync.hPeriod).natAbs ≤ 8
        ∧ ((a.sync.vLines : Int) - b.sync.vLines).natAbs ≤ 1
        ∧ a.sync.hPolarity = b.sync.hPolarity ∧ a.sync.vPolarity = b.sync.vPolarity
        ∧ a.sync.scan = b.sync.scan ∧ a.sync.form = b.sync.form)
    ∧ (∀ a b, consistent a b = consistent b a)
    ∧ ∃ a b c, consistent a b = true ∧ consistent b c = true ∧ consistent a c = false

/-- Every change of a tracker's state (R109): the number advances; a waiting request is submitted
again with the new number between BOUND and COASTING and withdrawn in every other change; what the
old state alone may hold is cleared; the held stable set goes where the new state holds none; and
nothing else changes, a pass in flight included.

Every release (R146): the unbind claim, the last-loss record with the binding's slot and
generation, the recall reference written for SIGNAL_LOST and DEVIATED and cleared for every other
reason, LOST for every reason but CORE_RESTART, and the binding absent. Nothing else changes.
The tracker's lossTick is the model's own field (assumption log 31). -/
def Obligations.ChangeOfStateAndRelease : Prop :=
  (∀ n new s, ∃ t, changeState n new s = t
    ∧ t.tracker n =
        { s.tracker n with
          state := new
          reqSeq := (s.tracker n).reqSeq + 1
          settleCounter :=
            if (s.tracker n).state = .settling then 0 else (s.tracker n).settleCounter
          settleRef := if (s.tracker n).state = .settling then none else (s.tracker n).settleRef
          coast := if (s.tracker n).state = .coasting then 0 else (s.tracker n).coast
          recheck := if (s.tracker n).state = .unmatched then false else (s.tracker n).recheck
          held :=
            if new = .idle ∨ new = .silent ∨ new = .settling ∨ new = .fault then none
            else (s.tracker n).held }
    ∧ t.request (inputRequester n) =
        (if (new = .bound ∧ (s.tracker n).state = .coasting)
            ∨ (new = .coasting ∧ (s.tracker n).state = .bound) then
          (s.request (inputRequester n)).map fun q =>
            { q with seq := some ((s.tracker n).reqSeq + 1) }
        else none)
    ∧ otherRequestsKept (inputRequester n) s t ∧ otherInputsKept n s t ∧ unitsKept s t
    ∧ t.catalog = s.catalog ∧ t.mailbox = s.mailbox ∧ t.notices = s.notices ∧ t.port = s.port)
    ∧ ∀ n reason s b, (s.tracker n).binding = some b → ∃ t, release n reason s = t
      ∧ t.tracker n =
          { s.tracker n with
            binding := none
            lastLoss := some { reason := reason, slot := b.slot, generation := b.generation }
            lossTick := none
            recallRef :=
              if reason = .signalLost ∨ reason = .deviated then
                some { slot := b.slot, generation := b.generation }
              else none }
      ∧ t.slot b.slot = { s.slot b.slot with bindCount := (s.slot b.slot).bindCount - 1 }
      ∧ otherSlotsKept b.slot s t
      ∧ noticesRaised n (if reason = .coreRestart then 0 else inputNoticeBit .lost) s t
      ∧ otherInputsKept n s t ∧ unitsKept s t ∧ t.classifier = s.classifier
      ∧ t.mailbox = s.mailbox ∧ t.port = s.port

/-! ### The sync pins (chapters 4 and 5) -/

/-- A pin that changes from the passed level waits in its filter with its tick and the window in
force; a pulse that returns inside that window is dropped and counted once in the open period, and
not counted while no period is open, the passed level staying as it was (section 4.2). Nothing else
changes but the pin. The rejection that is NOISE and the one for which an expiry waits have
statements of their own (ThirtySecondRejectionIsNoise, ExpiryWaitsForFilter). For which transition an
expiry waits after a change of the reference is the model's choice (assumption log 33). -/
def Obligations.PinTransitionWaitsOrIsRejected : Prop :=
  ∀ n pin level tick s, (s.unit n).state ≠ .off → s.pinLevel n pin ≠ level →
    ∃ t, exec (.pinTransition n pin level tick) s = .next t ∧ t.pinLevel n pin = level
      ∧ (∀ other, other ≠ pin → t.pinLevel n other = s.pinLevel n other)
      ∧ t.config n = s.config n
      ∧ ((filterOf (s.unit n) pin).waiting = none → level ≠ (filterOf (s.unit n) pin).passed →
          t.unit n =
              withFilter (s.unit n) pin
                { passed := (filterOf (s.unit n) pin).passed
                  waiting := some { tick := tick, window := (s.config n).glitch } }
            ∧ t.tracker n = s.tracker n ∧ otherInputsKept n s t ∧ t.catalog = s.catalog
            ∧ t.classifier = s.classifier ∧ t.mailbox = s.mailbox ∧ t.notices = s.notices
            ∧ t.port = s.port)
      ∧ ∀ w, (filterOf (s.unit n) pin).waiting = some w → tick < w.tick + w.window.toNat →
          w.tick ≤ tick → (pin = .h → expiryWaited (s.unit n) tick = false) →
          (∀ p, (s.unit n).period = some p → p.rejections ≠ 31 ∨ p.faults.noise = true) →
          t.unit n =
              withFilter
                { s.unit n with
                  period := (s.unit n).period.map fun p =>
                    { p with rejections := min 255 (p.rejections + 1) } } pin
                { passed := (filterOf (s.unit n) pin).passed, waiting := none }
            ∧ t.tracker n = s.tracker n ∧ otherInputsKept n s t ∧ t.catalog = s.catalog
            ∧ t.classifier = s.classifier ∧ t.mailbox = s.mailbox ∧ t.notices = s.notices
            ∧ t.port = s.port

/-- The accepted H pin transitions that close no line (sections 4.2 to 4.4); nothing but the unit changes.
One out of the active level ends the active phase of the line in progress, if it has not ended. One
into it opens a line as the first edge in QUIET, and after a change of the reference has abandoned the
line in progress, with the counters kept. One less than 160 ticks after the last accepted edge is
dropped and counted once in the open period, and not counted while none is open; with no line in
progress too, which is the model's choice (assumption log 30). ThirtySecondRejectionIsNoise has the
rejection that is NOISE. -/
def Obligations.HTransitionsThatCloseNoLine : Prop :=
  (∀ n s (w : Waiting), (s.unit n).state ≠ .off → (s.unit n).hFilter.waiting = some w →
    otherLevel (s.unit n).hFilter.passed ≠ activeLevel (s.unit n).hRef →
    exec (.transitionAccepted n .h) s =
      .next (s.withUnit n
        { hPinTaken (s.unit n) with
          line := (s.unit n).line.map fun o =>
            { o with activeEnd := some (o.activeEnd.getD w.tick) } }))
    ∧ (∀ n s w, waitingHEdge (s.unit n) = some w →
      ((s.unit n).state = .quiet ∧ (s.unit n).lastHEdge = none)
        ∨ (isRunning (s.unit n) = true ∧ (s.unit n).line = none
          ∧ ∃ a, (s.unit n).lastHEdge = some a ∧ a + 160 ≤ w ∧ w < a + 8192) →
      exec (.transitionAccepted n .h) s =
        .next (s.withUnit n (lineOpenedAt w (s.unit n).lineCounter (s.unit n))))
    ∧ ∀ n s w a, (s.unit n).state ≠ .off → waitingHEdge (s.unit n) = some w →
      (s.unit n).lastHEdge = some a → a ≤ w → w < a + 160 →
      (∀ p, (s.unit n).period = some p → p.rejections ≠ 31 ∨ p.faults.noise = true) →
      exec (.transitionAccepted n .h) s =
        .next (s.withUnit n
          { hPinTaken (s.unit n) with
            period := (s.unit n).period.map fun p =>
              { p with rejections := min 255 (p.rejections + 1) } })

/-- How a line that closes at `t` is characterised (R75, with what R86 has the first broad line of a run
record): the active phase runs to the first transition out of the active level, the width is that of
the shorter phase, half the period rounded down where they are equal, and the detected polarity is the
reference's unless the active phase is the longer; the line is broad when its active phase is longer
than a quarter of its period.

A line that closes while the separator is the source, short of the line counter's expiry and of a
separator edge (sections 4.3 to 4.7). It counts, and its edge opens the next line. One that is not
broad enters the ring, or if short the short-line run, whose eighth line replaces the ring
(RING_REFILL); it ends any run, which gives its pulse width to an open period that has none, and
re-arms the separator. A broad one is not admitted, and raises the run, held at 4095 (assumption log
20); the first records its opening edge and the line counter there. Nothing but the unit changes. -/
def Obligations.LinesEnterRing : Prop :=
  (∀ u o e t, o.activeEnd = some e → o.openTick ≤ e → e ≤ t →
    let l := characterise u o t
    l.line.period = t - o.openTick
      ∧ (e - o.openTick < t - e → l.line.width = e - o.openTick ∧ l.line.polarity = u.hRef)
      ∧ (e - o.openTick = t - e →
          l.line.width = (t - o.openTick) / 2 ∧ l.line.polarity = u.hRef)
      ∧ (t - e < e - o.openTick →
          l.line.width = t - e ∧ l.line.polarity = otherPolarity u.hRef)
      ∧ (l.broad = true ↔ t - o.openTick < 4 * (e - o.openTick))
      ∧ l.start.count = o.openCount ∧ l.start.tick = o.openTick
      ∧ ∀ a, u.prevHEdge = some a → l.start.offset = o.openTick - a)
    ∧ ∀ n s w l u, isRunning (s.unit n) = true → waitingHEdge (s.unit n) = some w →
      closingLine (s.unit n) = some l → (s.unit n).vQuiet = 4096 →
      (s.unit n).lineCounter < 4095 →
      u = { lineOpenedAt w ((s.unit n).lineCounter + 1) (s.unit n) with
            lineCounter := (s.unit n).lineCounter + 1 } →
      (l.broad = false →
        let ended : MeasUnit :=
          { u with
            sepRun := 0, sepArmed := true, runStart := none
            period :=
              if 0 < (s.unit n).sepRun then
                (s.unit n).period.map fun p =>
                  { p with width := some (p.width.getD (s.unit n).sepRun) }
              else (s.unit n).period }
        (3 * ((s.unit n).ring.map Line.period).sum ≤ 32 * l.line.period →
            exec (.transitionAccepted n .h) s =
              .next (s.withUnit n
                { ended with ring := (s.unit n).ring.drop 1 ++ [l.line], shortLines := [] }))
          ∧ (32 * l.line.period < 3 * ((s.unit n).ring.map Line.period).sum →
            ((s.unit n).shortLines.length < 7 →
                exec (.transitionAccepted n .h) s =
                  .next (s.withUnit n
                    { ended with shortLines := (s.unit n).shortLines ++ [l.line] }))
              ∧ ((s.unit n).shortLines.length = 7 →
                ∀ c ∈ [Instr.ringRefill n, .transitionAccepted n .h],
                  exec c s =
                    .next (s.withUnit n
                      { ended with
                        ring := (s.unit n).shortLines ++ [l.line], shortLines := [] }))))
        ∧ (l.broad = true → ¬ ((s.unit n).sepArmed = true ∧ (s.unit n).sepRun = 2) →
          exec (.transitionAccepted n .h) s =
            .next (s.withUnit n
              { u with
                sepRun := min 4095 ((s.unit n).sepRun + 1)
                runStart :=
                  if (s.unit n).sepRun = 0 then some l.start else (s.unit n).runStart }))

/-- The set composed at a closing edge of the V pin in PUBLISHING, of a period of 16 lines or more
whose opening pulse is not the longer part (section 4.7) and whose record withholds nothing (sections
4.5, 4.8 and 5.4, with the counters of section 4.6 and the abandoned line of section 4.3): it is
published with the advanced sequence, becomes the last published set and reaches the tracker, and
the next period opens. A bound input submits a verify on it, with no change of its tracker. Where
the last accepted horizontal edge reached its pin after the V pin edge, half_line is taken from the
edge before it, which is the model's deduction (assumption log 26).
Where a completion of the same tick has granted the verify the input had waiting, the newer one takes
its place; equal ticks as one event, and another requester's completion, are the model's choice
(assumption log 34). -/
def Obligations.ClosingEdgePublishesSet : Prop :=
  ∀ n s w p newest a, (s.unit n).state = .publishing → (s.unit n).vQuiet < 4096 →
    vTransitionWaits (s.unit n) w true → (s.unit n).period = some p →
    16 ≤ (s.unit n).lineCounter →
    p.width.getD (s.unit n).lineCounter
      ≤ (s.unit n).lineCounter - p.width.getD (s.unit n).lineCounter →
    p.faults.shortFrame = false → p.faults.polarityFlip = false →
    (s.unit n).ring.getLast? = some newest → lastEdgeBefore (s.unit n) w a →
    ∃ t m, exec (.transitionAccepted n .v) s = .next t
      ∧ composedFrom (s.unit n) p newest (s.unit n).lineCounter
          (p.width.getD (s.unit n).lineCounter) (w - a) .separate m
      ∧ t.unit n =
          { vPinTaken (s.unit n) with
            lineCounter := 0, setSeq := m.seq, lastSet := some m
            halfLineRef := some m.halfLine, hRef := newest.polarity
            line := if (s.unit n).hRef = newest.polarity then (s.unit n).line else none
            period := some (periodOpenedAt w) }
      ∧ setReachesTracker n (acceptTick .v (s.unit n)) m s t
      ∧ configKept n s t ∧ otherInputsKept n s t ∧ t.catalog = s.catalog
      ∧ t.mailbox = s.mailbox ∧ t.freeIndex = s.freeIndex
      ∧ (isBoundState (s.tracker n).state →
          t.tracker n = s.tracker n ∧ t.notices = s.notices
            ∧ verifySubmitted n (acceptTick .v (s.unit n)) m s t)

/-- The V pin transitions that compose and report nothing (sections 4.6 to 4.8). While the separator is
the source any of them makes the V pin the source and takes the unit to UNPRIMED, and one into the
active level is then the first vertical edge. While the V pin is the source, one out of the active
level ends the pulse, whose width is the lines counted since its edge; one into the active level
opens a period in UNPRIMED, and in PRIMING closes a primer of 16 lines or more whose reference
stands, with its half_line as the half-line reference. Where the last accepted horizontal edge reached
its pin after the V pin edge, half_line is taken from the edge before it, which is the model's
deduction (assumption log 26). Nothing but the unit changes. -/
def Obligations.VPinTransitionsWithoutReport : Prop :=
  (∀ n s w, vTransitionWaits (s.unit n) w false → (s.unit n).vQuiet = 4096 →
    exec (.transitionAccepted n .v) s =
      .next (s.withUnit n
        { vPinTaken (s.unit n) with state := .unprimed, period := none, halfLineRef := none }))
    ∧ (∀ n s w, vTransitionWaits (s.unit n) w true → (s.unit n).vQuiet = 4096 →
      exec (.transitionAccepted n .v) s =
        .next (s.withUnit n
          { vPinTaken (s.unit n) with
            state := .priming, lineCounter := 0, halfLineRef := none
            period := some (periodOpenedAt w) }))
    ∧ (∀ n s w, vTransitionWaits (s.unit n) w false → (s.unit n).vQuiet < 4096 →
      exec (.transitionAccepted n .v) s =
        .next (s.withUnit n
          { vPinTaken (s.unit n) with
            period := (s.unit n).period.map fun p =>
              { p with width := some (p.width.getD (s.unit n).lineCounter) } }))
    ∧ (∀ n s w, vTransitionWaits (s.unit n) w true → (s.unit n).vQuiet < 4096 →
      (s.unit n).state = .unprimed →
      exec (.transitionAccepted n .v) s =
        .next (s.withUnit n
          { vPinTaken (s.unit n) with
            state := .priming, lineCounter := 0, period := some (periodOpenedAt w) }))
    ∧ ∀ n s w p a, vTransitionWaits (s.unit n) w true → (s.unit n).vQuiet < 4096 →
      (s.unit n).state = .priming → (s.unit n).period = some p →
      16 ≤ (s.unit n).lineCounter →
      p.width.getD (s.unit n).lineCounter
        ≤ (s.unit n).lineCounter - p.width.getD (s.unit n).lineCounter →
      lastEdgeBefore (s.unit n) w a →
      ∃ half : Bool, (half = true ↔ isHalfLine (s.unit n) (w - a))
        ∧ exec (.transitionAccepted n .v) s =
          .next (s.withUnit n
            { vPinTaken (s.unit n) with
              state := .publishing, lineCounter := 0, halfLineRef := some half
              period := some (periodOpenedAt w) })

/-- The closing edges of the V pin that publish nothing (sections 4.3, 4.5, 4.7, 4.8, 5.2 and 5.4).
A period of 16 lines or more whose opening pulse was the longer part inverts the vertical reference:
no set, UNPRIMED, no period opened. One of fewer than 16 lines is SHORT_FRAME, before that check; if
the reference stands, the next period opens with the state and the half-line reference as they were.
In PUBLISHING a set whose period's record holds POLARITY_FLIP or SHORT_FRAME is withheld: it sets
the half-line reference and the horizontal reference, and the sequence, the last published set and
the tracker stay. Where the last accepted horizontal edge reached its pin after the V pin edge,
half_line is taken from the edge before it, which is the model's deduction (assumption log 26).
What a detection at the tick of a result's release leaves in the last-loss record is the model's
choice (assumption log 31). -/
def Obligations.ClosingEdgesThatPublishNothing : Prop :=
  (∀ n s w p, isOpenState (s.unit n).state → (s.unit n).vQuiet < 4096 →
    vTransitionWaits (s.unit n) w true → (s.unit n).period = some p →
    16 ≤ (s.unit n).lineCounter →
    (s.unit n).lineCounter - p.width.getD (s.unit n).lineCounter
      < p.width.getD (s.unit n).lineCounter →
    exec (.transitionAccepted n .v) s =
      .next (s.withUnit n
        { vPinTaken (s.unit n) with
          vRef := otherPolarity (s.unit n).vRef, state := .unprimed, period := none
          halfLineRef := none, lineCounter := 0 }))
    ∧ (∀ n s w p, TrackerLaw s → LinkLaw s → isOpenState (s.unit n).state →
      (s.unit n).vQuiet < 4096 → vTransitionWaits (s.unit n) w true →
      (s.unit n).period = some p → (s.unit n).lineCounter < 16 →
      ∃ t, exec (.transitionAccepted n .v) s = .next t
        ∧ detectionTaken n .shortFrame (acceptTick .v (s.unit n)) s t
        ∧ t.unit n =
            (if (s.unit n).lineCounter - p.width.getD (s.unit n).lineCounter
                < p.width.getD (s.unit n).lineCounter then
              { vPinTaken (s.unit n) with
                vRef := otherPolarity (s.unit n).vRef, state := .unprimed, period := none
                halfLineRef := none, lineCounter := 0 }
            else
              { vPinTaken (s.unit n) with
                lineCounter := 0, period := some (periodOpenedAt w) })
        ∧ configKept n s t ∧ otherInputsKept n s t ∧ t.mailbox = s.mailbox ∧ portKept s t
        ∧ t.freeIndex = s.freeIndex)
    ∧ ∀ n s w p newest a, (s.unit n).state = .publishing → (s.unit n).vQuiet < 4096 →
      vTransitionWaits (s.unit n) w true → (s.unit n).period = some p →
      16 ≤ (s.unit n).lineCounter →
      p.width.getD (s.unit n).lineCounter
        ≤ (s.unit n).lineCounter - p.width.getD (s.unit n).lineCounter →
      p.faults.shortFrame = true ∨ p.faults.polarityFlip = true →
      (s.unit n).ring.getLast? = some newest → lastEdgeBefore (s.unit n) w a →
      ∃ half : Bool, (half = true ↔ isHalfLine (s.unit n) (w - a))
        ∧ exec (.transitionAccepted n .v) s =
          .next (s.withUnit n
            { vPinTaken (s.unit n) with
              lineCounter := 0, halfLineRef := some half, hRef := newest.polarity
              line := if (s.unit n).hRef = newest.polarity then (s.unit n).line else none
              period := some (periodOpenedAt w) })

/-- A line that closes while the V pin is the source, short of every expiry (sections 4.5 to 4.8,
5.2 and 5.3). It is admitted to the ring or joins the short-line run whether broad or not, counts in
both counters, and raises or ends the separator's run without an edge; the first broad line of a run
records its opening edge and the line counter there (LinesEnterRing says what ClosedLine.start is),
and a run is held at 4095, which is the model's deduction (assumption log 20). In an open period its
polarity is compared with the line before it: a difference not yet in the record is POLARITY_FLIP,
which enters the record and is taken by the tracker; in every case it becomes the previous line
polarity. Without a difference, and with no period open, no other block changes.
What a detection at the tick of a result's release leaves in the last-loss record is the model's
choice (assumption log 31). -/
def Obligations.LineUnderVPinIsJudged : Prop :=
  ∀ n s w l, TrackerLaw s → LinkLaw s → isRunning (s.unit n) = true →
    (s.unit n).vQuiet < 4095 → (s.unit n).lineCounter < 4095 →
    waitingHEdge (s.unit n) = some w → closingLine (s.unit n) = some l →
    ∃ t ring shorts run armed start period, exec (.transitionAccepted n .h) s = .next t
      ∧ t.unit n =
          { s.unit n with
            hFilter := { passed := otherLevel (s.unit n).hFilter.passed, waiting := none }
            ring := ring, shortLines := shorts, sepRun := run, sepArmed := armed
            runStart := start, period := period
            lineCounter := (s.unit n).lineCounter + 1, vQuiet := (s.unit n).vQuiet + 1
            line :=
              some
                { openTick := w, openCount := (s.unit n).lineCounter + 1, activeEnd := none }
            lastHEdge := some w, prevHEdge := (s.unit n).lastHEdge }
      ∧ (3 * ((s.unit n).ring.map Line.period).sum ≤ 32 * l.line.period →
          ring = (s.unit n).ring.drop 1 ++ [l.line] ∧ shorts = [])
      ∧ (32 * l.line.period < 3 * ((s.unit n).ring.map Line.period).sum →
          ((s.unit n).shortLines.length < 7 →
              ring = (s.unit n).ring ∧ shorts = (s.unit n).shortLines ++ [l.line])
            ∧ ((s.unit n).shortLines.length = 7 →
              ring = (s.unit n).shortLines ++ [l.line] ∧ shorts = []
                ∧ exec (.ringRefill n) s = .next t))
      ∧ (l.broad = false → run = 0 ∧ armed = true ∧ start = none)
      ∧ (l.broad = true → run = min 4095 ((s.unit n).sepRun + 1)
          ∧ armed = (if (s.unit n).sepRun = 2 then false else (s.unit n).sepArmed)
          ∧ start =
            (if (s.unit n).sepRun = 0 then some l.start else (s.unit n).runStart))
      ∧ ((s.unit n).period = none → period = none)
      ∧ (∀ p, (s.unit n).period = some p →
          ((∃ q, p.prevPolarity = some q ∧ q ≠ l.line.polarity
              ∧ p.faults.polarityFlip = false) →
            period =
                some
                  { p with
                    prevPolarity := some l.line.polarity
                    faults := { p.faults with polarityFlip := true } }
              ∧ detectionTaken n .polarityFlip (acceptTick .h (s.unit n)) s t))
      ∧ (∀ p, (s.unit n).period = some p →
          p.prevPolarity = none ∨ p.prevPolarity = some l.line.polarity
            ∨ p.faults.polarityFlip = true →
          period = some { p with prevPolarity := some l.line.polarity })
      ∧ ((∀ p, (s.unit n).period = some p →
            p.prevPolarity = none ∨ p.prevPolarity = some l.line.polarity
              ∨ p.faults.polarityFlip = true) →
          t.tracker n = s.tracker n ∧ t.catalog = s.catalog ∧ t.classifier = s.classifier
            ∧ t.notices = s.notices)
      ∧ configKept n s t ∧ otherInputsKept n s t ∧ t.mailbox = s.mailbox ∧ portKept s t
      ∧ t.freeIndex = s.freeIndex

/-- What a tracker does with a published set, by its state (sections 6.4 to 6.8). SETTLING: the counter
rises by 1 for a set consistent with the settling reference and becomes 1 otherwise, the set becomes
the reference, and at the settle count it becomes the held stable set and a recall verify, or
without a reference a search, is submitted in PENDING. PENDING and UNMATCHED: a set that is not
consistent with the held stable set settles afresh; a consistent one is not used, but with the
recheck mark it takes UNMATCHED to PENDING with a search on the held stable set. BOUND and COASTING
submit a verify and change nothing else; IDLE, SILENT and FAULT take no action.
Where a completion of the same tick has granted the verify the input had waiting, the newer one takes
its place; equal ticks as one event, and another requester's completion, are the model's choice
(assumption log 34). -/
def Obligations.PublishedSetsAreTakenByState : Prop :=
  ∀ n tick m s, TrackerLaw s →
    ∃ t, takeReport n tick s (.published m) = t
      ∧ ((s.tracker n).state = .settling → ∃ count,
          (count = match (s.tracker n).settleRef with
            | none => 1
            | some r => if consistent r m then (s.tracker n).settleCounter + 1 else 1)
          ∧ (count < (s.config n).settle.toNat →
            t.tracker n = { s.tracker n with settleCounter := count, settleRef := some m }
              ∧ t.classifier = s.classifier)
          ∧ ((s.config n).settle.toNat ≤ count →
            t.tracker n =
                { s.tracker n with
                  state := .pending, settleCounter := 0, settleRef := none, held := some m
                  reqSeq := (s.tracker n).reqSeq + 1 }
              ∧ requestSubmitted (inputRequester n)
                { kind := if (s.tracker n).recallRef = none then .search else .verifyRecall
                  set := .measured m, seq := some ((s.tracker n).reqSeq + 1) } s t))
      ∧ (∀ h, (s.tracker n).held = some h →
          ((s.tracker n).state = .pending → consistent h m = true → t = s)
            ∧ ((s.tracker n).state = .pending → consistent h m = false →
              settledAfresh n m s t)
            ∧ ((s.tracker n).state = .unmatched → consistent h m = false →
              settledAfresh n m s t)
            ∧ ((s.tracker n).state = .unmatched → consistent h m = true →
              (s.tracker n).recheck = false → t = s)
            ∧ ((s.tracker n).state = .unmatched → consistent h m = true →
              (s.tracker n).recheck = true →
              t.tracker n =
                  { s.tracker n with
                    state := .pending, recheck := false, reqSeq := (s.tracker n).reqSeq + 1 }
                ∧ requestSubmitted (inputRequester n)
                  { kind := .search, set := .measured h
                    seq := some ((s.tracker n).reqSeq + 1) } s t))
      ∧ (isBoundState (s.tracker n).state →
          t.tracker n = s.tracker n
            ∧ verifySubmitted n tick m s t)
      ∧ ((s.tracker n).state ∈ [.idle, .silent, .fault] → t = s)
      ∧ otherInputsKept n s t ∧ unitsKept s t ∧ t.catalog = s.catalog
      ∧ t.notices = s.notices ∧ t.mailbox = s.mailbox ∧ t.port = s.port
      ∧ t.freeIndex = s.freeIndex

/-- The gain count in QUIET (section 4.4): an edge that closes a line, short of the eighth, raises the
count by keeping the line and opens the next, and nothing but the unit changes
(HTransitionsThatCloseNoLine has the first edge and the dropped one).

H_ACTIVITY_GAINED (sections 4.4 and 6.3): the eighth line of the gain count fills the ring with
the eight lines in order, the reference takes the eighth line's polarity, abandoning the new line
if that changes it, and the unit enters UNPRIMED with the separator armed as the source; a tracker
in SILENT goes to SETTLING with ACQUIRED. -/
def Obligations.GainCountLeadsToActivity : Prop :=
  (∀ n s w l, (s.unit n).state = .quiet → (s.unit n).gainLines.length < 7 →
    waitingHEdge (s.unit n) = some w → closingLine (s.unit n) = some l →
    exec (.transitionAccepted n .h) s =
      .next (s.withUnit n
        { lineOpenedAt w (s.unit n).lineCounter (s.unit n) with
          gainLines := (s.unit n).gainLines ++ [l.line] }))
    ∧ ∀ n s w l, (s.unit n).state = .quiet → (s.unit n).gainLines.length = 7 →
    waitingHEdge (s.unit n) = some w → closingLine (s.unit n) = some l →
    (s.tracker n).state = .silent → TrackerLaw s →
    ∃ t, exec (.hActivityGained n) s = .next t
      ∧ (t.unit n).state = .unprimed ∧ (t.unit n).ring = (s.unit n).gainLines ++ [l.line]
      ∧ (t.unit n).gainLines = [] ∧ (t.unit n).shortLines = [] ∧ (t.unit n).lineCounter = 0
      ∧ (t.unit n).vQuiet = 4096 ∧ (t.unit n).sepRun = 0 ∧ (t.unit n).sepArmed = true
      ∧ (t.unit n).halfLineRef = none ∧ (t.unit n).hRef = l.line.polarity
      ∧ (t.unit n).lastHEdge = some w
      ∧ (t.unit n).line =
          (if (s.unit n).hRef = l.line.polarity then
            some { openTick := w, openCount := 0, activeEnd := none }
          else none)
      ∧ (t.unit n).vRef = (s.unit n).vRef ∧ (t.unit n).setSeq = (s.unit n).setSeq
      ∧ (t.unit n).lastSet = (s.unit n).lastSet ∧ (t.unit n).vFilter = (s.unit n).vFilter
      ∧ t.tracker n =
          { s.tracker n with state := .settling, reqSeq := (s.tracker n).reqSeq + 1 }
      ∧ noticesRaised n (inputNoticeBit .acquired) s t ∧ configKept n s t
      ∧ otherInputsKept n s t ∧ t.catalog = s.catalog ∧ t.classifier = s.classifier
      ∧ t.mailbox = s.mailbox ∧ portKept s t

/-- GAIN_COUNT_TIMEOUT (section 4.4): in QUIET the gain count returns to 0 and the line in progress is
discarded; nothing is reported.

H_ACTIVITY_LOST (sections 4.3, 6.3, 6.8, 7.5): the unit goes to QUIET with its measurement discarded
and its references, sequence, last published set and filters kept; a tracker outside FAULT goes to
SILENT, its request withdrawn; a bound one is released with SIGNAL_LOST, a recall reference and
LOST first, and one without a binding keeps its recall reference and last-loss record. A tracker in
FAULT ignores the loss.

Both are shown with no edge waiting in the filter, and with one waiting that reached the pin 8192 ticks
after the last or later (ExpiryWaitsForFilter has the others). Both also discard the times of the
last accepted edges: that is the model's deduction (assumption log 9), not a word of the manual.
That a change of the horizontal reference during the wait may end it or begin it, because the
reference of the moment says which transition is into the active level, is the model's choice
(assumption log 33). -/
def Obligations.HorizontalTimeouts : Prop :=
  (∀ n s a, (s.unit n).state = .quiet → (s.unit n).lastHEdge = some a →
    (∀ w, waitingHEdge (s.unit n) = some w → a + 8192 ≤ w) →
    exec (.gainCountTimeout n) s =
      .next (s.withUnit n
        { s.unit n with gainLines := [], line := none, lastHEdge := none, prevHEdge := none }))
    ∧ (∀ n s a, TrackerLaw s → LinkLaw s → isRunning (s.unit n) = true →
      (s.unit n).lastHEdge = some a → (∀ w, waitingHEdge (s.unit n) = some w → a + 8192 ≤ w) →
      ∃ t, exec (.hActivityLost n) s = .next t
        ∧ t.unit n = quietUnit (s.unit n) ∧ horizontalLossTaken n s t
        ∧ configKept n s t ∧ otherInputsKept n s t ∧ t.mailbox = s.mailbox ∧ portKept s t
        ∧ t.freeIndex = s.freeIndex)

/-- An expiry of the 8192 ticks with an edge waiting in the filter (sections 4.3 and 4.4). One that
reached the pin in time makes the expiry wait: both timeouts do nothing. If the filter then rejects
its pulse, the rejection is counted in an open period, a 32nd as NOISE, and the loss takes place at
that event; a NOISE that latches has the tracker in FAULT by then. One that reached the pin 8192
ticks after the last edge or later, accepted before the expiry is taken, comes after the loss: the
loss, or in QUIET the return of the gain count, happens at that event, and the edge opens the first
line of a new gain count. That the loss discards the times of the edges before it is the model's
deduction (assumption log 9).
That a change of the horizontal reference during the wait may end it or begin it, because the
reference of the moment says which transition is into the active level, is the model's choice
(assumption log 33).
What a detection at the tick of a result's release leaves in the last-loss record is the model's
choice (assumption log 31). -/
def Obligations.ExpiryWaitsForFilter : Prop :=
  ∀ n s a (w : Waiting), TrackerLaw s → LinkLaw s → (s.unit n).lastHEdge = some a →
    (s.unit n).hFilter.waiting = some w → waitingHEdge (s.unit n) = some w.tick →
    (w.tick < a + 8192 →
      exec (.hActivityLost n) s = .next s ∧ exec (.gainCountTimeout n) s = .next s
        ∧ ∀ level tick, s.pinLevel n .h ≠ level → w.tick ≤ tick →
          tick < w.tick + w.window.toNat → a + 8192 ≤ tick →
          ∃ t, exec (.pinTransition n .h level tick) s = .next t
            ∧ t.pinLevel n .h = level ∧ t.pinLevel n .v = s.pinLevel n .v
            ∧ t.config n = s.config n ∧ otherInputsKept n s t ∧ t.mailbox = s.mailbox
            ∧ portKept s t
            ∧ ((s.unit n).state = .quiet → (s.unit n).period = none →
                t.unit n =
                    { s.unit n with
                      gainLines := [], line := none, lastHEdge := none, prevHEdge := none
                      hFilter := { passed := (s.unit n).hFilter.passed, waiting := none } }
                  ∧ t.tracker n = s.tracker n ∧ t.catalog = s.catalog
                  ∧ t.classifier = s.classifier ∧ t.notices = s.notices)
            ∧ (isRunning (s.unit n) = true →
                t.unit n =
                    { quietUnit (s.unit n) with
                      hFilter := { passed := (s.unit n).hFilter.passed, waiting := none } }
                  ∧ (∀ p, (s.unit n).period = some p → p.rejections = 31 →
                      p.faults.noise = false → (s.config n).enables.noise = true →
                      detectionTaken n .noise tick s t)
                  ∧ ((∀ p, (s.unit n).period = some p →
                      p.rejections ≠ 31 ∨ p.faults.noise = true
                        ∨ (s.config n).enables.noise = false) →
                      horizontalLossTaken n s t))
            ∧ ∀ p, (s.unit n).state ≠ .off → (s.unit n).period = some p → p.rejections = 31 →
                p.faults.noise = false →
                exec (.noise n (.glitch .h level tick)) s = .next t)
      ∧ (a + 8192 ≤ w.tick →
        ∃ t, exec (.transitionAccepted n .h) s = .next t
          ∧ configKept n s t ∧ otherInputsKept n s t ∧ t.mailbox = s.mailbox ∧ portKept s t
          ∧ t.freeIndex = s.freeIndex
          ∧ (isRunning (s.unit n) = true →
              t.unit n =
                  { quietUnit (s.unit n) with
                    hFilter :=
                      { passed := otherLevel (s.unit n).hFilter.passed, waiting := none }
                    line := some { openTick := w.tick, openCount := 0, activeEnd := none }
                    lastHEdge := some w.tick }
                ∧ horizontalLossTaken n s t)
          ∧ ((s.unit n).state = .quiet →
              t.unit n =
                  { s.unit n with
                    hFilter :=
                      { passed := otherLevel (s.unit n).hFilter.passed, waiting := none }
                    gainLines := []
                    line :=
                      some
                        { openTick := w.tick, openCount := (s.unit n).lineCounter
                          activeEnd := none }
                    lastHEdge := some w.tick, prevHEdge := none }
                ∧ t.tracker n = s.tracker n ∧ t.catalog = s.catalog
                ∧ t.classifier = s.classifier ∧ t.notices = s.notices))

/-- V_ACTIVITY_LOST (sections 4.6, 6.3, 6.8, 7.5): at the edge that brings the line counter to 4096 the
unit goes to UNPRIMED with no open period, the counter at 0, the separator armed and the reference
of the line just closed; a tracker in PENDING, BOUND, COASTING or UNMATCHED goes to SETTLING with
counter 0, its request withdrawn and a binding released with SIGNAL_LOST; one in SETTLING only starts
its count again, and one in FAULT ignores the loss. Shown for a line that is not broad while the
separator is the source, where the order of assumption log 6 does not matter.

VPIN_QUIET_TIMEOUT (section 4.7): at the edge that brings the V pin quiet counter to 4096 the
separator becomes the vertical source; a unit in UNPRIMED stays so. Shown for a line that is not
broad. -/
def Obligations.LineCountersRunOut : Prop :=
  (∀ n s w l, TrackerLaw s → isRunning (s.unit n) = true →
    waitingHEdge (s.unit n) = some w → closingLine (s.unit n) = some l → l.broad = false →
    (s.unit n).vQuiet = 4096 → (s.unit n).lineCounter = 4095 →
    ∃ t, exec (.vActivityLost n) s = .next t
      ∧ (t.unit n).state = .unprimed ∧ (t.unit n).period = none
      ∧ (t.unit n).halfLineRef = none ∧ (t.unit n).lineCounter = 0 ∧ (t.unit n).sepRun = 0
      ∧ (t.unit n).sepArmed = true ∧ (t.unit n).hRef = l.line.polarity
      ∧ (t.unit n).lastHEdge = some w ∧ (t.unit n).vRef = (s.unit n).vRef
      ∧ (t.unit n).lastSet = (s.unit n).lastSet ∧ (t.unit n).setSeq = (s.unit n).setSeq
      ∧ verticalLossTaken n s t
      ∧ configKept n s t ∧ otherInputsKept n s t ∧ t.mailbox = s.mailbox ∧ portKept s t)
    ∧ (∀ n s w l, (s.unit n).state = .unprimed → (s.unit n).period = none →
    waitingHEdge (s.unit n) = some w → closingLine (s.unit n) = some l → l.broad = false →
    (s.unit n).vQuiet = 4095 → (s.unit n).lineCounter < 4095 →
    ∃ t, exec (.vpinQuietTimeout n) s = .next t
      ∧ vSourceOf (s.unit n) = .vPin ∧ vSourceOf (t.unit n) = .separator
      ∧ (t.unit n).vQuiet = 4096 ∧ (t.unit n).state = .unprimed
      ∧ (t.unit n).lineCounter = (s.unit n).lineCounter + 1 ∧ (t.unit n).period = none
      ∧ (t.unit n).hRef = (s.unit n).hRef ∧ (t.unit n).vRef = (s.unit n).vRef
      ∧ (t.unit n).halfLineRef = (s.unit n).halfLineRef
      ∧ (t.unit n).lastSet = (s.unit n).lastSet ∧ (t.unit n).setSeq = (s.unit n).setSeq
      ∧ (t.unit n).sepRun = 0 ∧ (t.unit n).sepArmed = true
      ∧ (t.unit n).lastHEdge = some w
      ∧ t.tracker n = s.tracker n ∧ configKept n s t ∧ otherInputsKept n s t
      ∧ t.catalog = s.catalog ∧ t.classifier = s.classifier ∧ t.mailbox = s.mailbox
      ∧ t.notices = s.notices ∧ t.port = s.port)

/-- SEPARATOR_VERTICAL_EDGE (sections 4.3, 4.5, 4.7, 4.8, 5.2 and 5.4): at the third broad line of a
run while the separator is the source, it produces an edge dated at the first broad line's opening
edge and disarms, and the line counter becomes 3. In UNPRIMED the edge opens a period. A period that
has fewer than 16 lines recorded at that first line is SHORT_FRAME, and the next opens in the same
state. With 16 or more, PRIMING goes to PUBLISHING with its half-line reference, and PUBLISHING
composes a COMPOSITE set, published if the period's record withholds nothing.
What a detection at the tick of a result's release leaves in the last-loss record is the model's
choice (assumption log 31).
Where a completion of the same tick has granted the verify the input had waiting, the newer one takes
its place; equal ticks as one event, and another requester's completion, are the model's choice
(assumption log 34). -/
def Obligations.ThirdBroadLineMakesEdge : Prop :=
  ∀ n s w l r, TrackerLaw s → LinkLaw s → isRunning (s.unit n) = true →
    waitingHEdge (s.unit n) = some w → closingLine (s.unit n) = some l → l.broad = true →
    (s.unit n).vQuiet = 4096 → (s.unit n).sepArmed = true → (s.unit n).sepRun = 2 →
    (s.unit n).runStart = some r → (s.unit n).lineCounter < 4095 →
    ∃ t, exec (.separatorVerticalEdge n) s = .next t
      ∧ configKept n s t ∧ otherInputsKept n s t ∧ t.mailbox = s.mailbox ∧ portKept s t
      ∧ t.freeIndex = s.freeIndex
      ∧ (let opened : MeasUnit :=
          { s.unit n with
            hFilter := { passed := otherLevel (s.unit n).hFilter.passed, waiting := none }
            line := some { openTick := w, openCount := 3, activeEnd := none }
            lastHEdge := some w, prevHEdge := (s.unit n).lastHEdge
            sepArmed := false, sepRun := 3, lineCounter := 3
            period := some (periodOpenedAt r.tick) }
        ((s.unit n).state = .unprimed →
            t.unit n = { opened with state := .priming } ∧ t.tracker n = s.tracker n
              ∧ t.catalog = s.catalog ∧ t.classifier = s.classifier ∧ t.notices = s.notices)
          ∧ (∀ p, isOpenState (s.unit n).state → (s.unit n).period = some p → r.count < 16 →
            t.unit n = opened
              ∧ detectionTaken n .shortFrame (acceptTick .h (s.unit n)) s t)
          ∧ (∀ p, (s.unit n).state = .priming → (s.unit n).period = some p → 16 ≤ r.count →
            (∃ half : Bool, (half = true ↔ isHalfLine (s.unit n) r.offset)
              ∧ t.unit n = { opened with state := .publishing, halfLineRef := some half })
              ∧ t.tracker n = s.tracker n ∧ t.catalog = s.catalog
              ∧ t.classifier = s.classifier ∧ t.notices = s.notices)
          ∧ ∀ p newest, (s.unit n).state = .publishing → (s.unit n).period = some p →
            16 ≤ r.count → p.faults.shortFrame = false → p.faults.polarityFlip = false →
            (s.unit n).ring.getLast? = some newest →
            ∃ m, composedFrom (s.unit n) p newest r.count (p.width.getD r.count) r.offset
                .composite m
              ∧ t.unit n =
                { opened with
                  setSeq := m.seq, lastSet := some m, halfLineRef := some m.halfLine
                  hRef := newest.polarity
                  line := if (s.unit n).hRef = newest.polarity then opened.line else none }
              ∧ setReachesTracker n (acceptTick .h (s.unit n)) m s t)

/-- NOISE (R95 and sections 5.3, 5.5): the 32nd rejection counted in the open period, a pulse too
short or an edge too close, enters NOISE in the period's record and is taken by the tracker: if NOISE
is enabled it joins the latch and takes the tracker to FAULT with the FAULT notice, a binding
released with reason FAULT first; if it is disabled nothing latches. The same event spelt as the pin
transition or the acceptance that brings it about has the same effect. An edge too close is dropped
with no line in progress too, after a change of the reference: that case is the model's choice
(assumption log 30), and so is for which transition an expiry waits after such a change (assumption
log 33).
What a detection at the tick of a result's release leaves in the last-loss record is the model's
choice (assumption log 31). -/
def Obligations.ThirtySecondRejectionIsNoise : Prop :=
  ∀ n s cause p, TrackerLaw s → LinkLaw s → (s.unit n).period = some p → p.rejections = 31 →
    p.faults.noise = false → isRunning (s.unit n) = true →
    ((∃ a w, cause = .closeEdge ∧ (s.unit n).lastHEdge = some a
        ∧ waitingHEdge (s.unit n) = some w ∧ a ≤ w ∧ w < a + 160)
      ∨ ∃ pin level tick w, cause = .glitch pin level tick ∧ s.pinLevel n pin ≠ level
        ∧ (filterOf (s.unit n) pin).waiting = some w ∧ w.tick ≤ tick
        ∧ tick < w.tick + w.window.toNat
        ∧ (pin = .h → expiryWaited (s.unit n) tick = false)) →
    ∃ t, exec (.noise n cause) s = .next t
      ∧ detectionTaken n .noise
        (match cause with
          | .glitch _ _ tick => tick
          | .closeEdge => acceptTick .h (s.unit n)) s t
      ∧ (t.unit n).period =
          some { p with rejections := 32, faults := { p.faults with noise := true } }
      ∧ (t.unit n).state = (s.unit n).state ∧ (t.unit n).ring = (s.unit n).ring
      ∧ (t.unit n).line = (s.unit n).line ∧ (t.unit n).lineCounter = (s.unit n).lineCounter
      ∧ (t.unit n).lastHEdge = (s.unit n).lastHEdge
      ∧ (t.unit n).lastSet = (s.unit n).lastSet ∧ t.config n = s.config n
      ∧ otherInputsKept n s t ∧ t.mailbox = s.mailbox ∧ portKept s t
      ∧ (cause = .closeEdge → exec (.transitionAccepted n .h) s = .next t)
      ∧ ∀ pin level tick, cause = .glitch pin level tick →
          exec (.pinTransition n pin level tick) s = .next t
end

