-- ==== Sys2Proof/Laws/State.lean ====
section
/-! SUPPORT. One lemma per field per update of the state: what the update leaves alone, and the
field it writes. -/

namespace Sys2Proof.Machine

variable (s : State)

@[simp] theorem State.withInput_pending (n : InputIx) (x : Input) :
    (s.withInput n x).pending = s.pending := rfl

@[simp] theorem State.withInput_catalog (n : InputIx) (x : Input) :
    (s.withInput n x).catalog = s.catalog := rfl

@[simp] theorem State.withInput_classifier (n : InputIx) (x : Input) :
    (s.withInput n x).classifier = s.classifier := rfl

@[simp] theorem State.withInput_mailbox (n : InputIx) (x : Input) :
    (s.withInput n x).mailbox = s.mailbox := rfl

@[simp] theorem State.withInput_notices (n : InputIx) (x : Input) :
    (s.withInput n x).notices = s.notices := rfl

@[simp] theorem State.withInput_port (n : InputIx) (x : Input) :
    (s.withInput n x).port = s.port := rfl

@[simp] theorem State.withInput_freeIndex (n : InputIx) (x : Input) :
    (s.withInput n x).freeIndex = s.freeIndex := rfl

@[simp] theorem State.withTracker_pending (n : InputIx) (x : Tracker) :
    (s.withTracker n x).pending = s.pending := rfl

@[simp] theorem State.withTracker_catalog (n : InputIx) (x : Tracker) :
    (s.withTracker n x).catalog = s.catalog := rfl

@[simp] theorem State.withTracker_classifier (n : InputIx) (x : Tracker) :
    (s.withTracker n x).classifier = s.classifier := rfl

@[simp] theorem State.withTracker_mailbox (n : InputIx) (x : Tracker) :
    (s.withTracker n x).mailbox = s.mailbox := rfl

@[simp] theorem State.withTracker_notices (n : InputIx) (x : Tracker) :
    (s.withTracker n x).notices = s.notices := rfl

@[simp] theorem State.withTracker_port (n : InputIx) (x : Tracker) :
    (s.withTracker n x).port = s.port := rfl

@[simp] theorem State.withTracker_freeIndex (n : InputIx) (x : Tracker) :
    (s.withTracker n x).freeIndex = s.freeIndex := rfl

@[simp] theorem State.withUnit_pending (n : InputIx) (x : MeasUnit) :
    (s.withUnit n x).pending = s.pending := rfl

@[simp] theorem State.withUnit_catalog (n : InputIx) (x : MeasUnit) :
    (s.withUnit n x).catalog = s.catalog := rfl

@[simp] theorem State.withUnit_classifier (n : InputIx) (x : MeasUnit) :
    (s.withUnit n x).classifier = s.classifier := rfl

@[simp] theorem State.withUnit_mailbox (n : InputIx) (x : MeasUnit) :
    (s.withUnit n x).mailbox = s.mailbox := rfl

@[simp] theorem State.withUnit_notices (n : InputIx) (x : MeasUnit) :
    (s.withUnit n x).notices = s.notices := rfl

@[simp] theorem State.withUnit_port (n : InputIx) (x : MeasUnit) :
    (s.withUnit n x).port = s.port := rfl

@[simp] theorem State.withUnit_freeIndex (n : InputIx) (x : MeasUnit) :
    (s.withUnit n x).freeIndex = s.freeIndex := rfl

@[simp] theorem State.withConfig_pending (n : InputIx) (x : InputConfig) :
    (s.withConfig n x).pending = s.pending := rfl

@[simp] theorem State.withConfig_catalog (n : InputIx) (x : InputConfig) :
    (s.withConfig n x).catalog = s.catalog := rfl

@[simp] theorem State.withConfig_classifier (n : InputIx) (x : InputConfig) :
    (s.withConfig n x).classifier = s.classifier := rfl

@[simp] theorem State.withConfig_mailbox (n : InputIx) (x : InputConfig) :
    (s.withConfig n x).mailbox = s.mailbox := rfl

@[simp] theorem State.withConfig_notices (n : InputIx) (x : InputConfig) :
    (s.withConfig n x).notices = s.notices := rfl

@[simp] theorem State.withConfig_port (n : InputIx) (x : InputConfig) :
    (s.withConfig n x).port = s.port := rfl

@[simp] theorem State.withConfig_freeIndex (n : InputIx) (x : InputConfig) :
    (s.withConfig n x).freeIndex = s.freeIndex := rfl

@[simp] theorem State.withCatalog_pending (x : Catalog) :
    (s.withCatalog x).pending = s.pending := rfl

@[simp] theorem State.withCatalog_classifier (x : Catalog) :
    (s.withCatalog x).classifier = s.classifier := rfl

@[simp] theorem State.withCatalog_inputs (x : Catalog) :
    (s.withCatalog x).inputs = s.inputs := rfl

@[simp] theorem State.withCatalog_mailbox (x : Catalog) :
    (s.withCatalog x).mailbox = s.mailbox := rfl

@[simp] theorem State.withCatalog_notices (x : Catalog) :
    (s.withCatalog x).notices = s.notices := rfl

@[simp] theorem State.withCatalog_port (x : Catalog) :
    (s.withCatalog x).port = s.port := rfl

@[simp] theorem State.withCatalog_freeIndex (x : Catalog) :
    (s.withCatalog x).freeIndex = s.freeIndex := rfl

@[simp] theorem State.withCatalog_catalog (x : Catalog) :
    (s.withCatalog x).catalog = x := rfl

@[simp] theorem State.withSlot_pending (i : SlotIx) (x : Slot) :
    (s.withSlot i x).pending = s.pending := rfl

@[simp] theorem State.withSlot_classifier (i : SlotIx) (x : Slot) :
    (s.withSlot i x).classifier = s.classifier := rfl

@[simp] theorem State.withSlot_inputs (i : SlotIx) (x : Slot) :
    (s.withSlot i x).inputs = s.inputs := rfl

@[simp] theorem State.withSlot_mailbox (i : SlotIx) (x : Slot) :
    (s.withSlot i x).mailbox = s.mailbox := rfl

@[simp] theorem State.withSlot_notices (i : SlotIx) (x : Slot) :
    (s.withSlot i x).notices = s.notices := rfl

@[simp] theorem State.withSlot_port (i : SlotIx) (x : Slot) :
    (s.withSlot i x).port = s.port := rfl

@[simp] theorem State.withSlot_freeIndex (i : SlotIx) (x : Slot) :
    (s.withSlot i x).freeIndex = s.freeIndex := rfl

@[simp] theorem State.withClassifier_pending (x : Classifier) :
    (s.withClassifier x).pending = s.pending := rfl

@[simp] theorem State.withClassifier_catalog (x : Classifier) :
    (s.withClassifier x).catalog = s.catalog := rfl

@[simp] theorem State.withClassifier_inputs (x : Classifier) :
    (s.withClassifier x).inputs = s.inputs := rfl

@[simp] theorem State.withClassifier_mailbox (x : Classifier) :
    (s.withClassifier x).mailbox = s.mailbox := rfl

@[simp] theorem State.withClassifier_notices (x : Classifier) :
    (s.withClassifier x).notices = s.notices := rfl

@[simp] theorem State.withClassifier_port (x : Classifier) :
    (s.withClassifier x).port = s.port := rfl

@[simp] theorem State.withClassifier_freeIndex (x : Classifier) :
    (s.withClassifier x).freeIndex = s.freeIndex := rfl

@[simp] theorem State.withClassifier_classifier (x : Classifier) :
    (s.withClassifier x).classifier = x := rfl

@[simp] theorem State.withRequest_pending (r : Requester) (q : Option Request) :
    (s.withRequest r q).pending = s.pending := rfl

@[simp] theorem State.withRequest_catalog (r : Requester) (q : Option Request) :
    (s.withRequest r q).catalog = s.catalog := rfl

@[simp] theorem State.withRequest_inputs (r : Requester) (q : Option Request) :
    (s.withRequest r q).inputs = s.inputs := rfl

@[simp] theorem State.withRequest_mailbox (r : Requester) (q : Option Request) :
    (s.withRequest r q).mailbox = s.mailbox := rfl

@[simp] theorem State.withRequest_notices (r : Requester) (q : Option Request) :
    (s.withRequest r q).notices = s.notices := rfl

@[simp] theorem State.withRequest_port (r : Requester) (q : Option Request) :
    (s.withRequest r q).port = s.port := rfl

@[simp] theorem State.withRequest_freeIndex (r : Requester) (q : Option Request) :
    (s.withRequest r q).freeIndex = s.freeIndex := rfl

@[simp] theorem State.withPass_pending (p : Option Pass) :
    (s.withPass p).pending = s.pending := rfl

@[simp] theorem State.withPass_catalog (p : Option Pass) :
    (s.withPass p).catalog = s.catalog := rfl

@[simp] theorem State.withPass_inputs (p : Option Pass) :
    (s.withPass p).inputs = s.inputs := rfl

@[simp] theorem State.withPass_mailbox (p : Option Pass) :
    (s.withPass p).mailbox = s.mailbox := rfl

@[simp] theorem State.withPass_notices (p : Option Pass) :
    (s.withPass p).notices = s.notices := rfl

@[simp] theorem State.withPass_port (p : Option Pass) :
    (s.withPass p).port = s.port := rfl

@[simp] theorem State.withPass_freeIndex (p : Option Pass) :
    (s.withPass p).freeIndex = s.freeIndex := rfl

@[simp] theorem State.withMailbox_pending (x : Mailbox) :
    (s.withMailbox x).pending = s.pending := rfl

@[simp] theorem State.withMailbox_catalog (x : Mailbox) :
    (s.withMailbox x).catalog = s.catalog := rfl

@[simp] theorem State.withMailbox_classifier (x : Mailbox) :
    (s.withMailbox x).classifier = s.classifier := rfl

@[simp] theorem State.withMailbox_inputs (x : Mailbox) :
    (s.withMailbox x).inputs = s.inputs := rfl

@[simp] theorem State.withMailbox_notices (x : Mailbox) :
    (s.withMailbox x).notices = s.notices := rfl

@[simp] theorem State.withMailbox_port (x : Mailbox) :
    (s.withMailbox x).port = s.port := rfl

@[simp] theorem State.withMailbox_freeIndex (x : Mailbox) :
    (s.withMailbox x).freeIndex = s.freeIndex := rfl

@[simp] theorem State.withMailbox_mailbox (x : Mailbox) :
    (s.withMailbox x).mailbox = x := rfl

@[simp] theorem State.withNotices_pending (x : Notices) :
    (s.withNotices x).pending = s.pending := rfl

@[simp] theorem State.withNotices_catalog (x : Notices) :
    (s.withNotices x).catalog = s.catalog := rfl

@[simp] theorem State.withNotices_classifier (x : Notices) :
    (s.withNotices x).classifier = s.classifier := rfl

@[simp] theorem State.withNotices_inputs (x : Notices) :
    (s.withNotices x).inputs = s.inputs := rfl

@[simp] theorem State.withNotices_mailbox (x : Notices) :
    (s.withNotices x).mailbox = s.mailbox := rfl

@[simp] theorem State.withNotices_port (x : Notices) :
    (s.withNotices x).port = s.port := rfl

@[simp] theorem State.withNotices_freeIndex (x : Notices) :
    (s.withNotices x).freeIndex = s.freeIndex := rfl

@[simp] theorem State.withNotices_notices (x : Notices) :
    (s.withNotices x).notices = x := rfl

@[simp] theorem State.withPort_pending (x : Port) :
    (s.withPort x).pending = s.pending := rfl

@[simp] theorem State.withPort_catalog (x : Port) :
    (s.withPort x).catalog = s.catalog := rfl

@[simp] theorem State.withPort_classifier (x : Port) :
    (s.withPort x).classifier = s.classifier := rfl

@[simp] theorem State.withPort_inputs (x : Port) :
    (s.withPort x).inputs = s.inputs := rfl

@[simp] theorem State.withPort_mailbox (x : Port) :
    (s.withPort x).mailbox = s.mailbox := rfl

@[simp] theorem State.withPort_notices (x : Port) :
    (s.withPort x).notices = s.notices := rfl

@[simp] theorem State.withPort_freeIndex (x : Port) :
    (s.withPort x).freeIndex = s.freeIndex := rfl

@[simp] theorem State.withPort_port (x : Port) :
    (s.withPort x).port = x := rfl

@[simp] theorem State.nextFree_pending :
    (s.nextFree).pending = s.pending := rfl

@[simp] theorem State.nextFree_catalog :
    (s.nextFree).catalog = s.catalog := rfl

@[simp] theorem State.nextFree_classifier :
    (s.nextFree).classifier = s.classifier := rfl

@[simp] theorem State.nextFree_inputs :
    (s.nextFree).inputs = s.inputs := rfl

@[simp] theorem State.nextFree_mailbox :
    (s.nextFree).mailbox = s.mailbox := rfl

@[simp] theorem State.nextFree_notices :
    (s.nextFree).notices = s.notices := rfl

@[simp] theorem State.nextFree_port :
    (s.nextFree).port = s.port := rfl

@[simp] theorem State.setNotice_pending (n : InputIx) (k : InputNotice) :
    (s.setNotice n k).pending = s.pending := rfl

@[simp] theorem State.setNotice_catalog (n : InputIx) (k : InputNotice) :
    (s.setNotice n k).catalog = s.catalog := rfl

@[simp] theorem State.setNotice_classifier (n : InputIx) (k : InputNotice) :
    (s.setNotice n k).classifier = s.classifier := rfl

@[simp] theorem State.setNotice_inputs (n : InputIx) (k : InputNotice) :
    (s.setNotice n k).inputs = s.inputs := rfl

@[simp] theorem State.setNotice_mailbox (n : InputIx) (k : InputNotice) :
    (s.setNotice n k).mailbox = s.mailbox := rfl

@[simp] theorem State.setNotice_port (n : InputIx) (k : InputNotice) :
    (s.setNotice n k).port = s.port := rfl

@[simp] theorem State.setNotice_freeIndex (n : InputIx) (k : InputNotice) :
    (s.setNotice n k).freeIndex = s.freeIndex := rfl

@[simp] theorem State.setGlobalNotice_pending (k : GlobalNotice) :
    (s.setGlobalNotice k).pending = s.pending := rfl

@[simp] theorem State.setGlobalNotice_catalog (k : GlobalNotice) :
    (s.setGlobalNotice k).catalog = s.catalog := rfl

@[simp] theorem State.setGlobalNotice_classifier (k : GlobalNotice) :
    (s.setGlobalNotice k).classifier = s.classifier := rfl

@[simp] theorem State.setGlobalNotice_inputs (k : GlobalNotice) :
    (s.setGlobalNotice k).inputs = s.inputs := rfl

@[simp] theorem State.setGlobalNotice_mailbox (k : GlobalNotice) :
    (s.setGlobalNotice k).mailbox = s.mailbox := rfl

@[simp] theorem State.setGlobalNotice_port (k : GlobalNotice) :
    (s.setGlobalNotice k).port = s.port := rfl

@[simp] theorem State.setGlobalNotice_freeIndex (k : GlobalNotice) :
    (s.setGlobalNotice k).freeIndex = s.freeIndex := rfl

@[simp] theorem State.withInput_inputs (n : InputIx) (x : Input) :
    (s.withInput n x).inputs = s.inputs.set n x := rfl

@[simp] theorem State.withRequest_requests (r : Requester) (q : Option Request) :
    (s.withRequest r q).classifier.requests = s.classifier.requests.set r q := rfl

@[simp] theorem State.withRequest_pass (r : Requester) (q : Option Request) :
    (s.withRequest r q).classifier.pass = s.classifier.pass := rfl

@[simp] theorem State.withRequest_pointer (r : Requester) (q : Option Request) :
    (s.withRequest r q).classifier.pointer = s.classifier.pointer := rfl

@[simp] theorem State.withRequest_gate (r : Requester) (q : Option Request) :
    (s.withRequest r q).classifier.gate = s.classifier.gate := rfl

@[simp] theorem State.withRequest_endTick (r : Requester) (q : Option Request) :
    (s.withRequest r q).classifier.endTick = s.classifier.endTick := rfl

@[simp] theorem State.withPass_endTick (p : Option Pass) :
    (s.withPass p).classifier.endTick = s.classifier.endTick := rfl

@[simp] theorem State.withPass_pass (p : Option Pass) :
    (s.withPass p).classifier.pass = p := rfl

@[simp] theorem State.withPass_requests (p : Option Pass) :
    (s.withPass p).classifier.requests = s.classifier.requests := rfl

@[simp] theorem State.withPass_pointer (p : Option Pass) :
    (s.withPass p).classifier.pointer = s.classifier.pointer := rfl

@[simp] theorem State.withPass_gate (p : Option Pass) :
    (s.withPass p).classifier.gate = s.classifier.gate := rfl

@[simp] theorem State.withSlot_occupancy (i : SlotIx) (x : Slot) :
    (s.withSlot i x).catalog.occupancy = s.catalog.occupancy := rfl

@[simp] theorem State.withSlot_tagMap (i : SlotIx) (x : Slot) :
    (s.withSlot i x).catalog.tagMap = s.catalog.tagMap := rfl

@[simp] theorem State.nextFree_freeIndex : s.nextFree.freeIndex = s.freeIndex + 1 := rfl

@[simp] theorem State.setNotice_masks (n : InputIx) (k : InputNotice) :
    (s.setNotice n k).notices.masks = s.notices.masks := rfl

@[simp] theorem State.setNotice_globalFlags (n : InputIx) (k : InputNotice) :
    (s.setNotice n k).notices.globalFlags = s.notices.globalFlags := rfl

@[simp] theorem State.setNotice_globalMasks (n : InputIx) (k : InputNotice) :
    (s.setNotice n k).notices.globalMasks = s.notices.globalMasks := rfl

@[simp] theorem State.setGlobalNotice_flags (k : GlobalNotice) :
    (s.setGlobalNotice k).notices.flags = s.notices.flags := rfl

@[simp] theorem State.setGlobalNotice_masks (k : GlobalNotice) :
    (s.setGlobalNotice k).notices.masks = s.notices.masks := rfl

@[simp] theorem State.setGlobalNotice_globalMasks (k : GlobalNotice) :
    (s.setGlobalNotice k).notices.globalMasks = s.notices.globalMasks := rfl

@[simp] theorem State.setGlobalNotice_globalFlags (k : GlobalNotice) :
    (s.setGlobalNotice k).notices.globalFlags =
      s.notices.globalFlags ||| globalNoticeBit k := rfl

end Sys2Proof.Machine
end

