-- ==== Sys2Proof/Laws/Access.lean ====
section
/-! SUPPORT. Reads of one input, slot or request after an update of one. -/

namespace Sys2Proof.Machine

variable (s : State)

/-! ### Inputs -/

@[simp] theorem input_withInput_self (n : InputIx) (x : Input) :
    (s.withInput n x).input n = x := by
  simp [State.input, State.withInput]

theorem input_withInput_ne {n m : InputIx} (h : m ≠ n) (x : Input) :
    (s.withInput n x).input m = s.input m := by
  have : n.val ≠ m.val := fun e => h (Fin.ext e.symm)
  simp [State.input, State.withInput, this]

theorem input_withInput (n m : InputIx) (x : Input) :
    (s.withInput n x).input m = if m = n then x else s.input m := by
  by_cases h : m = n
  · subst h; simp
  · simp [h, input_withInput_ne s h]

theorem input_withTracker (n m : InputIx) (t : Tracker) :
    (s.withTracker n t).input m =
      if m = n then { s.input n with tracker := t } else s.input m :=
  input_withInput s n m _

theorem input_withUnit (n m : InputIx) (u : MeasUnit) :
    (s.withUnit n u).input m = if m = n then { s.input n with unit := u } else s.input m :=
  input_withInput s n m _

theorem input_withConfig (n m : InputIx) (c : InputConfig) :
    (s.withConfig n c).input m = if m = n then { s.input n with config := c } else s.input m :=
  input_withInput s n m _

@[simp] theorem tracker_withTracker_self (n : InputIx) (t : Tracker) :
    (s.withTracker n t).tracker n = t := by
  simp [State.tracker, input_withTracker]

@[simp] theorem unit_withTracker (n m : InputIx) (t : Tracker) :
    (s.withTracker n t).unit m = s.unit m := by
  by_cases h : m = n <;> simp [State.unit, input_withTracker, h]

@[simp] theorem config_withTracker (n m : InputIx) (t : Tracker) :
    (s.withTracker n t).config m = s.config m := by
  by_cases h : m = n <;> simp [State.config, input_withTracker, h]

@[simp] theorem unit_withUnit_self (n : InputIx) (u : MeasUnit) :
    (s.withUnit n u).unit n = u := by
  simp [State.unit, input_withUnit]

@[simp] theorem tracker_withUnit (n m : InputIx) (u : MeasUnit) :
    (s.withUnit n u).tracker m = s.tracker m := by
  by_cases h : m = n <;> simp [State.tracker, input_withUnit, h]

@[simp] theorem config_withUnit (n m : InputIx) (u : MeasUnit) :
    (s.withUnit n u).config m = s.config m := by
  by_cases h : m = n <;> simp [State.config, input_withUnit, h]

@[simp] theorem config_withConfig_self (n : InputIx) (c : InputConfig) :
    (s.withConfig n c).config n = c := by
  simp [State.config, input_withConfig]

@[simp] theorem tracker_withConfig (n m : InputIx) (c : InputConfig) :
    (s.withConfig n c).tracker m = s.tracker m := by
  by_cases h : m = n <;> simp [State.tracker, input_withConfig, h]

@[simp] theorem unit_withConfig (n m : InputIx) (c : InputConfig) :
    (s.withConfig n c).unit m = s.unit m := by
  by_cases h : m = n <;> simp [State.unit, input_withConfig, h]

@[simp] theorem tracker_withPin (n m : InputIx) (p : Pin) (l : Level) :
    (s.withPin n p l).tracker m = s.tracker m := by
  cases p <;> by_cases h : m = n <;> simp [State.tracker, State.withPin, input_withInput, h]

@[simp] theorem unit_withPin (n m : InputIx) (p : Pin) (l : Level) :
    (s.withPin n p l).unit m = s.unit m := by
  cases p <;> by_cases h : m = n <;> simp [State.unit, State.withPin, input_withInput, h]

@[simp] theorem config_withPin (n m : InputIx) (p : Pin) (l : Level) :
    (s.withPin n p l).config m = s.config m := by
  cases p <;> by_cases h : m = n <;> simp [State.config, State.withPin, input_withInput, h]

/-- An update that leaves the inputs alone leaves every reading of them alone. -/
theorem input_of_inputs {s t : State} (h : t.inputs = s.inputs) (n : InputIx) :
    t.input n = s.input n := by
  simp [State.input, h]

theorem tracker_of_inputs {s t : State} (h : t.inputs = s.inputs) (n : InputIx) :
    t.tracker n = s.tracker n := by
  simp [State.tracker, input_of_inputs h]

theorem unit_of_inputs {s t : State} (h : t.inputs = s.inputs) (n : InputIx) :
    t.unit n = s.unit n := by
  simp [State.unit, input_of_inputs h]

theorem config_of_inputs {s t : State} (h : t.inputs = s.inputs) (n : InputIx) :
    t.config n = s.config n := by
  simp [State.config, input_of_inputs h]

/-! ### Slots and requests -/

theorem slot_withSlot (i j : SlotIx) (x : Slot) :
    (s.withSlot i x).slot j = if j = i then x else s.slot j := by
  by_cases h : j = i
  · subst h; simp [State.slot, State.withSlot, State.withCatalog]
  · have : i.val ≠ j.val := fun e => h (Fin.ext e.symm)
    simp [State.slot, State.withSlot, State.withCatalog, this, h]

theorem slot_of_catalog {s t : State} (h : t.catalog = s.catalog) (i : SlotIx) :
    t.slot i = s.slot i := by
  simp [State.slot, h]

theorem request_withRequest (r k : Requester) (q : Option Request) :
    (s.withRequest r q).request k = if k = r then q else s.request k := by
  by_cases h : k = r
  · subst h; simp [State.request]
  · have : r.val ≠ k.val := fun e => h (Fin.ext e.symm)
    simp [State.request, this, h]

theorem request_of_classifier {s t : State} (h : t.classifier = s.classifier)
    (r : Requester) : t.request r = s.request r := by
  simp [State.request, h]

/-! ### Reads through updates of other parts -/

@[simp] theorem slot_withInput (n : InputIx) (x : Input) (j : SlotIx) :
    (s.withInput n x).slot j = s.slot j := rfl

@[simp] theorem request_withInput (n : InputIx) (x : Input) (rq : Requester) :
    (s.withInput n x).request rq = s.request rq := rfl

@[simp] theorem slot_withTracker (n : InputIx) (x : Tracker) (j : SlotIx) :
    (s.withTracker n x).slot j = s.slot j := rfl

@[simp] theorem request_withTracker (n : InputIx) (x : Tracker) (rq : Requester) :
    (s.withTracker n x).request rq = s.request rq := rfl

@[simp] theorem slot_withUnit (n : InputIx) (x : MeasUnit) (j : SlotIx) :
    (s.withUnit n x).slot j = s.slot j := rfl

@[simp] theorem request_withUnit (n : InputIx) (x : MeasUnit) (rq : Requester) :
    (s.withUnit n x).request rq = s.request rq := rfl

@[simp] theorem slot_withConfig (n : InputIx) (x : InputConfig) (j : SlotIx) :
    (s.withConfig n x).slot j = s.slot j := rfl

@[simp] theorem request_withConfig (n : InputIx) (x : InputConfig) (rq : Requester) :
    (s.withConfig n x).request rq = s.request rq := rfl

@[simp] theorem input_withCatalog (x : Catalog) (m : InputIx) :
    (s.withCatalog x).input m = s.input m := rfl

@[simp] theorem tracker_withCatalog (x : Catalog) (m : InputIx) :
    (s.withCatalog x).tracker m = s.tracker m := rfl

@[simp] theorem unit_withCatalog (x : Catalog) (m : InputIx) :
    (s.withCatalog x).unit m = s.unit m := rfl

@[simp] theorem config_withCatalog (x : Catalog) (m : InputIx) :
    (s.withCatalog x).config m = s.config m := rfl

@[simp] theorem request_withCatalog (x : Catalog) (rq : Requester) :
    (s.withCatalog x).request rq = s.request rq := rfl

@[simp] theorem input_withSlot (i : SlotIx) (x : Slot) (m : InputIx) :
    (s.withSlot i x).input m = s.input m := rfl

@[simp] theorem tracker_withSlot (i : SlotIx) (x : Slot) (m : InputIx) :
    (s.withSlot i x).tracker m = s.tracker m := rfl

@[simp] theorem unit_withSlot (i : SlotIx) (x : Slot) (m : InputIx) :
    (s.withSlot i x).unit m = s.unit m := rfl

@[simp] theorem config_withSlot (i : SlotIx) (x : Slot) (m : InputIx) :
    (s.withSlot i x).config m = s.config m := rfl

@[simp] theorem request_withSlot (i : SlotIx) (x : Slot) (rq : Requester) :
    (s.withSlot i x).request rq = s.request rq := rfl

@[simp] theorem input_withClassifier (x : Classifier) (m : InputIx) :
    (s.withClassifier x).input m = s.input m := rfl

@[simp] theorem tracker_withClassifier (x : Classifier) (m : InputIx) :
    (s.withClassifier x).tracker m = s.tracker m := rfl

@[simp] theorem unit_withClassifier (x : Classifier) (m : InputIx) :
    (s.withClassifier x).unit m = s.unit m := rfl

@[simp] theorem config_withClassifier (x : Classifier) (m : InputIx) :
    (s.withClassifier x).config m = s.config m := rfl

@[simp] theorem slot_withClassifier (x : Classifier) (j : SlotIx) :
    (s.withClassifier x).slot j = s.slot j := rfl

@[simp] theorem input_withRequest (r : Requester) (q : Option Request) (m : InputIx) :
    (s.withRequest r q).input m = s.input m := rfl

@[simp] theorem tracker_withRequest (r : Requester) (q : Option Request) (m : InputIx) :
    (s.withRequest r q).tracker m = s.tracker m := rfl

@[simp] theorem unit_withRequest (r : Requester) (q : Option Request) (m : InputIx) :
    (s.withRequest r q).unit m = s.unit m := rfl

@[simp] theorem config_withRequest (r : Requester) (q : Option Request) (m : InputIx) :
    (s.withRequest r q).config m = s.config m := rfl

@[simp] theorem slot_withRequest (r : Requester) (q : Option Request) (j : SlotIx) :
    (s.withRequest r q).slot j = s.slot j := rfl

@[simp] theorem input_withPass (p : Option Pass) (m : InputIx) :
    (s.withPass p).input m = s.input m := rfl

@[simp] theorem tracker_withPass (p : Option Pass) (m : InputIx) :
    (s.withPass p).tracker m = s.tracker m := rfl

@[simp] theorem unit_withPass (p : Option Pass) (m : InputIx) :
    (s.withPass p).unit m = s.unit m := rfl

@[simp] theorem config_withPass (p : Option Pass) (m : InputIx) :
    (s.withPass p).config m = s.config m := rfl

@[simp] theorem slot_withPass (p : Option Pass) (j : SlotIx) :
    (s.withPass p).slot j = s.slot j := rfl

@[simp] theorem input_withMailbox (x : Mailbox) (m : InputIx) :
    (s.withMailbox x).input m = s.input m := rfl

@[simp] theorem tracker_withMailbox (x : Mailbox) (m : InputIx) :
    (s.withMailbox x).tracker m = s.tracker m := rfl

@[simp] theorem unit_withMailbox (x : Mailbox) (m : InputIx) :
    (s.withMailbox x).unit m = s.unit m := rfl

@[simp] theorem config_withMailbox (x : Mailbox) (m : InputIx) :
    (s.withMailbox x).config m = s.config m := rfl

@[simp] theorem slot_withMailbox (x : Mailbox) (j : SlotIx) :
    (s.withMailbox x).slot j = s.slot j := rfl

@[simp] theorem request_withMailbox (x : Mailbox) (rq : Requester) :
    (s.withMailbox x).request rq = s.request rq := rfl

@[simp] theorem input_withNotices (x : Notices) (m : InputIx) :
    (s.withNotices x).input m = s.input m := rfl

@[simp] theorem tracker_withNotices (x : Notices) (m : InputIx) :
    (s.withNotices x).tracker m = s.tracker m := rfl

@[simp] theorem unit_withNotices (x : Notices) (m : InputIx) :
    (s.withNotices x).unit m = s.unit m := rfl

@[simp] theorem config_withNotices (x : Notices) (m : InputIx) :
    (s.withNotices x).config m = s.config m := rfl

@[simp] theorem slot_withNotices (x : Notices) (j : SlotIx) :
    (s.withNotices x).slot j = s.slot j := rfl

@[simp] theorem request_withNotices (x : Notices) (rq : Requester) :
    (s.withNotices x).request rq = s.request rq := rfl

@[simp] theorem input_withPort (x : Port) (m : InputIx) :
    (s.withPort x).input m = s.input m := rfl

@[simp] theorem tracker_withPort (x : Port) (m : InputIx) :
    (s.withPort x).tracker m = s.tracker m := rfl

@[simp] theorem unit_withPort (x : Port) (m : InputIx) :
    (s.withPort x).unit m = s.unit m := rfl

@[simp] theorem config_withPort (x : Port) (m : InputIx) :
    (s.withPort x).config m = s.config m := rfl

@[simp] theorem slot_withPort (x : Port) (j : SlotIx) :
    (s.withPort x).slot j = s.slot j := rfl

@[simp] theorem request_withPort (x : Port) (rq : Requester) :
    (s.withPort x).request rq = s.request rq := rfl

@[simp] theorem input_nextFree (m : InputIx) :
    (s.nextFree).input m = s.input m := rfl

@[simp] theorem tracker_nextFree (m : InputIx) :
    (s.nextFree).tracker m = s.tracker m := rfl

@[simp] theorem unit_nextFree (m : InputIx) :
    (s.nextFree).unit m = s.unit m := rfl

@[simp] theorem config_nextFree (m : InputIx) :
    (s.nextFree).config m = s.config m := rfl

@[simp] theorem slot_nextFree (j : SlotIx) :
    (s.nextFree).slot j = s.slot j := rfl

@[simp] theorem request_nextFree (rq : Requester) :
    (s.nextFree).request rq = s.request rq := rfl

@[simp] theorem input_setNotice (n : InputIx) (k : InputNotice) (m : InputIx) :
    (s.setNotice n k).input m = s.input m := rfl

@[simp] theorem tracker_setNotice (n : InputIx) (k : InputNotice) (m : InputIx) :
    (s.setNotice n k).tracker m = s.tracker m := rfl

@[simp] theorem unit_setNotice (n : InputIx) (k : InputNotice) (m : InputIx) :
    (s.setNotice n k).unit m = s.unit m := rfl

@[simp] theorem config_setNotice (n : InputIx) (k : InputNotice) (m : InputIx) :
    (s.setNotice n k).config m = s.config m := rfl

@[simp] theorem slot_setNotice (n : InputIx) (k : InputNotice) (j : SlotIx) :
    (s.setNotice n k).slot j = s.slot j := rfl

@[simp] theorem request_setNotice (n : InputIx) (k : InputNotice) (rq : Requester) :
    (s.setNotice n k).request rq = s.request rq := rfl

@[simp] theorem input_setGlobalNotice (k : GlobalNotice) (m : InputIx) :
    (s.setGlobalNotice k).input m = s.input m := rfl

@[simp] theorem tracker_setGlobalNotice (k : GlobalNotice) (m : InputIx) :
    (s.setGlobalNotice k).tracker m = s.tracker m := rfl

@[simp] theorem unit_setGlobalNotice (k : GlobalNotice) (m : InputIx) :
    (s.setGlobalNotice k).unit m = s.unit m := rfl

@[simp] theorem config_setGlobalNotice (k : GlobalNotice) (m : InputIx) :
    (s.setGlobalNotice k).config m = s.config m := rfl

@[simp] theorem slot_setGlobalNotice (k : GlobalNotice) (j : SlotIx) :
    (s.setGlobalNotice k).slot j = s.slot j := rfl

@[simp] theorem request_setGlobalNotice (k : GlobalNotice) (rq : Requester) :
    (s.setGlobalNotice k).request rq = s.request rq := rfl

/-! ### Every element at once -/

@[simp] theorem getElem_mapVec {α β : Type} {k : Nat} (f : α → β) (v : Vector α k) (i : Nat)
    (h : i < k) : (mapVec f v)[i] = f v[i] := by
  simp [mapVec]

@[simp] theorem input_mapTrackers (f : Tracker → Tracker) (n : InputIx) :
    (mapTrackers f s).input n = { s.input n with tracker := f (s.tracker n) } := by
  simp [mapTrackers, State.input, State.tracker]

@[simp] theorem tracker_mapTrackers (f : Tracker → Tracker) (n : InputIx) :
    (mapTrackers f s).tracker n = f (s.tracker n) := by
  simp [State.tracker]

@[simp] theorem unit_mapTrackers (f : Tracker → Tracker) (n : InputIx) :
    (mapTrackers f s).unit n = s.unit n := by
  simp [State.unit]

@[simp] theorem config_mapTrackers (f : Tracker → Tracker) (n : InputIx) :
    (mapTrackers f s).config n = s.config n := by
  simp [State.config]

end Sys2Proof.Machine
end

