-- ==== Sys2Proof/Laws/Frames.lean ====
section
/-! SUPPORT. What each shared operation leaves alone, field by field of the state. -/

namespace Sys2Proof.Machine

variable (s : State)

@[simp] theorem holdSet_pending (n : InputIx) (m : Option MeasSet) :
    (holdSet n m s).pending = s.pending := by
  simp [holdSet]

@[simp] theorem holdSet_catalog (n : InputIx) (m : Option MeasSet) :
    (holdSet n m s).catalog = s.catalog := by
  simp [holdSet]

@[simp] theorem holdSet_classifier (n : InputIx) (m : Option MeasSet) :
    (holdSet n m s).classifier = s.classifier := by
  simp [holdSet]

@[simp] theorem holdSet_mailbox (n : InputIx) (m : Option MeasSet) :
    (holdSet n m s).mailbox = s.mailbox := by
  simp [holdSet]

@[simp] theorem holdSet_notices (n : InputIx) (m : Option MeasSet) :
    (holdSet n m s).notices = s.notices := by
  simp [holdSet]

@[simp] theorem holdSet_port (n : InputIx) (m : Option MeasSet) :
    (holdSet n m s).port = s.port := by
  simp [holdSet]

@[simp] theorem holdSet_freeIndex (n : InputIx) (m : Option MeasSet) :
    (holdSet n m s).freeIndex = s.freeIndex := by
  simp [holdSet]

@[simp] theorem changeState_pending (n : InputIx) (new : TrackerState) :
    (changeState n new s).pending = s.pending := by
  simp [changeState]

@[simp] theorem changeState_catalog (n : InputIx) (new : TrackerState) :
    (changeState n new s).catalog = s.catalog := by
  simp [changeState]

@[simp] theorem changeState_mailbox (n : InputIx) (new : TrackerState) :
    (changeState n new s).mailbox = s.mailbox := by
  simp [changeState]

@[simp] theorem changeState_notices (n : InputIx) (new : TrackerState) :
    (changeState n new s).notices = s.notices := by
  simp [changeState]

@[simp] theorem changeState_port (n : InputIx) (new : TrackerState) :
    (changeState n new s).port = s.port := by
  simp [changeState]

@[simp] theorem changeState_freeIndex (n : InputIx) (new : TrackerState) :
    (changeState n new s).freeIndex = s.freeIndex := by
  simp [changeState]

@[simp] theorem claim_pending (i : SlotIx) (f : Nat → Nat) :
    (claim i f s).pending = s.pending := by
  simp [claim]

@[simp] theorem claim_classifier (i : SlotIx) (f : Nat → Nat) :
    (claim i f s).classifier = s.classifier := by
  simp [claim]

@[simp] theorem claim_inputs (i : SlotIx) (f : Nat → Nat) :
    (claim i f s).inputs = s.inputs := by
  simp [claim]

@[simp] theorem claim_mailbox (i : SlotIx) (f : Nat → Nat) :
    (claim i f s).mailbox = s.mailbox := by
  simp [claim]

@[simp] theorem claim_notices (i : SlotIx) (f : Nat → Nat) :
    (claim i f s).notices = s.notices := by
  simp [claim]

@[simp] theorem claim_port (i : SlotIx) (f : Nat → Nat) :
    (claim i f s).port = s.port := by
  simp [claim]

@[simp] theorem claim_freeIndex (i : SlotIx) (f : Nat → Nat) :
    (claim i f s).freeIndex = s.freeIndex := by
  simp [claim]

@[simp] theorem release_pending (n : InputIx) (reason : Reason) :
    (release n reason s).pending = s.pending := by
  unfold release
  split
  · rfl
  · split <;> simp

@[simp] theorem release_classifier (n : InputIx) (reason : Reason) :
    (release n reason s).classifier = s.classifier := by
  unfold release
  split
  · rfl
  · split <;> simp

@[simp] theorem release_mailbox (n : InputIx) (reason : Reason) :
    (release n reason s).mailbox = s.mailbox := by
  unfold release
  split
  · rfl
  · split <;> simp

@[simp] theorem release_port (n : InputIx) (reason : Reason) :
    (release n reason s).port = s.port := by
  unfold release
  split
  · rfl
  · split <;> simp

@[simp] theorem release_freeIndex (n : InputIx) (reason : Reason) :
    (release n reason s).freeIndex = s.freeIndex := by
  unfold release
  split
  · rfl
  · split <;> simp

@[simp] theorem releaseByResult_pending (n : InputIx) (reason : Reason) (tick : Nat) :
    (releaseByResult n reason tick s).pending = s.pending := by
  simp [releaseByResult]

@[simp] theorem releaseForFault_pending (n : InputIx) (tick : Nat) :
    (releaseForFault n tick s).pending = s.pending := by
  simp [releaseForFault]

@[simp] theorem releaseByResult_classifier (n : InputIx) (reason : Reason) (tick : Nat) :
    (releaseByResult n reason tick s).classifier = s.classifier := by
  simp [releaseByResult]

@[simp] theorem releaseForFault_classifier (n : InputIx) (tick : Nat) :
    (releaseForFault n tick s).classifier = s.classifier := by
  simp [releaseForFault]

@[simp] theorem releaseByResult_mailbox (n : InputIx) (reason : Reason) (tick : Nat) :
    (releaseByResult n reason tick s).mailbox = s.mailbox := by
  simp [releaseByResult]

@[simp] theorem releaseForFault_mailbox (n : InputIx) (tick : Nat) :
    (releaseForFault n tick s).mailbox = s.mailbox := by
  simp [releaseForFault]

@[simp] theorem releaseByResult_port (n : InputIx) (reason : Reason) (tick : Nat) :
    (releaseByResult n reason tick s).port = s.port := by
  simp [releaseByResult]

@[simp] theorem releaseForFault_port (n : InputIx) (tick : Nat) :
    (releaseForFault n tick s).port = s.port := by
  simp [releaseForFault]

@[simp] theorem releaseByResult_freeIndex (n : InputIx) (reason : Reason) (tick : Nat) :
    (releaseByResult n reason tick s).freeIndex = s.freeIndex := by
  simp [releaseByResult]

@[simp] theorem releaseForFault_freeIndex (n : InputIx) (tick : Nat) :
    (releaseForFault n tick s).freeIndex = s.freeIndex := by
  simp [releaseForFault]

@[simp] theorem arbitrate_pending :
    (arbitrate s).pending = s.pending := by
  simp [arbitrate]

@[simp] theorem arbitrate_catalog :
    (arbitrate s).catalog = s.catalog := by
  simp [arbitrate]

@[simp] theorem arbitrate_inputs :
    (arbitrate s).inputs = s.inputs := by
  simp [arbitrate]

@[simp] theorem arbitrate_mailbox :
    (arbitrate s).mailbox = s.mailbox := by
  simp [arbitrate]

@[simp] theorem arbitrate_notices :
    (arbitrate s).notices = s.notices := by
  simp [arbitrate]

@[simp] theorem arbitrate_port :
    (arbitrate s).port = s.port := by
  simp [arbitrate]

@[simp] theorem arbitrate_freeIndex :
    (arbitrate s).freeIndex = s.freeIndex := by
  simp [arbitrate]

@[simp] theorem submit_pending (r : Requester) (q : Request) :
    (submit r q s).pending = s.pending := by
  simp [submit]

@[simp] theorem submit_catalog (r : Requester) (q : Request) :
    (submit r q s).catalog = s.catalog := by
  simp [submit]

@[simp] theorem submit_inputs (r : Requester) (q : Request) :
    (submit r q s).inputs = s.inputs := by
  simp [submit]

@[simp] theorem submit_mailbox (r : Requester) (q : Request) :
    (submit r q s).mailbox = s.mailbox := by
  simp [submit]

@[simp] theorem submit_notices (r : Requester) (q : Request) :
    (submit r q s).notices = s.notices := by
  simp [submit]

@[simp] theorem submit_port (r : Requester) (q : Request) :
    (submit r q s).port = s.port := by
  simp [submit]

@[simp] theorem submit_freeIndex (r : Requester) (q : Request) :
    (submit r q s).freeIndex = s.freeIndex := by
  simp [submit]

@[simp] theorem submitAt_pending (r : Requester) (q : Request) (tick : Nat) :
    (submitAt r q tick s).pending = s.pending := by
  unfold submitAt
  split
  · simp
  · split <;> simp

@[simp] theorem submitVerify_pending (n : InputIx) (tick : Nat) (m : MeasSet) :
    (submitVerify n tick m s).pending = s.pending := by
  simp [submitVerify]

@[simp] theorem submitAt_catalog (r : Requester) (q : Request) (tick : Nat) :
    (submitAt r q tick s).catalog = s.catalog := by
  unfold submitAt
  split
  · simp
  · split <;> simp

@[simp] theorem submitVerify_catalog (n : InputIx) (tick : Nat) (m : MeasSet) :
    (submitVerify n tick m s).catalog = s.catalog := by
  simp [submitVerify]

@[simp] theorem submitAt_inputs (r : Requester) (q : Request) (tick : Nat) :
    (submitAt r q tick s).inputs = s.inputs := by
  unfold submitAt
  split
  · simp
  · split <;> simp

@[simp] theorem submitVerify_inputs (n : InputIx) (tick : Nat) (m : MeasSet) :
    (submitVerify n tick m s).inputs = s.inputs := by
  simp [submitVerify]

@[simp] theorem submitAt_mailbox (r : Requester) (q : Request) (tick : Nat) :
    (submitAt r q tick s).mailbox = s.mailbox := by
  unfold submitAt
  split
  · simp
  · split <;> simp

@[simp] theorem submitVerify_mailbox (n : InputIx) (tick : Nat) (m : MeasSet) :
    (submitVerify n tick m s).mailbox = s.mailbox := by
  simp [submitVerify]

@[simp] theorem submitAt_notices (r : Requester) (q : Request) (tick : Nat) :
    (submitAt r q tick s).notices = s.notices := by
  unfold submitAt
  split
  · simp
  · split <;> simp

@[simp] theorem submitVerify_notices (n : InputIx) (tick : Nat) (m : MeasSet) :
    (submitVerify n tick m s).notices = s.notices := by
  simp [submitVerify]

@[simp] theorem submitAt_port (r : Requester) (q : Request) (tick : Nat) :
    (submitAt r q tick s).port = s.port := by
  unfold submitAt
  split
  · simp
  · split <;> simp

@[simp] theorem submitVerify_port (n : InputIx) (tick : Nat) (m : MeasSet) :
    (submitVerify n tick m s).port = s.port := by
  simp [submitVerify]

@[simp] theorem submitAt_freeIndex (r : Requester) (q : Request) (tick : Nat) :
    (submitAt r q tick s).freeIndex = s.freeIndex := by
  unfold submitAt
  split
  · simp
  · split <;> simp

@[simp] theorem submitVerify_freeIndex (n : InputIx) (tick : Nat) (m : MeasSet) :
    (submitVerify n tick m s).freeIndex = s.freeIndex := by
  simp [submitVerify]

@[simp] theorem submitSet_pending (n : InputIx) (k : PassKind) (m : MeasSet) :
    (submitSet n k m s).pending = s.pending := by
  simp [submitSet]

@[simp] theorem submitSet_catalog (n : InputIx) (k : PassKind) (m : MeasSet) :
    (submitSet n k m s).catalog = s.catalog := by
  simp [submitSet]

@[simp] theorem submitSet_inputs (n : InputIx) (k : PassKind) (m : MeasSet) :
    (submitSet n k m s).inputs = s.inputs := by
  simp [submitSet]

@[simp] theorem submitSet_mailbox (n : InputIx) (k : PassKind) (m : MeasSet) :
    (submitSet n k m s).mailbox = s.mailbox := by
  simp [submitSet]

@[simp] theorem submitSet_notices (n : InputIx) (k : PassKind) (m : MeasSet) :
    (submitSet n k m s).notices = s.notices := by
  simp [submitSet]

@[simp] theorem submitSet_port (n : InputIx) (k : PassKind) (m : MeasSet) :
    (submitSet n k m s).port = s.port := by
  simp [submitSet]

@[simp] theorem submitSet_freeIndex (n : InputIx) (k : PassKind) (m : MeasSet) :
    (submitSet n k m s).freeIndex = s.freeIndex := by
  simp [submitSet]

@[simp] theorem submitHeld_pending (n : InputIx) (k : PassKind) :
    (submitHeld n k s).pending = s.pending := by
  unfold submitHeld
  split <;> simp

@[simp] theorem submitHeld_catalog (n : InputIx) (k : PassKind) :
    (submitHeld n k s).catalog = s.catalog := by
  unfold submitHeld
  split <;> simp

@[simp] theorem submitHeld_inputs (n : InputIx) (k : PassKind) :
    (submitHeld n k s).inputs = s.inputs := by
  unfold submitHeld
  split <;> simp

@[simp] theorem submitHeld_mailbox (n : InputIx) (k : PassKind) :
    (submitHeld n k s).mailbox = s.mailbox := by
  unfold submitHeld
  split <;> simp

@[simp] theorem submitHeld_notices (n : InputIx) (k : PassKind) :
    (submitHeld n k s).notices = s.notices := by
  unfold submitHeld
  split <;> simp

@[simp] theorem submitHeld_port (n : InputIx) (k : PassKind) :
    (submitHeld n k s).port = s.port := by
  unfold submitHeld
  split <;> simp

@[simp] theorem submitHeld_freeIndex (n : InputIx) (k : PassKind) :
    (submitHeld n k s).freeIndex = s.freeIndex := by
  unfold submitHeld
  split <;> simp

@[simp] theorem completeSettling_pending (n : InputIx) (m : MeasSet) :
    (completeSettling n m s).pending = s.pending := by
  unfold completeSettling
  dsimp only
  split <;> simp

@[simp] theorem completeSettling_catalog (n : InputIx) (m : MeasSet) :
    (completeSettling n m s).catalog = s.catalog := by
  unfold completeSettling
  dsimp only
  split <;> simp

@[simp] theorem completeSettling_mailbox (n : InputIx) (m : MeasSet) :
    (completeSettling n m s).mailbox = s.mailbox := by
  unfold completeSettling
  dsimp only
  split <;> simp

@[simp] theorem completeSettling_notices (n : InputIx) (m : MeasSet) :
    (completeSettling n m s).notices = s.notices := by
  unfold completeSettling
  dsimp only
  split <;> simp

@[simp] theorem completeSettling_port (n : InputIx) (m : MeasSet) :
    (completeSettling n m s).port = s.port := by
  unfold completeSettling
  dsimp only
  split <;> simp

@[simp] theorem completeSettling_freeIndex (n : InputIx) (m : MeasSet) :
    (completeSettling n m s).freeIndex = s.freeIndex := by
  unfold completeSettling
  dsimp only
  split <;> simp

@[simp] theorem settleWith_pending (n : InputIx) (c : Nat) (m : MeasSet) :
    (settleWith n c m s).pending = s.pending := by
  unfold settleWith
  dsimp only
  split <;> simp

@[simp] theorem settleWith_catalog (n : InputIx) (c : Nat) (m : MeasSet) :
    (settleWith n c m s).catalog = s.catalog := by
  unfold settleWith
  dsimp only
  split <;> simp

@[simp] theorem settleWith_mailbox (n : InputIx) (c : Nat) (m : MeasSet) :
    (settleWith n c m s).mailbox = s.mailbox := by
  unfold settleWith
  dsimp only
  split <;> simp

@[simp] theorem settleWith_notices (n : InputIx) (c : Nat) (m : MeasSet) :
    (settleWith n c m s).notices = s.notices := by
  unfold settleWith
  dsimp only
  split <;> simp

@[simp] theorem settleWith_port (n : InputIx) (c : Nat) (m : MeasSet) :
    (settleWith n c m s).port = s.port := by
  unfold settleWith
  dsimp only
  split <;> simp

@[simp] theorem settleWith_freeIndex (n : InputIx) (c : Nat) (m : MeasSet) :
    (settleWith n c m s).freeIndex = s.freeIndex := by
  unfold settleWith
  dsimp only
  split <;> simp

@[simp] theorem settleAfresh_pending (n : InputIx) (m : MeasSet) :
    (settleAfresh n m s).pending = s.pending := by
  simp [settleAfresh]

@[simp] theorem settleAfresh_catalog (n : InputIx) (m : MeasSet) :
    (settleAfresh n m s).catalog = s.catalog := by
  simp [settleAfresh]

@[simp] theorem settleAfresh_mailbox (n : InputIx) (m : MeasSet) :
    (settleAfresh n m s).mailbox = s.mailbox := by
  simp [settleAfresh]

@[simp] theorem settleAfresh_notices (n : InputIx) (m : MeasSet) :
    (settleAfresh n m s).notices = s.notices := by
  simp [settleAfresh]

@[simp] theorem settleAfresh_port (n : InputIx) (m : MeasSet) :
    (settleAfresh n m s).port = s.port := by
  simp [settleAfresh]

@[simp] theorem settleAfresh_freeIndex (n : InputIx) (m : MeasSet) :
    (settleAfresh n m s).freeIndex = s.freeIndex := by
  simp [settleAfresh]

@[simp] theorem bindTo_pending (n : InputIx) (via : Via) (m : Match) :
    (bindTo n via m s).pending = s.pending := by
  unfold bindTo
  split <;> simp

@[simp] theorem bindTo_mailbox (n : InputIx) (via : Via) (m : Match) :
    (bindTo n via m s).mailbox = s.mailbox := by
  unfold bindTo
  split <;> simp

@[simp] theorem bindTo_port (n : InputIx) (via : Via) (m : Match) :
    (bindTo n via m s).port = s.port := by
  unfold bindTo
  split <;> simp

@[simp] theorem bindTo_freeIndex (n : InputIx) (via : Via) (m : Match) :
    (bindTo n via m s).freeIndex = s.freeIndex := by
  unfold bindTo
  split <;> simp

@[simp] theorem takeHGained_pending (n : InputIx) :
    (takeHGained n s).pending = s.pending := by
  unfold takeHGained
  split <;> simp

@[simp] theorem takeHGained_catalog (n : InputIx) :
    (takeHGained n s).catalog = s.catalog := by
  unfold takeHGained
  split <;> simp

@[simp] theorem takeHGained_mailbox (n : InputIx) :
    (takeHGained n s).mailbox = s.mailbox := by
  unfold takeHGained
  split <;> simp

@[simp] theorem takeHGained_port (n : InputIx) :
    (takeHGained n s).port = s.port := by
  unfold takeHGained
  split <;> simp

@[simp] theorem takeHGained_freeIndex (n : InputIx) :
    (takeHGained n s).freeIndex = s.freeIndex := by
  unfold takeHGained
  split <;> simp

@[simp] theorem takeHLost_pending (n : InputIx) :
    (takeHLost n s).pending = s.pending := by
  unfold takeHLost
  split <;> simp

@[simp] theorem takeHLost_mailbox (n : InputIx) :
    (takeHLost n s).mailbox = s.mailbox := by
  unfold takeHLost
  split <;> simp

@[simp] theorem takeHLost_port (n : InputIx) :
    (takeHLost n s).port = s.port := by
  unfold takeHLost
  split <;> simp

@[simp] theorem takeHLost_freeIndex (n : InputIx) :
    (takeHLost n s).freeIndex = s.freeIndex := by
  unfold takeHLost
  split <;> simp

@[simp] theorem takeVLost_pending (n : InputIx) :
    (takeVLost n s).pending = s.pending := by
  unfold takeVLost
  split <;> simp

@[simp] theorem takeVLost_mailbox (n : InputIx) :
    (takeVLost n s).mailbox = s.mailbox := by
  unfold takeVLost
  split <;> simp

@[simp] theorem takeVLost_port (n : InputIx) :
    (takeVLost n s).port = s.port := by
  unfold takeVLost
  split <;> simp

@[simp] theorem takeVLost_freeIndex (n : InputIx) :
    (takeVLost n s).freeIndex = s.freeIndex := by
  unfold takeVLost
  split <;> simp

@[simp] theorem takeSet_pending (n : InputIx) (tick : Nat) (m : MeasSet) :
    (takeSet n tick m s).pending = s.pending := by
  unfold takeSet
  dsimp only
  repeat' split
  all_goals simp

@[simp] theorem takeSet_catalog (n : InputIx) (tick : Nat) (m : MeasSet) :
    (takeSet n tick m s).catalog = s.catalog := by
  unfold takeSet
  dsimp only
  repeat' split
  all_goals simp

@[simp] theorem takeSet_mailbox (n : InputIx) (tick : Nat) (m : MeasSet) :
    (takeSet n tick m s).mailbox = s.mailbox := by
  unfold takeSet
  dsimp only
  repeat' split
  all_goals simp

@[simp] theorem takeSet_notices (n : InputIx) (tick : Nat) (m : MeasSet) :
    (takeSet n tick m s).notices = s.notices := by
  unfold takeSet
  dsimp only
  repeat' split
  all_goals simp

@[simp] theorem takeSet_port (n : InputIx) (tick : Nat) (m : MeasSet) :
    (takeSet n tick m s).port = s.port := by
  unfold takeSet
  dsimp only
  repeat' split
  all_goals simp

@[simp] theorem takeSet_freeIndex (n : InputIx) (tick : Nat) (m : MeasSet) :
    (takeSet n tick m s).freeIndex = s.freeIndex := by
  unfold takeSet
  dsimp only
  repeat' split
  all_goals simp

@[simp] theorem addToLatch_pending (n : InputIx) (k : FaultKind) :
    (addToLatch n k s).pending = s.pending := by
  simp [addToLatch]

@[simp] theorem addToLatch_catalog (n : InputIx) (k : FaultKind) :
    (addToLatch n k s).catalog = s.catalog := by
  simp [addToLatch]

@[simp] theorem addToLatch_classifier (n : InputIx) (k : FaultKind) :
    (addToLatch n k s).classifier = s.classifier := by
  simp [addToLatch]

@[simp] theorem addToLatch_mailbox (n : InputIx) (k : FaultKind) :
    (addToLatch n k s).mailbox = s.mailbox := by
  simp [addToLatch]

@[simp] theorem addToLatch_notices (n : InputIx) (k : FaultKind) :
    (addToLatch n k s).notices = s.notices := by
  simp [addToLatch]

@[simp] theorem addToLatch_port (n : InputIx) (k : FaultKind) :
    (addToLatch n k s).port = s.port := by
  simp [addToLatch]

@[simp] theorem addToLatch_freeIndex (n : InputIx) (k : FaultKind) :
    (addToLatch n k s).freeIndex = s.freeIndex := by
  simp [addToLatch]

@[simp] theorem latchFault_pending (n : InputIx) (k : FaultKind) (tick : Nat) :
    (latchFault n k tick s).pending = s.pending := by
  unfold latchFault
  split <;> simp

@[simp] theorem latchFault_mailbox (n : InputIx) (k : FaultKind) (tick : Nat) :
    (latchFault n k tick s).mailbox = s.mailbox := by
  unfold latchFault
  split <;> simp

@[simp] theorem latchFault_port (n : InputIx) (k : FaultKind) (tick : Nat) :
    (latchFault n k tick s).port = s.port := by
  unfold latchFault
  split <;> simp

@[simp] theorem latchFault_freeIndex (n : InputIx) (k : FaultKind) (tick : Nat) :
    (latchFault n k tick s).freeIndex = s.freeIndex := by
  unfold latchFault
  split <;> simp

@[simp] theorem takeDetection_pending (n : InputIx) (k : FaultKind) (tick : Nat) :
    (takeDetection n k tick s).pending = s.pending := by
  unfold takeDetection
  split <;> simp

@[simp] theorem takeDetection_mailbox (n : InputIx) (k : FaultKind) (tick : Nat) :
    (takeDetection n k tick s).mailbox = s.mailbox := by
  unfold takeDetection
  split <;> simp

@[simp] theorem takeDetection_port (n : InputIx) (k : FaultKind) (tick : Nat) :
    (takeDetection n k tick s).port = s.port := by
  unfold takeDetection
  split <;> simp

@[simp] theorem takeDetection_freeIndex (n : InputIx) (k : FaultKind) (tick : Nat) :
    (takeDetection n k tick s).freeIndex = s.freeIndex := by
  unfold takeDetection
  split <;> simp

@[simp] theorem takeReport_pending (n : InputIx) (tick : Nat) (r : Report) :
    (takeReport n tick s r).pending = s.pending := by
  unfold takeReport
  split <;> simp

@[simp] theorem takeReport_mailbox (n : InputIx) (tick : Nat) (r : Report) :
    (takeReport n tick s r).mailbox = s.mailbox := by
  unfold takeReport
  split <;> simp

@[simp] theorem takeReport_port (n : InputIx) (tick : Nat) (r : Report) :
    (takeReport n tick s r).port = s.port := by
  unfold takeReport
  split <;> simp

@[simp] theorem takeReport_freeIndex (n : InputIx) (tick : Nat) (r : Report) :
    (takeReport n tick s r).freeIndex = s.freeIndex := by
  unfold takeReport
  split <;> simp

@[simp] theorem takeVerifyPass_pending (n : InputIx) (g : Byte) (b : Binding) :
    (takeVerifyPass n g b s).pending = s.pending := by
  unfold takeVerifyPass
  dsimp only
  split <;> simp

@[simp] theorem takeVerifyPass_catalog (n : InputIx) (g : Byte) (b : Binding) :
    (takeVerifyPass n g b s).catalog = s.catalog := by
  unfold takeVerifyPass
  dsimp only
  split <;> simp

@[simp] theorem takeVerifyPass_mailbox (n : InputIx) (g : Byte) (b : Binding) :
    (takeVerifyPass n g b s).mailbox = s.mailbox := by
  unfold takeVerifyPass
  dsimp only
  split <;> simp

@[simp] theorem takeVerifyPass_notices (n : InputIx) (g : Byte) (b : Binding) :
    (takeVerifyPass n g b s).notices = s.notices := by
  unfold takeVerifyPass
  dsimp only
  split <;> simp

@[simp] theorem takeVerifyPass_port (n : InputIx) (g : Byte) (b : Binding) :
    (takeVerifyPass n g b s).port = s.port := by
  unfold takeVerifyPass
  dsimp only
  split <;> simp

@[simp] theorem takeVerifyPass_freeIndex (n : InputIx) (g : Byte) (b : Binding) :
    (takeVerifyPass n g b s).freeIndex = s.freeIndex := by
  unfold takeVerifyPass
  dsimp only
  split <;> simp

@[simp] theorem takeDeviation_pending (n : InputIx) (tick : Nat) (m : MeasSet) :
    (takeDeviation n tick m s).pending = s.pending := by
  unfold takeDeviation
  dsimp only
  repeat' split
  all_goals simp

@[simp] theorem takeDeviation_mailbox (n : InputIx) (tick : Nat) (m : MeasSet) :
    (takeDeviation n tick m s).mailbox = s.mailbox := by
  unfold takeDeviation
  dsimp only
  repeat' split
  all_goals simp

@[simp] theorem takeDeviation_port (n : InputIx) (tick : Nat) (m : MeasSet) :
    (takeDeviation n tick m s).port = s.port := by
  unfold takeDeviation
  dsimp only
  repeat' split
  all_goals simp

@[simp] theorem takeDeviation_freeIndex (n : InputIx) (tick : Nat) (m : MeasSet) :
    (takeDeviation n tick m s).freeIndex = s.freeIndex := by
  unfold takeDeviation
  dsimp only
  repeat' split
  all_goals simp

@[simp] theorem takeEdited_pending (n : InputIx) (tick : Nat) (m : MeasSet) :
    (takeEdited n tick m s).pending = s.pending := by
  simp [takeEdited]

@[simp] theorem takeEdited_mailbox (n : InputIx) (tick : Nat) (m : MeasSet) :
    (takeEdited n tick m s).mailbox = s.mailbox := by
  simp [takeEdited]

@[simp] theorem takeEdited_port (n : InputIx) (tick : Nat) (m : MeasSet) :
    (takeEdited n tick m s).port = s.port := by
  simp [takeEdited]

@[simp] theorem takeEdited_freeIndex (n : InputIx) (tick : Nat) (m : MeasSet) :
    (takeEdited n tick m s).freeIndex = s.freeIndex := by
  simp [takeEdited]

@[simp] theorem takeVerify_pending (n : InputIx) (tick : Nat) (pass : Bool) (g : Byte) (m : MeasSet) :
    (takeVerify n tick pass g m s).pending = s.pending := by
  unfold takeVerify
  dsimp only
  repeat' split
  all_goals simp

@[simp] theorem takeVerify_mailbox (n : InputIx) (tick : Nat) (pass : Bool) (g : Byte) (m : MeasSet) :
    (takeVerify n tick pass g m s).mailbox = s.mailbox := by
  unfold takeVerify
  dsimp only
  repeat' split
  all_goals simp

@[simp] theorem takeVerify_port (n : InputIx) (tick : Nat) (pass : Bool) (g : Byte) (m : MeasSet) :
    (takeVerify n tick pass g m s).port = s.port := by
  unfold takeVerify
  dsimp only
  repeat' split
  all_goals simp

@[simp] theorem takeVerify_freeIndex (n : InputIx) (tick : Nat) (pass : Bool) (g : Byte) (m : MeasSet) :
    (takeVerify n tick pass g m s).freeIndex = s.freeIndex := by
  unfold takeVerify
  dsimp only
  repeat' split
  all_goals simp

@[simp] theorem takeMatch_pending (n : InputIx) (via : Via) (m : Match) :
    (takeMatch n via m s).pending = s.pending := by
  unfold takeMatch
  split <;> simp

@[simp] theorem takeMatch_mailbox (n : InputIx) (via : Via) (m : Match) :
    (takeMatch n via m s).mailbox = s.mailbox := by
  unfold takeMatch
  split <;> simp

@[simp] theorem takeMatch_port (n : InputIx) (via : Via) (m : Match) :
    (takeMatch n via m s).port = s.port := by
  unfold takeMatch
  split <;> simp

@[simp] theorem takeMatch_freeIndex (n : InputIx) (via : Via) (m : Match) :
    (takeMatch n via m s).freeIndex = s.freeIndex := by
  unfold takeMatch
  split <;> simp

@[simp] theorem takeNoMatch_pending (n : InputIx) :
    (takeNoMatch n s).pending = s.pending := by
  unfold takeNoMatch
  split <;> simp

@[simp] theorem takeNoMatch_catalog (n : InputIx) :
    (takeNoMatch n s).catalog = s.catalog := by
  unfold takeNoMatch
  split <;> simp

@[simp] theorem takeNoMatch_mailbox (n : InputIx) :
    (takeNoMatch n s).mailbox = s.mailbox := by
  unfold takeNoMatch
  split <;> simp

@[simp] theorem takeNoMatch_port (n : InputIx) :
    (takeNoMatch n s).port = s.port := by
  unfold takeNoMatch
  split <;> simp

@[simp] theorem takeNoMatch_freeIndex (n : InputIx) :
    (takeNoMatch n s).freeIndex = s.freeIndex := by
  unfold takeNoMatch
  split <;> simp

@[simp] theorem takeRecallFail_pending (n : InputIx) :
    (takeRecallFail n s).pending = s.pending := by
  unfold takeRecallFail
  split <;> simp

@[simp] theorem takeRecallFail_catalog (n : InputIx) :
    (takeRecallFail n s).catalog = s.catalog := by
  unfold takeRecallFail
  split <;> simp

@[simp] theorem takeRecallFail_mailbox (n : InputIx) :
    (takeRecallFail n s).mailbox = s.mailbox := by
  unfold takeRecallFail
  split <;> simp

@[simp] theorem takeRecallFail_notices (n : InputIx) :
    (takeRecallFail n s).notices = s.notices := by
  unfold takeRecallFail
  split <;> simp

@[simp] theorem takeRecallFail_port (n : InputIx) :
    (takeRecallFail n s).port = s.port := by
  unfold takeRecallFail
  split <;> simp

@[simp] theorem takeRecallFail_freeIndex (n : InputIx) :
    (takeRecallFail n s).freeIndex = s.freeIndex := by
  unfold takeRecallFail
  split <;> simp

@[simp] theorem takeResult_pending (n : InputIx) (tick : Nat) (p : Pass) :
    (takeResult n tick p s).pending = s.pending := by
  unfold takeResult
  split <;> simp

@[simp] theorem takeResult_mailbox (n : InputIx) (tick : Nat) (p : Pass) :
    (takeResult n tick p s).mailbox = s.mailbox := by
  unfold takeResult
  split <;> simp

@[simp] theorem takeResult_port (n : InputIx) (tick : Nat) (p : Pass) :
    (takeResult n tick p s).port = s.port := by
  unfold takeResult
  split <;> simp

@[simp] theorem takeResult_freeIndex (n : InputIx) (tick : Nat) (p : Pass) :
    (takeResult n tick p s).freeIndex = s.freeIndex := by
  unfold takeResult
  split <;> simp

@[simp] theorem disturbPass_pending :
    (disturbPass s).pending = s.pending := by
  simp [disturbPass]

@[simp] theorem disturbPass_catalog :
    (disturbPass s).catalog = s.catalog := by
  simp [disturbPass]

@[simp] theorem disturbPass_inputs :
    (disturbPass s).inputs = s.inputs := by
  simp [disturbPass]

@[simp] theorem disturbPass_mailbox :
    (disturbPass s).mailbox = s.mailbox := by
  simp [disturbPass]

@[simp] theorem disturbPass_notices :
    (disturbPass s).notices = s.notices := by
  simp [disturbPass]

@[simp] theorem disturbPass_port :
    (disturbPass s).port = s.port := by
  simp [disturbPass]

@[simp] theorem disturbPass_freeIndex :
    (disturbPass s).freeIndex = s.freeIndex := by
  simp [disturbPass]

@[simp] theorem mapTrackers_pending (f : Tracker → Tracker) :
    (mapTrackers f s).pending = s.pending := rfl

@[simp] theorem mapTrackers_catalog (f : Tracker → Tracker) :
    (mapTrackers f s).catalog = s.catalog := rfl

@[simp] theorem mapTrackers_classifier (f : Tracker → Tracker) :
    (mapTrackers f s).classifier = s.classifier := rfl

@[simp] theorem mapTrackers_mailbox (f : Tracker → Tracker) :
    (mapTrackers f s).mailbox = s.mailbox := rfl

@[simp] theorem mapTrackers_notices (f : Tracker → Tracker) :
    (mapTrackers f s).notices = s.notices := rfl

@[simp] theorem mapTrackers_port (f : Tracker → Tracker) :
    (mapTrackers f s).port = s.port := rfl

@[simp] theorem mapTrackers_freeIndex (f : Tracker → Tracker) :
    (mapTrackers f s).freeIndex = s.freeIndex := rfl

@[simp] theorem handMarks_pending :
    (handMarks s).pending = s.pending := by
  simp [handMarks]

@[simp] theorem handMarks_catalog :
    (handMarks s).catalog = s.catalog := by
  simp [handMarks]

@[simp] theorem handMarks_mailbox :
    (handMarks s).mailbox = s.mailbox := by
  simp [handMarks]

@[simp] theorem handMarks_notices :
    (handMarks s).notices = s.notices := by
  simp [handMarks]

@[simp] theorem handMarks_port :
    (handMarks s).port = s.port := by
  simp [handMarks]

@[simp] theorem handMarks_freeIndex :
    (handMarks s).freeIndex = s.freeIndex := by
  simp [handMarks]

@[simp] theorem retireInput_pending (n : InputIx) :
    (retireInput s n).pending = s.pending := by
  simp [retireInput]

@[simp] theorem retireInput_mailbox (n : InputIx) :
    (retireInput s n).mailbox = s.mailbox := by
  simp [retireInput]

@[simp] theorem retireInput_port (n : InputIx) :
    (retireInput s n).port = s.port := by
  simp [retireInput]

@[simp] theorem retireInput_freeIndex (n : InputIx) :
    (retireInput s n).freeIndex = s.freeIndex := by
  simp [retireInput]

@[simp] theorem advancePointer_pending :
    (advancePointer s).pending = s.pending := by
  simp [advancePointer]

@[simp] theorem advancePointer_catalog :
    (advancePointer s).catalog = s.catalog := by
  simp [advancePointer]

@[simp] theorem advancePointer_classifier :
    (advancePointer s).classifier = s.classifier := by
  simp [advancePointer]

@[simp] theorem advancePointer_inputs :
    (advancePointer s).inputs = s.inputs := by
  simp [advancePointer]

@[simp] theorem advancePointer_mailbox :
    (advancePointer s).mailbox = s.mailbox := by
  simp [advancePointer]

@[simp] theorem advancePointer_notices :
    (advancePointer s).notices = s.notices := by
  simp [advancePointer]

@[simp] theorem advancePointer_freeIndex :
    (advancePointer s).freeIndex = s.freeIndex := by
  simp [advancePointer]

@[simp] theorem latchView_pending :
    (latchView s).pending = s.pending := by
  simp [latchView]

@[simp] theorem latchView_catalog :
    (latchView s).catalog = s.catalog := by
  simp [latchView]

@[simp] theorem latchView_classifier :
    (latchView s).classifier = s.classifier := by
  simp [latchView]

@[simp] theorem latchView_inputs :
    (latchView s).inputs = s.inputs := by
  simp [latchView]

@[simp] theorem latchView_mailbox :
    (latchView s).mailbox = s.mailbox := by
  simp [latchView]

@[simp] theorem latchView_notices :
    (latchView s).notices = s.notices := by
  simp [latchView]

@[simp] theorem latchView_freeIndex :
    (latchView s).freeIndex = s.freeIndex := by
  simp [latchView]

@[simp] theorem takeByte_pending :
    (takeByte s).pending = s.pending := by
  unfold takeByte
  dsimp only
  split <;> simp

@[simp] theorem takeByte_catalog :
    (takeByte s).catalog = s.catalog := by
  unfold takeByte
  dsimp only
  split <;> simp

@[simp] theorem takeByte_classifier :
    (takeByte s).classifier = s.classifier := by
  unfold takeByte
  dsimp only
  split <;> simp

@[simp] theorem takeByte_inputs :
    (takeByte s).inputs = s.inputs := by
  unfold takeByte
  dsimp only
  split <;> simp

@[simp] theorem takeByte_mailbox :
    (takeByte s).mailbox = s.mailbox := by
  unfold takeByte
  dsimp only
  split <;> simp

@[simp] theorem takeByte_notices :
    (takeByte s).notices = s.notices := by
  unfold takeByte
  dsimp only
  split <;> simp

@[simp] theorem takeByte_freeIndex :
    (takeByte s).freeIndex = s.freeIndex := by
  unfold takeByte
  dsimp only
  split <;> simp

@[simp] theorem noteChange_pending (t : State) : (noteChange s t).pending = t.pending := rfl

@[simp] theorem noteChange_catalog (t : State) : (noteChange s t).catalog = t.catalog := rfl

@[simp] theorem noteChange_classifier (t : State) : (noteChange s t).classifier = t.classifier := rfl

@[simp] theorem noteChange_inputs (t : State) : (noteChange s t).inputs = t.inputs := rfl

@[simp] theorem noteChange_mailbox (t : State) : (noteChange s t).mailbox = t.mailbox := rfl

@[simp] theorem noteChange_notices (t : State) : (noteChange s t).notices = t.notices := rfl

@[simp] theorem noteChange_freeIndex (t : State) : (noteChange s t).freeIndex = t.freeIndex := rfl

@[simp] theorem acceptCommand_pending (c : Byte) :
    (acceptCommand c s).pending = s.pending := by
  simp [acceptCommand]

@[simp] theorem acceptCommand_catalog (c : Byte) :
    (acceptCommand c s).catalog = s.catalog := by
  simp [acceptCommand]

@[simp] theorem acceptCommand_classifier (c : Byte) :
    (acceptCommand c s).classifier = s.classifier := by
  simp [acceptCommand]

@[simp] theorem acceptCommand_inputs (c : Byte) :
    (acceptCommand c s).inputs = s.inputs := by
  simp [acceptCommand]

@[simp] theorem acceptCommand_notices (c : Byte) :
    (acceptCommand c s).notices = s.notices := by
  simp [acceptCommand]

@[simp] theorem acceptCommand_port (c : Byte) :
    (acceptCommand c s).port = s.port := by
  simp [acceptCommand]

@[simp] theorem acceptCommand_freeIndex (c : Byte) :
    (acceptCommand c s).freeIndex = s.freeIndex := by
  simp [acceptCommand]

@[simp] theorem emptyMailbox_pending :
    (emptyMailbox s).pending = s.pending := by
  simp [emptyMailbox]

@[simp] theorem emptyMailbox_catalog :
    (emptyMailbox s).catalog = s.catalog := by
  simp [emptyMailbox]

@[simp] theorem emptyMailbox_classifier :
    (emptyMailbox s).classifier = s.classifier := by
  simp [emptyMailbox]

@[simp] theorem emptyMailbox_inputs :
    (emptyMailbox s).inputs = s.inputs := by
  simp [emptyMailbox]

@[simp] theorem emptyMailbox_notices :
    (emptyMailbox s).notices = s.notices := by
  simp [emptyMailbox]

@[simp] theorem emptyMailbox_port :
    (emptyMailbox s).port = s.port := by
  simp [emptyMailbox]

@[simp] theorem emptyMailbox_freeIndex :
    (emptyMailbox s).freeIndex = s.freeIndex := by
  simp [emptyMailbox]

/-- The reports of an event of a measurement unit touch none of these. -/
theorem applyMeasured_kept (n : InputIx) (tick : Nat) (r : Measured) :
    (applyMeasured n tick r s).pending = s.pending
      ∧ (applyMeasured n tick r s).mailbox = s.mailbox
      ∧ (applyMeasured n tick r s).port = s.port
      ∧ (applyMeasured n tick r s).freeIndex = s.freeIndex := by
  unfold applyMeasured
  suffices h : ∀ (l : List Report) (t : State),
      (l.foldl (takeReport n tick) t).pending = t.pending
        ∧ (l.foldl (takeReport n tick) t).mailbox = t.mailbox
        ∧ (l.foldl (takeReport n tick) t).port = t.port
        ∧ (l.foldl (takeReport n tick) t).freeIndex = t.freeIndex by
    simpa using h r.2 (s.withUnit n r.1)
  intro l
  induction l with
  | nil => simp
  | cons a l ih => intro t; simpa using ih (takeReport n tick t a)

end Sys2Proof.Machine
end

