-- ==== Sys2Proof/Laws/Procedures.lean ====
section
/-! SUPPORT. What the shared procedures do: changes of state, releases, submissions, completions, data
bytes and the since-latch indicator. -/

namespace Sys2Proof.Machine

variable (s : State)

/-! ### The since-latch indicator -/

/-- The view shows the same record in states that agree on the catalog and the inputs. -/
theorem shownRecord_of_same {s t : State} (hc : t.catalog = s.catalog) (hi : t.inputs = s.inputs)
    (r : ViewRecord) : shownRecord t r = shownRecord s r := by
  cases r with
  | catalogEntry i => simp [shownRecord, slot_of_catalog hc]
  | inputStatus n => simp [shownRecord, tracker_of_inputs hi]
  | measurement n => simp [shownRecord, unit_of_inputs hi]

/-- An event that leaves the catalog and the inputs alone leaves the indicator alone. -/
theorem noteChange_of_same {s t : State} (hc : t.catalog = s.catalog)
    (hi : t.inputs = s.inputs) : noteChange s t = t := by
  have h : recordChanged s t = false := by
    unfold recordChanged
    split
    · rfl
    · simp [shownRecord_of_same hc hi]
  simp [noteChange, h, State.withPort]

/-- The port after an event differs from the event's own only in the indicator. -/
theorem noteChange_port (t : State) :
    (noteChange s t).port = { t.port with since := t.port.since || recordChanged s t } := rfl

/-- The snapshot of a record depends on the catalog and the inputs alone. -/
theorem snapshotOf_of_same {s t : State} (hc : t.catalog = s.catalog) (hi : t.inputs = s.inputs)
    (r : Option ViewRecord) : snapshotOf t r = snapshotOf s r := by
  cases r with
  | none => rfl
  | some r => simp [snapshotOf, shownRecord_of_same hc hi]

/-! ### Changes of state -/

theorem changeState_tracker_self (n : InputIx) (new : TrackerState) :
    (changeState n new s).tracker n = changedTracker new (s.tracker n) := by
  simp [changeState]

theorem changeState_input_ne {n m : InputIx} (h : m ≠ n) (new : TrackerState) :
    (changeState n new s).input m = s.input m := by
  simp [changeState, input_withTracker, h]

@[simp] theorem changeState_unit (n m : InputIx) (new : TrackerState) :
    (changeState n new s).unit m = s.unit m := by
  simp [changeState]

@[simp] theorem changeState_config (n m : InputIx) (new : TrackerState) :
    (changeState n new s).config m = s.config m := by
  simp [changeState]

theorem changeState_classifier (n : InputIx) (new : TrackerState) :
    (changeState n new s).classifier =
      { s.classifier with
        requests := s.classifier.requests.set (inputRequester n)
          (changedRequest (s.tracker n).state new ((s.tracker n).reqSeq + 1)
            (s.request (inputRequester n))) } := rfl

/-! ### Releases -/

theorem release_none {n : InputIx} {reason : Reason} (h : (s.tracker n).binding = none) :
    release n reason s = s := by
  simp [release, h]

theorem release_tracker_self {n : InputIx} {b : Binding} (reason : Reason)
    (h : (s.tracker n).binding = some b) :
    (release n reason s).tracker n = releasedTracker reason b (s.tracker n) := by
  have hc : ∀ f, (claim b.slot f s).tracker n = s.tracker n := fun f =>
    tracker_of_inputs (claim_inputs s b.slot f) n
  unfold release
  rw [h]
  dsimp only
  split
  · simp [hc]
  · simp [hc]

theorem release_catalog {n : InputIx} {b : Binding} (reason : Reason)
    (h : (s.tracker n).binding = some b) :
    (release n reason s).catalog = (claim b.slot (· - 1) s).catalog := by
  unfold release
  rw [h]
  dsimp only
  split <;> simp

/-- A release that a result makes keeps the tick of the result beside the record it writes. -/
theorem releaseByResult_tracker_self {n : InputIx} {b : Binding} (reason : Reason) (tick : Nat)
    (h : (s.tracker n).binding = some b) :
    (releaseByResult n reason tick s).tracker n =
      { releasedTracker reason b (s.tracker n) with lossTick := some tick } := by
  simp [releaseByResult, release_tracker_self s reason h]

@[simp] theorem releaseByResult_catalog (n : InputIx) (reason : Reason) (tick : Nat) :
    (releaseByResult n reason tick s).catalog = (release n reason s).catalog := rfl

@[simp] theorem releaseByResult_notices (n : InputIx) (reason : Reason) (tick : Nat) :
    (releaseByResult n reason tick s).notices = (release n reason s).notices := rfl

/-- Only a record that a result of this tick wrote comes to name FAULT. -/
theorem nameFault_of_ne {tick : Nat} {t : Tracker} (h : t.lossTick ≠ some tick) :
    nameFault tick t = t := if_neg h

theorem nameFault_of_eq {tick : Nat} {t : Tracker} (h : t.lossTick = some tick) :
    nameFault tick t =
      { t with lastLoss := t.lastLoss.map fun l => { l with reason := .fault } } := if_pos h

@[simp] theorem nameFault_state (tick : Nat) (t : Tracker) :
    (nameFault tick t).state = t.state := by
  unfold nameFault; split <;> rfl

@[simp] theorem nameFault_held (tick : Nat) (t : Tracker) :
    (nameFault tick t).held = t.held := by
  unfold nameFault; split <;> rfl

@[simp] theorem nameFault_binding (tick : Nat) (t : Tracker) :
    (nameFault tick t).binding = t.binding := by
  unfold nameFault; split <;> rfl

@[simp] theorem nameFault_recallRef (tick : Nat) (t : Tracker) :
    (nameFault tick t).recallRef = t.recallRef := by
  unfold nameFault; split <;> rfl

@[simp] theorem nameFault_latch (tick : Nat) (t : Tracker) :
    (nameFault tick t).latch = t.latch := by
  unfold nameFault; split <;> rfl

@[simp] theorem nameFault_lossTick (tick : Nat) (t : Tracker) :
    (nameFault tick t).lossTick = t.lossTick := by
  unfold nameFault; split <;> rfl

@[simp] theorem nameFault_reqSeq (tick : Nat) (t : Tracker) :
    (nameFault tick t).reqSeq = t.reqSeq := by
  unfold nameFault; split <;> rfl

/-- A fault releases a binding with its own reason, as every release does. -/
theorem releaseForFault_tracker_self {n : InputIx} {b : Binding} (tick : Nat)
    (h : (s.tracker n).binding = some b) :
    (releaseForFault n tick s).tracker n = releasedTracker .fault b (s.tracker n) := by
  have hr := release_tracker_self s .fault h
  simp [releaseForFault, hr, nameFault, releasedTracker]

/-- Without a binding a fault releases nothing, and at most renames the last-loss record. -/
theorem releaseForFault_none {n : InputIx} (tick : Nat) (h : (s.tracker n).binding = none) :
    releaseForFault n tick s = s.withTracker n (nameFault tick (s.tracker n)) := by
  simp [releaseForFault, release_none s h]

@[simp] theorem releaseForFault_catalog (n : InputIx) (tick : Nat) :
    (releaseForFault n tick s).catalog = (release n .fault s).catalog := rfl

@[simp] theorem releaseForFault_notices (n : InputIx) (tick : Nat) :
    (releaseForFault n tick s).notices = (release n .fault s).notices := rfl

/-! ### Submissions -/

/-- A request submitted while a pass is in flight waits in its slot. -/
theorem submit_busy {r : Requester} {q : Request} {p : Pass} (h : s.classifier.pass = some p) :
    submit r q s = s.withRequest r (some q) := by
  unfold submit arbitrate arbitrateClassifier
  rw [State.withRequest_pass, h]
  rfl

/-- A submission at a tick at which no pass has ended is a submission like any other. -/
theorem submitAt_of_ne {r : Requester} {q : Request} {tick : Nat}
    (h : s.classifier.endTick ≠ some tick) : submitAt r q tick s = submit r q s := by
  unfold submitAt supersedesGranted
  split
  · rfl
  · simp [h]

/-- A submission that supersedes a request granted at the same event is granted in its place. -/
theorem submitAt_granted {r : Requester} {q : Request} {tick : Nat} {p : Pass}
    (hp : s.classifier.pass = some p) (h : supersedesGranted r q tick s p = true) :
    submitAt r q tick s = s.withPass (some { grantedPass r q with disturbed := p.disturbed }) := by
  simp [submitAt, hp, h]

/-- Any other submission is a submission like any other. -/
theorem submitAt_other {r : Requester} {q : Request} {tick : Nat}
    (h : ∀ p, s.classifier.pass = some p → supersedesGranted r q tick s p = false) :
    submitAt r q tick s = submit r q s := by
  unfold submitAt
  split
  · rfl
  · rename_i p hp
    simp [h p hp]

/-- Arbitration does nothing while a pass is in flight. -/
theorem arbitrate_busy {p : Pass} (h : s.classifier.pass = some p) : arbitrate s = s := by
  simp [arbitrate, arbitrateClassifier, h, State.withClassifier]

/-! ### Completions -/

theorem completeCommand_mailbox (r : Executed) :
    (completeCommand r).mailbox =
      { r.state.mailbox with
        state := .done, result := some r.code, data := padTo 21 r.data } := rfl

theorem completeCommand_notices (r : Executed) :
    (completeCommand r).notices =
      { r.state.notices with
        globalFlags := r.state.notices.globalFlags ||| globalNoticeBit .mailboxDone } := rfl

@[simp] theorem completeCommand_catalog (r : Executed) :
    (completeCommand r).catalog = r.state.catalog := rfl

@[simp] theorem completeCommand_inputs (r : Executed) :
    (completeCommand r).inputs = r.state.inputs := rfl

@[simp] theorem completeCommand_classifier (r : Executed) :
    (completeCommand r).classifier = r.state.classifier := rfl

@[simp] theorem completeCommand_port (r : Executed) :
    (completeCommand r).port = r.state.port := rfl

@[simp] theorem completeCommand_pending (r : Executed) :
    (completeCommand r).pending = r.state.pending := rfl

@[simp] theorem completeCommand_freeIndex (r : Executed) :
    (completeCommand r).freeIndex = r.state.freeIndex := rfl

/-! ### Data bytes -/

/-- A data byte at a position its command does not cover changes nothing. -/
theorem onDataByte_none {f : Pos → Option (State → State)} (h : (dataPos s).bind f = none) :
    onDataByte f s = s := by
  simp [onDataByte, h]

/-- A data byte at a position of its command: its effect, the acknowledge, and the pointer. -/
theorem onDataByte_at {f : Pos → Option (State → State)} {p : Pos} {act : State → State}
    (hb : s.port.bus = .dataNext) (hp : windowPos s.port.pointer = p) (hf : f p = some act) :
    onDataByte f s =
      advancePointer ((act s).withPort { (act s).port with acked := true }) := by
  simp [onDataByte, dataPos, hb, hp, hf]

/-! ### Expiries of the line counters -/

@[simp] theorem expiryDue_v (u : MeasUnit) : expiryDue .v u = false := rfl

/-- Away from an expiry no free value is spent. -/
theorem spendChoice_of_not_due {n : InputIx} {pin : Pin}
    (h : expiryDue pin (s.unit n) = false) : spendChoice n pin s = s := by
  simp [spendChoice, h]

/-- Away from an expiry the order is fixed, and makes no difference. -/
theorem expiryChoice_of_not_due {n : InputIx} {pin : Pin}
    (h : expiryDue pin (s.unit n) = false) :
    expiryChoice n pin s = { first := true, stands := true, ringAfter := true } := by
  simp [expiryChoice, h]

/-- Away from the end of the V pin's quiet the ring judges by the source in force. -/
theorem ringSource_of_not_due {u : MeasUnit} (h : u.vQuiet ≠ 4095) (order : ExpiryOrder) :
    ringSource order u = vSourceOf u := by
  unfold ringSource
  split
  · have : min 4096 (u.vQuiet + 1) < 4096 ↔ u.vQuiet < 4096 := by omega
    simp only [vSourceOf, countLine, this]
  · rfl

/-! ### H pin transitions -/

/-- An H edge waits exactly when the waiting transition of the H pin is into the active level. -/
theorem waitingHEdge_eq_some {u : MeasUnit} {w : Nat} :
    waitingHEdge u = some w ↔
      u.hFilter.waiting.map Waiting.tick = some w
        ∧ otherLevel u.hFilter.passed = activeLevel u.hRef := by
  unfold waitingHEdge
  split <;> simp_all

/-- An event of a unit that publishes no set shows in no view. -/
theorem noteChange_withUnit {n : InputIx} {u : MeasUnit} (h : u.lastSet = (s.unit n).lastSet) :
    noteChange s (s.withUnit n u) = s.withUnit n u := by
  have hr : ∀ r, shownRecord (s.withUnit n u) r = shownRecord s r := by
    intro r
    cases r with
    | catalogEntry i => rfl
    | inputStatus m => simp [shownRecord]
    | measurement m =>
      by_cases hm : m = n
      · subst hm; simp [shownRecord, h]
      · simp [shownRecord, State.unit, input_withUnit, hm]
  have hc : recordChanged s (s.withUnit n u) = false := by
    unfold recordChanged
    split <;> simp [hr]
  unfold noteChange
  rw [hc, Bool.or_false]
  rfl

/-- The acceptance of an H transition that no expiry comes with and that reports nothing. -/
theorem execTransitionAccepted_quiet {n : InputIx} {u : MeasUnit}
    (hd : expiryDue .h (s.unit n) = false)
    (ha : acceptTransition { first := true, stands := true, ringAfter := true } .h (s.unit n)
      = (u, [])) (hl : u.lastSet = (s.unit n).lastSet) :
    execTransitionAccepted n .h s = .next (s.withUnit n u) := by
  rw [execTransitionAccepted, acceptPin, expiryChoice_of_not_due s hd,
    spendChoice_of_not_due s hd, onUnit, ha]
  simp only [applyMeasured, List.foldl]
  rw [noteChange_withUnit s hl]

/-! ### Bytes of a buffer -/

/-- A byte of a padded list is the list's own, and 0 past its end. -/
theorem byteAt_padTo {k i : Nat} (l : List Byte) (h : i < k) :
    byteAt (padTo k l) i = l[i]?.getD 0 := by
  unfold byteAt padTo
  rw [Vector.getElem?_eq_getElem h]
  simp only [Vector.getElem_mk, List.getElem_toArray, List.getElem_take, List.getElem_append]
  by_cases hl : i < l.length <;> simp [hl]

end Sys2Proof.Machine
end

