-- ==== Sys2Proof/Tests/Slice0.lean ====
section
/-! SUPPORT. The model's own tests, and a witness for the hypotheses of every obligation that has
some. Expected values are the manual's own: its worked examples (sections 1.11, 2.8, 3.9, 5.7, 6.13
and 10.8) and its tables. -/

namespace Sys2Proof.Tests

open Sys2Proof Sys2Proof.Machine

set_option Elab.async false

/-! ### Well-formed commands -/

theorem test_unknown_command_refuses_first_code :
    (Instr.unknownCommand 0x01).wellFormed = false := by decide

theorem test_unknown_command_refuses_last_code :
    (Instr.unknownCommand 0x0C).wellFormed = false := by decide

theorem test_unknown_command_takes_other_codes :
    (Instr.unknownCommand 0x00).wellFormed = true
      ∧ (Instr.unknownCommand 0x0D).wellFormed = true
      ∧ (Instr.unknownCommand 0xFF).wellFormed = true := by decide

/-! ### The laws as checks on a concrete state -/

/-- The conditions of `TrackerLawAt`, as a check. -/
def trackerOk (n : InputIx) (s : State) : Bool :=
  let t := s.tracker n
  let settled := t.state == .pending || t.state == .bound || t.state == .coasting
    || t.state == .unmatched
  let bound := t.state == .bound || t.state == .coasting
  ((s.config n).enabled == (t.state != .idle)) && decide (1 ≤ (s.config n).settle.toNat)
    && (!t.held.isSome || settled) && (!t.settleRef.isSome || t.state == .settling)
    && (t.settleCounter == 0 || t.state == .settling) && decide (t.settleCounter ≤ 15)
    && (t.coast == 0 || t.state == .coasting) && decide (t.coast ≤ (s.config n).budget.toNat)
    && (t.binding.isSome == bound)
    && (!t.recallRef.isSome || (t.state != .idle && !bound))
    && (!t.recheck || t.state == .unmatched)
    && (t.latch.isEmpty == (t.state != .fault))
    && match s.request (inputRequester n) with
      | none => true
      | some q =>
        (q.seq == some t.reqSeq)
          && ((t.state == .pending && (q.kind == .search || q.kind == .verifyRecall))
            || (bound && q.kind == .verifyBound))

theorem trackerLaw_of_ok (s : State) (h : ∀ n, trackerOk n s = true) : TrackerLaw s := by
  intro n
  have hn := h n
  simp only [trackerOk, Bool.and_eq_true, decide_eq_true_eq] at hn
  obtain ⟨⟨⟨⟨⟨⟨⟨⟨⟨⟨⟨⟨h1, h2⟩, h3⟩, h4⟩, h5⟩, h6⟩, h7⟩, h8⟩, h9⟩, h10⟩, h11⟩, h12⟩, h13⟩ := hn
  refine ⟨?_, h2, ?_, ?_, ?_, h6, ?_, h8, ?_, ?_, ?_, ?_, ?_⟩
  all_goals
    first
    | (intro q hq
       simp only [hq] at h13
       cases hs : (s.tracker n).state <;> simp_all [isBoundState])
    | (clear h13
       cases hs : (s.tracker n).state <;> simp_all [isBoundState, isSettledState])

/-- The conditions of `Window.legal`, as a check. -/
def windowOkay (lo hi : Nat) (w : Window) : Bool :=
  decide (lo ≤ w.min) && decide (w.min ≤ w.max) && decide (w.max ≤ hi)

/-- The conditions of `Entry.legal`, as a check. -/
def entryOk (e : Entry) : Bool :=
  decide (1 ≤ e.tag) && decide (e.tag ≤ 65535) && decide (e.rank ≤ 15)
    && windowOkay 1280 65528 e.hPeriod && windowOkay 16 4095 e.vLines
    && e.hWidth.all (windowOkay 0 65535) && e.vWidth.all (windowOkay 0 255)
    && e.presentation.all fun p =>
      decide (1 ≤ p.totalPx) && decide (p.totalPx ≤ 8191) && decide (1 ≤ p.activePx)
        && decide (p.activePx ≤ p.totalPx) && decide (1 ≤ p.activeLines)
        && decide (p.activeLines ≤ 4095) && decide (p.firstPx ≤ p.totalPx - p.activePx)
        && decide (p.firstLine ≤ 4095)

theorem entry_legal_of_ok (e : Entry) (h : entryOk e = true) : e.legal := by
  simp only [entryOk, windowOkay, Bool.and_eq_true, decide_eq_true_eq] at h
  obtain ⟨⟨⟨⟨⟨⟨⟨h1, h2⟩, h3⟩, h4⟩, h5⟩, h6⟩, h7⟩, h8⟩ := h
  refine ⟨h1, h2, h3, ⟨h4.1.1, h4.1.2, h4.2⟩, ⟨h5.1.1, h5.1.2, h5.2⟩, ?_, ?_, ?_⟩
  · intro w hw
    simp only [hw, Option.all_some, windowOkay, Bool.and_eq_true, decide_eq_true_eq] at h6
    exact ⟨h6.1.1, h6.1.2, h6.2⟩
  · intro w hw
    simp only [hw, Option.all_some, windowOkay, Bool.and_eq_true, decide_eq_true_eq] at h7
    exact ⟨h7.1.1, h7.1.2, h7.2⟩
  · intro p hp
    simp only [hp, Option.all_some, Bool.and_eq_true, decide_eq_true_eq] at h8
    obtain ⟨⟨⟨⟨⟨⟨⟨a, b⟩, c⟩, d⟩, e⟩, f⟩, g⟩, k⟩ := h8
    exact ⟨a, b, c, d, e, f, g, k⟩

/-- The conditions of `CatalogLaw` on one slot, as a check. -/
def slotOk (s : State) (i : SlotIx) : Bool :=
  let x := s.slot i
  match x.state with
  | .free => x.generation == 0 && x.entry == zeroEntry
  | .active | .suspended =>
    x.generation != 0 && entryOk x.entry && s.catalog.tagMap.contains (x.entry.tag, i)

theorem catalogLaw_of_ok (s : State) (hs : ∀ i, slotOk s i = true)
    (ho : s.catalog.occupancy = occupied s.catalog)
    (hp : s.catalog.tagMap.Pairwise fun a b => a.1 < b.1)
    (ht : ∀ a ∈ s.catalog.tagMap,
      (s.slot a.2).state ≠ .free ∧ (s.slot a.2).entry.tag = a.1) : CatalogLaw s := by
  refine ⟨?_, ho, hp, ?_⟩
  · intro i
    have hi := hs i
    cases hx : (s.slot i).state <;> simp_all [slotOk, entry_legal_of_ok]
  · intro t i
    refine ⟨fun hm => ht _ hm, ?_⟩
    rintro ⟨hf, rfl⟩
    have hi := hs i
    cases hx : (s.slot i).state <;> simp_all [slotOk]

/-- The conditions of `LinkLaw` on one input, as a check. -/
def linkOk (n : InputIx) (s : State) : Bool :=
  let u := s.unit n
  let t := s.tracker n
  let settled := t.state == .pending || t.state == .bound || t.state == .coasting
    || t.state == .unmatched
  ((u.state == .off) == (t.state == .idle)) && (t.state != .silent || u.state == .quiet)
    && (u.state != .quiet || t.state == .silent || t.state == .fault)
    && (!settled || (t.held.isSome && u.lastSet.isSome))

theorem linkLaw_of_ok (s : State) (h : ∀ n, linkOk n s = true) : LinkLaw s := by
  intro n
  have hn := h n
  simp only [linkOk, Bool.and_eq_true] at hn
  obtain ⟨⟨⟨h1, h2⟩, h3⟩, h4⟩ := hn
  cases ht : (s.tracker n).state <;> cases hu : (s.unit n).state <;>
    simp_all [isSettledState]

/-! ### Scenes -/

/-- Slot 0 of the example of section 1.11. -/
def entry720 : Entry :=
  { tag := 720, rank := 8, hPeriod := ⟨3540, 3572⟩, vLines := ⟨749, 751⟩, hWidth := none
    vWidth := some ⟨4, 6⟩, hPolarity := some .positive, vPolarity := some .positive
    scan := some .progressive, form := none
    presentation :=
      some { totalPx := 1650, activePx := 1280, activeLines := 720, firstPx := 260
             firstLine := 25 } }

/-- Slot 1 of the example of section 1.11. -/
def entry1080 : Entry :=
  { tag := 1080, rank := 8, hPeriod := ⟨2360, 2380⟩, vLines := ⟨1124, 1126⟩, hWidth := none
    vWidth := some ⟨4, 6⟩, hPolarity := some .positive, vPolarity := some .positive
    scan := some .progressive, form := none
    presentation :=
      some { totalPx := 2200, activePx := 1920, activeLines := 1080, firstPx := 192
             firstLine := 41 } }

/-- Slot 2 of the example of section 1.11. -/
def entry600 : Entry :=
  { tag := 600, rank := 4, hPeriod := ⟨4210, 4238⟩, vLines := ⟨627, 629⟩, hWidth := none
    vWidth := none, hPolarity := some .positive, vPolarity := some .positive
    scan := some .progressive, form := none, presentation := none }

/-- The three entries of section 1.11, with one input bound to slot 1. -/
def threeEntries : Catalog :=
  { slots :=
      ((resetCatalog.slots.set 0 ⟨.active, 1, 0, entry720⟩).set 1 ⟨.active, 1, 1, entry1080⟩).set 2
        ⟨.active, 1, 0, entry600⟩
    occupancy := 3
    tagMap := [(600, 2), (720, 0), (1080, 1)] }

/-- Set `seq` of the source of section 6.13, with the given lines. -/
def sourceSet (seq : Byte) (lines : Nat) : MeasSet :=
  { seq := seq
    sync :=
      { hPeriod := 2370, hWidth := 40, hPolarity := .positive, vLines := lines, vWidth := 5
        vPolarity := .positive, scan := .progressive, form := .separate }
    halfLine := false, noiseSeen := false }

/-- Eight lines that sum to a period of 2370 eighths and a width of 40. -/
def sourceRing : List Line :=
  List.replicate 6 ⟨296, 5, .positive⟩ ++ List.replicate 2 ⟨297, 5, .positive⟩

/-- A period with so many rejections counted. -/
def openPeriod (rejections : Nat) : OpenPeriod :=
  { openTick := 5000, width := some 5, rejections := rejections, faults := noFaults
    prevPolarity := some .positive }

/-- A unit in PUBLISHING, 31 rejections into a period, with a line open since tick 10000. -/
def publishingUnit : MeasUnit :=
  { resetUnit with
    state := .publishing, hRef := .positive, vRef := .positive
    lastHEdge := some 10000, prevHEdge := some 9704
    line := some { openTick := 10000, openCount := 1125, activeEnd := some 10005 }
    ring := sourceRing, lineCounter := 1125, vQuiet := 1120, setSeq := 3
    lastSet := some (sourceSet 3 1125), halfLineRef := some false
    period := some (openPeriod 31) }

/-- The binding of section 6.13. -/
def sourceBinding : Binding :=
  { slot := 1, generation := 1, via := .search, ambiguity := 1, candidates := [1]
    overflow := false }

/-- The tracker of section 6.13 in BOUND. -/
def boundTracker : Tracker :=
  { resetTracker with
    state := .bound, held := some (sourceSet 3 1125), binding := some sourceBinding, reqSeq := 4 }

/-- Input 2 of section 6.13 in BOUND. -/
def boundInput : Input :=
  { resetInput with
    config := { resetConfig with enabled := true }
    unit := publishingUnit, tracker := boundTracker }

/-- Input 2 bound to slot 1, the other inputs idle, and a write that has reached the command byte
with the argument 1. -/
def scene : State :=
  { State.reset with
    catalog := threeEntries
    inputs := State.reset.inputs.set 2 boundInput
    mailbox := { resetMailbox with args := resetMailbox.args.set 0 1 }
    port := { resetPort .low with pointer := 0x40, bus := .dataNext } }

/-- `scene` with a write at another position. -/
def sceneAt (pointer : Byte) : State :=
  { scene with port := { scene.port with pointer := pointer } }

/-- `scene` with another first argument. -/
def sceneArg (arg : Byte) : State :=
  { scene with mailbox := { scene.mailbox with args := resetMailbox.args.set 0 arg } }

/-- `scene` with input 2's tracker in another state. -/
def sceneTracker (t : Tracker) : State := scene.withTracker 2 t

/-- `scene` with input 2's unit changed. -/
def sceneUnit (u : MeasUnit) : State := scene.withUnit 2 u

/-- `scene` with a pass in flight. -/
def scenePass (p : Pass) : State := scene.withPass (some p)

/-- `scene` with the mailbox in another state. -/
def sceneMailbox (x : MailboxState) : State :=
  { scene with mailbox := { scene.mailbox with state := x } }

/-- Input 2's bound verify on a set of 1131 lines, after its step. -/
def verifyPass (pass : Bool) (generation : Byte) : Pass :=
  { requester := 2, kind := .verifyBound, set := .measured (sourceSet 5 1131), seq := some 4
    probeCurrent := none, start := 1, disturbed := false, position := 1, tally := none
    verdict := some (.bound pass generation) }

/-- Input 2's search at the position given, with the tally given. -/
def searchPass (position : Nat) (tally : Tally) : Pass :=
  { requester := 2, kind := .search, set := .measured (sourceSet 3 1125), seq := some 3
    probeCurrent := none, start := 1, disturbed := false, position := position
    tally := some tally, verdict := none }

/-- A probe's pass after its last step. -/
def probePass (tally : Tally) : Pass :=
  { requester := 6, kind := .search, set := .probe (sourceSet 3 1125).sync, seq := none
    probeCurrent := some true, start := 1, disturbed := false, position := 64
    tally := some tally, verdict := none }

/-- The tally of a search that has found slot 1. -/
def foundSlot1 : Tally :=
  { candidates := [⟨1, 8⟩], firstGeneration := 1, matchCount := 1, topRank := some 8
    topCount := 1 }

/-- The tracker of section 6.13 in PENDING, before its search completes. -/
def pendingTracker : Tracker :=
  { resetTracker with state := .pending, held := some (sourceSet 3 1125), reqSeq := 3 }

/-- The tracker of section 6.13 in COASTING with the counter at `coast`. -/
def coastingTracker (coast : Nat) : Tracker :=
  { boundTracker with state := .coasting, coast := coast, reqSeq := 4 }

/-- A tracker in FAULT. -/
def faultTracker : Tracker :=
  { resetTracker with
    state := .fault, latch := { noise := true, shortFrame := false, polarityFlip := false } }

/-- A tracker that a result of tick 10163 has just released with ENTRY_EDITED. -/
def editedTracker : Tracker :=
  { boundTracker with
    state := .pending, binding := none, lastLoss := some ⟨.entryEdited, 1, 1⟩
    lossTick := some 10163, reqSeq := 5 }

/-- A tracker in SETTLING with a count of 2. -/
def settlingTracker : Tracker :=
  { resetTracker with
    state := .settling, settleCounter := 2, settleRef := some (sourceSet 2 1125), reqSeq := 2 }

/-- A tracker in UNMATCHED. -/
def unmatchedTracker : Tracker :=
  { resetTracker with
    state := .unmatched, held := some (sourceSet 3 1125), recheck := true, reqSeq := 7 }

/-- A unit with a transition into the active level of the H reference waiting since `tick`. -/
def withHEdge (tick : Nat) (u : MeasUnit) : MeasUnit :=
  { u with hFilter := { passed := .low, waiting := some { tick := tick, window := 4 } } }

/-- A unit whose line in progress had its whole period active. -/
def withBroadLine (u : MeasUnit) : MeasUnit :=
  { u with line := some { openTick := 10000, openCount := 20, activeEnd := some 10290 } }

theorem scene_trackerLaw : TrackerLaw scene := trackerLaw_of_ok _ (by decide +kernel)

theorem scene_catalogLaw : CatalogLaw scene :=
  catalogLaw_of_ok _ (by decide +kernel) (by decide +kernel) (by decide +kernel)
    (by decide +kernel)

theorem scene_linkLaw : LinkLaw scene := linkLaw_of_ok _ (by decide +kernel)

theorem scene_ready : commandReady scene := ⟨rfl, by decide +kernel, rfl⟩

/-! ### A state that meets every law -/

/-- `scene` with a probe's pass in flight and the mailbox in WAITING, and NOP next in the queue. -/
def lawScene : State :=
  { scenePass (probePass foundSlot1) with
    pending := [.nop]
    mailbox :=
      { scene.mailbox with
        state := .waiting, command := 0x08
        accepted := some { code := 0x08, args := scene.mailbox.args, image := none } }
    port := { scene.port with snapshot := snapshotOf scene (some (.catalogEntry 0)) } }

theorem resetUnit_law : resetUnit.law := by
  simp [MeasUnit.law, resetUnit, isRunning, isOpenState]

theorem publishingUnit_law : publishingUnit.law := by
  simp [MeasUnit.law, publishingUnit, resetUnit, isRunning, isOpenState, sourceRing, openPeriod,
    Line.legal, SyncSet.legal, sourceSet, noFaults]

theorem lawScene_unitLaw : UnitLaw lawScene := by
  intro n
  match n with
  | 0 => exact resetUnit_law
  | 1 => exact resetUnit_law
  | 2 => exact publishingUnit_law
  | 3 => exact resetUnit_law
  | 4 => exact resetUnit_law
  | 5 => exact resetUnit_law

theorem lawScene_binding (n : InputIx) :
    (lawScene.tracker n).binding = if n = 2 then some sourceBinding else none := by
  revert n; decide +kernel

theorem lawScene_bindingLaw : BindingLaw lawScene := by
  refine ⟨?_, ?_, by decide +kernel, ?_⟩
  · intro n b hb
    rw [lawScene_binding] at hb
    split at hb
    · cases hb; decide +kernel
    · cases hb
  · intro n r hr
    have hn : ∀ n, (lawScene.tracker n).recallRef = none := by decide +kernel
    rw [hn] at hr; cases hr
  · rintro p hp -
    have hq : lawScene.classifier.pass = some (probePass foundSlot1) := by decide +kernel
    rw [hq] at hp; cases hp
    exact ⟨fun t ht c hc => by cases ht; simp [foundSlot1] at hc; subst hc; decide +kernel,
      fun i g hv => by cases hv⟩

theorem lawScene_mailboxLaw : MailboxLaw lawScene := by
  have hq : lawScene.classifier.pass = some (probePass foundSlot1) := by decide +kernel
  have hr : lawScene.request probeRequester = none := by decide +kernel
  have ha : lawScene.mailbox.state = .waiting := rfl
  have hc : probePassCurrent lawScene := ⟨_, hq, rfl, rfl⟩
  refine ⟨by decide +kernel, fun _ _ h => (by rw [ha] at h; cases h), fun _ h _ => (by cases h; rfl),
    fun _ => ⟨rfl, by decide +kernel⟩, fun h => (by rw [ha] at h; cases h), ?_, ?_,
    fun _ h => (by rw [hr] at h; cases h), ?_, ?_⟩
  · exact ⟨fun _ => .inr hc, fun _ => ha⟩
  · rintro ⟨h, -⟩; rw [hr] at h; cases h
  · intro p hp _; rw [hq] at hp; cases hp; rfl
  · intro p hp _ _; rw [hq] at hp; cases hp; exact ⟨rfl, rfl⟩

/-- The laws hold together in a state with entries, a binding, an open period and a pass, so none of
the invariants rests on an empty premise. -/
theorem lawScene_meets_every_law :
    CatalogLaw lawScene ∧ GateLaw lawScene ∧ TrackerLaw lawScene ∧ UnitLaw lawScene
      ∧ LinkLaw lawScene ∧ BindingLaw lawScene ∧ MailboxLaw lawScene ∧ ViewLaw lawScene := by
  refine ⟨catalogLaw_of_ok _ (by decide +kernel) (by decide +kernel) (by decide +kernel)
    (by decide +kernel), ⟨by decide, by decide, by decide, by decide⟩,
    trackerLaw_of_ok _ (by decide +kernel), lawScene_unitLaw, linkLaw_of_ok _ (by decide +kernel),
    lawScene_bindingLaw, lawScene_mailboxLaw, ?_⟩
  show _ → _
  decide +kernel

theorem lawScene_steps : ∃ t, step lawScene = .next t := ⟨_, rfl⟩

/-! ### Witnesses: the port and the data bytes -/

theorem witness_StepRunsFrontCommand :
    lawScene.pending = .nop :: [] ∧ State.reset.pending = [] := ⟨rfl, rfl⟩

/-- The other address; a write at its pointer byte; reads at 0x7F, 0x81 and across 0xFF; a catalog whose
count fits its byte. -/
theorem witness_SerialBytesReadWindow :
    (0x3B : BitVec 7) ≠ State.reset.port.address
      ∧ (sceneAt 0x7F).port.pointer ≠ 0x80 ∧ (sceneAt 0x81).port.pointer ≠ 0x80
      ∧ (sceneAt 0x7E).port.pointer + 1 ≠ 0x80 ∧ (sceneAt 0xFF).port.pointer + 1 ≠ 0x80
      ∧ (∃ s : State, s.port.bus = .pointerNext)
      ∧ (∃ s : State, s.port.bus = .sending 0xE6 ∧ s.port.pointer + 1 ≠ 0x80)
      ∧ scene.catalog.occupancy ≤ 64 :=
  ⟨by decide, by decide +kernel, by decide +kernel, by decide +kernel, by decide +kernel,
    ⟨{ scene with port := { scene.port with bus := .pointerNext } }, rfl⟩,
    ⟨{ scene with port := { scene.port with bus := .sending 0xE6 } }, rfl, by decide +kernel⟩,
    by decide +kernel⟩

/-- Both events at which the byte at 0x80 is taken; a published set and none; a binding and none; a
last-loss record with a recall reference, and neither. -/
theorem witness_ReadOfViewStartLatches :
    (sceneAt 0x80).port.pointer = 0x80
      ∧ (∃ s : State, s.port.bus = .sending 0 ∧ s.port.pointer = 0x7F)
      ∧ ((scene.unit 2).lastSet = some (sourceSet 3 1125) ∧ (sourceSet 3 1125).sync.legal
        ∧ (scene.unit 0).lastSet = none)
      ∧ ((scene.tracker 2).binding = some sourceBinding ∧ sourceBinding.ambiguity ≤ 64
        ∧ sourceBinding.candidates.length ≤ 4 ∧ (scene.tracker 0).binding = none
        ∧ (scene.tracker 2).settleCounter ≤ 15 ∧ (scene.tracker 2).coast ≤ 15)
      ∧ let x := { resetTracker with lastLoss := some ⟨.deviated, 1, 1⟩, recallRef := some ⟨1, 1⟩ };
        (((sceneTracker x).tracker 2).lastLoss = some ⟨.deviated, 1, 1⟩
          ∧ ((sceneTracker x).tracker 2).recallRef = some ⟨1, 1⟩)
        ∧ (scene.tracker 2).lastLoss = none ∧ (scene.tracker 2).recallRef = none :=
  ⟨rfl, ⟨{ scene with port := { scene.port with bus := .sending 0, pointer := 0x7F } }, rfl, rfl⟩,
    ⟨rfl, by simp [SyncSet.legal, sourceSet], rfl⟩,
    ⟨rfl, by decide, by decide, rfl, by decide +kernel, by decide +kernel⟩, ⟨rfl, rfl⟩, rfl, rfl⟩

/-- The last good and the first bad index of each kind, and the first bad kind (R201). -/
theorem test_selector_boundaries :
    selectedRecord 0 63 = some (.catalogEntry 63) ∧ selectedRecord 0 64 = none
      ∧ selectedRecord 1 5 = some (.inputStatus 5) ∧ selectedRecord 1 6 = none
      ∧ selectedRecord 2 5 = some (.measurement 5) ∧ selectedRecord 2 6 = none
      ∧ selectedRecord 3 0 = none := by decide

/-- A command with the pointer away from the view, one with it at 0x80 after a burst of staging bytes
(T1 of section 10.8), one while bytes are sent with it at 0x7F, and an address byte for another part
with it at 0x80. -/
theorem witness_SinceLatchFollowsRecord :
    scene.port.follows = some (.catalogEntry 0)
      ∧ (∃ t, exec .commit scene = .next t) ∧ (∀ adr, Instr.commit ≠ .powerOnReset adr)
      ∧ (sceneAt 0x80).port.follows = some (.catalogEntry 0)
      ∧ (sceneAt 0x80).port.pointer = 0x80
      ∧ (∃ t, exec .classifierStep (sceneAt 0x80) = .next t)
      ∧ Instr.classifierStep ≠ .addressByte (sceneAt 0x80).port.address .read
      ∧ Instr.classifierStep ≠ .viewLatch (.addressByte (sceneAt 0x80).port.address)
      ∧ Instr.addressByte 0x3B .read ≠ .addressByte (sceneAt 0x80).port.address .read
      ∧ (let s := { sceneAt 0x7F with port := { (sceneAt 0x7F).port with bus := .sending 0 } };
        s.port.follows = some (.catalogEntry 0) ∧ s.port.bus = .sending 0 ∧ s.port.pointer = 0x7F)
      ∧ Instr.byteSent false ≠ .byteSent true
      ∧ Instr.byteSent false ≠ .viewLatch .hostAcknowledge :=
  ⟨rfl, ⟨_, rfl⟩, fun _ => nofun, rfl, rfl, ⟨_, rfl⟩, nofun, nofun, by decide, ⟨rfl, rfl, rfl⟩,
    by decide, nofun⟩

/-- The first and the last position of each clause (R206). -/
theorem witness_PlainPositionsStoreOrIgnore :
    scene.port.bus = .dataNext
      ∧ windowPos 0x42 = .argument 0 ∧ windowPos 0x49 = .argument 7
      ∧ windowPos 0x00 = .identity ∧ windowPos 0x01 = .revision ∧ windowPos 0x04 = .summary
      ∧ windowPos 0x07 = .occupancy ∧ windowPos 0x08 = .classifierStatus
      ∧ windowPos 0x4A = .resultCode ∧ windowPos 0xBF = .sinceLatch
      ∧ (∀ p : Byte, p ∈ ([0x09, 0x0F, 0x1C, 0x1F, 0x38, 0x3F, 0xC0, 0xFF] : List Byte) →
          windowPos p = .unassigned)
      ∧ windowPos 0x4B = .resultData 0 ∧ windowPos 0x5F = .resultData 20
      ∧ windowPos 0x80 = .view 0 ∧ windowPos 0xBE = .view 62
      ∧ windowPos 0x28 = .enable 2 ∧ (0x01 : Byte).getLsbD 0 = (scene.config 2).enabled
      ∧ windowPos 0x41 = .mailboxState ∧ scene.mailbox.state = .empty
      ∧ windowPos 0x05 = .viewKind ∧ windowPos 0x06 = .viewIndex
      ∧ windowPos 0x60 = .staging 0 ∧ windowPos 0x7F = .staging 31 := by
  decide +kernel

theorem witness_NoticeAndMaskBytes :
    scene.port.bus = .dataNext
      ∧ windowPos 0x10 = .notices 0 ∧ windowPos 0x1A = .notices 5
      ∧ windowPos 0x02 = .globalNotices
      ∧ windowPos 0x11 = .masks 0 ∧ windowPos 0x1B = .masks 5 ∧ windowPos 0x03 = .globalMasks := by
  decide +kernel

theorem witness_ConfigurationBytesStore :
    scene.port.bus = .dataNext
      ∧ windowPos 0x22 = .glitch 0 ∧ windowPos 0x36 = .glitch 5
      ∧ windowPos 0x23 = .faultEnables 0 ∧ windowPos 0x37 = .faultEnables 5
      ∧ windowPos 0x21 = .settleCoast 0 ∧ windowPos 0x35 = .settleCoast 5 := by
  decide +kernel

/-- A disabled input; a bound one, and one without a binding. -/
theorem witness_EnableBitStartsAndStopsInput :
    (TrackerLaw (sceneAt 0x20) ∧ (sceneAt 0x20).port.bus = .dataNext
      ∧ windowPos (sceneAt 0x20).port.pointer = .enable 0 ∧ (0x01 : Byte).getLsbD 0 = true
      ∧ ((sceneAt 0x20).config 0).enabled = false)
    ∧ (TrackerLaw (sceneAt 0x28) ∧ (sceneAt 0x28).port.bus = .dataNext
      ∧ windowPos (sceneAt 0x28).port.pointer = .enable 2 ∧ (0x00 : Byte).getLsbD 0 = false
      ∧ ((sceneAt 0x28).config 2).enabled = true
      ∧ ((sceneAt 0x28).tracker 2).binding = some sourceBinding)
    ∧ TrackerLaw ((sceneAt 0x28).withTracker 2 settlingTracker)
      ∧ (((sceneAt 0x28).withTracker 2 settlingTracker).config 2).enabled = true
      ∧ (((sceneAt 0x28).withTracker 2 settlingTracker).tracker 2).binding = none :=
  ⟨⟨trackerLaw_of_ok _ (by decide +kernel), rfl, by decide +kernel, by decide, by decide +kernel⟩,
    ⟨trackerLaw_of_ok _ (by decide +kernel), rfl, by decide +kernel, by decide, by decide +kernel,
    by decide +kernel⟩,
    trackerLaw_of_ok _ (by decide +kernel), by decide +kernel, by decide +kernel⟩

/-! ### Witnesses: the mailbox and the catalog -/

/-- `sceneMailbox` at the state byte, with a pass in flight or a probe's request waiting. -/
def stateByteScene (x : MailboxState) (p : Option Pass) (q : Option Request) : State :=
  (({ sceneMailbox x with port := { scene.port with pointer := 0x41 } }).withPass p).withRequest
    probeRequester q

/-- A probe's request. -/
def sourceProbe : Request :=
  { kind := .search, set := .probe (sourceSet 3 1125).sync, seq := none }

theorem witness_StateByteAcknowledgesOrWithdraws :
    windowPos 0x41 = .mailboxState
      ∧ (stateByteScene .done none none).port.bus = .dataNext
      ∧ (stateByteScene .done none none).port.pointer = 0x41
      ∧ (stateByteScene .done none none).mailbox.state = .done
      ∧ (stateByteScene .empty none none).mailbox.state = .empty
      ∧ (stateByteScene .held (some (verifyPass true 1)) none).mailbox.state = .held
      ∧ (stateByteScene .held (some (verifyPass true 1)) none).classifier.pass ≠ none
      ∧ (stateByteScene .waiting none (some sourceProbe)).mailbox.state = .waiting
      ∧ ((stateByteScene .waiting none (some sourceProbe)).request probeRequester).isSome
      ∧ (stateByteScene .waiting (some (probePass foundSlot1)) none).mailbox.state = .waiting
      ∧ (stateByteScene .waiting (some (probePass foundSlot1)) none).request probeRequester = none
      ∧ (stateByteScene .waiting (some (probePass foundSlot1)) none).classifier.pass =
          some (probePass foundSlot1)
      ∧ (probePass foundSlot1).requester = probeRequester := by
  decide +kernel

theorem witness_OverrunNopAndUnknownCodes :
    ((sceneMailbox .done).port.bus = .dataNext
      ∧ windowPos (sceneMailbox .done).port.pointer = .command
      ∧ (sceneMailbox .done).mailbox.state ≠ .empty)
    ∧ commandReady scene ∧ (Instr.unknownCommand 0x0D).wellFormed = true :=
  ⟨by decide +kernel, scene_ready, rfl⟩

/-- The slot arguments 0, 63 and 64, a tag in use and one not in use. -/
theorem witness_CatalogReadsReport :
    commandReady scene ∧ CatalogLaw scene
      ∧ commandReady (sceneArg 0) ∧ ((sceneArg 0).mailbox.args[0]).toNat = (0 : SlotIx).val
      ∧ commandReady (sceneArg 63) ∧ ((sceneArg 63).mailbox.args[0]).toNat = (63 : SlotIx).val
      ∧ commandReady (sceneArg 64) ∧ 64 ≤ ((sceneArg 64).mailbox.args[0]).toNat
      ∧ (720, (0 : SlotIx)) ∈ scene.catalog.tagMap ∧ ∀ i, (1, i) ∉ scene.catalog.tagMap :=
  ⟨scene_ready, scene_catalogLaw, ⟨rfl, by decide +kernel, rfl⟩, by decide +kernel,
    ⟨rfl, by decide +kernel, rfl⟩, by decide +kernel, ⟨rfl, by decide +kernel, rfl⟩,
    by decide +kernel, by decide +kernel, by decide +kernel⟩

theorem witness_EntryImageReadsBack :
    (scene.slot 0).state ≠ .free ∧ (scene.slot 0).entry.legal ∧ (scene.slot 0).bindCount ≤ 6 :=
  ⟨by decide +kernel, entry_legal_of_ok _ (by decide +kernel), by decide +kernel⟩

/-- The 32 bytes of section 10.8. -/
def image600 : Vector Byte 32 :=
  padTo 32 [0x00, 0x00, 0x00, 0x04, 0x58, 0x02, 0x72, 0x10, 0x8E, 0x10, 0x73, 0x02, 0x75, 0x02,
    0x00, 0x15]

/-- `scene` with an image staged and a slot argument. -/
def stagedScene (img : Vector Byte 32) (arg : Byte) : State :=
  { sceneArg arg with port := { scene.port with staging := img } }

theorem image600_passes : fieldsPass image600 := by
  have h : ∀ c, c ≤ 16 → fieldFails image600 c = false := by decide +kernel
  exact h

/-- The free slot 3 and the occupied slot 2, which holds the tag itself. -/
theorem witness_CommitInstallsEntry :
    CatalogLaw (stagedScene image600 2) ∧ commandReady (stagedScene image600 2)
      ∧ (stagedScene image600 2).classifier.gate = .opened
      ∧ ((stagedScene image600 2).mailbox.args[0]).toNat = (2 : SlotIx).val
      ∧ fieldsPass (stagedScene image600 2).port.staging
      ∧ ∀ j, ((stagedEntry (stagedScene image600 2).port.staging).tag, j)
          ∈ (stagedScene image600 2).catalog.tagMap → j = 2 :=
  ⟨catalogLaw_of_ok _ (by decide +kernel) (by decide +kernel) (by decide +kernel)
    (by decide +kernel), ⟨rfl, by decide +kernel, rfl⟩, rfl, by decide +kernel,
    image600_passes, by decide +kernel⟩

/-- The three refusals: slot 64; the tag 0, the rank 16, an h_period window from 1279, and a
presentation block whose first pixel lies one past the end, each the first check it fails; and the
tag of slot 2 for slot 3. -/
theorem witness_CommitRefusalsChangeNothing :
    CatalogLaw (stagedScene image600 3) ∧ commandReady (stagedScene image600 3)
      ∧ (stagedScene image600 3).classifier.gate = .opened
      ∧ commitRefused 64 image600 (stagedScene image600 64) .badSlot []
      ∧ firstFieldFailing (image600.set 4 0 |>.set 5 0) 1
      ∧ firstFieldFailing (image600.set 3 16) 2
      ∧ firstFieldFailing (image600.set 6 0xFF |>.set 7 0x04) 3
      ∧ firstFieldFailing
          ((((((image600.set 14 0x10).set 22 100).set 24 60).set 26 50).set 28 41)) 15
      ∧ (∀ c, firstFieldFailing (image600.set 3 16) c →
          commitRefused 63 (image600.set 3 16) (stagedScene image600 63) .badRecord [loByte c])
      ∧ commitRefused 3 image600 (stagedScene image600 3) .duplicateTag [slotByte 2] :=
  ⟨catalogLaw_of_ok _ (by decide +kernel) (by decide +kernel) (by decide +kernel)
    (by decide +kernel), ⟨rfl, by decide +kernel, rfl⟩, rfl, .inl ⟨by decide, rfl, rfl⟩,
    ⟨by decide +kernel, by decide +kernel⟩, ⟨by decide +kernel, by decide +kernel⟩,
    ⟨by decide +kernel, by decide +kernel⟩, ⟨by decide +kernel, by decide +kernel⟩,
    fun c h => .inr (.inl ⟨by decide, rfl, c, h, rfl⟩),
    .inr (.inr ⟨by decide, image600_passes, rfl, 2, by decide +kernel, by decide, rfl⟩)⟩

/-- `scene` with the gate closed. -/
def closedScene : State :=
  { scene with classifier := { scene.classifier with gate := .closed } }

theorem witness_ClosedGateHoldsCatalogChanges :
    commandReady closedScene ∧ closedScene.classifier.gate = .closed
      ∧ (Instr.clearCatalog, (0x06 : Byte)) ∈
        [(Instr.commit, 0x01), (.suspend, 0x03), (.resume, 0x04), (.retire, 0x05),
          (.clearCatalog, (0x06 : Byte))] :=
  ⟨⟨rfl, by decide +kernel, rfl⟩, rfl, by decide⟩

/-- `scene` with slot 1 SUSPENDED. -/
def suspendedScene : State := scene.withSlot 1 { scene.slot 1 with state := .suspended }

/-- An ACTIVE and a SUSPENDED slot for each command, and the argument 64. -/
theorem witness_SuspendAndResumeToggle :
    commandReady scene ∧ scene.classifier.gate = .opened
      ∧ (scene.mailbox.args[0]).toNat = (1 : SlotIx).val ∧ (scene.slot 1).state = .active
      ∧ commandReady suspendedScene ∧ suspendedScene.classifier.gate = .opened
      ∧ (suspendedScene.mailbox.args[0]).toNat = (1 : SlotIx).val
      ∧ (suspendedScene.slot 1).state = .suspended
      ∧ commandReady (sceneArg 64) ∧ 64 ≤ ((sceneArg 64).mailbox.args[0]).toNat :=
  ⟨scene_ready, rfl, by decide +kernel, by decide +kernel, ⟨rfl, by decide +kernel, rfl⟩, rfl,
    by decide +kernel, by decide +kernel, ⟨rfl, by decide +kernel, rfl⟩, by decide +kernel⟩

/-- `scene` with another input's verify in flight. -/
def busyScene : State := scenePass { verifyPass true 1 with requester := 4 }

/-- A bound slot with and without a pass in flight, a FREE slot and the argument 64. -/
theorem witness_RetireFreesSlot :
    TrackerLaw scene ∧ commandReady scene ∧ scene.classifier.gate = .opened
      ∧ (scene.mailbox.args[0]).toNat = (1 : SlotIx).val ∧ (scene.slot 1).state ≠ .free
      ∧ (scene.tracker 2).binding = some sourceBinding ∧ sourceBinding.slot = 1
      ∧ (scene.tracker 2).held = some (sourceSet 3 1125)
      ∧ boundTo (scene.tracker 0) 1 = false
      ∧ TrackerLaw busyScene ∧ commandReady busyScene ∧ busyScene.classifier.gate = .opened
      ∧ busyScene.classifier.pass = some { verifyPass true 1 with requester := 4 }
      ∧ (∀ n, (0 : Requester) = inputRequester n → boundTo (busyScene.tracker n) 1 = false)
      ∧ ((sceneArg 3).mailbox.args[0]).toNat = (3 : SlotIx).val
      ∧ ((sceneArg 3).slot 3).state = .free
      ∧ 64 ≤ ((sceneArg 64).mailbox.args[0]).toNat :=
  ⟨scene_trackerLaw, scene_ready, rfl, by decide +kernel, by decide +kernel, by decide +kernel,
    rfl, by decide +kernel, by decide +kernel, trackerLaw_of_ok _ (by decide +kernel),
    ⟨rfl, by decide +kernel, rfl⟩, rfl, by decide +kernel, by decide +kernel, by decide +kernel,
    by decide +kernel, by decide +kernel⟩

theorem witness_ClearCatalogFreesEverySlot :
    TrackerLaw busyScene ∧ commandReady busyScene ∧ busyScene.classifier.gate = .opened
      ∧ (busyScene.tracker 2).binding = some sourceBinding
      ∧ (busyScene.tracker 2).held = some (sourceSet 3 1125)
      ∧ (busyScene.tracker 0).binding = none
      ∧ busyScene.classifier.pass = some { verifyPass true 1 with requester := 4 } :=
  ⟨trackerLaw_of_ok _ (by decide +kernel), ⟨rfl, by decide +kernel, rfl⟩, rfl, by decide +kernel,
    by decide +kernel, by decide +kernel, by decide +kernel⟩

/-- The arguments of a probe of h_period `p`, h_width `w`, v_lines `l`, v_width 5 and flags `f`. -/
def probeArgs (p w l : Nat) (f : Byte) : Vector Byte 8 :=
  padTo 8 [loByte p, hiByte p, loByte w, hiByte w, loByte l, hiByte l, 0x05, f]

/-- The ends of the ranges pass; one past each end fails with its code (R171). -/
theorem witness_ProbePlacesRequest :
    commandReady scene
      ∧ ((probeSet (probeArgs 1280 1279 16 15)).legal
          ∧ ((probeArgs 1280 1279 16 15)[7]).toNat ≤ 15)
      ∧ ((probeSet (probeArgs 65528 0 4095 0)).legal
          ∧ ((probeArgs 65528 0 4095 0)[7]).toNat ≤ 15)
      ∧ (probeSet (probeArgs 1279 0 16 0)).hPeriod < 1280
      ∧ 65528 < (probeSet (probeArgs 65529 0 16 0)).hPeriod
      ∧ (probeSet (probeArgs 1280 1280 16 0)).hPeriod ≤ (probeSet (probeArgs 1280 1280 16 0)).hWidth
      ∧ (probeSet (probeArgs 1280 0 15 0)).vLines < 16
      ∧ 4095 < (probeSet (probeArgs 1280 0 4096 0)).vLines
      ∧ 15 < ((probeArgs 1280 0 16 16)[7]).toNat :=
  ⟨scene_ready, ⟨⟨by decide +kernel, by decide +kernel, by decide +kernel, by decide +kernel,
    by decide +kernel, by decide +kernel⟩, by decide +kernel⟩,
    ⟨⟨by decide +kernel, by decide +kernel, by decide +kernel, by decide +kernel,
    by decide +kernel, by decide +kernel⟩, by decide +kernel⟩,
    by decide +kernel, by decide +kernel, by decide +kernel, by decide +kernel,
    by decide +kernel, by decide +kernel⟩

/-- `sceneTracker` with input 2 as the argument. -/
def inputScene (t : Tracker) : State :=
  { sceneTracker t with mailbox := { scene.mailbox with args := resetMailbox.args.set 0 2 } }

/-- A bound input, an unmatched one, one in FAULT, and the argument 6. -/
theorem witness_RebindClassifiesAgain :
    (TrackerLaw (sceneArg 2) ∧ commandReady (sceneArg 2)
      ∧ ((sceneArg 2).mailbox.args[0]).toNat = (2 : InputIx).val
      ∧ ((sceneArg 2).tracker 2).binding = some sourceBinding
      ∧ ((sceneArg 2).unit 2).lastSet = some (sourceSet 3 1125))
    ∧ (TrackerLaw (inputScene unmatchedTracker) ∧ commandReady (inputScene unmatchedTracker)
      ∧ ((inputScene unmatchedTracker).mailbox.args[0]).toNat = (2 : InputIx).val
      ∧ ((inputScene unmatchedTracker).tracker 2).state = .unmatched
      ∧ ((inputScene unmatchedTracker).tracker 2).held = some (sourceSet 3 1125))
    ∧ (TrackerLaw (inputScene faultTracker) ∧ commandReady (inputScene faultTracker)
      ∧ ((inputScene faultTracker).tracker 2).state ∈
        [TrackerState.idle, .silent, .settling, .pending, .fault])
    ∧ TrackerLaw (sceneArg 6) ∧ commandReady (sceneArg 6)
      ∧ 6 ≤ ((sceneArg 6).mailbox.args[0]).toNat :=
  ⟨⟨trackerLaw_of_ok _ (by decide +kernel), ⟨rfl, by decide +kernel, rfl⟩, by decide +kernel,
    by decide +kernel, by decide +kernel⟩,
    ⟨trackerLaw_of_ok _ (by decide +kernel), ⟨rfl, by decide +kernel, rfl⟩, by decide +kernel,
    by decide +kernel, by decide +kernel⟩,
    ⟨trackerLaw_of_ok _ (by decide +kernel), ⟨rfl, by decide +kernel, rfl⟩, by decide +kernel⟩,
    trackerLaw_of_ok _ (by decide +kernel), ⟨rfl, by decide +kernel, rfl⟩, by decide +kernel⟩

theorem witness_ClearFaultRestartsDetection :
    (TrackerLaw (inputScene faultTracker) ∧ commandReady (inputScene faultTracker)
      ∧ ((inputScene faultTracker).mailbox.args[0]).toNat = (2 : InputIx).val
      ∧ ((inputScene faultTracker).tracker 2).state = .fault)
    ∧ (TrackerLaw (sceneArg 2) ∧ commandReady (sceneArg 2)
      ∧ ((sceneArg 2).tracker 2).state ≠ .fault)
    ∧ TrackerLaw (sceneArg 6) ∧ commandReady (sceneArg 6)
      ∧ 6 ≤ ((sceneArg 6).mailbox.args[0]).toNat :=
  ⟨⟨trackerLaw_of_ok _ (by decide +kernel), ⟨rfl, by decide +kernel, rfl⟩, by decide +kernel,
    by decide +kernel⟩,
    ⟨trackerLaw_of_ok _ (by decide +kernel), ⟨rfl, by decide +kernel, rfl⟩, by decide +kernel⟩,
    trackerLaw_of_ok _ (by decide +kernel), ⟨rfl, by decide +kernel, rfl⟩, by decide +kernel⟩

theorem witness_RestartCoreResetsTracking : commandReady scene := scene_ready

/-- A held COMMIT of the image of section 10.8 to slot 2. -/
def heldCopy : Accepted :=
  { code := 0x01, args := resetMailbox.args.set 0 2, image := some image600 }

/-- `scene` with that command held and another image staged since. -/
def heldScene : State :=
  { scene with
    mailbox := { scene.mailbox with state := .held, command := 0x01, accepted := some heldCopy } }

/-- A held change with the copy given, the gate open and another input's first start in flight or
none. -/
def heldCopyScene (code arg : Byte) (p : Option Pass) : State :=
  { scene.withPass p with
    mailbox :=
      { scene.mailbox with
        state := .held, command := code
        accepted := some { code := code, args := resetMailbox.args.set 0 arg, image := none } } }

/-- A held COMMIT that passes its checks and one that is refused; SUSPEND of an ACTIVE, RESUME of the
same, and the argument 64; RETIRE of a slot with a bound input, of a FREE one and of 64;
CLEAR_CATALOG, in both orders with the following grant. -/
theorem witness_HeldChangesExecuteFromCopy :
    (CatalogLaw heldScene ∧ heldScene.mailbox.state = .held
      ∧ heldScene.classifier.gate = .opened ∧ heldScene.mailbox.accepted = some heldCopy
      ∧ heldCopy.code = 0x01 ∧ heldCopy.image = some image600
      ∧ (heldCopy.args[0]).toNat = (2 : SlotIx).val ∧ fieldsPass image600
      ∧ (∀ j, ((stagedEntry image600).tag, j) ∈ heldScene.catalog.tagMap → j = 2)
      ∧ commitRefused 3 image600 heldScene .duplicateTag [slotByte 2])
    ∧ (∀ code ∈ ([0x03, 0x04, 0x05, 0x06] : List Byte),
      ∀ p ∈ [none, some { verifyPass true 1 with requester := 4 }],
        (heldCopyScene code 1 p).mailbox.state = .held
          ∧ (heldCopyScene code 1 p).classifier.gate = .opened
          ∧ ((heldCopyScene code 1 p).mailbox.accepted.map Accepted.code) = some code
          ∧ ((heldCopyScene code 1 p).slot 1).state = .active
          ∧ ((heldCopyScene code 1 p).tracker 2).binding = some sourceBinding)
    ∧ TrackerLaw (heldCopyScene 0x05 1 none)
    ∧ ((resetMailbox.args.set 0 (1 : Byte))[0]).toNat = (1 : SlotIx).val
    ∧ ((resetMailbox.args.set 0 (3 : Byte))[0]).toNat = (3 : SlotIx).val
    ∧ ((heldCopyScene 0x05 3 none).slot 3).state = .free
    ∧ 64 ≤ ((resetMailbox.args.set 0 (64 : Byte))[0]).toNat :=
  ⟨⟨catalogLaw_of_ok _ (by decide +kernel) (by decide +kernel) (by decide +kernel)
    (by decide +kernel), rfl, rfl, rfl, rfl, rfl, by decide +kernel, image600_passes,
    by decide +kernel,
    .inr (.inr ⟨by decide, image600_passes, rfl, 2, by decide +kernel, by decide, rfl⟩)⟩,
    by decide +kernel, trackerLaw_of_ok _ (by decide +kernel), by decide +kernel,
    by decide +kernel, by decide +kernel, by decide +kernel⟩

/-! ### Witnesses: matching and the classifier -/

/-- Slot 0 and slot 63, a slot that fits and one that does not, with an empty tally and with one
whose top rank is below, equal and above. -/
theorem witness_SearchStepUpdatesTally :
    (scenePass (searchPass 0 emptyTally)).classifier.pass = some (searchPass 0 emptyTally)
      ∧ (searchPass 0 emptyTally).kind = .search
      ∧ (searchPass 0 emptyTally).position = (0 : SlotIx).val
      ∧ (searchPass 63 foundSlot1).position = (63 : SlotIx).val
      ∧ (searchPass 63 foundSlot1).tally = some foundSlot1
      ∧ candidatesOrdered emptyTally.candidates ∧ candidatesOrdered foundSlot1.candidates
      ∧ (∀ c ∈ foundSlot1.candidates, c.slot < 63) ∧ foundSlot1.candidates.length ≤ 4
      ∧ ¬ ((scene.slot 0).state = .active
          ∧ fits (scene.slot 0).entry (sourceSet 3 1125).sync = true)
      ∧ (scene.slot 1).state = .active
      ∧ fits (scene.slot 1).entry (sourceSet 3 1125).sync = true
      ∧ emptyTally.topRank = none ∧ foundSlot1.topRank = some (scene.slot 1).entry.rank
      ∧ (scene.slot 2).entry.rank < 8 :=
  ⟨rfl, rfl, rfl, rfl, rfl, .nil, List.pairwise_singleton .., by decide +kernel,
    by decide +kernel, by decide +kernel, by decide +kernel, by decide +kernel, rfl,
    by decide +kernel, by decide +kernel⟩

theorem witness_SearchFindsReferenceResult :
    CatalogLaw scene ∧ sourceProbe.kind = .search := ⟨scene_catalogLaw, rfl⟩

/-- A bound verify and a recall verify before their step; the recall reference passes. -/
theorem witness_VerifyStepExaminesOneSlot :
    (scenePass { verifyPass true 1 with position := 0 }).classifier.pass =
        some { verifyPass true 1 with position := 0 }
      ∧ (verifyPass true 1).requester = inputRequester 2
      ∧ ({ verifyPass true 1 with position := 0 } : Pass).position = 0
      ∧ (verifyPass true 1).kind = .verifyBound
      ∧ ({ verifyPass true 1 with kind := .verifyRecall } : Pass).kind = .verifyRecall :=
  ⟨rfl, rfl, rfl, rfl, rfl⟩

theorem witness_ArbitrationRotates :
    let c : Classifier :=
      { resetClassifier with
        requests := resetClassifier.requests.set probeRequester (some sourceProbe), pointer := 5 }
    c.pass = none ∧ ∃ r : Requester, c.requests[r].isSome :=
  ⟨rfl, 6, rfl⟩

/-- `s` at the end of its pass's third start, with the gate closed and a change held. -/
def thirdStart (p : Pass) (s : State) : State :=
  { s with
    classifier := { s.classifier with pass := some { p with start := 3 }, gate := .closed }
    mailbox := heldScene.mailbox }

/-- An input's pass whose tracker has moved on, as first and as third start, and a probe's that was
withdrawn; a current disturbed first start and second start. -/
theorem witness_StaleOrDisturbedPassAtCompletion :
    ((scenePass (searchPass 64 foundSlot1)).classifier.pass = some (searchPass 64 foundSlot1)
      ∧ passLength (searchPass 64 foundSlot1).kind ≤ (searchPass 64 foundSlot1).position
      ∧ requesterInput (searchPass 64 foundSlot1).requester = some 2
      ∧ (searchPass 64 foundSlot1).seq
          ≠ some ((scenePass (searchPass 64 foundSlot1)).tracker 2).reqSeq
      ∧ (thirdStart (searchPass 64 foundSlot1) scene).mailbox.state = .held
      ∧ (searchPass 64 foundSlot1).seq
          ≠ some ((thirdStart (searchPass 64 foundSlot1) scene).tracker 2).reqSeq
      ∧ requesterInput (probePass foundSlot1).requester = none
      ∧ ({ probePass foundSlot1 with probeCurrent := some false } : Pass).probeCurrent
          ≠ some true)
    ∧ ∀ start, start ∈ [1, 2] →
      let p := { verifyPass true 1 with disturbed := true, start := start }
      currentAtEnd p (scenePass p) ∧ p.disturbed = true :=
  ⟨by decide +kernel, fun _ _ => ⟨⟨rfl, Nat.le_refl 1, rfl⟩, rfl⟩⟩

/-- Input 2 in PENDING with a pass in flight. -/
def pendingScene (p : Pass) : State := (sceneTracker pendingTracker).withPass (some p)

theorem pendingScene_trackerLaw (p : Pass) : TrackerLaw (pendingScene p) := by
  have h : TrackerLaw (sceneTracker pendingTracker) := trackerLaw_of_ok _ (by decide +kernel)
  exact h

/-- A search's MATCH and a recall's PASS, at the end of a first start, and the MATCH at the end of a
third with a change held. -/
theorem witness_MatchBindsInput :
    let p := searchPass 64 foundSlot1
    let q : Pass :=
      { p with kind := .verifyRecall, tally := none, verdict := some (.recallPass 1 1) }
    let m : Match := { candidates := [1], ambiguity := 1, overflow := false, generation := 1 }
    currentAtEnd p (pendingScene p) ∧ p.disturbed = false
      ∧ p.requester = inputRequester 2
      ∧ ((pendingScene p).tracker 2).state = .pending ∧ TrackerLaw (pendingScene p)
      ∧ passResult p = .matched m ∧ m.candidates = 1 :: []
      ∧ currentAtEnd q (pendingScene q) ∧ passResult q = .recalled m
      ∧ currentAtEnd { p with start := 3 } (thirdStart p (pendingScene p))
      ∧ TrackerLaw (thirdStart p (pendingScene p))
      ∧ (thirdStart p (pendingScene p)).mailbox.state = .held :=
  ⟨⟨rfl, Nat.le_refl 64, rfl⟩, rfl, rfl, rfl, pendingScene_trackerLaw _, rfl, rfl,
    ⟨rfl, by decide +kernel, rfl⟩, rfl, ⟨rfl, Nat.le_refl 64, rfl⟩,
    trackerLaw_of_ok _ (by decide +kernel), rfl⟩

theorem witness_FailedSearchAndRecall :
    let p := searchPass 64 emptyTally
    let q : Pass := { p with kind := .verifyRecall, tally := none, verdict := some .recallFail }
    currentAtEnd p (pendingScene p) ∧ p.disturbed = false
      ∧ p.requester = inputRequester 2
      ∧ ((pendingScene p).tracker 2).state = .pending ∧ TrackerLaw (pendingScene p)
      ∧ passResult p = .noMatch
      ∧ currentAtEnd q (pendingScene q) ∧ passResult q = .recallFailed
      ∧ ((pendingScene q).tracker 2).held = some (sourceSet 3 1125)
      ∧ currentAtEnd { p with start := 3 } (thirdStart p (pendingScene p))
      ∧ TrackerLaw (thirdStart p (pendingScene p)) :=
  ⟨⟨rfl, Nat.le_refl 64, rfl⟩, rfl, rfl, rfl, pendingScene_trackerLaw _, rfl,
    ⟨rfl, by decide +kernel, rfl⟩, rfl, rfl, ⟨rfl, Nat.le_refl 64, rfl⟩,
    trackerLaw_of_ok _ (by decide +kernel)⟩

/-- A scene with the tracker given, settle count `settle`, and a pass in flight. -/
def verifyScene (t : Tracker) (settle : BitVec 4) (p : Pass) : State :=
  ((sceneTracker t).withConfig 2 { boundInput.config with settle := settle }).withPass (some p)

theorem verifyScene_trackerLaw (t : Tracker) (settle : BitVec 4) (p : Pass)
    (h : TrackerLaw (verifyScene t settle (verifyPass true 1))) :
    TrackerLaw (verifyScene t settle p) := h

/-- The rows of the edit check (R142): a PASS in BOUND and in COASTING; a FAIL at the last failure of
the budget, past it with settle counts 3 and 1, and with another generation. -/
theorem witness_EditCheckJudgesVerify :
    (TrackerLaw (verifyScene boundTracker 3 (verifyPass true 1))
      ∧ currentAtEnd (verifyPass true 1) (verifyScene boundTracker 3 (verifyPass true 1))
      ∧ ((verifyScene boundTracker 3 (verifyPass true 1)).tracker 2).binding =
          some sourceBinding
      ∧ ((verifyScene boundTracker 3 (verifyPass true 1)).tracker 2).state = .bound)
    ∧ (TrackerLaw (verifyScene (coastingTracker 2) 3 (verifyPass true 1))
      ∧ currentAtEnd (verifyPass true 1) (verifyScene (coastingTracker 2) 3 (verifyPass true 1))
      ∧ ((verifyScene (coastingTracker 2) 3 (verifyPass true 1)).tracker 2).state = .coasting)
    ∧ passResult (verifyPass true 1) = .bound true 1
    ∧ passResult (verifyPass false 1) = .bound false 1
    ∧ (verifyPass true 1).set = .measured (sourceSet 5 1131)
    ∧ (verifyPass true 1).disturbed = false
    ∧ currentAtEnd { verifyPass true 1 with start := 3 }
        (thirdStart (verifyPass true 1) (verifyScene boundTracker 3 (verifyPass true 1)))
    ∧ (1 : Byte) = sourceBinding.generation ∧ (2 : Byte) ≠ sourceBinding.generation
    ∧ (currentAtEnd (verifyPass false 1)
        (verifyScene (coastingTracker 1) 3 (verifyPass false 1))
      ∧ ((verifyScene (coastingTracker 1) 3 (verifyPass false 1)).tracker 2).coast + 1
          ≤ ((verifyScene (coastingTracker 1) 3 (verifyPass false 1)).config 2).budget.toNat
      ∧ TrackerLaw (verifyScene (coastingTracker 1) 3 (verifyPass false 1)))
    ∧ (((verifyScene (coastingTracker 2) 3 (verifyPass false 1)).config 2).budget.toNat
          < ((verifyScene (coastingTracker 2) 3 (verifyPass false 1)).tracker 2).coast + 1
      ∧ 1 < ((verifyScene (coastingTracker 2) 3 (verifyPass false 1)).config 2).settle.toNat)
    ∧ TrackerLaw (verifyScene (coastingTracker 2) 1 (verifyPass false 1))
    ∧ ((verifyScene (coastingTracker 2) 1 (verifyPass false 1)).config 2).settle.toNat = 1
    ∧ ((verifyScene boundTracker 3 (verifyPass false 2)).config 2).enables.has .noise = true :=
  ⟨⟨trackerLaw_of_ok _ (by decide +kernel), ⟨rfl, Nat.le_refl 1, rfl⟩, rfl, rfl⟩,
    ⟨trackerLaw_of_ok _ (by decide +kernel), ⟨rfl, Nat.le_refl 1, rfl⟩, rfl⟩, rfl, rfl, rfl, rfl,
    ⟨rfl, Nat.le_refl 1, rfl⟩, rfl, by decide,
    ⟨⟨rfl, Nat.le_refl 1, rfl⟩, by decide +kernel, trackerLaw_of_ok _ (by decide +kernel)⟩,
    ⟨by decide +kernel, by decide +kernel⟩, trackerLaw_of_ok _ (by decide +kernel),
    by decide +kernel, rfl⟩

theorem witness_ProbeResultCompletesProbe :
    (currentAtEnd (probePass foundSlot1)
        ((sceneMailbox .waiting).withPass (some (probePass foundSlot1)))
      ∧ (sceneMailbox .waiting).mailbox.state = .waiting
      ∧ passResult (probePass foundSlot1) =
          .matched { candidates := [1], ambiguity := 1, overflow := false, generation := 1 })
    ∧ currentAtEnd (probePass emptyTally)
        ((sceneMailbox .waiting).withPass (some (probePass emptyTally)))
      ∧ passResult (probePass emptyTally) = .noMatch :=
  ⟨⟨⟨rfl, Nat.le_refl 64, rfl⟩, rfl, rfl⟩, ⟨rfl, Nat.le_refl 64, rfl⟩, rfl⟩

theorem witness_ChangeOfStateAndRelease : (scene.tracker 2).binding = some sourceBinding := rfl

/-! ### Witnesses: the sync pins -/

/-- A transition that arrives at a filter that holds none, and one that ends a pulse one tick short
of its window: with a period open, 30 rejections counted, and with none open. -/
theorem witness_PinTransitionWaitsOrIsRejected :
    ((scene.unit 2).state ≠ .off ∧ scene.pinLevel 2 .h ≠ .high
      ∧ (filterOf (scene.unit 2) .h).waiting = none
      ∧ Level.high ≠ (filterOf (scene.unit 2) .h).passed)
    ∧ (let s := (sceneUnit
          { withHEdge 10200 publishingUnit with period := some (openPeriod 30) }).withPin 2 .h .high
      (s.unit 2).state ≠ .off ∧ s.pinLevel 2 .h ≠ .low
        ∧ (filterOf (s.unit 2) .h).waiting = some { tick := 10200, window := 4 }
        ∧ 10203 < 10200 + (4 : BitVec 4).toNat ∧ 10200 ≤ 10203
        ∧ (s.unit 2).period = some (openPeriod 30) ∧ (openPeriod 30).rejections ≠ 31
        ∧ expiryWaited (s.unit 2) 10203 = false)
    ∧ let s := (sceneUnit
          { withHEdge 10200 publishingUnit with
            state := .unprimed, period := none, halfLineRef := none }).withPin 2 .h .high
      (s.unit 2).state ≠ .off ∧ s.pinLevel 2 .h ≠ .low
        ∧ (filterOf (s.unit 2) .h).waiting = some { tick := 10200, window := 4 }
        ∧ (s.unit 2).period = none ∧ expiryWaited (s.unit 2) 10203 = false := by
  decide +kernel

/-- A unit on the separator with 20 lines counted and an H edge waiting since `tick`. -/
def separatorUnit (tick : Nat) : MeasUnit :=
  { withHEdge tick publishingUnit with vQuiet := 4096, lineCounter := 20 }

/-- The line of 296 ticks that an edge at tick 10296 closes. -/
def ordinaryLine : ClosedLine :=
  { line := ⟨296, 5, .positive⟩, broad := false
    start := { count := 1125, tick := 10000, offset := 296 } }

/-- The line of 160 ticks that an edge at tick 10160 closes, a short one. -/
def shortLine : ClosedLine :=
  { line := ⟨160, 5, .positive⟩, broad := false
    start := { count := 1125, tick := 10000, offset := 296 } }

/-- Seven short lines. -/
def shortRun : List Line := List.replicate 7 ⟨160, 5, .positive⟩

/-- The end of an active phase, with the phase still on and already over; the first edge in QUIET; the
first edge after an abandoned line, 160 and 8191 ticks after the last; an edge 159 ticks after the last
with 30 rejections counted, with 255, with no period open, and in QUIET. -/
theorem witness_HTransitionsThatCloseNoLine :
    (let s := sceneUnit
        { publishingUnit with
          hFilter := { passed := .high, waiting := some { tick := 10005, window := 4 } }
          line := some { openTick := 10000, openCount := 1125, activeEnd := none } };
      (s.unit 2).state ≠ .off ∧ (s.unit 2).hFilter.waiting = some { tick := 10005, window := 4 }
        ∧ otherLevel (s.unit 2).hFilter.passed ≠ activeLevel (s.unit 2).hRef)
    ∧ (let s := sceneUnit { withHEdge 10296 resetUnit with state := .quiet, hRef := .positive };
      waitingHEdge (s.unit 2) = some 10296 ∧ (s.unit 2).state = .quiet
        ∧ (s.unit 2).lastHEdge = none)
    ∧ (∀ w ∈ [10160, 18191],
      let s := sceneUnit { withHEdge w publishingUnit with line := none };
      waitingHEdge (s.unit 2) = some w ∧ isRunning (s.unit 2) = true ∧ (s.unit 2).line = none
        ∧ (s.unit 2).lastHEdge = some 10000 ∧ 10000 + 160 ≤ w ∧ w < 10000 + 8192)
    ∧ (∀ r ∈ [30, 255],
      let s := sceneUnit { withHEdge 10159 publishingUnit with period := some (openPeriod r) };
      (s.unit 2).state ≠ .off ∧ waitingHEdge (s.unit 2) = some 10159
        ∧ (s.unit 2).lastHEdge = some 10000 ∧ 10159 < 10000 + 160
        ∧ (s.unit 2).period = some (openPeriod r) ∧ (openPeriod r).rejections ≠ 31)
    ∧ ∀ u ∈ [{ publishingUnit with state := .unprimed, period := none },
        { publishingUnit with state := .quiet, period := none }],
      let s := sceneUnit (withHEdge 10159 u);
      (s.unit 2).state ≠ .off ∧ waitingHEdge (s.unit 2) = some 10159
        ∧ (s.unit 2).lastHEdge = some 10000 ∧ (s.unit 2).period = none := by
  decide +kernel

/-- An active phase shorter than, equal to and longer than the idle one; an ordinary line, with no run
and after one whose period has no width yet; a first and an eighth short line; the first, the second
and a further broad line of a run. -/
theorem witness_LinesEnterRing :
    ((∃ o : OpenLine, o.activeEnd = some 10005 ∧ o.openTick ≤ 10005 ∧ (10005 : Nat) ≤ 10296
      ∧ 10005 - o.openTick < 10296 - 10005)
    ∧ (∃ o : OpenLine, o.activeEnd = some 10148 ∧ o.openTick ≤ 10148 ∧ (10148 : Nat) ≤ 10296
      ∧ 10148 - o.openTick = 10296 - 10148)
    ∧ (∃ o : OpenLine, o.activeEnd = some 10149 ∧ o.openTick ≤ 10149 ∧ (10149 : Nat) ≤ 10296
      ∧ 10296 - 10149 < 10149 - o.openTick))
    ∧ (∀ u ∈ [separatorUnit 10296,
        { separatorUnit 10296 with
          sepRun := 5, sepArmed := false, period := some { openPeriod 0 with width := none } }],
      let s := sceneUnit u;
      isRunning (s.unit 2) = true ∧ waitingHEdge (s.unit 2) = some 10296
        ∧ closingLine (s.unit 2) = some ordinaryLine ∧ ordinaryLine.broad = false
        ∧ 3 * ((s.unit 2).ring.map Line.period).sum ≤ 32 * ordinaryLine.line.period
        ∧ (s.unit 2).vQuiet = 4096 ∧ (s.unit 2).lineCounter < 4095)
    ∧ (∀ l ∈ [[], shortRun],
      let s := sceneUnit { separatorUnit 10160 with shortLines := l };
      isRunning (s.unit 2) = true ∧ waitingHEdge (s.unit 2) = some 10160
        ∧ closingLine (s.unit 2) = some shortLine ∧ shortLine.broad = false
        ∧ 32 * shortLine.line.period < 3 * ((s.unit 2).ring.map Line.period).sum
        ∧ ((s.unit 2).shortLines.length < 7 ∨ (s.unit 2).shortLines.length = 7)
        ∧ (s.unit 2).vQuiet = 4096 ∧ (s.unit 2).lineCounter < 4095)
    ∧ ∀ run ∈ [(0, true), (1, true), (2, false), (3, false), (4094, false)],
      let s := sceneUnit
        { withBroadLine (separatorUnit 10296) with
          sepRun := run.1, sepArmed := run.2, lineCounter := 4094 };
      isRunning (s.unit 2) = true ∧ waitingHEdge (s.unit 2) = some 10296
        ∧ (closingLine (s.unit 2)).map ClosedLine.broad = some true
        ∧ (s.unit 2).vQuiet = 4096 ∧ (s.unit 2).lineCounter < 4095
        ∧ ¬ ((s.unit 2).sepArmed = true ∧ (s.unit 2).sepRun = 2) :=
  ⟨⟨⟨⟨10000, 0, some 10005⟩, by decide +kernel⟩, ⟨⟨10000, 0, some 10148⟩, by decide +kernel⟩,
    ⟨⟨10000, 0, some 10149⟩, by decide +kernel⟩⟩, by decide +kernel, by decide +kernel,
    by decide +kernel⟩

/-- A rising transition of the V pin waiting since tick 10010, with the shortest period that composes
a set: 16 lines. -/
def closingUnit : MeasUnit :=
  { publishingUnit with
    vFilter := { passed := .low, waiting := some { tick := 10010, window := 4 } }
    lineCounter := 16 }

/-- `closingUnit` with the transition waiting out of the active level. -/
def pulseEndUnit : MeasUnit :=
  { closingUnit with
    vFilter := { passed := .high, waiting := some { tick := 10010, window := 4 } } }

theorem vEdge_waits (u : MeasUnit) (hs : isRunning u = true)
    (hv : u.vFilter = closingUnit.vFilter) (hr : u.vRef = .positive) :
    vTransitionWaits u 10010 true := by
  refine ⟨hs, by rw [hv]; rfl, ?_⟩
  rw [hv, hr]; decide

theorem vPulseEnd_waits (u : MeasUnit) (hs : isRunning u = true)
    (hv : u.vFilter = pulseEndUnit.vFilter) (hr : u.vRef = .positive) :
    vTransitionWaits u 10010 false := by
  refine ⟨hs, by rw [hv]; rfl, ?_⟩
  rw [hv, hr]; decide

/-- 16 lines with an opening pulse of 8, exactly half; the edge after the last horizontal edge, and one
between the last two. -/
theorem witness_ClosingEdgePublishesSet :
    (let s := sceneUnit closingUnit;
      (s.unit 2).state = .publishing ∧ (s.unit 2).vQuiet < 4096
        ∧ vTransitionWaits (s.unit 2) 10010 true
        ∧ (s.unit 2).period = some (openPeriod 31) ∧ 16 ≤ (s.unit 2).lineCounter
        ∧ (openPeriod 31).width.getD (s.unit 2).lineCounter
            ≤ (s.unit 2).lineCounter - (openPeriod 31).width.getD (s.unit 2).lineCounter
        ∧ (openPeriod 31).faults.shortFrame = false ∧ (openPeriod 31).faults.polarityFlip = false
        ∧ (s.unit 2).ring.getLast? = some ⟨297, 5, .positive⟩
        ∧ lastEdgeBefore (s.unit 2) 10010 10000 ∧ (s.tracker 2).state = .bound)
    ∧ ({ openPeriod 31 with width := some 8 } : OpenPeriod).width.getD 16 ≤ 16 - 8
    ∧ lastEdgeBefore publishingUnit 9999 9704 :=
  ⟨⟨rfl, by decide +kernel, vEdge_waits _ rfl rfl rfl, rfl, by decide +kernel, by decide +kernel,
    rfl, rfl, by decide +kernel, .inl ⟨rfl, by decide⟩, rfl⟩, by decide,
    .inr ⟨10000, rfl, by decide, rfl⟩⟩

/-- Either transition with the separator as the source; the end of a pulse in an open period; the first
edge in UNPRIMED; the closing edge of a primer of 16 lines. -/
theorem witness_VPinTransitionsWithoutReport :
    (let u := { pulseEndUnit with vQuiet := 4096 };
      vTransitionWaits ((sceneUnit u).unit 2) 10010 false ∧ ((sceneUnit u).unit 2).vQuiet = 4096)
    ∧ (let u := { closingUnit with vQuiet := 4096 };
      vTransitionWaits ((sceneUnit u).unit 2) 10010 true ∧ ((sceneUnit u).unit 2).vQuiet = 4096)
    ∧ (vTransitionWaits ((sceneUnit pulseEndUnit).unit 2) 10010 false
      ∧ ((sceneUnit pulseEndUnit).unit 2).vQuiet < 4096)
    ∧ (let u := { closingUnit with state := .unprimed, period := none, halfLineRef := none };
      vTransitionWaits ((sceneUnit u).unit 2) 10010 true
        ∧ ((sceneUnit u).unit 2).state = .unprimed ∧ ((sceneUnit u).unit 2).vQuiet < 4096)
    ∧ let u := { closingUnit with state := .priming, halfLineRef := none };
      vTransitionWaits ((sceneUnit u).unit 2) 10010 true
        ∧ ((sceneUnit u).unit 2).vQuiet < 4096 ∧ ((sceneUnit u).unit 2).state = .priming
        ∧ ((sceneUnit u).unit 2).period = some (openPeriod 31)
        ∧ 16 ≤ ((sceneUnit u).unit 2).lineCounter
        ∧ (openPeriod 31).width.getD 16 ≤ 16 - (openPeriod 31).width.getD 16
        ∧ lastEdgeBefore ((sceneUnit u).unit 2) 10010 10000 :=
  ⟨⟨vPulseEnd_waits _ rfl rfl rfl, rfl⟩, ⟨vEdge_waits _ rfl rfl rfl, rfl⟩,
    ⟨vPulseEnd_waits _ rfl rfl rfl, by decide +kernel⟩,
    ⟨vEdge_waits _ rfl rfl rfl, rfl, by decide +kernel⟩,
    ⟨vEdge_waits _ rfl rfl rfl, by decide +kernel, rfl, rfl, by decide +kernel, by decide,
    .inl ⟨rfl, by decide⟩⟩⟩

/-- A pulse of 9 of 16 lines; 15 lines with the pulse the shorter and the longer part, bound and in
FAULT; a set withheld for POLARITY_FLIP. -/
theorem witness_ClosingEdgesThatPublishNothing :
    (let p := { openPeriod 31 with width := some 9 };
      let u := { closingUnit with period := some p };
      isOpenState ((sceneUnit u).unit 2).state ∧ ((sceneUnit u).unit 2).vQuiet < 4096
        ∧ vTransitionWaits ((sceneUnit u).unit 2) 10010 true
        ∧ ((sceneUnit u).unit 2).period = some p ∧ 16 ≤ ((sceneUnit u).unit 2).lineCounter
        ∧ ((sceneUnit u).unit 2).lineCounter - p.width.getD 16 < p.width.getD 16)
    ∧ (let u := { closingUnit with lineCounter := 15 };
      TrackerLaw (sceneUnit u) ∧ LinkLaw (sceneUnit u)
        ∧ isOpenState ((sceneUnit u).unit 2).state ∧ ((sceneUnit u).unit 2).vQuiet < 4096
        ∧ vTransitionWaits ((sceneUnit u).unit 2) 10010 true
        ∧ ((sceneUnit u).unit 2).period = some (openPeriod 31)
        ∧ ((sceneUnit u).unit 2).lineCounter < 16
        ∧ TrackerLaw ((sceneUnit u).withTracker 2 faultTracker)
        ∧ LinkLaw ((sceneUnit u).withTracker 2 faultTracker))
    ∧ let p := { openPeriod 31 with faults := { noFaults with polarityFlip := true } };
      let u := { closingUnit with period := some p };
      ((sceneUnit u).unit 2).state = .publishing ∧ ((sceneUnit u).unit 2).vQuiet < 4096
        ∧ vTransitionWaits ((sceneUnit u).unit 2) 10010 true
        ∧ ((sceneUnit u).unit 2).period = some p ∧ 16 ≤ ((sceneUnit u).unit 2).lineCounter
        ∧ p.width.getD 16 ≤ 16 - p.width.getD 16 ∧ p.faults.polarityFlip = true
        ∧ ((sceneUnit u).unit 2).ring.getLast? = some ⟨297, 5, .positive⟩
        ∧ lastEdgeBefore ((sceneUnit u).unit 2) 10010 10000 :=
  ⟨⟨.inr rfl, by decide +kernel, vEdge_waits _ rfl rfl rfl, rfl, by decide +kernel,
    by decide +kernel⟩,
    ⟨trackerLaw_of_ok _ (by decide +kernel), linkLaw_of_ok _ (by decide +kernel), .inr rfl,
    by decide +kernel, vEdge_waits _ rfl rfl rfl, rfl, by decide +kernel,
    trackerLaw_of_ok _ (by decide +kernel), linkLaw_of_ok _ (by decide +kernel)⟩,
    ⟨rfl, by decide +kernel, vEdge_waits _ rfl rfl rfl, rfl, by decide +kernel, by decide, rfl,
    by decide +kernel, .inl ⟨rfl, by decide⟩⟩⟩

/-- A line of the polarity before it, at the last counts before an expiry; one of the other polarity; a
broad one; a short one; and one with no period open. -/
theorem witness_LineUnderVPinIsJudged :
    (let s := sceneUnit { withHEdge 10296 publishingUnit with vQuiet := 4094, lineCounter := 4094 };
      TrackerLaw s ∧ LinkLaw s ∧ isRunning (s.unit 2) = true ∧ (s.unit 2).vQuiet < 4095
        ∧ (s.unit 2).lineCounter < 4095 ∧ waitingHEdge (s.unit 2) = some 10296
        ∧ closingLine (s.unit 2) = some ordinaryLine
        ∧ (s.unit 2).period = some (openPeriod 31)
        ∧ (openPeriod 31).prevPolarity = some ordinaryLine.line.polarity)
    ∧ (let p := { openPeriod 31 with prevPolarity := some .negative };
      p.prevPolarity = some .negative ∧ Polarity.negative ≠ ordinaryLine.line.polarity
        ∧ p.faults.polarityFlip = false)
    ∧ ((closingLine (withBroadLine (withHEdge 10296 publishingUnit))).map ClosedLine.broad
        = some true)
    ∧ (closingLine (withHEdge 10160 publishingUnit) = some shortLine
        ∧ 32 * shortLine.line.period < 3 * (publishingUnit.ring.map Line.period).sum)
    ∧ isRunning { publishingUnit with state := .unprimed, period := none } = true :=
  ⟨⟨trackerLaw_of_ok _ (by decide +kernel), linkLaw_of_ok _ (by decide +kernel), by decide +kernel,
    by decide +kernel, by decide +kernel, by decide +kernel, by decide +kernel, rfl, rfl⟩,
    by decide, by decide +kernel, by decide +kernel, rfl⟩

/-- SETTLING with a count that stays below the settle count 3 and one that reaches it, with and without
a recall reference; PENDING and UNMATCHED with and without the mark, with settle counts 3 and 1; BOUND;
FAULT. -/
theorem witness_PublishedSetsAreTakenByState :
    (TrackerLaw (sceneTracker settlingTracker)
      ∧ ((sceneTracker settlingTracker).tracker 2).state = .settling
      ∧ consistent (sourceSet 2 1125) (sourceSet 3 1125) = true
      ∧ settlingTracker.settleCounter + 1
          = ((sceneTracker settlingTracker).config 2).settle.toNat
      ∧ consistent (sourceSet 2 1125) (sourceSet 3 1131) = false
      ∧ 1 < ((sceneTracker settlingTracker).config 2).settle.toNat
      ∧ TrackerLaw (sceneTracker { settlingTracker with recallRef := some ⟨1, 1⟩ }))
    ∧ (TrackerLaw (sceneTracker pendingTracker) ∧ pendingTracker.state = .pending
      ∧ pendingTracker.held = some (sourceSet 3 1125)
      ∧ consistent (sourceSet 3 1125) (sourceSet 4 1126) = true
      ∧ consistent (sourceSet 3 1125) (sourceSet 4 1127) = false)
    ∧ (TrackerLaw (sceneTracker unmatchedTracker) ∧ unmatchedTracker.state = .unmatched
      ∧ unmatchedTracker.held = some (sourceSet 3 1125) ∧ unmatchedTracker.recheck = true
      ∧ TrackerLaw (sceneTracker { unmatchedTracker with recheck := false }))
    ∧ (TrackerLaw ((sceneTracker pendingTracker).withConfig 2
          { boundInput.config with settle := 1 })
      ∧ (((sceneTracker pendingTracker).withConfig 2
          { boundInput.config with settle := 1 }).config 2).settle.toNat = 1)
    ∧ isBoundState (scene.tracker 2).state ∧ TrackerLaw (sceneTracker faultTracker)
    ∧ faultTracker.state ∈ [TrackerState.idle, .silent, .fault]
    ∧ (let p := { verifyPass true 1 with position := 0, verdict := none };
      let s := { scenePass p with
        classifier := { (scenePass p).classifier with endTick := some 10163 } };
      TrackerLaw s ∧ isBoundState (s.tracker 2).state ∧ s.classifier.pass = some p
        ∧ s.classifier.endTick = some 10163 ∧ s.request (inputRequester 2) = none
        ∧ p.requester = inputRequester 2 ∧ p.seq = some (s.tracker 2).reqSeq ∧ p.start = 1) :=
  ⟨⟨trackerLaw_of_ok _ (by decide +kernel), rfl, by decide +kernel, by decide +kernel,
    by decide +kernel, by decide +kernel, trackerLaw_of_ok _ (by decide +kernel)⟩,
    ⟨trackerLaw_of_ok _ (by decide +kernel), rfl, rfl, by decide, by decide⟩,
    ⟨trackerLaw_of_ok _ (by decide +kernel), rfl, rfl, rfl,
    trackerLaw_of_ok _ (by decide +kernel)⟩,
    ⟨trackerLaw_of_ok _ (by decide +kernel), by decide +kernel⟩, .inl rfl,
    trackerLaw_of_ok _ (by decide +kernel), by decide,
    trackerLaw_of_ok _ (by decide +kernel), .inl rfl, rfl, rfl, rfl, rfl, rfl, rfl⟩

/-- A unit in QUIET with seven lines counted. -/
def gainingUnit : MeasUnit :=
  { withHEdge 10296 resetUnit with
    state := .quiet, hRef := .positive
    lastHEdge := some 10000, prevHEdge := some 9704
    line := some { openTick := 10000, openCount := 0, activeEnd := some 10005 }
    gainLines := List.replicate 7 ⟨296, 5, .positive⟩ }

/-- Input 2 in SILENT with that unit. -/
def gainingScene : State :=
  (sceneTracker { resetTracker with state := .silent, reqSeq := 1 }).withUnit 2 gainingUnit

/-- The first and the seventh line of a count; the eighth. -/
theorem witness_GainCountLeadsToActivity :
    (∀ k ∈ [0, 6],
      let s := gainingScene.withUnit 2
        { gainingUnit with gainLines := List.replicate k ⟨296, 5, .positive⟩ };
      (s.unit 2).state = .quiet ∧ (s.unit 2).gainLines.length < 7
        ∧ waitingHEdge (s.unit 2) = some 10296 ∧ (closingLine (s.unit 2)).isSome)
    ∧ ((gainingScene.unit 2).state = .quiet ∧ (gainingScene.unit 2).gainLines.length = 7
      ∧ waitingHEdge (gainingScene.unit 2) = some 10296
      ∧ (closingLine (gainingScene.unit 2)).isSome
      ∧ (gainingScene.tracker 2).state = .silent ∧ TrackerLaw gainingScene) :=
  ⟨by decide +kernel, rfl, by decide +kernel, by decide +kernel, by decide +kernel, rfl,
    trackerLaw_of_ok _ (by decide +kernel)⟩

/-- The gain count runs out; activity is lost by a bound input, by one in SETTLING and by one in FAULT,
with no edge waiting and with one waiting that reached the pin exactly 8192 ticks after the last. -/
theorem witness_HorizontalTimeouts :
    (let s := gainingScene.withUnit 2 (withWaiting gainingUnit .h none);
      (s.unit 2).state = .quiet ∧ (s.unit 2).lastHEdge = some 10000
        ∧ waitingHEdge (s.unit 2) = none)
    ∧ (TrackerLaw scene ∧ LinkLaw scene ∧ isRunning (scene.unit 2) = true
      ∧ (scene.unit 2).lastHEdge = some 10000 ∧ waitingHEdge (scene.unit 2) = none
      ∧ (scene.tracker 2).binding = some sourceBinding)
    ∧ waitingHEdge (withHEdge 18192 publishingUnit) = some (10000 + 8192)
    ∧ (TrackerLaw (sceneTracker settlingTracker) ∧ LinkLaw (sceneTracker settlingTracker)
      ∧ ((sceneTracker settlingTracker).tracker 2).binding = none)
    ∧ TrackerLaw (sceneTracker faultTracker) ∧ LinkLaw (sceneTracker faultTracker) :=
  ⟨by decide +kernel, ⟨scene_trackerLaw, scene_linkLaw, by decide +kernel, by decide +kernel,
    by decide +kernel, by decide +kernel⟩, by decide +kernel,
    ⟨trackerLaw_of_ok _ (by decide +kernel), linkLaw_of_ok _ (by decide +kernel),
    by decide +kernel⟩, trackerLaw_of_ok _ (by decide +kernel),
    linkLaw_of_ok _ (by decide +kernel)⟩

/-- An edge that reached the pin one tick before the 8192 ran out, whose pulse ends after they have,
one tick short of its window; one that reached it as they ran out; in PUBLISHING with 31 rejections and
in QUIET. -/
theorem witness_ExpiryWaitsForFilter :
    (let s := (sceneUnit (withHEdge 18191 publishingUnit)).withPin 2 .h .high;
      TrackerLaw s ∧ LinkLaw s ∧ (s.unit 2).lastHEdge = some 10000
        ∧ (s.unit 2).hFilter.waiting = some { tick := 18191, window := 4 }
        ∧ waitingHEdge (s.unit 2) = some 18191 ∧ 18191 < 10000 + 8192
        ∧ s.pinLevel 2 .h ≠ .low ∧ 18191 ≤ 18194 ∧ 18194 < 18191 + (4 : BitVec 4).toNat
        ∧ 10000 + 8192 ≤ 18194 ∧ isRunning (s.unit 2) = true
        ∧ (s.unit 2).period = some (openPeriod 31) ∧ (openPeriod 31).faults.noise = false
        ∧ (s.config 2).enables.noise = true)
    ∧ (let s := sceneUnit (withHEdge 18192 publishingUnit);
      TrackerLaw s ∧ LinkLaw s ∧ (s.unit 2).lastHEdge = some 10000
        ∧ waitingHEdge (s.unit 2) = some 18192 ∧ 10000 + 8192 ≤ 18192)
    ∧ let s := gainingScene.withUnit 2 (withHEdge 18192 gainingUnit);
      TrackerLaw s ∧ LinkLaw s ∧ (s.unit 2).lastHEdge = some 10000
        ∧ waitingHEdge (s.unit 2) = some 18192 ∧ (s.unit 2).state = .quiet
        ∧ (s.unit 2).period = none :=
  ⟨⟨trackerLaw_of_ok _ (by decide +kernel), linkLaw_of_ok _ (by decide +kernel), rfl, rfl,
    by decide +kernel, by decide, by decide +kernel, by decide, by decide, by decide,
    by decide +kernel, rfl, rfl, by decide +kernel⟩,
    ⟨trackerLaw_of_ok _ (by decide +kernel), linkLaw_of_ok _ (by decide +kernel), rfl,
    by decide +kernel, by decide⟩,
    ⟨trackerLaw_of_ok _ (by decide +kernel), linkLaw_of_ok _ (by decide +kernel), rfl,
    by decide +kernel, rfl, rfl⟩⟩

/-- The line counter at its last value, for a bound input and for one in SETTLING, PENDING, UNMATCHED and
FAULT; the V pin quiet counter at its last value. -/
theorem witness_LineCountersRunOut :
    (let s := sceneUnit { separatorUnit 10296 with lineCounter := 4095 };
      isRunning (s.unit 2) = true ∧ waitingHEdge (s.unit 2) = some 10296
        ∧ closingLine (s.unit 2) = some ordinaryLine ∧ ordinaryLine.broad = false
        ∧ (s.unit 2).vQuiet = 4096 ∧ (s.unit 2).lineCounter = 4095
        ∧ (s.tracker 2).binding = some sourceBinding)
    ∧ TrackerLaw (sceneUnit { separatorUnit 10296 with lineCounter := 4095 })
    ∧ (∀ x, x = settlingTracker ∨ x = pendingTracker ∨ x = unmatchedTracker ∨ x = faultTracker →
        TrackerLaw ((sceneUnit { separatorUnit 10296 with lineCounter := 4095 }).withTracker 2 x))
    ∧ (settlingTracker.state = .settling ∧ isSettledState pendingTracker.state
      ∧ isSettledState unmatchedTracker.state ∧ faultTracker.state = .fault)
    ∧ let s := sceneUnit
        { separatorUnit 10296 with
          state := .unprimed, period := none, halfLineRef := none, vQuiet := 4095
          lineCounter := 4094 }
      (s.unit 2).state = .unprimed ∧ (s.unit 2).period = none
        ∧ waitingHEdge (s.unit 2) = some 10296
        ∧ closingLine (s.unit 2) = some ordinaryLine ∧ ordinaryLine.broad = false
        ∧ (s.unit 2).vQuiet = 4095 ∧ (s.unit 2).lineCounter < 4095 :=
  ⟨by decide +kernel, trackerLaw_of_ok _ (by decide +kernel),
    by rintro x (rfl | rfl | rfl | rfl) <;> exact trackerLaw_of_ok _ (by decide +kernel),
    ⟨rfl, .inl rfl, .inr (.inr (.inr rfl)), rfl⟩, by decide +kernel⟩

/-- A run of two broad lines with the third about to close: in UNPRIMED, and in PRIMING with 16 lines
at the first. -/
def broadUnit (x : UnitState) (p : Option OpenPeriod) : MeasUnit :=
  { withBroadLine (separatorUnit 10296) with
    state := x, period := p, halfLineRef := none, sepRun := 2
    runStart := some { count := 16, tick := 9408, offset := 296 } }

/-- In UNPRIMED; in PRIMING and PUBLISHING with 16 lines at the first broad line, and with 15. -/
theorem witness_ThirdBroadLineMakesEdge :
    (∀ u ∈ [broadUnit .unprimed none, broadUnit .priming publishingUnit.period,
        { broadUnit .publishing publishingUnit.period with halfLineRef := some false }],
      isRunning ((sceneUnit u).unit 2) = true
        ∧ waitingHEdge ((sceneUnit u).unit 2) = some 10296
        ∧ (closingLine ((sceneUnit u).unit 2)).map ClosedLine.broad = some true
        ∧ ((sceneUnit u).unit 2).vQuiet = 4096 ∧ ((sceneUnit u).unit 2).sepArmed = true
        ∧ ((sceneUnit u).unit 2).sepRun = 2
        ∧ ((sceneUnit u).unit 2).runStart = some { count := 16, tick := 9408, offset := 296 }
        ∧ ((sceneUnit u).unit 2).lineCounter < 4095
        ∧ ((sceneUnit u).unit 2).ring.getLast? = some ⟨297, 5, .positive⟩)
    ∧ (let u := { broadUnit .priming publishingUnit.period with
        runStart := some { count := 15, tick := 9408, offset := 296 } };
      TrackerLaw (sceneUnit u) ∧ LinkLaw (sceneUnit u)
        ∧ isOpenState ((sceneUnit u).unit 2).state
        ∧ ((sceneUnit u).unit 2).period = some (openPeriod 31))
    ∧ (openPeriod 31).faults.shortFrame = false ∧ (openPeriod 31).faults.polarityFlip = false :=
  ⟨by decide +kernel, ⟨trackerLaw_of_ok _ (by decide +kernel), linkLaw_of_ok _ (by decide +kernel),
    .inl rfl, rfl⟩, rfl, rfl⟩

/-- A bound input whose last pulse is one tick short; an edge 159 ticks after the last; NOISE enabled
and disabled; an input in FAULT; one that a result of the detection's tick has released. -/
theorem witness_ThirtySecondRejectionIsNoise :
    (TrackerLaw (sceneUnit (withHEdge 10159 publishingUnit))
      ∧ LinkLaw (sceneUnit (withHEdge 10159 publishingUnit)))
    ∧ (let s := sceneUnit (withHEdge 10159 publishingUnit);
      (s.unit 2).period =
          some (openPeriod 31)
        ∧ isRunning (s.unit 2) = true ∧ (s.unit 2).lastHEdge = some 10000
        ∧ waitingHEdge (s.unit 2) = some 10159 ∧ 10000 ≤ 10159 ∧ 10159 < 10000 + 160
        ∧ (s.config 2).enables.noise = true ∧ (s.tracker 2).state ≠ .fault
        ∧ (s.tracker 2).binding = some sourceBinding)
    ∧ (let s := (sceneUnit (withHEdge 10200 publishingUnit)).withPin 2 .h .high;
      s.pinLevel 2 .h ≠ .low
        ∧ (filterOf (s.unit 2) .h).waiting = some { tick := 10200, window := 4 }
        ∧ 10200 ≤ 10203 ∧ 10203 < 10200 + (4 : BitVec 4).toNat
        ∧ expiryWaited (s.unit 2) 10203 = false)
    ∧ ((scene.withConfig 2 { boundInput.config with enables := noFaults }).config 2).enables.noise
        = false
    ∧ TrackerLaw (sceneTracker faultTracker) ∧ LinkLaw (sceneTracker faultTracker)
    ∧ ((sceneTracker faultTracker).tracker 2).state = .fault
    ∧ (let s := (sceneUnit (withHEdge 10159 publishingUnit)).withTracker 2 editedTracker;
      TrackerLaw s ∧ LinkLaw s ∧ (s.tracker 2).binding = none
        ∧ (s.tracker 2).lossTick = some (acceptTick .h (s.unit 2))) :=
  ⟨⟨trackerLaw_of_ok _ (by decide +kernel), linkLaw_of_ok _ (by decide +kernel)⟩,
    by decide +kernel, by decide +kernel, by decide +kernel,
    trackerLaw_of_ok _ (by decide +kernel), linkLaw_of_ok _ (by decide +kernel), rfl,
    trackerLaw_of_ok _ (by decide +kernel), linkLaw_of_ok _ (by decide +kernel), rfl, rfl⟩

/-! ### The manual's worked examples -/

/-- The state a command leaves. -/
def after (c : Instr) (s : State) : State :=
  match exec c s with
  | .next t => t
  | .fault _ | .refused _ => State.reset

/-- The staged fields of section 10.8 are those of slot 2 in section 1.11. -/
theorem test_image_of_example : stagedEntry image600 = entry600 := by decide +kernel

/-- Transaction T3 of section 10.8, on an empty catalog: slot 2 ACTIVE at generation 1, occupancy 1,
DONE, and the bytes 0x01, 0x02, 0x01, 0x01 from 0x4A. -/
theorem test_commit_example :
    let t := after .commit { stagedScene image600 2 with catalog := resetCatalog }
    (t.slot 2).state = .active ∧ (t.slot 2).generation = 1 ∧ t.catalog.occupancy = 1
      ∧ t.mailbox.state = .done ∧ t.port.pointer = 0x41
      ∧ [0x4A, 0x4B, 0x4C, 0x4D].map (fun p => readPos t (windowPos p)) = [0x01, 0x02, 0x01, 0x01]
    := by
  decide +kernel

/-- The first and second COMMIT of slot 2 in section 1.11: BAD_RECORD 3, and DUPLICATE_TAG 0. -/
theorem test_commit_refusals_example :
    let swapped := ((((image600.set 6 0x8E).set 8 0x72).set 4 0xD0).set 5 0x02)
    let tagged := ((image600.set 4 0xD0).set 5 0x02)
    let s := scene.withCatalog (freeSlot 2 scene.catalog)
    let stage (img : Vector Byte 32) : State :=
      { stagedScene img 2 with catalog := s.catalog }
    (after .commit (stage swapped)).mailbox.result = some .badRecord
      ∧ (after .commit (stage swapped)).mailbox.data[0] = 3
      ∧ (after .commit (stage tagged)).mailbox.result = some .duplicateTag
      ∧ (after .commit (stage tagged)).mailbox.data[0] = 0 := by
  decide +kernel

/-- The considered slots of section 2.8, with their ranks and generations. -/
def exampleFits : List (SlotIx × Nat × Byte) :=
  [(3, 8, 1), (7, 12, 4), (9, 8, 2), (12, 12, 1), (20, 12, 1), (31, 5, 1), (40, 12, 6), (50, 12, 1)]

/-- The tally of section 2.8 after the last examination: list 7, 12, 20, 40, match count 8, top count
5, generation 4. -/
theorem test_tally_example :
    let t := exampleFits.foldl
      (fun t x => tallyFit x.1 ⟨.active, x.2.2, 0, { zeroEntry with rank := x.2.1 }⟩ t) emptyTally
    searchResult t =
      .matched { candidates := [7, 12, 20, 40], ambiguity := 5, overflow := true, generation := 4 }
    := by
  rfl

/-- A verify's step that finds its set's lines outside 1124..1126 (section 6.13, set 5). -/
theorem test_classifier_step_example :
    ((after .classifierStep
      (scenePass { verifyPass true 1 with position := 0, verdict := none })).classifier.pass).bind
        Pass.verdict = some (.bound false 1) := by
  decide +kernel

/-- Set 5 of section 6.13: COASTING with coast 1 and Q 5. -/
theorem test_pass_complete_deviation_example :
    let t := after (.passComplete ⟨.grantFirst, 10163⟩) (scenePass (verifyPass false 1))
    (t.tracker 2).state = .coasting ∧ (t.tracker 2).coast = 1 ∧ (t.tracker 2).reqSeq = 5
      ∧ t.hasNotice 2 .disrupt ∧ t.classifier.pass = none := by
  decide +kernel

/-- The search of section 6.13: BOUND to slot 1 with Q 4. -/
theorem test_pass_complete_match_example :
    let t := after (.passComplete ⟨.grantFirst, 10163⟩) (pendingScene (searchPass 64 foundSlot1))
    (t.tracker 2).state = .bound ∧ (t.tracker 2).reqSeq = 4
      ∧ (t.tracker 2).binding = some sourceBinding ∧ t.hasNotice 2 .bound := by
  decide +kernel

/-- Set 3 of section 6.13, published at a closing edge: PENDING with Q 3 and a search at once. -/
theorem test_transition_accepted_settles_example :
    let t := takeReport 2 0 (sceneTracker settlingTracker) (.published (sourceSet 3 1125))
    (t.tracker 2).state = .pending ∧ (t.tracker 2).settleCounter = 0 ∧ (t.tracker 2).reqSeq = 3
      ∧ t.classifier.pass.map Pass.kind = some .search := by
  decide +kernel

/-- The loss of section 6.13: slot 1's bind_count 1 to 0, the last-loss record and the recall
reference. -/
theorem test_h_activity_lost_example :
    let t := after (.hActivityLost 2) scene
    (t.tracker 2).state = .silent ∧ (t.tracker 2).recallRef = some ⟨1, 1⟩
      ∧ (t.tracker 2).lastLoss = some ⟨.signalLost, 1, 1⟩ ∧ (t.slot 1).bindCount = 0
      ∧ t.hasNotice 2 .lost := by
  decide +kernel

/-- The 32nd rejection of section 5.7 takes a bound input to FAULT with reason FAULT. -/
theorem test_noise_example :
    let t := after (.noise 2 .closeEdge) (sceneUnit (withHEdge 10159 publishingUnit))
    (t.tracker 2).state = .fault ∧ (t.tracker 2).lastLoss = some ⟨.fault, 1, 1⟩
      ∧ (t.tracker 2).recallRef = none ∧ t.hasNotice 2 .lost ∧ t.hasNotice 2 .fault := by
  decide +kernel

/-- The order of R105 with the result first: its release with ENTRY_EDITED keeps the tick. -/
theorem test_pass_complete_edit_keeps_tick :
    let t := after (.passComplete ⟨.grantFirst, 10163⟩) (scenePass (verifyPass false 2))
    (t.tracker 2).state = .pending ∧ (t.tracker 2).lastLoss = some ⟨.entryEdited, 1, 1⟩
      ∧ (t.tracker 2).lossTick = some 10163 := by
  decide +kernel

/-- The detection of that event then has the last-loss record name FAULT (R105); LOST is not set
again. A detection at another tick leaves the record. -/
theorem test_noise_names_fault_at_the_tick_of_the_result :
    let s (tick : Nat) : State :=
      (sceneUnit (withHEdge tick publishingUnit)).withTracker 2 editedTracker
    let t := after (.noise 2 .closeEdge) (s 10159)
    let u := after (.noise 2 .closeEdge) (s 10158)
    (t.tracker 2).state = .fault ∧ (t.tracker 2).lastLoss = some ⟨.fault, 1, 1⟩
      ∧ t.hasNotice 2 .fault = true ∧ t.hasNotice 2 .lost = false
      ∧ (u.tracker 2).state = .fault ∧ (u.tracker 2).lastLoss = some ⟨.entryEdited, 1, 1⟩ := by
  decide +kernel

/-- Input 2's recall verify before its step. -/
def recallPass : Pass :=
  { verifyPass true 1 with kind := .verifyRecall, seq := some 3, position := 0, verdict := none }

/-- A RETIRE of slot 1 clears the reference of an input in PENDING, disturbs its verify in flight and
moves no number (R18, R21, R122), so the verify stays current. -/
theorem test_retire_keeps_recall_verify_current :
    let t := after .retire
      ((sceneTracker { pendingTracker with recallRef := some ⟨1, 1⟩ }).withPass (some recallPass))
    (t.tracker 2).state = .pending ∧ (t.tracker 2).recallRef = none ∧ (t.tracker 2).reqSeq = 3
      ∧ t.classifier.pass.map Pass.disturbed = some true
      ∧ t.classifier.pass.map (passCurrent t) = some true := by
  decide +kernel

/-- A start that finds the reference gone fails (R34). -/
theorem test_recall_verify_fails_without_reference :
    (after .classifierStep
      ((sceneTracker pendingTracker).withPass (some recallPass))).classifier.pass.map passResult
        = some .recallFailed := by
  decide +kernel

/-- An H transition that reached the pin within the 8192 ticks holds the expiry while it is into the
active level of the reference, and not once the reference has changed (assumption log 33). -/
theorem test_expiry_waits_by_the_reference_of_the_moment :
    let u := withHEdge 18190 publishingUnit
    let v := setHRef .negative u
    expiryStands u = false ∧ expiryWaited u 18192 = true ∧ expiryStands v = true
      ∧ expiryWaited v 18192 = false := by
  decide +kernel

/-- The last row but one of R58 with the completion first: the verify of set 5, granted at tick 10163,
gives way to the verify of set 6 published at that tick, and at another tick the newer verify waits. -/
theorem test_newer_verify_is_the_one_granted :
    let granted := grantedPass 2
      { kind := .verifyBound, set := .measured (sourceSet 5 1131), seq := some 4 }
    let s := { scenePass granted with
      classifier := { (scenePass granted).classifier with endTick := some 10163 } }
    let t := takeReport 2 10163 s (.published (sourceSet 6 1125))
    let u := takeReport 2 10164 s (.published (sourceSet 6 1125))
    t.classifier.pass = some { granted with set := .measured (sourceSet 6 1125) }
      ∧ t.request 2 = none ∧ u.classifier.pass = some granted
      ∧ (u.request 2).map Request.set = some (.measured (sourceSet 6 1125)) := by
  decide +kernel

/-- The end of a pass keeps its tick, and the verify that waited is granted. -/
theorem test_pass_complete_keeps_end_tick :
    let s := (scenePass (verifyPass true 1)).withRequest 2
      (some { kind := .verifyBound, set := .measured (sourceSet 6 1125), seq := some 4 })
    let t := after (.passComplete ⟨.grantFirst, 10163⟩) s
    t.classifier.endTick = some 10163 ∧ t.request 2 = none
      ∧ t.classifier.pass.map Pass.set = some (.measured (sourceSet 6 1125)) := by
  decide +kernel

/-- The half-line window of section 4.11, 222.2 to 370.4 ticks for an average of 592.6. -/
theorem test_half_line_window_example :
    let u := { publishingUnit with
      ring := List.replicate 3 ⟨592, 12, .positive⟩ ++ List.replicate 5 ⟨593, 12, .positive⟩ }
    ringPeriods u = 4741 ∧ halfLineAt u 222 = false ∧ halfLineAt u 223 = true
      ∧ halfLineAt u 306 = true ∧ halfLineAt u 370 = true ∧ halfLineAt u 371 = false
      ∧ halfLineAt u 10 = false := by
  decide +kernel

/-- The classifier status of section 3.9: requester 3 busy with the gate open, then closed; and idle
(R207). -/
theorem test_classifier_status_example :
    let c (g : Gate) : Classifier :=
      { resetClassifier with pass := some { verifyPass true 1 with requester := 3 }, gate := g }
    classifierStatus (c .opened) = 0x31 ∧ classifierStatus (c .closed) = 0x33
      ∧ classifierStatus resetClassifier = 0x70 := by
  decide

/-- The view of section 10.9: kind 1, the index, BOUND, counters 0, no latch, a binding to slot 1 at
generation 1. -/
theorem test_view_latch_example :
    let s := { sceneAt 0x80 with
      port := { (sceneAt 0x80).port with viewKind := 1, viewIndex := 2 } }
    (after (.viewLatch (.addressByte 0x3A)) s).port.snapshot.toList.take 9
      = [0x01, 0x02, 0x04, 0x00, 0x00, 0x00, 0x01, 0x01, 0x01] := by
  decide +kernel

/-- The configuration defaults read back as R206 lays them out: settle 3 and budget 2 in one byte. -/
theorem test_configuration_defaults_read :
    readPos State.reset (windowPos 0x21) = 0x23 ∧ readPos State.reset (windowPos 0x22) = 0x04
      ∧ readPos State.reset (windowPos 0x23) = 0x07 ∧ readPos State.reset (windowPos 0x00) = 0xE6
      := by
  decide +kernel

/-- No word of the table spells a command. -/
theorem test_no_word_is_a_command : decodeTableWord 8 0 = none := rfl

end Sys2Proof.Tests
end

