-- ==== Sys2Proof/Proofs/PowerOnReset.lean ====
section
/-! POWER_ON_RESET: what the reset leaves in each block, and the obligation about it. -/

namespace Sys2Proof.Machine

/-! ### What the reset leaves -/

section
variable (adr : Level) (s : State)

theorem exec_powerOnReset : exec (.powerOnReset adr) s = .next (powerOnReset adr s) := rfl

@[simp] theorem powerOnReset_pending : (powerOnReset adr s).pending = s.pending := rfl

@[simp] theorem powerOnReset_catalog : (powerOnReset adr s).catalog = resetCatalog := rfl

@[simp] theorem powerOnReset_classifier : (powerOnReset adr s).classifier = resetClassifier := rfl

@[simp] theorem powerOnReset_mailbox : (powerOnReset adr s).mailbox = resetMailbox := rfl

@[simp] theorem powerOnReset_notices : (powerOnReset adr s).notices = resetNotices := rfl

@[simp] theorem powerOnReset_port : (powerOnReset adr s).port = resetPort adr := rfl

@[simp] theorem powerOnReset_freeIndex : (powerOnReset adr s).freeIndex = s.freeIndex := rfl

@[simp] theorem powerOnReset_slot (i : SlotIx) : (powerOnReset adr s).slot i = freeSlotValue := by
  simp [State.slot, resetCatalog]

/-- Only the pin levels of an input outlast the reset (assumption log 10). -/
@[simp] theorem powerOnReset_input (n : InputIx) :
    (powerOnReset adr s).input n = resetKeepingPins (s.input n) :=
  getElem_mapVec resetKeepingPins s.inputs n.val n.isLt

@[simp] theorem powerOnReset_tracker (n : InputIx) :
    (powerOnReset adr s).tracker n = resetTracker := by
  rw [State.tracker, powerOnReset_input]; rfl

@[simp] theorem powerOnReset_config (n : InputIx) :
    (powerOnReset adr s).config n = resetConfig := by
  rw [State.config, powerOnReset_input]; rfl

@[simp] theorem powerOnReset_unit (n : InputIx) :
    (powerOnReset adr s).unit n = resetUnit := by
  rw [State.unit, powerOnReset_input]; rfl

end

/-! ### What is derived from the reset values -/

/-- The V pin quiet counter stands at its bound, so the separator is the source (R92). -/
@[simp] theorem vSourceOf_resetUnit : vSourceOf resetUnit = .separator := rfl

@[simp] theorem summaryByte_resetNotices : summaryByte resetNotices = 0 := by decide

@[simp] theorem atnAsserted_resetNotices : atnAsserted resetNotices = false := by decide

/-! ### The obligation -/

/-- Settles O3: block by block, what the reset leaves is the block's reset record, whose fields are
the values the manual states. -/
theorem powerOnResetLeavesResetValues : Obligations.PowerOnResetLeavesResetValues := by
  intro adr s
  refine ⟨powerOnReset adr s, exec_powerOnReset adr s, powerOnReset_slot adr s, ?_⟩
  simp only [powerOnReset_catalog, powerOnReset_classifier, powerOnReset_tracker,
    powerOnReset_config, powerOnReset_unit, powerOnReset_mailbox, powerOnReset_notices,
    powerOnReset_port]
  have address : (resetPort adr).address = addressOfAdr adr := rfl
  refine ⟨rfl, rfl, rfl, fun _ => ?tracker, fun _ => rfl, fun _ => ?unit, rfl, rfl,
    summaryByte_resetNotices, atnAsserted_resetNotices, address.trans ?adr, ?port⟩
  case tracker => simp [resetTracker]
  case unit => simp only [vSourceOf_resetUnit]; simp [resetUnit]
  case adr => cases adr <;> rfl
  case port => simp [resetPort]

end Sys2Proof.Machine
end

