-- ==== Sys2Proof/Proofs/Matching.lean ====
section
/-! The fit of an entry to a set: what each kind of test accepts, the eight tests together, and the
obligation about them. -/

namespace Sys2Proof.Machine

/-! ### The tests -/

/-- Both bounds of a window are included (R28). -/
@[simp] theorem windowAccepts_iff (w : Window) (x : Nat) :
    windowAccepts w x = true ↔ w.min ≤ x ∧ x ≤ w.max := by
  simp [windowAccepts]

/-- An absent window tests nothing (R29). -/
@[simp] theorem optWindowAccepts_iff (o : Option Window) (x : Nat) :
    optWindowAccepts o x = true ↔ ∀ w, o = some w → w.min ≤ x ∧ x ≤ w.max := by
  cases o with
  | none => simp [optWindowAccepts]
  | some w => simp [optWindowAccepts]

/-- ANY is the constraint that names no value (R30). -/
@[simp] theorem constraintAccepts_iff {α : Type} [DecidableEq α] (c : Option α) (x : α) :
    constraintAccepts c x = true ↔ ∀ y, c = some y → x = y := by
  cases c with
  | none => simp [constraintAccepts]
  | some y => simp [constraintAccepts, eq_comm]

/-! ### The fit -/

/-- The fit is the conjunction of the eight tests (R31). -/
theorem fits_iff_tests (e : Entry) (m : SyncSet) :
    fits e m = true ↔
      windowAccepts e.hPeriod m.hPeriod = true ∧ windowAccepts e.vLines m.vLines = true
        ∧ optWindowAccepts e.hWidth m.hWidth = true ∧ optWindowAccepts e.vWidth m.vWidth = true
        ∧ constraintAccepts e.hPolarity m.hPolarity = true
        ∧ constraintAccepts e.vPolarity m.vPolarity = true
        ∧ constraintAccepts e.scan m.scan = true ∧ constraintAccepts e.form m.form = true := by
  simp only [fits, Bool.and_eq_true, and_assoc]

/-! ### The obligation -/

/-- Settles O38: the fit is the conjunction of its tests, and each test is read by the rule of its
kind. -/
theorem fitIsEightTests : Obligations.FitIsEightTests := by
  intro e m
  rw [fits_iff_tests]
  simp only [windowAccepts_iff, optWindowAccepts_iff, constraintAccepts_iff]

end Sys2Proof.Machine
end

