-- ==== Sys2Proof/Proofs/Attention.lean ====
section
/-! What is derived from the notice flags and masks, read bit by bit: the input summary, ATN#, and
the obligation about them. -/

namespace Sys2Proof.Machine

/-! ### Bits of a flag word -/

theorem bitVec_ne_zero_iff_exists_bit {w : Nat} (b : BitVec w) :
    b ≠ 0 ↔ ∃ k, k < w ∧ b.getLsbD k = true := by
  constructor
  · intro nonzero
    by_contra! noBit
    exact nonzero (BitVec.eq_of_getLsbD_eq fun k hk => by simpa using noBit k hk)
  · rintro ⟨k, -, bit⟩ rfl
    simp at bit

/-- Some flag has a clear mask exactly when the flags outside the masks are not all clear. -/
theorem unmasked_ne_zero_iff_exists_bit {w : Nat} (flags masks : BitVec w) :
    flags &&& ~~~masks ≠ 0 ↔
      ∃ k, k < w ∧ flags.getLsbD k = true ∧ masks.getLsbD k = false := by
  rw [bitVec_ne_zero_iff_exists_bit]
  refine exists_congr fun k => and_congr_right fun hk => ?_
  simp [hk]

theorem getLsbD_ofNat_one_shiftLeft {w i j : Nat} (hj : j < w) :
    (BitVec.ofNat w (1 <<< i)).getLsbD j = decide (i = j) := by
  simp only [BitVec.getLsbD_ofNat, Nat.one_shiftLeft, Nat.testBit_two_pow, hj, decide_true,
    Bool.true_and]

/-! ### The summary -/

@[simp] theorem mem_allInputs (n : InputIx) : n ∈ allInputs := by
  revert n
  decide

theorem summaryOf_iff (x : Notices) (n : InputIx) :
    summaryOf x n = true ↔ ∃ k, k < 6 ∧ x.flags[n].getLsbD k = true := by
  rw [summaryOf, bne_iff_ne]
  exact bitVec_ne_zero_iff_exists_bit x.flags[n]

/-- The summary's fold over a list of inputs adds the bits of those with an indication to the byte
it starts from. -/
theorem getLsbD_foldl_summary (x : Notices) {j : Nat} (hj : j < 8) (l : List InputIx) (b : Byte) :
    (l.foldl (fun (b : Byte) n => if summaryOf x n then b ||| (1 <<< n.val) else b) b).getLsbD j = true ↔
      b.getLsbD j = true ∨ ∃ n ∈ l, summaryOf x n = true ∧ n.val = j := by
  induction l generalizing b with
  | nil => simp
  | cons n l ih =>
    rw [List.foldl_cons, ih]
    cases set : summaryOf x n with
    | false => simp [set]
    | true => simp [set, getLsbD_ofNat_one_shiftLeft hj, or_assoc]

/-- Bit j of the summary is the indication of input j; a bit that is no input's is clear. -/
theorem getLsbD_summaryByte (x : Notices) {j : Nat} (hj : j < 8) :
    (summaryByte x).getLsbD j = true ↔ ∃ n : InputIx, summaryOf x n = true ∧ n.val = j := by
  rw [summaryByte, getLsbD_foldl_summary x hj]
  simp

theorem getLsbD_summaryByte_input (x : Notices) (n : InputIx) :
    (summaryByte x).getLsbD n = true ↔ summaryOf x n = true := by
  rw [getLsbD_summaryByte x (by omega)]
  constructor
  · rintro ⟨m, indicated, same⟩
    rwa [← Fin.ext same]
  · intro indicated
    exact ⟨n, indicated, rfl⟩

theorem getLsbD_summaryByte_of_no_input (x : Notices) {j : Nat} (hlow : 6 ≤ j) (hj : j < 8) :
    (summaryByte x).getLsbD j = false := by
  rw [Bool.eq_false_iff, ne_eq, getLsbD_summaryByte x hj]
  rintro ⟨n, -, same⟩
  omega

/-! ### ATN# -/

theorem atnAsserted_iff_unmasked (x : Notices) :
    atnAsserted x = true ↔
      x.globalFlags &&& ~~~x.globalMasks ≠ 0
        ∨ ∃ n : InputIx, x.flags[n] &&& ~~~x.masks[n] ≠ 0 := by
  simp only [atnAsserted, Bool.or_eq_true, List.any_eq_true, bne_iff_ne, mem_allInputs, true_and]

/-! ### The obligation -/

/-- Settles O18: ATN# asks for a nonzero word of unmasked flags, the summary for a nonzero word of
flags, and a word is nonzero when it has a set bit. -/
theorem attentionAndSummaryFollowFlags : Obligations.AttentionAndSummaryFollowFlags := by
  intro x
  refine ⟨?attention, fun n => ?summary,
    getLsbD_summaryByte_of_no_input x (by omega) (by omega),
    getLsbD_summaryByte_of_no_input x (by omega) (by omega)⟩
  case attention =>
    rw [atnAsserted_iff_unmasked]
    simp only [unmasked_ne_zero_iff_exists_bit]
  case summary => exact (getLsbD_summaryByte_input x n).trans (summaryOf_iff x n)

end Sys2Proof.Machine
end

