-- ==== Sys2Proof/Proofs/Events.lean ====
section
/-! What a command can do, said once: the effects of the commands, the moves of the tracking core
that they are made of, and the moves of one tracker that every report and result is made of. The
invariants are proved move by move. -/

namespace Sys2Proof.Machine

/-! ### Effects of the commands -/

/-- Two ports with the same view: snapshot, followed record and since-latch indicator. -/
def ViewKept (p q : Port) : Prop :=
  q.follows = p.follows ∧ q.snapshot = p.snapshot ∧ q.since = p.since

theorem ViewKept.refl (p : Port) : ViewKept p p := ⟨rfl, rfl, rfl⟩

theorem ViewKept.trans {p q r : Port} (h : ViewKept p q) (h' : ViewKept q r) : ViewKept p r :=
  ⟨h'.1.trans h.1, h'.2.1.trans h.2.1, h'.2.2.trans h.2.2⟩

/-- A command that reports and changes nothing but, at most, the host port away from the view. -/
def ReportsOnly (run : State → Executed) : Prop :=
  ∀ s, ∃ p, (run s).state = s.withPort p ∧ ViewKept s.port p

/-- What a command can do, up to the host port. One constructor for each operation that the
commands share. -/
inductive Effect (s : State) : State → Prop where
  | none : Effect s s
  | pin (n : InputIx) (pin : Pin) (level : Level) (tick : Nat) : Effect s (movePin n pin level tick s)
  | accept (n : InputIx) (pin : Pin) : Effect s (acceptPin n pin s)
  | gainTimeout (n : InputIx) (tick : Nat) (h : (s.unit n).state = .quiet) :
      Effect s (onUnit n tick (fun u => (Machine.gainTimeout u, [])) s)
  | hLost (n : InputIx) (tick : Nat) (h : isRunning (s.unit n) = true) :
      Effect s (onUnit n tick loseHorizontal s)
  | classifierStep : Effect s (classifierStep s)
  | passComplete (c : Completion) : Effect s (passComplete c s)
  | executeHeld : Effect s (executeHeld s)
  | argument (k : Fin 8) (value : Byte) : Effect s (storeArgument k value s)
  | enable (n : InputIx) (h : (s.config n).enabled = false) : Effect s (enableInput n s)
  | disable (n : InputIx) (h : (s.config n).enabled = true) : Effect s (disableInput n s)
  | settleCoast (n : InputIx) (value : Byte) : Effect s (writeSettleCoast n value s)
  | glitch (n : InputIx) (value : Byte) : Effect s (writeGlitch n value s)
  | faultEnables (n : InputIx) (value : Byte) : Effect s (writeFaultEnables n value s)
  | notices (x : Notices) : Effect s (s.withNotices x)
  | acknowledge (h : s.mailbox.state = .done) : Effect s (emptyMailbox s)
  | withdraw : Effect s (withdrawCommand s)
  | change (code : Byte) (run : State → Executed) (h : s.mailbox.state = .empty)
      (hrun : changeOf (acceptedCopy code s) = some run) : Effect s (issueChange code run s)
  | report (code : Byte) (run : State → Executed) (h : s.mailbox.state = .empty)
      (hrun : ReportsOnly run) : Effect s (issueNow code run s)
  | rebind (args : Vector Byte 8) (h : s.mailbox.state = .empty) :
      Effect s (issueNow (commandCode .rebind) (runRebind args) s)
  | clearFault (args : Vector Byte 8) (h : s.mailbox.state = .empty) :
      Effect s (issueNow (commandCode .clearFault) (runClearFault args) s)
  | restart (h : s.mailbox.state = .empty) :
      Effect s (issueNow (commandCode .restartCore) runRestart s)
  | probe (h : s.mailbox.state = .empty) : Effect s (issueProbe s)

/-- `t` comes from `s` by an effect and a change of the host port away from the view. -/
def EffectOf (s t : State) : Prop := ∃ u p, Effect s u ∧ t = u.withPort p ∧ ViewKept u.port p

theorem EffectOf.of_effect {s u : State} (h : Effect s u) : EffectOf s u :=
  ⟨u, u.port, h, rfl, .refl _⟩

/-- A command that moves nothing but the host port. -/
theorem EffectOf.of_port {s : State} {p : Port} (h : ViewKept s.port p) :
    EffectOf s (s.withPort p) := ⟨s, p, .none, rfl, h⟩

theorem EffectOf.withPort {s t : State} (h : EffectOf s t) {p : Port} (hp : ViewKept t.port p) :
    EffectOf s (t.withPort p) := by
  obtain ⟨u, _, hu, rfl, kept⟩ := h
  exact ⟨u, p, hu, rfl, kept.trans hp⟩

/-- A data byte is without effect, or has that of its position. -/
theorem EffectOf.onDataByte {s : State} {f : Pos → Option (State → State)}
    (h : ∀ p act, f p = some act → EffectOf s (act s)) : EffectOf s (onDataByte f s) := by
  unfold Machine.onDataByte
  split
  · exact .of_effect .none
  · next act hact =>
    obtain ⟨p, -, hp⟩ := Option.bind_eq_some_iff.mp hact
    exact ((h p act hp).withPort ⟨rfl, rfl, rfl⟩).withPort ⟨rfl, rfl, rfl⟩

/-! ### The reads of 0x80 -/

/-- The commands that latch: an address byte with the pointer at 0x80, and the host's acknowledge
that moves the pointer there (R195, R201). -/
def LatchesAt (c : Instr) (s : State) : Prop :=
  (s.port.pointer = 0x80
      ∧ (c = .addressByte s.port.address .read ∨ c = .viewLatch (.addressByte s.port.address)))
    ∨ ∃ b, s.port.bus = .sending b ∧ s.port.pointer = 0x7F
      ∧ (c = .byteSent true ∨ c = .viewLatch .hostAcknowledge)

/-- A port whose snapshot is that of the followed record in `s`, with the indicator clear. -/
def Latched (s : State) (p : Port) : Prop :=
  p.snapshot = snapshotOf s p.follows ∧ p.since = false

/-- Only the port changes; its view stays, or the command latches. -/
def SerialMove (c : Instr) (s t : State) : Prop :=
  ∃ p, t = s.withPort p ∧ (ViewKept s.port p ∨ LatchesAt c s ∧ Latched s p)

/-- A byte taken for sending latches at 0x80 and leaves the view alone elsewhere. -/
theorem takeByte_cases (s : State) :
    ∃ p, takeByte s = s.withPort p
      ∧ (ViewKept s.port p ∨ s.port.pointer = 0x80 ∧ Latched s p) := by
  unfold takeByte atViewStart
  split
  · next start => exact ⟨_, rfl, .inr ⟨by simpa using start, rfl, rfl⟩⟩
  · exact ⟨_, rfl, .inl ⟨rfl, rfl, rfl⟩⟩

/-- An address byte, under any command that latches with it. -/
theorem takeAddress_serial {c : Instr} {a : BitVec 7} {d : Direction} {s : State}
    (hc : d = .read → a = s.port.address → s.port.pointer = 0x80 → LatchesAt c s) :
    SerialMove c s (takeAddress a d s) := by
  unfold takeAddress beginTransaction
  split
  · next own =>
    cases d with
    | write => exact ⟨_, rfl, .inl ⟨rfl, rfl, rfl⟩⟩
    | read =>
      obtain ⟨p, hp, view⟩ := takeByte_cases (s.withPort { s.port with acked := true })
      exact ⟨p, hp, view.imp_right fun ⟨start, latched⟩ => ⟨hc rfl own start, latched⟩⟩
  · exact ⟨_, rfl, .inl ⟨rfl, rfl, rfl⟩⟩

theorem takePointer_serial (c : Instr) (v : Byte) (s : State) :
    SerialMove c s (takePointer v s) := by
  unfold takePointer
  split
  case h_1 => exact ⟨_, rfl, .inl ⟨rfl, rfl, rfl⟩⟩
  all_goals exact ⟨s.port, rfl, .inl ⟨rfl, rfl, rfl⟩⟩

/-- The pointer reaches 0x80 from 0x7F alone. -/
theorem pointer_of_next {x : Byte} (h : x + 1 = 0x80) : x = 0x7F := by
  bv_omega

/-- The end of a byte sent, under any command that latches with it. -/
theorem takeHostAck_serial {c : Instr} {a : Bool} {s : State}
    (hc : a = true → c = .byteSent true ∨ c = .viewLatch .hostAcknowledge) :
    SerialMove c s (takeHostAck a s) := by
  unfold takeHostAck endByte
  split
  case h_1 b sending =>
    cases a with
    | true =>
      obtain ⟨p, hp, view⟩ := takeByte_cases (advancePointer s)
      refine ⟨p, hp, view.imp_right fun ⟨start, latched⟩ => ⟨.inr ⟨b, sending, ?_, hc rfl⟩, latched⟩⟩
      exact pointer_of_next start
    | false => exact ⟨_, rfl, .inl ⟨rfl, rfl, rfl⟩⟩
  all_goals exact ⟨s.port, rfl, .inl ⟨rfl, rfl, rfl⟩⟩

theorem viewRead_serial (cause : ReadCause) (s : State) :
    SerialMove (.viewLatch cause) s (viewRead cause s) := by
  unfold viewRead
  split
  · cases cause with
    | addressByte a =>
      exact takeAddress_serial fun _ own start => .inl ⟨start, .inr (by rw [own])⟩
    | hostAcknowledge => exact takeHostAck_serial fun _ => .inr rfl
  · exact ⟨s.port, rfl, .inl ⟨rfl, rfl, rfl⟩⟩

/-! ### What a command answers -/

/-- What command `c` answers on `s`: the state as it is, or an effect or a move of the serial port,
with the since-latch indicator brought up to date. -/
def Answers (c : Instr) (s t : State) : Prop :=
  t = s ∨ ∃ u, t = noteChange s u ∧ (EffectOf s u ∨ SerialMove c s u)

theorem Answers.of_effectOf {c : Instr} {s u : State} (h : EffectOf s u) :
    Answers c s (noteChange s u) := .inr ⟨u, rfl, .inl h⟩

theorem Answers.of_effect {c : Instr} {s u : State} (h : Effect s u) :
    Answers c s (noteChange s u) := .of_effectOf (.of_effect h)

theorem Answers.of_serial {c : Instr} {s u : State} (h : SerialMove c s u) :
    Answers c s (noteChange s u) := .inr ⟨u, rfl, .inr h⟩

theorem Answers.of_dataByte {c : Instr} {s : State} {f : Pos → Option (State → State)}
    (h : ∀ p act, f p = some act → EffectOf s (act s)) :
    Answers c s (noteChange s (onDataByte f s)) := .of_effectOf (.onDataByte h)

/-- A named row that takes place only where `b` stands. -/
theorem Answers.guarded {c : Instr} {s t : State} {b : Bool} {u : State}
    (h : b = true → Answers c s u) (ht : (if b then u else s) = t) : Answers c s t := by
  subst ht
  split
  · exact h ‹_›
  · exact .inl rfl

/-- A command code is without effect unless the mailbox is EMPTY. -/
theorem Answers.onCommand {c : Instr} {s t : State} {issue : State → State}
    (h : s.mailbox.state = .empty → Effect s (issue s)) (ht : onCommand issue s = .next t) :
    Answers c s t := by
  cases ht
  refine .of_dataByte fun p act hact => ?_
  unfold commandAct at hact
  split at hact
  · split at hact
    · next isEmpty =>
      cases hact
      exact .of_effect (h isEmpty)
    · exact absurd hact (by simp)
  · exact absurd hact (by simp)

/-! The commands that only report. -/

theorem reportsOnly_refuse (code : ResultCode) (data : List Byte) :
    ReportsOnly (refuse code data) := fun s => ⟨s.port, rfl, .refl _⟩

theorem reportsOnly_runFetch (args : Vector Byte 8) : ReportsOnly (runFetch args) := by
  intro s
  unfold runFetch
  split
  · exact ⟨s.port, rfl, .refl _⟩
  · exact ⟨_, rfl, rfl, rfl, rfl⟩

theorem reportsOnly_runFindTag (args : Vector Byte 8) : ReportsOnly (runFindTag args) := by
  intro s
  unfold runFindTag
  split <;> exact ⟨s.port, rfl, .refl _⟩

/-- The rows that name the acceptance of a transition for what it brings about. -/
theorem Answers.acceptPin (c : Instr) (n : InputIx) (pin : Pin) (s : State) :
    Answers c s (noteChange s (Machine.acceptPin n pin s)) := .of_effect (.accept n pin)

theorem noiseEvent_answers (c : Instr) (n : InputIx) (cause : RejectionCause) (s : State) :
    Answers c s (noiseEvent n cause s) := by
  cases cause with
  | glitch pin level tick => exact .guarded (fun _ => .of_effect (.pin n pin level tick)) rfl
  | closeEdge => exact .guarded (fun _ => .acceptPin c n .h s) rfl

theorem enableAct_effect {on : Bool} {v : Byte} {s : State} {p : Pos} {act : State → State}
    (h : enableAct on v s p = some act) : EffectOf s (act s) := by
  cases p
  case enable n =>
    simp only [enableAct, Option.ite_none_right_eq_some, Bool.and_eq_true, bne_iff_ne,
      Option.some.injEq] at h
    obtain ⟨⟨-, differs⟩, rfl⟩ := h
    cases on with
    | true => exact .of_effect (.enable n (by simpa using differs))
    | false => exact .of_effect (.disable n (by simpa using differs))
  all_goals simp [enableAct] at h

theorem registerAct_effect {v : Byte} {s : State} {p : Pos} {act : State → State}
    (h : registerAct v s p = some act) : EffectOf s (act s) := by
  cases p
  case argument k =>
    obtain rfl : storeArgument k v = act := Option.some.inj h
    exact .of_effect (.argument k v)
  all_goals
    obtain rfl : act = id := by simp [registerAct] at h <;> simp_all
    exact .of_effect .none

theorem settleCoastAct_effect {v : Byte} {s : State} {p : Pos} {act : State → State}
    (h : settleCoastAct v p = some act) : EffectOf s (act s) := by
  cases p
  case settleCoast n =>
    obtain rfl : writeSettleCoast n v = act := Option.some.inj h
    exact .of_effect (.settleCoast n v)
  all_goals simp [settleCoastAct] at h

/-- Every command but POWER_ON_RESET answers an effect, or a move of the serial port. -/
theorem exec_answers {c : Instr} {s t : State} (hc : ∀ adr, c ≠ .powerOnReset adr)
    (h : exec c s = .next t) : Answers c s t := by
  cases c with
  | powerOnReset adr => exact absurd rfl (hc adr)
  | pinTransition n pin level tick => cases h; exact .of_effect (.pin n pin level tick)
  | transitionAccepted n pin => cases h; exact .acceptPin _ n pin s
  | hActivityGained n => cases h; exact .guarded (fun _ => .acceptPin _ n .h s) rfl
  | gainCountTimeout n =>
    cases h
    refine .guarded (fun guard => .of_effect (.gainTimeout n _ ?_)) rfl
    simp only [Bool.and_eq_true, beq_iff_eq] at guard
    exact guard.1
  | hActivityLost n =>
    cases h
    refine .guarded (fun guard => .of_effect (.hLost n _ ?_)) rfl
    simp only [Bool.and_eq_true] at guard
    exact guard.1
  | ringRefill n => cases h; exact .guarded (fun _ => .acceptPin _ n .h s) rfl
  | vActivityLost n => cases h; exact .guarded (fun _ => .acceptPin _ n .h s) rfl
  | vpinQuietTimeout n => cases h; exact .guarded (fun _ => .acceptPin _ n .h s) rfl
  | separatorVerticalEdge n => cases h; exact .guarded (fun _ => .acceptPin _ n .h s) rfl
  | noise n cause => cases h; exact noiseEvent_answers _ n cause s
  | classifierStep => cases h; exact .of_effect .classifierStep
  | passComplete c => cases h; exact .of_effect (.passComplete c)
  | heldCommandExecute => cases h; exact .of_effect .executeHeld
  | addressByte a d =>
    cases h
    exact .of_serial (takeAddress_serial fun read own start =>
      .inl ⟨start, .inl (by rw [own, read])⟩)
  | pointerByte v => cases h; exact .of_serial (takePointer_serial _ v s)
  | viewLatch cause => cases h; exact .of_serial (viewRead_serial cause s)
  | byteSent a => cases h; exact .of_serial (takeHostAck_serial fun acked => .inl (by rw [acked]))
  | registerWrite v => cases h; exact .of_dataByte fun _ _ => registerAct_effect
  | enableWrite v => cases h; exact .of_dataByte fun _ _ => enableAct_effect
  | disableWrite v => cases h; exact .of_dataByte fun _ _ => enableAct_effect
  | settleCountWrite v => cases h; exact .of_dataByte fun _ _ => settleCoastAct_effect
  | coastBudgetWrite v => cases h; exact .of_dataByte fun _ _ => settleCoastAct_effect
  | glitchWindowWrite v =>
    cases h
    refine .of_dataByte fun p act hact => ?_
    cases p <;> simp [glitchAct] at hact
    case glitch n => subst hact; exact .of_effect (.glitch n v)
  | faultEnablesWrite v =>
    cases h
    refine .of_dataByte fun p act hact => ?_
    cases p <;> simp [faultEnablesAct] at hact
    case faultEnables n => subst hact; exact .of_effect (.faultEnables n v)
  | noticeClear v =>
    cases h
    refine .of_dataByte fun p act hact => ?_
    cases p <;> simp [noticeAct] at hact
    all_goals subst hact; exact .of_effect (.notices _)
  | maskWrite v =>
    cases h
    refine .of_dataByte fun p act hact => ?_
    cases p <;> simp [maskAct] at hact
    all_goals subst hact; exact .of_effect (.notices _)
  | viewSelectorWrite v =>
    cases h
    refine .of_dataByte fun p act hact => ?_
    cases p <;> simp [viewSelectorAct] at hact
    all_goals subst hact; exact .of_port ⟨rfl, rfl, rfl⟩
  | stagingWrite v =>
    cases h
    refine .of_dataByte fun p act hact => ?_
    cases p <;> simp [stagingAct] at hact
    case staging k => subst hact; exact .of_port ⟨rfl, rfl, rfl⟩
  | acknowledge v =>
    cases h
    refine .of_dataByte fun p act hact => ?_
    cases p <;> simp [acknowledgeAct] at hact
    case mailboxState =>
      obtain ⟨done, rfl⟩ := hact
      exact .of_effect (.acknowledge done)
  | mailboxWithdraw v =>
    cases h
    refine .of_dataByte fun p act hact => ?_
    cases p <;> simp [withdrawAct] at hact
    case mailboxState =>
      obtain ⟨-, rfl⟩ := hact
      exact .of_effect .withdraw
  | overrun v =>
    cases h
    refine .of_dataByte fun p act hact => ?_
    cases p <;> simp [overrunAct] at hact
    case command =>
      obtain ⟨-, rfl⟩ := hact
      exact .of_effect (.notices _)
  | commit | suspend | resume | retire | clearCatalog =>
    exact .onCommand (fun he => .change _ _ he rfl) h
  | fetchEntry => exact .onCommand (fun he => .report _ _ he (reportsOnly_runFetch _)) h
  | findTag => exact .onCommand (fun he => .report _ _ he (reportsOnly_runFindTag _)) h
  | nop => exact .onCommand (fun he => .report _ _ he (reportsOnly_refuse _ _)) h
  | probe => exact .onCommand (fun he => .probe he) h
  | rebind => exact .onCommand (fun he => .rebind _ he) h
  | clearFault => exact .onCommand (fun he => .clearFault _ he) h
  | restartCore => exact .onCommand (fun he => .restart he) h
  | unknownCommand code =>
    change execUnknownCommand code s = .next t at h
    unfold execUnknownCommand at h
    split at h
    · cases h; exact .inl rfl
    · exact .onCommand (fun he => .report _ _ he (reportsOnly_refuse _ _)) h

/-- Every command but POWER_ON_RESET has one of the effects, up to the host port. -/
theorem exec_effect {c : Instr} {s t : State} (hc : ∀ adr, c ≠ .powerOnReset adr)
    (h : exec c s = .next t) : ∃ u p, Effect s u ∧ t = u.withPort p := by
  obtain rfl | ⟨u, rfl, ⟨v, p, effect, rfl, -⟩ | ⟨p, rfl, -⟩⟩ := exec_answers hc h
  · exact ⟨t, t.port, .none, rfl⟩
  · exact ⟨v, _, effect, rfl⟩
  · exact ⟨s, _, .none, rfl⟩

end Sys2Proof.Machine
end

