-- ==== Sys2Proof/Proofs/Moves.lean ====
section
/-! The effects of the commands on the tracking core (catalog, classifier, inputs) as chains of
moves, and the invariants packaged once: what every move keeps, every step keeps. -/

namespace Sys2Proof.Machine

open Relation (ReflTransGen)

/-! ### The tracking core -/

/-- The catalog, the classifier and the inputs are as they were. -/
def CoreSame (s t : State) : Prop :=
  t.catalog = s.catalog ∧ t.classifier = s.classifier ∧ t.inputs = s.inputs

theorem CoreSame.refl (s : State) : CoreSame s s := ⟨rfl, rfl, rfl⟩

theorem CoreSame.slot {s t : State} (h : CoreSame s t) (i : SlotIx) : t.slot i = s.slot i :=
  slot_of_catalog h.1 i

theorem CoreSame.request {s t : State} (h : CoreSame s t) (r : Requester) :
    t.request r = s.request r := request_of_classifier h.2.1 r

theorem CoreSame.tracker {s t : State} (h : CoreSame s t) (n : InputIx) :
    t.tracker n = s.tracker n := tracker_of_inputs h.2.2 n

theorem CoreSame.unit {s t : State} (h : CoreSame s t) (n : InputIx) : t.unit n = s.unit n :=
  unit_of_inputs h.2.2 n

theorem CoreSame.config {s t : State} (h : CoreSame s t) (n : InputIx) :
    t.config n = s.config n := config_of_inputs h.2.2 n

/-- The moves that the effects on the tracking core are made of. -/
inductive CoreMove (s : State) : State → Prop where
  | same {t : State} (h : CoreSame s t) : CoreMove s t
  | pinMoved (n : InputIx) (pin : Pin) (level : Level) : CoreMove s (s.withPin n pin level)
  | accepted (n : InputIx) (pin : Pin) (order : ExpiryOrder) (tick : Nat) :
      CoreMove s (onUnit n tick (acceptTransition order pin) s)
  | changed (n : InputIx) (pin : Pin) (order : ExpiryOrder) (level : Level) (t : Nat)
      (window : BitVec 4) (tick : Nat) :
      CoreMove s (onUnit n tick (pinChange order pin level t window) s)
  | gainTimeout (n : InputIx) (tick : Nat) (h : (s.unit n).state = .quiet) :
      CoreMove s (onUnit n tick (fun u => (Machine.gainTimeout u, [])) s)
  | hLost (n : InputIx) (tick : Nat) (h : isRunning (s.unit n) = true) :
      CoreMove s (onUnit n tick loseHorizontal s)
  | examined (p : Pass) (hp : s.classifier.pass = some p) : CoreMove s (s.withPass (examineStep s p))
  | completed (c : Completion) (p : Pass) (hp : s.classifier.pass = some p)
      (hfin : passFinished p = true) : CoreMove s (completeStart c p s)
  | change (a : Accepted) (run : State → Executed) (hrun : changeOf a = some run)
      (hopen : s.classifier.gate = .opened) : CoreMove s (run s).state
  | arbitrated : CoreMove s (arbitrate s)
  | probeWithdrawn : CoreMove s (withdrawProbe s)
  | probeSubmitted (args : Vector Byte 8) :
      CoreMove s (submit probeRequester (probeRequest args) s)
  | rebound (args : Vector Byte 8) : CoreMove s (runRebind args s).state
  | faultCleared (args : Vector Byte 8) : CoreMove s (runClearFault args s).state
  | restarted : CoreMove s (restartBlocks s)
  | enabled (n : InputIx) (h : (s.config n).enabled = false) : CoreMove s (enableInput n s)
  | disabled (n : InputIx) (h : (s.config n).enabled = true) : CoreMove s (disableInput n s)
  | settleCoast (n : InputIx) (value : Byte) : CoreMove s (writeSettleCoast n value s)
  | glitch (n : InputIx) (value : Byte) : CoreMove s (writeGlitch n value s)
  | faultEnables (n : InputIx) (value : Byte) : CoreMove s (writeFaultEnables n value s)

/-- A chain of moves of the tracking core. -/
abbrev CoreMoves : State → State → Prop := ReflTransGen CoreMove

theorem CoreMoves.of_same {s t : State} (h : CoreSame s t) : CoreMoves s t := .single (.same h)

theorem CoreMoves.of_move {s t : State} (h : CoreMove s t) : CoreMoves s t := .single h

/-- The free values are no part of the core. -/
theorem spendChoice_same (n : InputIx) (pin : Pin) (s : State) :
    CoreSame s (spendChoice n pin s) := by
  unfold spendChoice
  split
  · exact ⟨rfl, rfl, rfl⟩
  · exact .refl s

theorem spendChoice_unit (n m : InputIx) (pin : Pin) (s : State) :
    (spendChoice n pin s).unit m = s.unit m := (spendChoice_same n pin s).unit m

theorem movePin_moves (n : InputIx) (pin : Pin) (level : Level) (tick : Nat) (s : State) :
    CoreMoves s (movePin n pin level tick s) := by
  unfold movePin
  split
  · exact .refl
  · have moved : CoreMoves s (spendChoice n pin (s.withPin n pin level)) :=
      (CoreMoves.of_move (.pinMoved n pin level)).trans
        (CoreMoves.of_same (spendChoice_same n pin _))
    have last := CoreMove.changed (s := spendChoice n pin (s.withPin n pin level)) n pin
      (expiryChoice n pin s) level tick (s.config n).glitch (changeTick pin tick (s.unit n))
    exact moved.tail last

theorem acceptPin_moves (n : InputIx) (pin : Pin) (s : State) :
    CoreMoves s (acceptPin n pin s) :=
  (CoreMoves.of_same (spendChoice_same n pin s)).tail (.accepted n pin _ _)

theorem passComplete_moves (c : Completion) (s : State) : CoreMoves s (passComplete c s) := by
  unfold passComplete
  split
  · next p hp =>
    split
    · exact .of_move (.completed c p hp ‹_›)
    · exact .refl
  · exact .refl

theorem classifierStep_moves (s : State) : CoreMoves s (classifierStep s) := by
  unfold classifierStep
  split
  · next p hp =>
    split
    · exact .refl
    · exact .of_move (.examined p hp)
  · exact .refl

theorem completeCommand_same (r : Executed) : CoreSame r.state (completeCommand r) :=
  ⟨rfl, rfl, rfl⟩

theorem acceptCommand_same (code : Byte) (s : State) : CoreSame s (acceptCommand code s) :=
  ⟨rfl, rfl, rfl⟩

theorem executeHeld_moves (s : State) : CoreMoves s (executeHeld s) := by
  unfold executeHeld
  split
  · next a hstate hgate hacc =>
    split
    · next run hrun =>
      exact ((CoreMoves.of_move (.change a run hrun hgate)).trans
        (CoreMoves.of_same (completeCommand_same _))).tail .arbitrated
    · exact .refl
  · exact .refl

theorem withdrawCommand_moves (s : State) : CoreMoves s (withdrawCommand s) := by
  have emptied : CoreMoves s (emptyMailbox s) := .of_same ⟨rfl, rfl, rfl⟩
  unfold withdrawCommand
  split
  · exact emptied.tail .arbitrated
  · exact emptied.tail .probeWithdrawn
  · exact .refl
  · exact .refl

theorem issueNow_moves {code : Byte} {run : State → Executed}
    (h : ∀ s, CoreMoves s (run s).state) (s : State) : CoreMoves s (issueNow code run s) :=
  ((CoreMoves.of_same (acceptCommand_same code s)).trans (h _)).trans
    (CoreMoves.of_same (completeCommand_same _))

theorem issueChange_moves {code : Byte} {run : State → Executed} {a : Accepted}
    (hrun : changeOf a = some run) (s : State) : CoreMoves s (issueChange code run s) := by
  have taken := CoreMoves.of_same (acceptCommand_same code s)
  unfold issueChange
  dsimp only
  split
  · next hgate =>
    exact (taken.tail (.change a run hrun hgate)).trans (CoreMoves.of_same (completeCommand_same _))
  · exact taken.trans (CoreMoves.of_same ⟨rfl, rfl, rfl⟩)

theorem issueProbe_moves (s : State) : CoreMoves s (issueProbe s) := by
  have taken := CoreMoves.of_same (acceptCommand_same (commandCode .probe) s)
  unfold issueProbe
  dsimp only
  split
  · exact taken.trans (CoreMoves.of_same (completeCommand_same _))
  · refine ReflTransGen.tail ?_ (.probeSubmitted s.mailbox.args)
    exact taken.trans (CoreMoves.of_same ⟨rfl, rfl, rfl⟩)

/-- Every effect is a chain of moves of the tracking core. -/
theorem Effect.moves {s t : State} (h : Effect s t) : CoreMoves s t := by
  cases h with
  | none => exact .refl
  | pin n pin level tick => exact movePin_moves n pin level tick s
  | accept n pin => exact acceptPin_moves n pin s
  | gainTimeout n tick h => exact .of_move (.gainTimeout n tick h)
  | hLost n tick h => exact .of_move (.hLost n tick h)
  | classifierStep => exact classifierStep_moves s
  | passComplete c => exact passComplete_moves c s
  | executeHeld => exact executeHeld_moves s
  | argument k value => exact .of_same ⟨rfl, rfl, rfl⟩
  | enable n h => exact .of_move (.enabled n h)
  | disable n h => exact .of_move (.disabled n h)
  | settleCoast n value => exact .of_move (.settleCoast n value)
  | glitch n value => exact .of_move (.glitch n value)
  | faultEnables n value => exact .of_move (.faultEnables n value)
  | notices x => exact .of_same ⟨rfl, rfl, rfl⟩
  | acknowledge h => exact .of_same ⟨rfl, rfl, rfl⟩
  | withdraw => exact withdrawCommand_moves s
  | change code run h hrun => exact issueChange_moves hrun s
  | report code run h hrun =>
    refine issueNow_moves (fun u => ?_) s
    obtain ⟨p, hp, -⟩ := hrun u
    rw [hp]
    exact .of_same ⟨rfl, rfl, rfl⟩
  | rebind args h => exact issueNow_moves (fun u => .of_move (.rebound args)) s
  | clearFault args h => exact issueNow_moves (fun u => .of_move (.faultCleared args)) s
  | restart h => exact issueNow_moves (fun u => .of_move .restarted) s
  | probe h => exact issueProbe_moves s

/-! ### Invariants, packaged once -/

/-- A step is a reset, or an effect of the front command and a change of the host port, on the
state with the rest of the queue. -/
theorem step_effect {s t : State} (h : step s = .next t) :
    t = s ∨ ∃ rest, (∃ adr, t = powerOnReset adr { s with pending := rest })
      ∨ ∃ u p, Effect { s with pending := rest } u ∧ t = u.withPort p := by
  unfold step at h
  split at h
  · cases h; exact .inl rfl
  · next c rest _ =>
    refine .inr ⟨rest, ?_⟩
    by_cases hc : ∃ adr, c = .powerOnReset adr
    · obtain ⟨adr, rfl⟩ := hc
      cases h
      exact .inl ⟨adr, rfl⟩
    · exact .inr (exec_effect (fun adr he => hc ⟨adr, he⟩) h)

/-- What a reset and every move of the tracking core keep, every step keeps. -/
theorem step_keeps {P : State → Prop} (hreset : ∀ adr s, P s → P (powerOnReset adr s))
    (hmove : ∀ s t, CoreMove s t → P s → P t) {s t : State} (hs : P s)
    (h : step s = .next t) : P t := by
  have chain : ∀ {u v : State}, CoreMoves u v → P u → P v := by
    intro u v moves hu
    induction moves with
    | refl => exact hu
    | tail _ last ih => exact hmove _ _ last ih
  obtain rfl | ⟨rest, ⟨adr, rfl⟩ | ⟨u, p, effect, rfl⟩⟩ := step_effect h
  · exact hs
  · exact hreset adr _ (hmove s _ (.same ⟨rfl, rfl, rfl⟩) hs)
  · refine hmove u _ (.same ⟨rfl, rfl, rfl⟩) (chain effect.moves ?_)
    exact hmove s _ (.same ⟨rfl, rfl, rfl⟩) hs

/-! ### The moves of one tracker -/

/-- The moves that everything input `n`'s tracker does on its own is made of: its record, its
request, claims on slots, its notices, and the classifier's answers to a submission. -/
inductive TrackerMove (n : InputIx) (s : State) : State → Prop where
  | tracker (t : Tracker) : TrackerMove n s (s.withTracker n t)
  | request (q : Option Request) : TrackerMove n s (s.withRequest (inputRequester n) q)
  | claim (i : SlotIx) (f : Nat → Nat) : TrackerMove n s (Machine.claim i f s)
  | notice (k : InputNotice) : TrackerMove n s (s.setNotice n k)
  | arbitrated : TrackerMove n s (arbitrate s)
  | replaced (q : Request) (tick : Nat) (p : Pass) (hp : s.classifier.pass = some p)
      (hq : supersedesGranted (inputRequester n) q tick s p = true) :
      TrackerMove n s
        (s.withPass (some { grantedPass (inputRequester n) q with disturbed := p.disturbed }))

/-- A chain of moves of input `n`'s tracker. -/
abbrev TrackerMoves (n : InputIx) : State → State → Prop := ReflTransGen (TrackerMove n)

theorem TrackerMoves.of_move {n : InputIx} {s t : State} (h : TrackerMove n s t) :
    TrackerMoves n s t := .single h

section
variable {n : InputIx} {s t : State}

theorem TrackerMoves.withTracker (h : TrackerMoves n s t) (x : Tracker) :
    TrackerMoves n s (t.withTracker n x) := h.tail (.tracker x)

theorem TrackerMoves.setNotice (h : TrackerMoves n s t) (k : InputNotice) :
    TrackerMoves n s (t.setNotice n k) := h.tail (.notice k)

theorem TrackerMoves.claim (h : TrackerMoves n s t) (i : SlotIx) (f : Nat → Nat) :
    TrackerMoves n s (Machine.claim i f t) := h.tail (.claim i f)

theorem TrackerMoves.changeState (h : TrackerMoves n s t) (new : TrackerState) :
    TrackerMoves n s (Machine.changeState n new t) := (h.tail (.request _)).tail (.tracker _)

theorem TrackerMoves.submit (h : TrackerMoves n s t) (q : Request) :
    TrackerMoves n s (Machine.submit (inputRequester n) q t) :=
  (h.tail (.request _)).tail .arbitrated

theorem TrackerMoves.submitAt (h : TrackerMoves n s t) (q : Request) (tick : Nat) :
    TrackerMoves n s (Machine.submitAt (inputRequester n) q tick t) := by
  unfold Machine.submitAt
  split
  · exact h.submit q
  · next p hp =>
    split
    · exact h.tail (.replaced q tick p hp ‹_›)
    · exact h.submit q

theorem TrackerMoves.submitHeld (h : TrackerMoves n s t) (k : PassKind) :
    TrackerMoves n s (Machine.submitHeld n k t) := by
  unfold Machine.submitHeld
  split
  · exact h.submit _
  · exact h

theorem TrackerMoves.holdSet (h : TrackerMoves n s t) (m : Option MeasSet) :
    TrackerMoves n s (Machine.holdSet n m t) := h.withTracker _

theorem TrackerMoves.release (h : TrackerMoves n s t) (reason : Reason) :
    TrackerMoves n s (Machine.release n reason t) := by
  unfold Machine.release
  split
  · exact h
  · dsimp only
    split
    · exact (h.claim _ _).withTracker _
    · exact ((h.claim _ _).withTracker _).setNotice .lost

theorem TrackerMoves.releaseByResult (h : TrackerMoves n s t) (reason : Reason) (tick : Nat) :
    TrackerMoves n s (Machine.releaseByResult n reason tick t) := (h.release reason).withTracker _

theorem TrackerMoves.settleWith (h : TrackerMoves n s t) (c : Nat) (m : MeasSet) :
    TrackerMoves n s (Machine.settleWith n c m t) := by
  unfold Machine.settleWith completeSettling
  dsimp only
  split
  · split
    · exact (((h.withTracker _).changeState _).holdSet _).submitHeld _
    · exact (((h.withTracker _).changeState _).holdSet _).submitHeld _
  · exact h.withTracker _

theorem TrackerMoves.settleAfresh (h : TrackerMoves n s t) (m : MeasSet) :
    TrackerMoves n s (Machine.settleAfresh n m t) := (h.changeState _).settleWith 1 m

theorem TrackerMoves.bindTo (h : TrackerMoves n s t) (via : Via) (m : Match) :
    TrackerMoves n s (Machine.bindTo n via m t) := by
  unfold Machine.bindTo
  split
  · exact h
  · exact (((h.claim _ _).withTracker _).changeState _).setNotice _

end

section
variable (n : InputIx) (s : State)

theorem takeHGained_moves : TrackerMoves n s (takeHGained n s) := by
  unfold takeHGained
  split
  case h_1 => exact (TrackerMoves.changeState .refl _).setNotice _
  all_goals exact .refl

theorem takeHLost_moves : TrackerMoves n s (takeHLost n s) := by
  unfold takeHLost
  split
  case h_6 | h_7 | h_8 => exact .refl
  all_goals exact (TrackerMoves.release .refl _).changeState _

theorem takeVLost_moves : TrackerMoves n s (takeVLost n s) := by
  unfold takeVLost
  split
  case h_1 => exact .withTracker .refl _
  case h_6 | h_7 | h_8 => exact .refl
  all_goals exact (TrackerMoves.release .refl _).changeState _

theorem takeSet_moves (tick : Nat) (m : MeasSet) : TrackerMoves n s (takeSet n tick m s) := by
  unfold takeSet
  dsimp only
  split
  case h_1 => exact .settleWith .refl _ _
  case h_2 =>
    split
    · exact .refl
    · exact .settleAfresh .refl _
  case h_3 | h_4 => exact .submitAt .refl _ _
  case h_5 =>
    split
    · split
      · exact (TrackerMoves.changeState .refl _).submitHeld _
      · exact .refl
    · exact .settleAfresh .refl _
  all_goals exact .refl

theorem takeDetection_moves (k : FaultKind) (tick : Nat) :
    TrackerMoves n s (takeDetection n k tick s) := by
  have latched : TrackerMoves n s (addToLatch n k s) := .withTracker .refl _
  unfold takeDetection latchFault
  split
  · split
    case h_1 => exact .refl
    case h_2 => exact latched.setNotice _
    all_goals exact (((latched.release _).withTracker _).changeState _).setNotice _
  · exact .refl

/-- Every report of the unit is taken by moves of its own tracker. -/
theorem takeReport_moves (tick : Nat) (r : Report) : TrackerMoves n s (takeReport n tick s r) := by
  cases r with
  | hGained => exact takeHGained_moves n s
  | hLost => exact takeHLost_moves n s
  | vLost => exact takeVLost_moves n s
  | published m => exact takeSet_moves n s tick m
  | detected k => exact takeDetection_moves n s k tick

theorem takeReports_moves (tick : Nat) (rs : List Report) :
    TrackerMoves n s (rs.foldl (takeReport n tick) s) := by
  induction rs generalizing s with
  | nil => exact .refl
  | cons r rs ih => exact (takeReport_moves n s tick r).trans (ih _)

theorem takeMatch_moves (via : Via) (m : Match) : TrackerMoves n s (takeMatch n via m s) := by
  unfold takeMatch
  split
  case h_1 => exact .bindTo .refl _ _
  all_goals exact .refl

theorem takeVerify_moves (tick : Nat) (pass : Bool) (g : Byte) (m : MeasSet) :
    TrackerMoves n s (takeVerify n tick pass g m s) := by
  have judged : ∀ b, TrackerMoves n s
      (if pass then takeVerifyPass n g b s
        else if g = b.generation then takeDeviation n tick m s else takeEdited n tick m s) := by
    intro b
    split
    · unfold takeVerifyPass
      dsimp only
      split
      · exact (TrackerMoves.withTracker .refl _).changeState _
      · exact .withTracker .refl _
    · split
      · unfold takeDeviation
        dsimp only
        split
        · split
          · exact ((TrackerMoves.changeState .refl _).withTracker _).setNotice _
          · exact (TrackerMoves.withTracker .refl _).setNotice _
        · exact (TrackerMoves.releaseByResult .refl _ _).settleAfresh _
      · exact (((TrackerMoves.releaseByResult .refl _ _).changeState _).holdSet _).submitHeld _
  unfold takeVerify
  dsimp only
  split
  · exact judged _
  · exact judged _
  · exact .refl

/-- Every result is taken by moves of the requester's own tracker. -/
theorem takeResult_moves (tick : Nat) (p : Pass) : TrackerMoves n s (takeResult n tick p s) := by
  unfold takeResult
  split
  · exact takeMatch_moves n s _ _
  · unfold takeNoMatch
    split
    case h_1 => exact (TrackerMoves.changeState .refl _).setNotice _
    all_goals exact .refl
  · exact takeMatch_moves n s _ _
  · unfold takeRecallFail
    split
    case h_1 => exact (TrackerMoves.withTracker .refl _).submitHeld _
    all_goals exact .refl
  · exact takeVerify_moves n s tick _ _ _
  · exact .refl

theorem retireInput_moves : TrackerMoves n s (retireInput s n) :=
  (TrackerMoves.release .refl _).changeState _

theorem rebindBound_moves : TrackerMoves n s (rebindBound n s) :=
  (((TrackerMoves.release .refl _).changeState _).holdSet _).submitHeld _

theorem enableTracker_moves : TrackerMoves n s (enableTracker n s) := .changeState .refl _

theorem disableTracker_moves : TrackerMoves n s (disableTracker n s) :=
  ((TrackerMoves.release .refl _).changeState _).withTracker _

end

/-! ### What the moves of one tracker leave alone -/

/-- What no move of a tracker touches: the queue, the mailbox, the port, the free values, the other
inputs, and the pins, configuration and measurement unit of its own. -/
structure TrackerFrame (n : InputIx) (s t : State) : Prop where
  pending : t.pending = s.pending
  mailbox : t.mailbox = s.mailbox
  port : t.port = s.port
  freeIndex : t.freeIndex = s.freeIndex
  masks : t.notices.masks = s.notices.masks
  globalFlags : t.notices.globalFlags = s.notices.globalFlags
  globalMasks : t.notices.globalMasks = s.notices.globalMasks
  occupancy : t.catalog.occupancy = s.catalog.occupancy
  tagMap : t.catalog.tagMap = s.catalog.tagMap
  gate : t.classifier.gate = s.classifier.gate
  endTick : t.classifier.endTick = s.classifier.endTick
  others : ∀ m, m ≠ n → t.input m = s.input m
  own : ∃ x, t.input n = { s.input n with tracker := x }
  slots : ∀ i, ∃ k, t.slot i = { s.slot i with bindCount := k }

theorem TrackerFrame.refl (n : InputIx) (s : State) : TrackerFrame n s s :=
  ⟨rfl, rfl, rfl, rfl, rfl, rfl, rfl, rfl, rfl, rfl, rfl, fun _ _ => rfl, ⟨_, rfl⟩,
    fun _ => ⟨_, rfl⟩⟩

theorem TrackerFrame.trans {n : InputIx} {s t u : State} (h : TrackerFrame n s t)
    (h' : TrackerFrame n t u) : TrackerFrame n s u where
  pending := h'.pending.trans h.pending
  mailbox := h'.mailbox.trans h.mailbox
  port := h'.port.trans h.port
  freeIndex := h'.freeIndex.trans h.freeIndex
  masks := h'.masks.trans h.masks
  globalFlags := h'.globalFlags.trans h.globalFlags
  globalMasks := h'.globalMasks.trans h.globalMasks
  occupancy := h'.occupancy.trans h.occupancy
  tagMap := h'.tagMap.trans h.tagMap
  gate := h'.gate.trans h.gate
  endTick := h'.endTick.trans h.endTick
  others m hm := (h'.others m hm).trans (h.others m hm)
  own := by
    obtain ⟨x, hx⟩ := h.own
    obtain ⟨y, hy⟩ := h'.own
    exact ⟨y, by rw [hy, hx]⟩
  slots i := by
    obtain ⟨k, hk⟩ := h.slots i
    obtain ⟨l, hl⟩ := h'.slots i
    exact ⟨l, by rw [hl, hk]⟩

theorem arbitrateClassifier_gate (c : Classifier) : (arbitrateClassifier c).gate = c.gate := by
  unfold arbitrateClassifier grant
  split
  · split <;> rfl
  · rfl

theorem arbitrateClassifier_endTick (c : Classifier) :
    (arbitrateClassifier c).endTick = c.endTick := by
  unfold arbitrateClassifier grant
  split
  · split <;> rfl
  · rfl

@[simp] theorem arbitrate_slot (s : State) (i : SlotIx) : (arbitrate s).slot i = s.slot i := rfl

@[simp] theorem arbitrate_classifier (s : State) :
    (arbitrate s).classifier = arbitrateClassifier s.classifier := rfl

theorem TrackerMove.frame {n : InputIx} {s t : State} (h : TrackerMove n s t) :
    TrackerFrame n s t := by
  cases h with
  | tracker x =>
    exact { TrackerFrame.refl n s with
      others := fun m hm => by simp [input_withTracker, hm]
      own := ⟨x, by simp [input_withTracker]⟩ }
  | request q => exact { TrackerFrame.refl n s with }
  | claim i f =>
    refine { TrackerFrame.refl n s with slots := fun j => ?_ }
    rw [Machine.claim, slot_withSlot]
    split
    · next h => subst h; exact ⟨_, rfl⟩
    · exact ⟨_, rfl⟩
  | notice k => exact { TrackerFrame.refl n s with }
  | arbitrated =>
    exact { TrackerFrame.refl n s with
      gate := arbitrateClassifier_gate s.classifier
      endTick := arbitrateClassifier_endTick s.classifier }
  | replaced q tick p hp hq => exact { TrackerFrame.refl n s with }

/-- The frame of everything a tracker does on its own. -/
theorem TrackerMoves.frame {n : InputIx} {s t : State} (h : TrackerMoves n s t) :
    TrackerFrame n s t := by
  induction h with
  | refl => exact .refl n s
  | tail _ last ih => exact ih.trans last.frame

section
variable {n : InputIx} {s t : State}

theorem TrackerFrame.unit (h : TrackerFrame n s t) (m : InputIx) : t.unit m = s.unit m := by
  by_cases hm : m = n
  · obtain ⟨x, hx⟩ := h.own
    subst hm
    rw [State.unit, hx]; rfl
  · rw [State.unit, h.others m hm]; rfl

theorem TrackerFrame.config (h : TrackerFrame n s t) (m : InputIx) :
    t.config m = s.config m := by
  by_cases hm : m = n
  · obtain ⟨x, hx⟩ := h.own
    subst hm
    rw [State.config, hx]; rfl
  · rw [State.config, h.others m hm]; rfl

theorem TrackerFrame.pinLevel (h : TrackerFrame n s t) (m : InputIx) :
    t.pinLevel m = s.pinLevel m := by
  funext pin
  by_cases hm : m = n
  · obtain ⟨x, hx⟩ := h.own
    subst hm
    cases pin <;> simp only [State.pinLevel, hx]
  · cases pin <;> simp only [State.pinLevel, h.others m hm]

theorem TrackerFrame.tracker_ne (h : TrackerFrame n s t) {m : InputIx} (hm : m ≠ n) :
    t.tracker m = s.tracker m := by
  rw [State.tracker, h.others m hm]; rfl

theorem TrackerFrame.unitsKept (h : TrackerFrame n s t) : unitsKept s t :=
  fun m => ⟨h.config m, h.pinLevel m, h.unit m⟩

theorem TrackerFrame.slot_state (h : TrackerFrame n s t) (i : SlotIx) :
    (t.slot i).state = (s.slot i).state := by
  obtain ⟨k, hk⟩ := h.slots i
  rw [hk]

end

end Sys2Proof.Machine
end

