-- ==== Sys2Proof/Proofs/Queue.lean ====
section
/-! What a catalog change leaves alone, and that no command touches the queue. -/

namespace Sys2Proof.Machine

/-! ### The frame of a catalog change -/

/-- What a catalog change leaves alone, whichever inputs it releases: the queue, the mailbox, the
port, the masks and global flags, the gate, and the pins, configuration and measurement unit of every
input. -/
structure ChangeFrame (s t : State) : Prop where
  pending : t.pending = s.pending
  mailbox : t.mailbox = s.mailbox
  port : t.port = s.port
  masks : t.notices.masks = s.notices.masks
  globalFlags : t.notices.globalFlags = s.notices.globalFlags
  globalMasks : t.notices.globalMasks = s.notices.globalMasks
  gate : t.classifier.gate = s.classifier.gate
  endTick : t.classifier.endTick = s.classifier.endTick
  units : unitsKept s t

theorem ChangeFrame.refl (s : State) : ChangeFrame s s :=
  ⟨rfl, rfl, rfl, rfl, rfl, rfl, rfl, rfl, fun _ => ⟨rfl, rfl, rfl⟩⟩

theorem ChangeFrame.trans {s t u : State} (h : ChangeFrame s t) (h' : ChangeFrame t u) :
    ChangeFrame s u where
  pending := h'.pending.trans h.pending
  mailbox := h'.mailbox.trans h.mailbox
  port := h'.port.trans h.port
  masks := h'.masks.trans h.masks
  globalFlags := h'.globalFlags.trans h.globalFlags
  globalMasks := h'.globalMasks.trans h.globalMasks
  gate := h'.gate.trans h.gate
  endTick := h'.endTick.trans h.endTick
  units n := by
    obtain ⟨config, pins, unit⟩ := h.units n
    obtain ⟨config', pins', unit'⟩ := h'.units n
    exact ⟨config'.trans config, pins'.trans pins, unit'.trans unit⟩

theorem TrackerFrame.change {n : InputIx} {s t : State} (h : TrackerFrame n s t) :
    ChangeFrame s t :=
  { h with units := h.unitsKept }

/-- A fold of moves of trackers has the frame of each. -/
theorem foldl_changeFrame {f : State → InputIx → State} (h : ∀ s n, TrackerMoves n s (f s n))
    (l : List InputIx) (s : State) : ChangeFrame s (l.foldl f s) := by
  induction l generalizing s with
  | nil => exact .refl s
  | cons n l ih => exact (h s n).frame.change.trans (ih _)

theorem mapTrackers_changeFrame (f : Tracker → Tracker) (s : State) :
    ChangeFrame s (mapTrackers f s) :=
  { ChangeFrame.refl s with
    units := fun n => by
      refine ⟨config_mapTrackers s f n, ?_, unit_mapTrackers s f n⟩
      funext pin
      cases pin <;> simp [State.pinLevel] }

theorem disturbPass_changeFrame (s : State) : ChangeFrame s (disturbPass s) :=
  { ChangeFrame.refl s with }

theorem nextFree_changeFrame (s : State) : ChangeFrame s s.nextFree :=
  { ChangeFrame.refl s with }

theorem handMarks_changeFrame (s : State) : ChangeFrame s (handMarks s) :=
  (disturbPass_changeFrame s).trans (mapTrackers_changeFrame markRecheck _)

theorem withCatalog_changeFrame (c : Catalog) (s : State) : ChangeFrame s (s.withCatalog c) :=
  { ChangeFrame.refl s with }

theorem retireSlot_changeFrame (i : SlotIx) (s : State) : ChangeFrame s (retireSlot i s) :=
  (((foldl_changeFrame (fun s n => retireInput_moves n s) _ s).trans
    (mapTrackers_changeFrame _ _)).trans (withCatalog_changeFrame _ _)).trans
    (handMarks_changeFrame _)

theorem clearSlots_changeFrame (s : State) : ChangeFrame s (clearSlots s) :=
  (((foldl_changeFrame (fun s n => retireInput_moves n s) _ s).trans
    (mapTrackers_changeFrame _ _)).trans (withCatalog_changeFrame _ _)).trans
    (handMarks_changeFrame _)

theorem submitReleased_changeFrame (l : List InputIx) (s : State) :
    ChangeFrame s (submitReleased l s) := by
  have searches := foldl_changeFrame (f := fun s n => submitHeld n .search s)
    fun s n => TrackerMoves.submitHeld .refl .search
  unfold submitReleased
  split
  · exact (nextFree_changeFrame s).trans (searches _ _)
  · exact searches l s

/-! ### The catalog changes -/

/-- The five catalog changes, by the code of the accepted copy. -/
theorem changeOf_cases {a : Accepted} {run : State → Executed} (h : changeOf a = some run) :
    (∃ image, a.image = some image ∧ run = runCommit a.args image) ∨ run = runSuspend a.args
      ∨ run = runResume a.args ∨ run = runRetire a.args ∨ run = runClear := by
  unfold changeOf at h
  split at h
  case h_1 image _ himage => exact .inl ⟨image, himage, (Option.some.inj h).symm⟩
  case h_2 => exact .inr (.inl (Option.some.inj h).symm)
  case h_3 => exact .inr (.inr (.inl (Option.some.inj h).symm))
  case h_4 => exact .inr (.inr (.inr (.inl (Option.some.inj h).symm)))
  case h_5 => exact .inr (.inr (.inr (.inr (Option.some.inj h).symm)))
  case h_6 => exact absurd h (by simp)

/-- A commit is refused, and leaves the state as it is, or installs the staged entry. -/
theorem runCommit_cases (args : Vector Byte 8) (image : Vector Byte 32) (s : State) :
    (runCommit args image s).state = s
      ∨ ∃ i, slotArg args = some i ∧ fieldFailure image = none
        ∧ (∀ j, findTag (stagedEntry image).tag s.catalog.tagMap = some j → j = i)
        ∧ runCommit args image s = commitPassed i (stagedEntry image) s := by
  unfold runCommit
  split
  · exact .inl rfl
  · next i hi =>
    split
    · exact .inl rfl
    · next hfields =>
      unfold commitFields
      split
      · next j hj =>
        split
        · next same => exact .inr ⟨i, hi, hfields, fun k hk => by simp_all, rfl⟩
        · exact .inl rfl
      · next hnone => exact .inr ⟨i, hi, hfields, fun k hk => by simp_all, rfl⟩

/-- A toggle is refused, or changes the state of one slot that stands in the required state. -/
theorem runToggle_cases (required new : SlotState) (args : Vector Byte 8) (s : State) :
    (runToggle required new args s).state = s
      ∨ ∃ i, slotArg args = some i ∧ (s.slot i).state = required
        ∧ (runToggle required new args s).state
          = handMarks (s.withSlot i { s.slot i with state := new }) := by
  unfold runToggle
  split
  · exact .inl rfl
  · next i hi =>
    split
    · next stands => exact .inr ⟨i, hi, stands, rfl⟩
    · exact .inl rfl

/-- A retire is refused, or frees one slot that is not FREE and submits the searches of its inputs. -/
theorem runRetire_cases (args : Vector Byte 8) (s : State) :
    (runRetire args s).state = s
      ∨ ∃ i, slotArg args = some i ∧ (s.slot i).state ≠ .free
        ∧ (runRetire args s).state = submitReleased (inputsBoundTo i s) (retireSlot i s) := by
  unfold runRetire
  split
  · exact .inl rfl
  · next i hi =>
    split
    · exact .inl rfl
    · next stands => exact .inr ⟨i, hi, stands, rfl⟩

/-- The frame of every catalog change. -/
theorem changeOf_frame {a : Accepted} {run : State → Executed} (h : changeOf a = some run)
    (s : State) : ChangeFrame s (run s).state := by
  have toggled : ∀ required new, ChangeFrame s (runToggle required new a.args s).state := by
    intro required new
    obtain same | ⟨i, -, -, eq⟩ := runToggle_cases required new a.args s
    · rw [same]; exact .refl s
    · rw [eq]; exact (withCatalog_changeFrame _ s).trans (handMarks_changeFrame _)
  obtain ⟨image, -, rfl⟩ | rfl | rfl | rfl | rfl := changeOf_cases h
  · obtain same | ⟨i, -, -, -, eq⟩ := runCommit_cases a.args image s
    · rw [same]; exact .refl s
    · rw [eq]; exact (withCatalog_changeFrame _ s).trans (handMarks_changeFrame _)
  · exact toggled _ _
  · exact toggled _ _
  · obtain same | ⟨i, -, -, eq⟩ := runRetire_cases a.args s
    · rw [same]; exact .refl s
    · rw [eq]; exact (retireSlot_changeFrame i s).trans (submitReleased_changeFrame _ _)
  · exact (clearSlots_changeFrame s).trans (submitReleased_changeFrame _ _)

/-! ### The queue and the view -/

theorem rebindInput_moves (n : InputIx) (s : State) : TrackerMoves n s (rebindInput n s).state := by
  unfold rebindInput
  dsimp only
  split
  case h_1 | h_2 => exact rebindBound_moves n s
  case h_3 => exact (TrackerMoves.changeState .refl _).submitHeld _
  all_goals exact .refl

/-- The queue and the view of the port are as they were. -/
def QueueAndViewKept (s t : State) : Prop := t.pending = s.pending ∧ ViewKept s.port t.port

theorem QueueAndViewKept.refl (s : State) : QueueAndViewKept s s := ⟨rfl, .refl _⟩

theorem QueueAndViewKept.trans {s t u : State} (h : QueueAndViewKept s t)
    (h' : QueueAndViewKept t u) : QueueAndViewKept s u := ⟨h'.1.trans h.1, h.2.trans h'.2⟩

theorem QueueAndViewKept.of_port {s t : State} (hq : t.pending = s.pending)
    (hp : t.port = s.port) : QueueAndViewKept s t := ⟨hq, by rw [hp]; exact .refl _⟩

theorem ChangeFrame.queueAndView {s t : State} (h : ChangeFrame s t) : QueueAndViewKept s t :=
  .of_port h.pending h.port

theorem onUnit_queueAndView (n : InputIx) (tick : Nat) (f : MeasUnit → Measured) (s : State) :
    QueueAndViewKept s (onUnit n tick f s) := by
  obtain ⟨pending, -, port, -⟩ := applyMeasured_kept s n tick (f (s.unit n))
  exact .of_port pending port

theorem spendChoice_queueAndView (n : InputIx) (pin : Pin) (s : State) :
    QueueAndViewKept s (spendChoice n pin s) := by
  unfold spendChoice
  split
  · exact .of_port rfl rfl
  · exact .refl s

theorem withPin_queueAndView (n : InputIx) (pin : Pin) (level : Level) (s : State) :
    QueueAndViewKept s (s.withPin n pin level) := by
  cases pin <;> exact .of_port rfl rfl

theorem movePin_queueAndView (n : InputIx) (pin : Pin) (level : Level) (tick : Nat) (s : State) :
    QueueAndViewKept s (movePin n pin level tick s) := by
  unfold movePin
  split
  · exact .refl s
  · exact ((withPin_queueAndView n pin level s).trans (spendChoice_queueAndView n pin _)).trans
      (onUnit_queueAndView _ _ _ _)

theorem arbitrate_queueAndView (s : State) : QueueAndViewKept s (arbitrate s) := .of_port rfl rfl

theorem deliver_queueAndView (tick : Nat) (p : Pass) (s : State) :
    QueueAndViewKept s (deliver tick p s) := by
  unfold deliver
  split
  · exact (takeResult_moves _ s tick p).frame.change.queueAndView
  · unfold takeProbeResult
    split <;> exact .of_port rfl rfl

theorem endPass_queueAndView (c : Completion) (p : Pass) (s : State) :
    QueueAndViewKept s (endPass c p s) := by
  unfold endPass
  dsimp only
  split <;> exact .of_port rfl rfl

theorem completeStart_queueAndView (c : Completion) (p : Pass) (s : State) :
    QueueAndViewKept s (completeStart c p s) := by
  unfold completeStart
  split
  · exact endPass_queueAndView c p s
  · split
    · unfold restartPass
      dsimp only
      split <;> exact .of_port rfl rfl
    · exact (deliver_queueAndView c.tick p s).trans (endPass_queueAndView c p _)

theorem withdrawProbe_queueAndView (s : State) : QueueAndViewKept s (withdrawProbe s) := by
  unfold withdrawProbe
  split <;> exact .of_port rfl rfl

theorem restartBlocks_queueAndView (s : State) : QueueAndViewKept s (restartBlocks s) := by
  have released := (foldl_changeFrame
    (fun s n => TrackerMoves.release (n := n) (s := s) .refl .coreRestart) (boundInputs s)
    s).queueAndView
  exact released

theorem issueNow_queueAndView {code : Byte} {run : State → Executed} {s : State}
    (h : ∀ s, QueueAndViewKept s (run s).state) : QueueAndViewKept s (issueNow code run s) :=
  h (acceptCommand code s)

/-- No effect touches the queue or the view. -/
theorem Effect.queueAndView {s t : State} (h : Effect s t) : QueueAndViewKept s t := by
  cases h with
  | none | argument | glitch | faultEnables | notices | acknowledge => exact .of_port rfl rfl
  | pin n pin level tick => exact movePin_queueAndView n pin level tick s
  | accept n pin => exact (spendChoice_queueAndView n pin s).trans (onUnit_queueAndView _ _ _ _)
  | gainTimeout n tick h => exact onUnit_queueAndView _ _ _ _
  | hLost n tick h => exact onUnit_queueAndView _ _ _ _
  | classifierStep =>
    unfold Machine.classifierStep
    split
    · split <;> exact .of_port rfl rfl
    · exact .refl s
  | passComplete c =>
    unfold Machine.passComplete
    split
    · split
      · exact completeStart_queueAndView c _ s
      · exact .refl s
    · exact .refl s
  | executeHeld =>
    unfold Machine.executeHeld
    split
    · split
      · next run hrun =>
        exact (changeOf_frame hrun s).queueAndView.trans (arbitrate_queueAndView _)
      · exact .refl s
    · exact .refl s
  | enable n h => exact (enableTracker_moves n _).frame.change.queueAndView
  | disable n h => exact (disableTracker_moves n _).frame.change.queueAndView
  | settleCoast n value => exact .of_port rfl rfl
  | withdraw =>
    unfold withdrawCommand
    split
    · exact arbitrate_queueAndView _
    · exact withdrawProbe_queueAndView _
    · exact .refl s
    · exact .refl s
  | change code run h hrun =>
    unfold issueChange
    dsimp only
    split
    · exact (changeOf_frame hrun _).queueAndView
    · exact .of_port rfl rfl
  | report code run h hrun =>
    refine issueNow_queueAndView fun u => ?_
    obtain ⟨p, hp, view⟩ := hrun u
    rw [hp]; exact ⟨rfl, view⟩
  | rebind args h =>
    refine issueNow_queueAndView fun u => ?_
    unfold runRebind
    split
    · exact .refl u
    · exact (rebindInput_moves _ u).frame.change.queueAndView
  | clearFault args h =>
    refine issueNow_queueAndView fun u => ?_
    unfold runClearFault
    split
    · exact .refl u
    · split <;> exact .of_port rfl rfl
  | restart h => exact issueNow_queueAndView restartBlocks_queueAndView
  | probe h =>
    unfold issueProbe
    dsimp only
    split
    · exact .of_port rfl rfl
    · exact .of_port rfl rfl

/-- Every command answers a next state. -/
theorem exec_next (c : Instr) (s : State) : ∃ t, exec c s = .next t := by
  cases c
  case unknownCommand code =>
    change ∃ t, execUnknownCommand code s = .next t
    unfold execUnknownCommand
    split <;> exact ⟨_, rfl⟩
  all_goals exact ⟨_, rfl⟩

/-- No command touches the queue. -/
theorem exec_pending {c : Instr} {s t : State} (h : exec c s = .next t) :
    t.pending = s.pending := by
  by_cases hc : ∃ adr, c = .powerOnReset adr
  · obtain ⟨adr, rfl⟩ := hc
    cases h; rfl
  · obtain ⟨u, p, effect, rfl⟩ := exec_effect (fun adr he => hc ⟨adr, he⟩) h
    exact effect.queueAndView.1

/-! ### The obligation -/

/-- Settles O1: the two branches of `step`, and that each command has one of the effects, none of
which touches the queue. -/
theorem stepRunsFrontCommand : Obligations.StepRunsFrontCommand := by
  refine ⟨fun c rest s h => ?_, fun s h => ?_, fun c s => ?_⟩
  · rw [step, h]
  · rw [step, h]
  · obtain ⟨t, ht⟩ := exec_next c s
    exact ⟨t, ht, exec_pending ht⟩

end Sys2Proof.Machine
end

