-- ==== Sys2Proof/Proofs/Gate.lean ====
section
/-! The gate and the start count: what each move does to the pass in flight, and the obligation that
every step keeps the gate's law. -/

namespace Sys2Proof.Machine

/-! ### Arbitration -/

/-- What an arbitration does: nothing, or a grant to an idle classifier of a request that waits. -/
theorem arbitrateClassifier_cases (c : Classifier) :
    arbitrateClassifier c = c
      ∨ ∃ (r : Requester) (q : Request), c.pass = none ∧ c.requests[r] = some q ∧ nextRequester c = some r
        ∧ arbitrateClassifier c = grant r q c := by
  unfold arbitrateClassifier
  split
  · next r hidle hnext =>
    split
    · next q hq => exact .inr ⟨r, q, hidle, hq, hnext, rfl⟩
    · exact .inl rfl
  · exact .inl rfl

/-! ### The gate's law, by the pass in flight -/

theorem gateLaw_idle {s : State} (h : s.classifier.pass = none) :
    GateLaw s ↔ s.classifier.gate = .opened := by
  unfold GateLaw
  rw [h]

theorem gateLaw_busy {s : State} {p : Pass} (h : s.classifier.pass = some p) :
    GateLaw s ↔ 1 ≤ p.start ∧ p.start ≤ 3 ∧ (s.classifier.gate = .closed ↔ p.start = 3)
      ∧ (p.start = 3 → p.disturbed = false) := by
  unfold GateLaw
  rw [h]

/-- The law speaks of the pass in flight and the gate alone. -/
theorem gateLaw_of_same {s t : State} (hp : t.classifier.pass = s.classifier.pass)
    (hg : t.classifier.gate = s.classifier.gate) (h : GateLaw s) : GateLaw t := by
  unfold GateLaw at *
  rw [hp, hg]
  exact h

/-- A first start with the gate open keeps the law, whatever its marks. -/
theorem gateLaw_firstStart {s : State} {p : Pass} (hp : s.classifier.pass = some p)
    (hg : s.classifier.gate = .opened) (hs : p.start = 1) : GateLaw s := by
  rw [gateLaw_busy hp, hs, hg]
  simp

/-- While the gate is open no third start is in flight. -/
theorem GateLaw.start_ne_three {s : State} {p : Pass} (h : GateLaw s)
    (hp : s.classifier.pass = some p) (hg : s.classifier.gate = .opened) : p.start ≠ 3 := by
  obtain ⟨-, -, closed, -⟩ := (gateLaw_busy hp).mp h
  intro third
  simp [closed.mpr third] at hg

theorem gateLaw_arbitrate {s : State} (h : GateLaw s) : GateLaw (arbitrate s) := by
  obtain same | ⟨r, q, hidle, -, -, eq⟩ := arbitrateClassifier_cases s.classifier
  · rw [arbitrate, same]; exact h
  · refine gateLaw_firstStart (p := grantedPass r q) ?_ ?_ rfl
    · rw [arbitrate_classifier, eq]; rfl
    · rw [arbitrate_classifier, eq]; exact (gateLaw_idle hidle).mp h

theorem gateLaw_submit {s : State} (r : Requester) (q : Request) (h : GateLaw s) :
    GateLaw (submit r q s) :=
  gateLaw_arbitrate (gateLaw_of_same (s := s) rfl rfl h)

theorem TrackerMove.gateLaw {n : InputIx} {s t : State} (move : TrackerMove n s t)
    (h : GateLaw s) : GateLaw t := by
  cases move with
  | tracker | request | claim | notice => exact gateLaw_of_same (s := s) rfl rfl h
  | arbitrated => exact gateLaw_arbitrate h
  | replaced q tick p hp hq =>
    simp only [supersedesGranted, Bool.and_eq_true, beq_iff_eq] at hq
    obtain ⟨-, first⟩ := hq
    refine gateLaw_firstStart
      (p := { grantedPass (inputRequester n) q with disturbed := p.disturbed }) rfl ?_ rfl
    obtain ⟨-, -, closed, -⟩ := (gateLaw_busy hp).mp h
    cases hg : s.classifier.gate with
    | opened => exact hg
    | closed => exact absurd (closed.mp hg) (by simp [first])

theorem TrackerMoves.gateLaw {n : InputIx} {s t : State} (moves : TrackerMoves n s t)
    (h : GateLaw s) : GateLaw t := by
  induction moves with
  | refl => exact h
  | tail _ last ih => exact last.gateLaw ih

theorem gateLaw_onUnit {n : InputIx} {tick : Nat} {f : MeasUnit → Measured} {s : State}
    (h : GateLaw s) : GateLaw (onUnit n tick f s) :=
  (takeReports_moves n _ tick _).gateLaw (gateLaw_of_same (s := s) rfl rfl h)

/-! ### The end of a pass -/

/-- The end of a pass leaves the gate open, whatever the receiver of its result has done. -/
theorem clearPass_gate {s u : State} {p : Pass} (tick : Nat) (hp : s.classifier.pass = some p)
    (hu : u.classifier.gate = s.classifier.gate) (h : GateLaw s) :
    (clearPass tick p u).classifier.gate = .opened := by
  obtain ⟨-, -, closed, -⟩ := (gateLaw_busy hp).mp h
  change (if p.start = 3 then Gate.opened else u.classifier.gate) = .opened
  rw [hu]
  split
  · rfl
  · next notThird =>
    cases hg : s.classifier.gate with
    | opened => rfl
    | closed => exact absurd (closed.mp hg) notThird

theorem gateLaw_endPass {s u : State} {p : Pass} (c : Completion)
    (hp : s.classifier.pass = some p) (hu : u.classifier.gate = s.classifier.gate)
    (h : GateLaw s) : GateLaw (endPass c p u) := by
  have ended : GateLaw (clearPass c.tick p u) :=
    (gateLaw_idle rfl).mpr (clearPass_gate c.tick hp hu h)
  unfold endPass
  dsimp only
  split
  · exact ended
  · exact gateLaw_arbitrate ended

theorem deliver_gate (tick : Nat) (p : Pass) (s : State) :
    (deliver tick p s).classifier.gate = s.classifier.gate := by
  unfold deliver
  split
  · exact (takeResult_moves _ s tick p).frame.gate
  · unfold takeProbeResult
    split <;> rfl

/-- A disturbed third start does not exist, so no request is started a fourth time. -/
theorem gateLaw_restartPass {s : State} {p : Pass} (hp : s.classifier.pass = some p)
    (hd : p.disturbed = true) (h : GateLaw s) : GateLaw (restartPass p s) := by
  obtain ⟨low, high, closed, third⟩ := (gateLaw_busy hp).mp h
  have notThird : p.start ≠ 3 := fun e => by simp [third e] at hd
  have notClosed : s.classifier.gate ≠ .closed := fun e => notThird (closed.mp e)
  unfold restartPass
  dsimp only
  split
  · next last =>
    rw [gateLaw_busy (p := restartedPass p) rfl]
    exact ⟨by simp [restartedPass], last.le, iff_of_true rfl last, fun _ => rfl⟩
  · next notLast =>
    rw [gateLaw_busy (p := restartedPass p) rfl]
    exact ⟨by simp [restartedPass], by simp only [restartedPass]; omega,
      iff_of_false notClosed notLast, fun _ => rfl⟩

theorem gateLaw_completeStart {s : State} {p : Pass} (c : Completion)
    (hp : s.classifier.pass = some p) (h : GateLaw s) : GateLaw (completeStart c p s) := by
  unfold completeStart
  split
  · exact gateLaw_endPass c hp rfl h
  · split
    · next hd => exact gateLaw_restartPass hp hd h
    · exact gateLaw_endPass c hp (deliver_gate c.tick p s) h

/-! ### Catalog changes -/

/-- A change is executed with the gate open only, so it never disturbs a third start. -/
theorem gateLaw_handMarks {s : State} (hopen : s.classifier.gate = .opened) (h : GateLaw s) :
    GateLaw (handMarks s) := by
  refine gateLaw_of_same (s := disturbPass s) rfl rfl ?_
  cases hp : s.classifier.pass with
  | none =>
    refine (gateLaw_idle ?_).mpr hopen
    rw [disturbPass, State.withPass_pass, hp]; rfl
  | some p =>
    obtain ⟨low, high, closed, -⟩ := (gateLaw_busy hp).mp h
    refine (gateLaw_busy (p := { p with disturbed := true }) ?_).mpr ⟨low, high, closed, ?_⟩
    · rw [disturbPass, State.withPass_pass, hp]; rfl
    · have notThird : p.start ≠ 3 := h.start_ne_three hp hopen
      exact fun third => absurd third notThird

theorem gateLaw_foldl {f : State → InputIx → State} (hf : ∀ s n, TrackerMoves n s (f s n))
    (l : List InputIx) {s : State} (h : GateLaw s) : GateLaw (l.foldl f s) := by
  induction l generalizing s with
  | nil => exact h
  | cons n l ih => exact ih ((hf s n).gateLaw h)

theorem gateLaw_submitReleased (l : List InputIx) {s : State} (h : GateLaw s) :
    GateLaw (submitReleased l s) := by
  have searches := fun l u => gateLaw_foldl (f := fun s n => submitHeld n .search s)
    (fun _ _ => TrackerMoves.submitHeld .refl .search) l (s := u)
  unfold submitReleased
  split
  · exact searches _ _ (gateLaw_of_same (s := s) rfl rfl h)
  · exact searches _ _ h

/-- The inputs a change releases keep the law, and so do its marks and searches. -/
theorem gateLaw_released {f : Tracker → Tracker} {c : State → Catalog} (l k : List InputIx)
    {s : State} (hopen : s.classifier.gate = .opened) (h : GateLaw s) :
    GateLaw (submitReleased k (handMarks
      ((mapTrackers f (l.foldl retireInput s)).withCatalog
        (c (mapTrackers f (l.foldl retireInput s)))))) := by
  refine gateLaw_submitReleased k (gateLaw_handMarks ?_ (gateLaw_of_same rfl rfl
    (gateLaw_foldl (fun s n => retireInput_moves n s) l h)))
  exact (foldl_changeFrame (fun s n => retireInput_moves n s) l s).gate.trans hopen

theorem gateLaw_change {a : Accepted} {run : State → Executed} (hrun : changeOf a = some run)
    {s : State} (hopen : s.classifier.gate = .opened) (h : GateLaw s) :
    GateLaw (run s).state := by
  have marked : ∀ c, GateLaw (handMarks (s.withCatalog c)) := fun c =>
    gateLaw_handMarks (s := s.withCatalog c) hopen (gateLaw_of_same (s := s) rfl rfl h)
  have toggled : ∀ required new, GateLaw (runToggle required new a.args s).state := by
    intro required new
    obtain same | ⟨i, -, -, eq⟩ := runToggle_cases required new a.args s
    · rw [same]; exact h
    · rw [eq]; exact marked _
  obtain ⟨image, -, rfl⟩ | rfl | rfl | rfl | rfl := changeOf_cases hrun
  · obtain same | ⟨i, -, -, -, eq⟩ := runCommit_cases a.args image s
    · rw [same]; exact h
    · rw [eq]; exact marked _
  · exact toggled _ _
  · exact toggled _ _
  · obtain same | ⟨i, -, -, eq⟩ := runRetire_cases a.args s
    · rw [same]; exact h
    · rw [eq]
      exact gateLaw_released (f := clearRecallOf i) (c := fun s => freeSlot i s.catalog) _ _ hopen h
  · exact gateLaw_released (f := fun t => { t with recallRef := none })
      (c := fun _ => resetCatalog) _ _ hopen h

/-! ### Every move -/

/-- Withdrawing the probe touches its current mark alone. -/
theorem gateLaw_withdrawProbe {s : State} (h : GateLaw s) : GateLaw (withdrawProbe s) := by
  unfold withdrawProbe
  split
  · exact gateLaw_of_same (s := s) rfl rfl h
  · cases hp : s.classifier.pass with
    | none => exact (gateLaw_idle rfl).mpr ((gateLaw_idle hp).mp h)
    | some p =>
      rw [gateLaw_busy (by rfl)]
      have law := (gateLaw_busy hp).mp h
      dsimp only
      split <;> exact law

/-- An examination moves neither the start count nor the marks. -/
theorem examineStep_start (s : State) (p : Pass) :
    (examineStep s p).start = p.start ∧ (examineStep s p).disturbed = p.disturbed := by
  unfold examineStep
  split
  · split <;> exact ⟨rfl, rfl⟩
  · exact ⟨rfl, rfl⟩
  · exact ⟨rfl, rfl⟩

theorem CoreMove.gateLaw {s t : State} (move : CoreMove s t) (h : GateLaw s) : GateLaw t := by
  cases move with
  | same hst => exact gateLaw_of_same (congrArg _ hst.2.1) (congrArg _ hst.2.1) h
  | pinMoved n pin level => cases pin <;> exact gateLaw_of_same (s := s) rfl rfl h
  | accepted | changed | gainTimeout | hLost => exact gateLaw_onUnit h
  | examined p hp =>
    obtain ⟨start, disturbed⟩ := examineStep_start s p
    rw [gateLaw_busy (by rfl), start, disturbed]
    exact (gateLaw_busy hp).mp h
  | completed c p hp _ => exact gateLaw_completeStart c hp h
  | change a run hrun hopen => exact gateLaw_change hrun hopen h
  | arbitrated => exact gateLaw_arbitrate h
  | probeWithdrawn => exact gateLaw_withdrawProbe h
  | probeSubmitted args => exact gateLaw_submit _ _ h
  | rebound args =>
    unfold runRebind
    split
    · exact h
    · exact (rebindInput_moves _ s).gateLaw h
  | faultCleared args =>
    unfold runClearFault
    split
    · exact h
    · split
      · exact gateLaw_of_same (s := s) rfl rfl h
      · exact h
  | restarted => exact (gateLaw_idle rfl).mpr rfl
  | enabled n _ => exact gateLaw_of_same rfl rfl ((enableTracker_moves n _).gateLaw h)
  | disabled n _ => exact gateLaw_of_same rfl rfl ((disableTracker_moves n _).gateLaw h)
  | settleCoast | glitch | faultEnables => exact gateLaw_of_same (s := s) rfl rfl h

/-! ### The obligation -/

/-- Settles O6: every move keeps the law. The two cases that matter are a restart, which a third start
never needs, and a catalog change, which the closed gate keeps from a third start. -/
theorem stepKeepsGateLaw : Obligations.StepKeepsGateLaw := fun _ _ h =>
  step_keeps (fun _ _ _ => (gateLaw_idle rfl).mpr rfl) (fun _ _ move => move.gateLaw) h

end Sys2Proof.Machine
end

