-- ==== Sys2Proof/Proofs/View.lean ====
section
/-! The view latch: what becomes of the snapshot and the since-latch indicator, and the two
obligations about them. -/

namespace Sys2Proof.Machine

/-- An effect, whatever it does to the port away from the view, keeps the view. -/
theorem EffectOf.view {s t : State} (h : EffectOf s t) : ViewKept s.port t.port := by
  obtain ⟨u, p, effect, rfl, kept⟩ := h
  exact effect.queueAndView.2.trans kept

/-! ### The law -/

theorem viewLaw_none {s : State} (h : s.port.follows = none) :
    ViewLaw s ↔ s.port.since = false := by
  unfold ViewLaw
  rw [h]

theorem viewLaw_some {s : State} {r : ViewRecord} (h : s.port.follows = some r) :
    ViewLaw s ↔ (s.port.since = false → s.port.snapshot = snapshotOf s (some r)) := by
  unfold ViewLaw
  rw [h]

/-- The indicator after an event, with the record it follows. -/
theorem noteChange_since {s u : State} {r : ViewRecord} (h : u.port.follows = some r) :
    (noteChange s u).port.since = true ↔
      u.port.since = true ∨ shownRecord s r ≠ shownRecord u r := by
  simp [noteChange_port, recordChanged, h]

/-- An event that keeps the view keeps the law: a clear indicator means that the record shows what it
showed before. -/
theorem viewLaw_noteChange {s u : State} (kept : ViewKept s.port u.port) (h : ViewLaw s) :
    ViewLaw (noteChange s u) := by
  obtain ⟨follows, snapshot, since⟩ := kept
  cases hf : s.port.follows with
  | none =>
    rw [viewLaw_none (by rw [noteChange_port, follows, hf])]
    have clear := (viewLaw_none hf).mp h
    simp [noteChange_port, recordChanged, follows, hf, since, clear]
  | some r =>
    have hu : u.port.follows = some r := follows.trans hf
    rw [viewLaw_some (r := r) (by rw [noteChange_port]; exact hu)]
    intro clear
    have unchanged : ¬ (u.port.since = true ∨ shownRecord s r ≠ shownRecord u r) := fun changed =>
      by simp [(noteChange_since hu).mpr changed] at clear
    rw [not_or, not_not, since, Bool.not_eq_true] at unchanged
    obtain ⟨wasClear, same⟩ := unchanged
    have shown : snapshotOf u (some r) = snapshotOf s (some r) := by
      simp only [snapshotOf, same]
    calc (noteChange s u).port.snapshot = s.port.snapshot := snapshot
      _ = snapshotOf s (some r) := (viewLaw_some hf).mp h wasClear
      _ = snapshotOf (noteChange s u) (some r) := shown.symm

/-- A latch leaves the snapshot of the record as it stands, with the indicator clear. -/
theorem viewLaw_latched {s : State} {p : Port} (h : Latched s p) :
    ViewLaw (noteChange s (s.withPort p)) := by
  obtain ⟨snapshot, clear⟩ := h
  rw [noteChange_of_same (s := s) (t := s.withPort p) rfl rfl]
  cases hf : p.follows with
  | none => exact (viewLaw_none hf).mpr clear
  | some r => exact (viewLaw_some hf).mpr fun _ => by rw [← hf]; exact snapshot

/-- The latch of the reset names slot 0, whose image is all zero. -/
theorem viewLaw_powerOnReset (adr : Level) (s : State) : ViewLaw (powerOnReset adr s) := by
  refine (viewLaw_some (r := .catalogEntry 0) rfl).mpr fun _ => ?_
  simp only [snapshotOf, shownRecord, powerOnReset_slot, powerOnReset_port, resetPort]
  decide

theorem exec_viewLaw {c : Instr} {s t : State} (h : ViewLaw s) (ht : exec c s = .next t) :
    ViewLaw t := by
  by_cases hc : ∃ adr, c = .powerOnReset adr
  · obtain ⟨adr, rfl⟩ := hc
    cases ht; exact viewLaw_powerOnReset adr s
  · obtain rfl | ⟨u, rfl, effect | ⟨p, rfl, kept | ⟨-, latched⟩⟩⟩ :=
      exec_answers (fun adr he => hc ⟨adr, he⟩) ht
    · exact h
    · exact viewLaw_noteChange effect.view h
    · exact viewLaw_noteChange (u := s.withPort p) kept h
    · exact viewLaw_latched latched

/-! ### The obligations -/

/-- Settles O12: an effect keeps the view and updates the indicator, and a latch makes the snapshot
anew. -/
theorem stepKeepsViewLaw : Obligations.StepKeepsViewLaw := by
  intro s t h ht
  unfold step at ht
  split at ht
  · cases ht; exact h
  · next c rest _ => exact exec_viewLaw (s := { s with pending := rest }) h ht

/-- Settles O15: a command that does not latch keeps the followed record, and the indicator is brought
up to date with it. -/
theorem sinceLatchFollowsRecord : Obligations.SinceLatchFollowsRecord := by
  intro c s t r ht hc hf hstart hnext
  have notLatching : ¬ LatchesAt c s := by
    rintro (⟨start, rfl | rfl⟩ | ⟨b, sending, next, rfl | rfl⟩)
    · exact (hstart start).1 rfl
    · exact (hstart start).2 rfl
    · exact (hnext b sending next).1 rfl
    · exact (hnext b sending next).2 rfl
  have updated : ∀ u, ViewKept s.port u.port →
      (noteChange s u).port.follows = some r
        ∧ ((noteChange s u).port.since = true ↔
          s.port.since = true ∨ shownRecord s r ≠ shownRecord (noteChange s u) r) := by
    rintro u ⟨follows, -, since⟩
    have hu := follows.trans hf
    refine ⟨hu, ?_⟩
    rw [noteChange_since hu, since,
      shownRecord_of_same (s := u) (t := noteChange s u) rfl rfl]
  obtain rfl | ⟨u, rfl, effect | ⟨p, rfl, kept | ⟨latching, -⟩⟩⟩ := exec_answers hc ht
  · exact ⟨hf, by simp⟩
  · exact updated u effect.view
  · exact updated (s.withPort p) kept
  · exact absurd latching notLatching

end Sys2Proof.Machine
end

