-- ==== Sys2Proof/Proofs/Fields.lean ====
section
/-! The field checks of a commit: the checks that the machine runs and the table of R10 as it is
spelled on the staged bytes find the same first failure, and an image that passes holds a legal
entry. -/

namespace Sys2Proof.Machine

/-! ### Fields of a buffer -/

theorem numAt_lt {k : Nat} (v : Vector Byte k) (i : Nat) : numAt v i < 256 := (byteAt v i).isLt

theorem wordAt_lt {k : Nat} (v : Vector Byte k) (i : Nat) : wordAt v i < 65536 := by
  have low := numAt_lt v i
  have high := numAt_lt v (i + 1)
  unfold wordAt
  omega

/-- A two-bit field holds 0..3. -/
theorem twoBits_lt (b : Byte) (lo : Nat) : twoBits b lo < 4 := Nat.mod_lt _ (by omega)

theorem windowOk_eq_false {lo hi : Nat} {w : Window} :
    windowOk lo hi w = false ↔
      w.min < lo ∨ hi < w.min ∨ w.max < lo ∨ hi < w.max ∨ w.max < w.min := by
  rw [← Bool.not_eq_true]
  simp only [windowOk, within, Bool.and_eq_true, decide_eq_true_eq]
  omega

theorem windowOk_iff {lo hi : Nat} {w : Window} : windowOk lo hi w = true ↔ w.legal lo hi := by
  simp only [windowOk, within, Window.legal, Bool.and_eq_true, decide_eq_true_eq]
  omega

/-! ### The two spellings of the table of R10 -/

/-- The table of R10 as a list of checks, in order, with a check 0 that never fails. -/
def tableChecks (img : Vector Byte 32) : List (Nat × Bool) :=
  (List.range 17).map fun c => (c, fieldFails img c)

/-- A presence field of 2 or 3 is one above 1. -/
theorem presence_reserved (img : Vector Byte 32) (lo : Nat) :
    decide (1 < presenceAt img lo) =
      (decide ((byteAt img 14).toNat / 2 ^ lo % 4 = 2)
        || decide ((byteAt img 14).toNat / 2 ^ lo % 4 = 3)) := by
  have low := twoBits_lt (byteAt img 14) lo
  rw [Bool.eq_iff_iff, Bool.or_eq_true]
  simp only [decide_eq_true_eq]
  unfold presenceAt
  unfold twoBits at low ⊢
  generalize (byteAt img 14).toNat / 2 ^ lo % 4 = field at low ⊢
  omega

theorem not_windowOk (lo hi : Nat) (w : Window) :
    (!windowOk lo hi w) =
      (decide (w.min < lo) || decide (hi < w.min) || decide (w.max < lo) || decide (hi < w.max)
        || decide (w.max < w.min)) := by
  rw [Bool.eq_iff_iff]
  simp only [Bool.not_eq_true', windowOk_eq_false, Bool.or_eq_true, decide_eq_true_eq, or_assoc]

theorem not_within (hi x : Nat) : (!within 1 hi x) = (decide (x = 0) || decide (hi < x)) := by
  rw [Bool.eq_iff_iff]
  simp only [within, Bool.not_eq_true', ← Bool.not_eq_true, Bool.and_eq_true, Bool.or_eq_true,
    decide_eq_true_eq]
  omega

/-- The first thirteen checks agree one by one. -/
theorem fieldChecks_take (img : Vector Byte 32) :
    (0, false) :: (fieldChecks img).take 13 = (tableChecks img).take 14 := by
  simp only [fieldChecks, List.take_succ_cons, List.take_zero, not_windowOk, not_within,
    presence_reserved]
  rfl

/-- The last three agree on an image that has passed check 13. -/
theorem fieldChecks_drop {img : Vector Byte 32} (h : fieldFails img 13 = false) :
    (fieldChecks img).drop 13 = (tableChecks img).drop 14 := by
  have room : (decide (presenceAt img 4 = 1) && decide (wordAt img 22 - wordAt img 24 < wordAt img 28))
      = (decide (presenceAt img 4 = 1) && decide (wordAt img 22 < wordAt img 24 + wordAt img 28)) := by
    have fits13 : (decide (presenceAt img 4 = 1)
        && (decide (wordAt img 24 = 0) || decide (wordAt img 22 < wordAt img 24))) = false := h
    simp only [Bool.and_eq_false_iff, Bool.or_eq_false_iff, decide_eq_false_iff_not] at fits13
    rw [Bool.eq_iff_iff]
    simp only [Bool.and_eq_true, decide_eq_true_eq]
    omega
  simp only [fieldChecks, List.drop_succ_cons, List.drop_zero, not_within, room]
  rfl

/-- A list whose check 13 fails has its first failure among those before check 14. -/
theorem find_tableChecks_of_13 {img : Vector Byte 32} (h : fieldFails img 13 = true) :
    (((tableChecks img).take 14).find? fun c => c.2).isSome = true := by
  rw [List.find?_isSome]
  exact ⟨(13, fieldFails img 13), by
    rw [tableChecks, ← List.map_take]
    exact List.mem_map_of_mem (by decide), h⟩

/-- The machine's checks and the table find the same first failure. -/
theorem find_fieldChecks (img : Vector Byte 32) :
    (fieldChecks img).find? (fun c => c.2) = (tableChecks img).find? fun c => c.2 := by
  have front : ((fieldChecks img).take 13).find? (fun c => c.2) =
      ((tableChecks img).take 14).find? fun c => c.2 := by
    rw [← fieldChecks_take]; rfl
  rw [← List.take_append_drop 13 (fieldChecks img), ← List.take_append_drop 14 (tableChecks img),
    List.find?_append, List.find?_append, front]
  cases h : fieldFails img 13 with
  | true =>
    obtain ⟨c, hc⟩ := Option.isSome_iff_exists.mp (find_tableChecks_of_13 h)
    rw [hc]; rfl
  | false => rw [fieldChecks_drop h]

/-- The first failing check, by its code. -/
theorem fieldFailure_eq (img : Vector Byte 32) :
    fieldFailure img = (List.range 17).find? (fieldFails img) := by
  rw [fieldFailure, find_fieldChecks, tableChecks, List.find?_map, Option.map_map]
  exact Option.map_id'

theorem fieldFails_le {img : Vector Byte 32} {c : Nat} (h : fieldFails img c = true) :
    c ≤ 16 := by
  unfold fieldFails at h
  dsimp only at h
  split at h
  case h_17 => exact absurd h (by simp)
  all_goals omega

theorem fieldFailure_eq_none {img : Vector Byte 32} :
    fieldFailure img = none ↔ fieldsPass img := by
  rw [fieldFailure_eq, List.find?_range_eq_none]
  simp only [Bool.not_eq_true', fieldsPass]
  exact forall_congr' fun c => by rw [Nat.lt_succ_iff]

theorem fieldFailure_eq_some {img : Vector Byte 32} {c : Nat} :
    fieldFailure img = some c ↔ firstFieldFailing img c := by
  rw [fieldFailure_eq, List.find?_range_eq_some]
  simp only [Bool.not_eq_true', List.mem_range, firstFieldFailing]
  constructor
  · exact fun ⟨fails, _, before⟩ => ⟨fails, before⟩
  · exact fun ⟨fails, before⟩ => ⟨fails, Nat.lt_succ_of_le (fieldFails_le fails), before⟩

/-! ### An image that passes -/

/-- An image that passes the checks of R10 holds a legal entry. -/
theorem stagedEntry_legal {img : Vector Byte 32} (h : fieldFailure img = none) :
    (stagedEntry img).legal := by
  have passes : ∀ c ∈ fieldChecks img, c.2 = false := by
    rw [fieldFailure, Option.map_eq_none_iff, List.find?_eq_none] at h
    exact fun c hc => by simpa using h c hc
  simp only [fieldChecks, List.forall_mem_cons, decide_eq_false_iff_not, Bool.not_eq_false',
    windowOk_iff, Bool.or_eq_false_iff, Bool.and_eq_false_iff] at passes
  obtain ⟨tag, rank, hPeriod, vLines, ⟨-, hWidth⟩, ⟨-, vWidth⟩, -, -, -, -, -, total, active, lines,
    first, line, -⟩ := passes
  refine ⟨Nat.pos_of_ne_zero tag, Nat.le_of_lt_succ (wordAt_lt img 4), Nat.le_of_not_lt rank,
    hPeriod, vLines, ?hw, ?vw, ?block⟩
  case hw =>
    intro w hw
    simp only [stagedEntry, Option.ite_none_right_eq_some, Option.some.injEq] at hw
    obtain ⟨present, rfl⟩ := hw
    have := wordAt_lt img 18
    exact ⟨Nat.zero_le _, by simp_all, by simp only; omega⟩
  case vw =>
    intro w hw
    simp only [stagedEntry, Option.ite_none_right_eq_some, Option.some.injEq] at hw
    obtain ⟨present, rfl⟩ := hw
    have := numAt_lt img 21
    exact ⟨Nat.zero_le _, by simp_all, by simp only; omega⟩
  case block =>
    intro p hp
    simp only [stagedEntry, Option.ite_none_right_eq_some, Option.some.injEq] at hp
    obtain ⟨present, rfl⟩ := hp
    simp only [present, not_true_eq_false, false_or, within, Bool.and_eq_true,
      decide_eq_true_eq] at total active lines first line
    simp only [Presentation.legal]
    omega

end Sys2Proof.Machine
end

