-- ==== Sys2Proof/Proofs/Catalog.lean ====
section
/-! The catalog's slots, occupancy count and tag map: what a commit, a toggle, a retire and a clear
make of them, and the obligation that every step keeps their law. -/

namespace Sys2Proof.Machine

/-! ### Counting over a list without repeats -/

/-- Two tests that differ at most at one element of a list without repeats count the same but for
it. -/
theorem countP_of_agree_off {α : Type} {p q : α → Bool} {a : α} {l : List α} (hn : l.Nodup)
    (ha : a ∈ l) (h : ∀ b, b ≠ a → q b = p b) :
    l.countP q + (p a).toNat = l.countP p + (q a).toNat := by
  induction l with
  | nil => simp at ha
  | cons b l ih =>
    obtain ⟨fresh, hl⟩ := List.nodup_cons.mp hn
    have single : ∀ r : α → Bool, (b :: l).countP r = l.countP r + (r b).toNat := by
      intro r
      cases hr : r b <;> simp [hr]
    rw [single, single]
    by_cases hb : b = a
    · subst hb
      have rest : l.countP q = l.countP p :=
        List.countP_congr fun c hc => by rw [h c fun e => fresh (e ▸ hc)]
      omega
    · have := ih hl (List.mem_of_ne_of_mem (Ne.symm hb) ha)
      rw [h b hb]
      omega

theorem nodup_allSlots : allSlots.Nodup := List.nodup_finRange 64

@[simp] theorem mem_allSlots (i : SlotIx) : i ∈ allSlots := List.mem_finRange i

/-! ### The tag map -/

/-- What FIND_TAG finds is an association of the map. -/
theorem mem_of_findTag {tag : Nat} {i : SlotIx} {l : List (Nat × SlotIx)}
    (h : findTag tag l = some i) : (tag, i) ∈ l := by
  induction l with
  | nil => simp [findTag] at h
  | cons a l ih =>
    unfold findTag at h
    split at h
    · next same =>
      cases h
      exact List.mem_cons.mpr (.inl (by rw [← same]))
    · exact List.mem_cons_of_mem _ (ih h)

/-- A tag that FIND_TAG does not find has no association. -/
theorem findTag_eq_none {tag : Nat} {l : List (Nat × SlotIx)} :
    findTag tag l = none ↔ ∀ i, (tag, i) ∉ l := by
  induction l with
  | nil => simp [findTag]
  | cons a l ih =>
    unfold findTag
    split
    · next same =>
      refine iff_of_false (by simp) fun none => none a.2 ?_
      rw [← same]
      exact List.mem_cons_self
    · next differs =>
      rw [ih]
      refine forall_congr' fun i => not_congr ?_
      rw [List.mem_cons, or_iff_right]
      exact fun e => differs (congrArg Prod.fst e).symm

/-- In a map sorted by tag a tag has one association. -/
theorem tag_unique {l : List (Nat × SlotIx)} (h : l.Pairwise fun a b => a.1 < b.1) {tag : Nat}
    {i j : SlotIx} (hi : (tag, i) ∈ l) (hj : (tag, j) ∈ l) : i = j := by
  induction l with
  | nil => simp at hi
  | cons a l ih =>
    obtain ⟨first, rest⟩ := List.pairwise_cons.mp h
    obtain isFirst | hi := List.mem_cons.mp hi
    · obtain alsoFirst | hj := List.mem_cons.mp hj
      · exact congrArg Prod.snd (isFirst.trans alsoFirst.symm)
      · exact absurd (first _ hj) (by simp [← isFirst])
    · obtain isFirst | hj := List.mem_cons.mp hj
      · exact absurd (first _ hi) (by simp [← isFirst])
      · exact ih rest hi hj

theorem findTag_eq_some {l : List (Nat × SlotIx)} (h : l.Pairwise fun a b => a.1 < b.1)
    {tag : Nat} {i : SlotIx} : findTag tag l = some i ↔ (tag, i) ∈ l := by
  refine ⟨mem_of_findTag, fun hi => ?_⟩
  cases found : findTag tag l with
  | none => exact absurd hi (findTag_eq_none.mp found i)
  | some j => rw [tag_unique h hi (mem_of_findTag found)]

theorem mem_eraseSlotTag {i : SlotIx} {l : List (Nat × SlotIx)} {a : Nat × SlotIx} :
    a ∈ eraseSlotTag i l ↔ a.2 ≠ i ∧ a ∈ l := by
  simp [eraseSlotTag, and_comm]

theorem sorted_eraseSlotTag {i : SlotIx} {l : List (Nat × SlotIx)}
    (h : l.Pairwise fun a b => a.1 < b.1) :
    (eraseSlotTag i l).Pairwise fun a b => a.1 < b.1 := h.filter _

theorem mem_insertTag {tag : Nat} {i : SlotIx} {l : List (Nat × SlotIx)} {a : Nat × SlotIx} :
    a ∈ insertTag tag i l ↔ a = (tag, i) ∨ a ∈ l := by
  induction l with
  | nil => simp [insertTag]
  | cons b l ih =>
    unfold insertTag
    split
    · exact List.mem_cons
    · rw [List.mem_cons, ih, List.mem_cons]
      tauto

/-- An association for a tag that has none leaves the map sorted. -/
theorem sorted_insertTag {tag : Nat} {i : SlotIx} {l : List (Nat × SlotIx)}
    (h : l.Pairwise fun a b => a.1 < b.1) (fresh : ∀ j, (tag, j) ∉ l) :
    (insertTag tag i l).Pairwise fun a b => a.1 < b.1 := by
  induction l with
  | nil => simp [insertTag]
  | cons b l ih =>
    obtain ⟨first, rest⟩ := List.pairwise_cons.mp h
    have differs : tag ≠ b.1 := fun e => fresh b.2 (by rw [e]; exact List.mem_cons_self)
    unfold insertTag
    split
    · next le =>
      refine List.pairwise_cons.mpr ⟨fun c hc => ?_, h⟩
      obtain rfl | hc := List.mem_cons.mp hc
      · exact lt_of_le_of_ne le differs
      · exact le.trans_lt (first c hc)
    · next gt =>
      refine List.pairwise_cons.mpr ⟨fun c hc => ?_, ih rest fun j hj => fresh j (.tail _ hj)⟩
      obtain rfl | hc := mem_insertTag.mp hc
      · exact Nat.lt_of_not_le gt
      · exact first c hc

/-! ### Changes of one slot -/

theorem slot_installEntry (s : State) (i j : SlotIx) (e : Entry) :
    (s.withCatalog (installEntry i e s.catalog)).slot j =
      if j = i then installedSlot e (s.slot i) else s.slot j :=
  slot_withSlot s i j (installedSlot e (s.slot i))

theorem slot_freeSlot (s : State) (i j : SlotIx) :
    (s.withCatalog (freeSlot i s.catalog)).slot j = if j = i then freeSlotValue else s.slot j :=
  slot_withSlot s i j freeSlotValue

/-- The number of occupied slots after a change of one slot. -/
theorem occupied_of_agree_off {c d : Catalog} {i : SlotIx}
    (h : ∀ j, j ≠ i → (d.slots[j]).state = (c.slots[j]).state) :
    occupied d + ((c.slots[i]).state != .free).toNat
      = occupied c + ((d.slots[i]).state != .free).toNat :=
  countP_of_agree_off (p := fun j : SlotIx => (c.slots[j]).state != .free)
    (q := fun j : SlotIx => (d.slots[j]).state != .free) nodup_allSlots (mem_allSlots i)
    fun j hj => by rw [h j hj]

/-- The generation of a committed slot is not that of a FREE one (R5). -/
theorem nextGeneration_ne_zero (g : Byte) : nextGeneration g ≠ 0 := by
  unfold nextGeneration
  split
  · decide
  · bv_omega

/-! ### The law -/

/-- The laws of one slot. -/
def SlotLaw (x : Slot) : Prop :=
  (x.state = .free ↔ x.generation = 0) ∧ (x.state = .free → x.entry = zeroEntry)
    ∧ (x.state ≠ .free → x.entry.legal)

theorem catalogLaw_iff (s : State) :
    CatalogLaw s ↔ (∀ i, SlotLaw (s.slot i)) ∧ s.catalog.occupancy = occupied s.catalog
      ∧ s.catalog.tagMap.Pairwise (fun a b => a.1 < b.1)
      ∧ ∀ t i, (t, i) ∈ s.catalog.tagMap ↔ (s.slot i).state ≠ .free ∧ (s.slot i).entry.tag = t :=
  Iff.rfl

theorem slotLaw_freeSlotValue : SlotLaw freeSlotValue :=
  ⟨iff_of_true rfl rfl, fun _ => rfl, fun h => absurd rfl h⟩

theorem installedSlot_state_ne_free (e : Entry) (x : Slot) : (installedSlot e x).state ≠ .free := by
  cases h : x.state <;> simp [installedSlot, h]

theorem slotLaw_installedSlot {e : Entry} (x : Slot) (he : e.legal) :
    SlotLaw (installedSlot e x) :=
  ⟨iff_of_false (installedSlot_state_ne_free e x) (nextGeneration_ne_zero _),
    fun h => absurd h (installedSlot_state_ne_free e x), fun _ => he⟩

/-- Slots as they were but for their bind_counts, and the same occupancy count and tag map. -/
def CatalogKept (s t : State) : Prop :=
  (∀ i, ∃ k, t.slot i = { s.slot i with bindCount := k })
    ∧ t.catalog.occupancy = s.catalog.occupancy ∧ t.catalog.tagMap = s.catalog.tagMap

theorem CatalogKept.of_same {s t : State} (h : t.catalog = s.catalog) : CatalogKept s t :=
  ⟨fun i => ⟨_, slot_of_catalog h i⟩, congrArg _ h, congrArg _ h⟩

theorem CatalogKept.trans {s t u : State} (h : CatalogKept s t) (h' : CatalogKept t u) :
    CatalogKept s u := by
  obtain ⟨slots, occ, tags⟩ := h
  obtain ⟨slots', occ', tags'⟩ := h'
  refine ⟨fun i => ?_, occ'.trans occ, tags'.trans tags⟩
  obtain ⟨k, hk⟩ := slots i
  obtain ⟨l, hl⟩ := slots' i
  exact ⟨l, by rw [hl, hk]⟩

theorem TrackerFrame.catalogKept {n : InputIx} {s t : State} (h : TrackerFrame n s t) :
    CatalogKept s t := ⟨h.slots, h.occupancy, h.tagMap⟩

theorem TrackerMoves.catalogKept {n : InputIx} {s t : State} (h : TrackerMoves n s t) :
    CatalogKept s t := h.frame.catalogKept

theorem foldl_catalogKept {f : State → InputIx → State} (h : ∀ s n, TrackerMoves n s (f s n))
    (l : List InputIx) (s : State) : CatalogKept s (l.foldl f s) := by
  induction l generalizing s with
  | nil => exact .of_same rfl
  | cons n l ih => exact (h s n).catalogKept.trans (ih _)

theorem CatalogLaw.of_kept {s t : State} (h : CatalogLaw s) (kept : CatalogKept s t) :
    CatalogLaw t := by
  obtain ⟨slots, occ, sorted, tags⟩ := (catalogLaw_iff s).mp h
  obtain ⟨same, occ', tags'⟩ := kept
  have state : ∀ i, (t.slot i).state = (s.slot i).state := fun i => by
    obtain ⟨k, hk⟩ := same i
    rw [hk]
  refine (catalogLaw_iff t).mpr ⟨fun i => ?_, ?_, tags' ▸ sorted, fun tag i => ?_⟩
  · obtain ⟨k, hk⟩ := same i
    rw [hk]
    exact slots i
  · rw [occ', occ]
    exact List.countP_congr fun i _ => by
      change (s.slot i).state != .free ↔ (t.slot i).state != .free
      rw [state]
  · obtain ⟨k, hk⟩ := same i
    rw [tags', tags, hk]

/-- A change of one slot keeps the law if the slot keeps its own, and if the occupancy count and the
tag map follow it. -/
theorem CatalogLaw.of_slot {s t : State} {i : SlotIx} (h : CatalogLaw s)
    (slot : SlotLaw (t.slot i)) (others : ∀ j, j ≠ i → t.slot j = s.slot j)
    (occ : t.catalog.occupancy + ((s.slot i).state != .free).toNat
      = s.catalog.occupancy + ((t.slot i).state != .free).toNat)
    (sorted : t.catalog.tagMap.Pairwise fun a b => a.1 < b.1)
    (tags : ∀ tag j, (tag, j) ∈ t.catalog.tagMap ↔
      (j = i ∧ (t.slot i).state ≠ .free ∧ (t.slot i).entry.tag = tag)
        ∨ (j ≠ i ∧ (tag, j) ∈ s.catalog.tagMap)) :
    CatalogLaw t := by
  obtain ⟨slots, occupancy, -, tagsOf⟩ := (catalogLaw_iff s).mp h
  refine (catalogLaw_iff t).mpr ⟨fun j => ?_, ?_, sorted, fun tag j => ?_⟩
  · by_cases hj : j = i
    · exact hj ▸ slot
    · rw [others j hj]; exact slots j
  · have counted := occupied_of_agree_off (c := s.catalog) (d := t.catalog) (i := i)
      fun j hj => congrArg Slot.state (others j hj)
    change occupied t.catalog + ((s.slot i).state != .free).toNat
      = occupied s.catalog + ((t.slot i).state != .free).toNat at counted
    omega
  · rw [tags]
    by_cases hj : j = i
    · subst hj; simp
    · simp [hj, tagsOf, others j hj]

/-! ### Each change -/

/-- A commit of a legal entry under a tag that no other slot has. -/
theorem catalogLaw_installEntry {s : State} {i : SlotIx} {e : Entry} (h : CatalogLaw s)
    (he : e.legal) (own : ∀ j, findTag e.tag s.catalog.tagMap = some j → j = i) :
    CatalogLaw (s.withCatalog (installEntry i e s.catalog)) := by
  obtain ⟨-, -, sorted, -⟩ := (catalogLaw_iff s).mp h
  have fresh : ∀ j, (e.tag, j) ∉ eraseSlotTag i s.catalog.tagMap := by
    intro j hj
    obtain ⟨other, hj⟩ := mem_eraseSlotTag.mp hj
    exact other (own j ((findTag_eq_some sorted).mpr hj))
  have installed := slot_installEntry s i i e
  rw [if_pos rfl] at installed
  have stands := installedSlot_state_ne_free e (s.slot i)
  refine h.of_slot (i := i) ?_ (fun j hj => ?_) ?_ ?_ fun tag j => ?_
  · rw [installed]; exact slotLaw_installedSlot _ he
  · rw [slot_installEntry, if_neg hj]
  · rw [installed]
    change (if (s.slot i).state = .free then _ else _) + _ = _
    have : ((installedSlot e (s.slot i)).state != .free) = true := by simpa using stands
    rw [this]
    by_cases hfree : (s.slot i).state = .free <;> simp [hfree]
  · exact sorted_insertTag (sorted_eraseSlotTag sorted) fresh
  · rw [installed]
    refine mem_insertTag.trans (or_congr ?_ mem_eraseSlotTag)
    rw [Prod.mk.injEq]
    exact ⟨fun ⟨ht, hj⟩ => ⟨hj, stands, ht.symm⟩, fun ⟨hj, _, ht⟩ => ⟨ht.symm, hj⟩⟩

/-- A change between ACTIVE and SUSPENDED. -/
theorem catalogLaw_toggle {s : State} {i : SlotIx} {new : SlotState} (h : CatalogLaw s)
    (old : (s.slot i).state ≠ .free) (hnew : new ≠ .free) :
    CatalogLaw (s.withSlot i { s.slot i with state := new }) := by
  obtain ⟨slots, -, sorted, tags⟩ := (catalogLaw_iff s).mp h
  obtain ⟨generation, -, legal⟩ := slots i
  have toggled := slot_withSlot s i i { s.slot i with state := new }
  rw [if_pos rfl] at toggled
  refine h.of_slot (i := i) ?_ (fun j hj => ?_) ?_ sorted fun tag j => ?_
  · rw [toggled]
    exact ⟨iff_of_false hnew fun zero => old (generation.mpr zero), fun e => absurd e hnew,
      fun _ => legal old⟩
  · rw [slot_withSlot, if_neg hj]
  · rw [toggled]
    have before : ((s.slot i).state != .free) = true := by simpa using old
    have after : (new != SlotState.free) = true := by simpa using hnew
    rw [before, after]; rfl
  · rw [toggled]
    change (tag, j) ∈ s.catalog.tagMap ↔ _
    by_cases hj : j = i
    · subst hj; simp [tags, old, hnew]
    · simp [hj]

/-- The retire of a slot that is not FREE. -/
theorem catalogLaw_freeSlot {s : State} {i : SlotIx} (h : CatalogLaw s)
    (old : (s.slot i).state ≠ .free) :
    CatalogLaw (s.withCatalog (freeSlot i s.catalog)) := by
  obtain ⟨-, occupancy, sorted, -⟩ := (catalogLaw_iff s).mp h
  have freed := slot_freeSlot s i i
  rw [if_pos rfl] at freed
  refine h.of_slot (i := i) ?_ (fun j hj => ?_) ?_ ?_ fun tag j => ?_
  · rw [freed]; exact slotLaw_freeSlotValue
  · rw [slot_freeSlot, if_neg hj]
  · rw [freed]
    change s.catalog.occupancy - 1 + _ = _
    have before : ((s.slot i).state != .free) = true := by simpa using old
    have positive : 0 < occupied s.catalog :=
      List.countP_pos_iff.mpr ⟨i, mem_allSlots i, before⟩
    rw [before]
    simp only [freeSlotValue, bne_self_eq_false, Bool.toNat_true, Bool.toNat_false]
    omega
  · exact sorted_eraseSlotTag sorted
  · rw [freed]
    exact mem_eraseSlotTag.trans (by simp [freeSlotValue])

/-- An empty catalog. -/
theorem catalogLaw_resetCatalog {s : State} (h : s.catalog = resetCatalog) : CatalogLaw s := by
  have slots : ∀ i, s.slot i = freeSlotValue := fun i => by simp [State.slot, h, resetCatalog]
  refine (catalogLaw_iff s).mpr ⟨fun i => ?_, ?_, ?_, fun tag i => ?_⟩
  · rw [slots]; exact slotLaw_freeSlotValue
  · rw [h]; decide
  · rw [h]; exact List.Pairwise.nil
  · rw [slots, h]
    simp [resetCatalog, freeSlotValue]

theorem handMarks_catalogKept (s : State) : CatalogKept s (handMarks s) := .of_same (by simp)

theorem submitReleased_catalogKept (l : List InputIx) (s : State) :
    CatalogKept s (submitReleased l s) := by
  have searches := foldl_catalogKept (f := fun s n => submitHeld n .search s)
    fun _ _ => TrackerMoves.submitHeld .refl .search
  unfold submitReleased
  split
  · exact searches _ _
  · exact searches _ _

theorem catalogLaw_change {a : Accepted} {run : State → Executed} (hrun : changeOf a = some run)
    {s : State} (h : CatalogLaw s) : CatalogLaw (run s).state := by
  have toggled : ∀ required new, required ≠ .free → new ≠ .free →
      CatalogLaw (runToggle required new a.args s).state := by
    intro required new hr hn
    obtain same | ⟨i, -, stands, eq⟩ := runToggle_cases required new a.args s
    · rw [same]; exact h
    · rw [eq]
      exact (catalogLaw_toggle h (stands ▸ hr) hn).of_kept (handMarks_catalogKept _)
  obtain ⟨image, -, rfl⟩ | rfl | rfl | rfl | rfl := changeOf_cases hrun
  · obtain same | ⟨i, -, fields, own, eq⟩ := runCommit_cases a.args image s
    · rw [same]; exact h
    · rw [eq]
      exact (catalogLaw_installEntry h (stagedEntry_legal fields) own).of_kept
        (handMarks_catalogKept _)
  · exact toggled _ _ (by simp) (by simp)
  · exact toggled _ _ (by simp) (by simp)
  · obtain same | ⟨i, -, stands, eq⟩ := runRetire_cases a.args s
    · rw [same]; exact h
    · rw [eq]
      have cleared : CatalogKept s
          (mapTrackers (clearRecallOf i) ((inputsBoundTo i s).foldl retireInput s)) :=
        (foldl_catalogKept (fun s n => retireInput_moves n s) _ s).trans
          (.of_same (mapTrackers_catalog _ _))
      obtain ⟨k, hk⟩ := cleared.1 i
      have freed := catalogLaw_freeSlot (i := i) (h.of_kept cleared) (by rw [hk]; exact stands)
      exact (freed.of_kept (handMarks_catalogKept _)).of_kept (submitReleased_catalogKept _ _)
  · exact (catalogLaw_resetCatalog (s := clearSlots s) (by simp [clearSlots])).of_kept
      (submitReleased_catalogKept _ _)

/-! ### Every move -/

theorem restartBlocks_catalogKept (s : State) : CatalogKept s (restartBlocks s) := by
  have released : CatalogKept s ((boundInputs s).foldl (fun s n => release n .coreRestart s) s) :=
    foldl_catalogKept (fun _ _ => TrackerMoves.release .refl .coreRestart) _ s
  refine released.trans ⟨fun i => ⟨0, ?_⟩, rfl, rfl⟩
  exact getElem_mapVec _ _ _ _

theorem onUnit_catalogKept (n : InputIx) (tick : Nat) (f : MeasUnit → Measured) (s : State) :
    CatalogKept s (onUnit n tick f s) :=
  CatalogKept.trans (t := s.withUnit n (f (s.unit n)).1) (.of_same rfl)
    (takeReports_moves n _ tick _).catalogKept

theorem endPass_catalog (c : Completion) (p : Pass) (s : State) :
    (endPass c p s).catalog = s.catalog := by
  unfold endPass
  dsimp only
  split <;> rfl

theorem deliver_catalogKept (tick : Nat) (p : Pass) (s : State) :
    CatalogKept s (deliver tick p s) := by
  unfold deliver
  split
  · exact (takeResult_moves _ s tick p).catalogKept
  · unfold takeProbeResult
    split <;> exact .of_same rfl

theorem completeStart_catalogKept (c : Completion) (p : Pass) (s : State) :
    CatalogKept s (completeStart c p s) := by
  unfold completeStart
  split
  · exact .of_same (endPass_catalog c p s)
  · split
    · unfold restartPass
      dsimp only
      split <;> exact .of_same rfl
    · exact (deliver_catalogKept c.tick p s).trans (.of_same (endPass_catalog c p _))

theorem CoreMove.catalogLaw {s t : State} (move : CoreMove s t) (h : CatalogLaw s) :
    CatalogLaw t := by
  cases move with
  | same hst => exact h.of_kept (.of_same hst.1)
  | pinMoved n pin level => cases pin <;> exact h.of_kept (.of_same rfl)
  | accepted | changed | gainTimeout | hLost => exact h.of_kept (onUnit_catalogKept _ _ _ _)
  | completed c p => exact h.of_kept (completeStart_catalogKept c p s)
  | change a run hrun => exact catalogLaw_change hrun h
  | probeWithdrawn =>
    refine h.of_kept (.of_same ?_)
    unfold withdrawProbe
    split <;> rfl
  | probeSubmitted args => exact h.of_kept (.of_same (submit_catalog _ _ _))
  | rebound args =>
    unfold runRebind
    split
    · exact h
    · exact h.of_kept (rebindInput_moves _ s).catalogKept
  | faultCleared args =>
    unfold runClearFault
    split
    · exact h
    · split <;> exact h.of_kept (.of_same rfl)
  | restarted => exact h.of_kept (restartBlocks_catalogKept s)
  | enabled n _ => exact h.of_kept (enableTracker_moves n _).catalogKept
  | disabled n _ => exact h.of_kept (disableTracker_moves n _).catalogKept
  | examined | arbitrated | settleCoast | glitch | faultEnables => exact h.of_kept (.of_same rfl)

/-! ### The obligation -/

/-- Settles O5: only a reset and the catalog changes touch more of the catalog than bind_counts, and
each of them keeps the law. -/
theorem stepKeepsCatalogLaw : Obligations.StepKeepsCatalogLaw := fun _ _ h =>
  step_keeps (fun _ _ _ => catalogLaw_resetCatalog rfl) (fun _ _ move => move.catalogLaw) h

end Sys2Proof.Machine
end

