-- ==== Sys2Proof/Proofs/Units.lean ====
section
/-! The measurement unit: what each of its functions keeps of the unit's law, and the obligation that
every step keeps it. -/

namespace Sys2Proof.Machine

/-! ### The law, field by field -/

/-- A rejection count is held at 255, and NOISE stands in the record from the 32nd on (R73, R95). -/
def OpenPeriod.legal (p : OpenPeriod) : Prop :=
  p.rejections ≤ 255 ∧ (p.faults.noise = true ↔ 32 ≤ p.rejections)

/-- The unit's law with the line counter bounded by `c`: 4095, and 4096 at the edge at which it runs
out. -/
structure MeasUnit.LawAt (c : Nat) (u : MeasUnit) : Prop where
  ringLength : u.ring.length = if isRunning u then 8 else 0
  ringLegal : ∀ l ∈ u.ring, l.legal
  gainLegal : ∀ l ∈ u.gainLines, l.legal
  shortLegal : ∀ l ∈ u.shortLines, l.legal
  gainLength : u.gainLines.length ≤ 7
  gainQuiet : u.gainLines ≠ [] → u.state = .quiet
  shortLength : u.shortLines.length ≤ 7
  shortRunning : u.shortLines ≠ [] → isRunning u
  counter : u.lineCounter ≤ c
  counterRunning : u.lineCounter ≠ 0 → isRunning u
  quiet : u.vQuiet ≤ 4096
  quietRunning : u.vQuiet ≠ 4096 → isRunning u
  run : u.sepRun ≤ 4095
  runRunning : u.sepRun ≠ 0 → isRunning u
  runStart : ∀ r, u.runStart = some r → r.count ≤ 4095
  line : ∀ o, u.line = some o → u.lastHEdge = some o.openTick ∧ o.openCount ≤ 4095
  edge : isRunning u → u.lastHEdge.isSome
  period : u.period.isSome ↔ isOpenState u.state
  record : ∀ p, u.period = some p → p.legal
  halfLine : u.halfLineRef.isSome ↔ u.state = .publishing
  filters : u.state = .off → u.hFilter.waiting = none ∧ u.vFilter.waiting = none
  lastSet : ∀ m, u.lastSet = some m → m.sync.legal

theorem MeasUnit.law_iff (u : MeasUnit) : u.law ↔ u.LawAt 4095 := by
  constructor
  · rintro ⟨h1, h2, h3, h4, h5, h6, h7, h8, h9, h10, h11, h12, h13, h14, h15, h16, h17, h18, h19,
      h20, h21, h22⟩
    exact ⟨h1, h2, h3, h4, h5, h6, h7, h8, h9, h10, h11, h12, h13, h14, h15, h16, h17, h18, h19,
      h20, h21, h22⟩
  · rintro ⟨h1, h2, h3, h4, h5, h6, h7, h8, h9, h10, h11, h12, h13, h14, h15, h16, h17, h18, h19,
      h20, h21, h22⟩
    exact ⟨h1, h2, h3, h4, h5, h6, h7, h8, h9, h10, h11, h12, h13, h14, h15, h16, h17, h18, h19,
      h20, h21, h22⟩

/-! ### Small readings -/

theorem isRunning_iff {u : MeasUnit} :
    isRunning u = true ↔ u.state = .unprimed ∨ u.state = .priming ∨ u.state = .publishing := by
  unfold isRunning
  cases u.state <;> simp

theorem not_isRunning_iff {u : MeasUnit} :
    isRunning u = false ↔ u.state = .off ∨ u.state = .quiet := by
  unfold isRunning
  cases u.state <;> simp

theorem isRunning_of_isOpenState {u : MeasUnit} (h : isOpenState u.state) : isRunning u = true :=
  isRunning_iff.mpr (.inr h)

theorem ringLength_of_running {u : MeasUnit} (hu : isRunning u = true) (h : u.ring.length = 8) :
    u.ring.length = if isRunning u then 8 else 0 := by
  rw [if_pos hu, h]

section
variable {c : Nat} {u : MeasUnit}

theorem MeasUnit.LawAt.mono (h : u.LawAt c) {d : Nat} (hd : u.lineCounter ≤ d) : u.LawAt d :=
  { h with counter := hd }

/-- A running unit has no gain count. -/
theorem MeasUnit.LawAt.gainLines_eq_nil (h : u.LawAt c) (hu : isRunning u = true) :
    u.gainLines = [] := by
  by_contra some
  have quiet := h.gainQuiet some
  rw [isRunning, quiet] at hu
  exact absurd hu (by simp)

theorem MeasUnit.LawAt.ring_length (h : u.LawAt c) (hu : isRunning u = true) :
    u.ring.length = 8 := by
  rw [h.ringLength, if_pos hu]

/-- A running unit moved to a running state, with the period and half-line reference of that state. -/
theorem MeasUnit.LawAt.restate (h : u.LawAt c) (hu : isRunning u = true) {x : UnitState}
    {p : Option OpenPeriod} {r : Option Bool} (hx : isRunning { u with state := x } = true)
    (hp : p.isSome ↔ isOpenState x) (hrec : ∀ q, p = some q → q.legal)
    (hr : r.isSome ↔ x = .publishing) :
    MeasUnit.LawAt c { u with state := x, period := p, halfLineRef := r } :=
  { h with
    ringLength := ringLength_of_running hx (h.ring_length hu)
    gainQuiet := fun some => absurd (h.gainLines_eq_nil hu) some
    shortRunning := fun _ => hx
    counterRunning := fun _ => hx
    quietRunning := fun _ => hx
    runRunning := fun _ => hx
    edge := fun _ => h.edge hu
    period := hp
    record := hrec
    halfLine := hr
    filters := fun off => by
      change x = .off at off
      rw [off] at hx
      exact absurd hx (by simp [isRunning]) }

/-! ### Discards and losses -/

/-- A unit without a measurement. -/
theorem lawAt_discarded (h : u.LawAt c) {x : UnitState} (hx : x = .off ∨ x = .quiet)
    {hf vf : PinFilter} (hfilters : x = .off → hf.waiting = none ∧ vf.waiting = none) :
    MeasUnit.LawAt 4095 { discardMeasurement u with state := x, hFilter := hf, vFilter := vf } := by
  have still : isRunning { discardMeasurement u with state := x, hFilter := hf, vFilter := vf }
      = false := not_isRunning_iff.mpr hx
  exact
    { ringLength := by rw [if_neg (by simp [still])]; rfl
      ringLegal := fun _ hl => absurd hl List.not_mem_nil
      gainLegal := fun _ hl => absurd hl List.not_mem_nil
      shortLegal := fun _ hl => absurd hl List.not_mem_nil
      gainLength := Nat.zero_le _
      gainQuiet := fun some => absurd rfl some
      shortLength := Nat.zero_le _
      shortRunning := fun some => absurd rfl some
      counter := Nat.zero_le _
      counterRunning := fun some => absurd rfl some
      quiet := le_refl _
      quietRunning := fun some => absurd rfl some
      run := Nat.zero_le _
      runRunning := fun some => absurd rfl some
      runStart := fun _ hr => absurd hr (by simp [discardMeasurement])
      line := fun _ ho => absurd ho (by simp [discardMeasurement])
      edge := fun running => by simp [still] at running
      period := iff_of_false (by simp [discardMeasurement])
        (by obtain rfl | rfl := hx <;> simp [isOpenState])
      record := fun _ hp => absurd hp (by simp [discardMeasurement])
      halfLine := iff_of_false (by simp [discardMeasurement])
        (by obtain rfl | rfl := hx <;> simp)
      filters := hfilters
      lastSet := h.lastSet }

theorem lawAt_loseHorizontal (h : u.LawAt c) : (loseHorizontal u).1.LawAt 4095 :=
  lawAt_discarded (x := .quiet) (hf := u.hFilter) (vf := u.vFilter) h (.inr rfl) (by simp)

theorem lawAt_gainTimeout (h : u.LawAt c) (hq : u.state = .quiet) : (gainTimeout u).LawAt c :=
  { h with
    gainLegal := fun _ hl => absurd hl List.not_mem_nil
    gainLength := Nat.zero_le _
    gainQuiet := fun some => absurd rfl some
    line := fun _ ho => absurd ho (by simp [gainTimeout])
    edge := fun running => by
      change isRunning u = true at running
      rw [isRunning, hq] at running
      exact absurd running (by simp) }

theorem lawAt_expireHorizontal (h : u.LawAt 4095) : (expireHorizontal u).1.LawAt 4095 := by
  unfold expireHorizontal
  split
  · exact h
  · next hq => exact lawAt_gainTimeout h hq
  all_goals exact lawAt_loseHorizontal h

theorem lawAt_setHRef (p : Polarity) (h : u.LawAt c) : (setHRef p u).LawAt c := by
  unfold setHRef
  split
  · exact h
  · exact { h with line := fun _ ho => absurd ho (by simp) }

theorem lawAt_loseVertical (p : Polarity) (h : u.LawAt c) (hu : isRunning u = true) :
    (loseVertical p u).1.LawAt 4095 := by
  have lost := h.restate hu (x := .unprimed) (p := none) (r := none) rfl (by simp [isOpenState])
    (by simp) (by simp)
  exact lawAt_setHRef p
    { lost with
      counter := Nat.zero_le _
      counterRunning := fun _ => rfl
      run := Nat.zero_le _
      runRunning := fun _ => rfl
      runStart := fun _ hr => absurd hr (by simp) }

/-! ### Rejections -/

theorem legal_countedRejection {p : OpenPeriod} (h : p.legal) :
    OpenPeriod.legal
      { p with
        rejections := min 255 (p.rejections + 1)
        faults := if p.rejections == 31 && !p.faults.noise then p.faults.add .noise
          else p.faults } := by
  obtain ⟨bound, noise⟩ := h
  refine ⟨by simp only; omega, ?_⟩
  by_cases last : p.rejections = 31
  · have quiet : p.faults.noise = false := by
      rw [← Bool.not_eq_true, noise]
      omega
    simp [last, quiet, FaultSet.add]
  · have : (p.rejections == 31 && !p.faults.noise) = false := by simp [last]
    simp only [this, Bool.false_eq_true, if_false, noise]
    omega

theorem lawAt_countRejection (h : u.LawAt c) : (countRejection u).1.LawAt c := by
  unfold countRejection
  split
  · exact h
  · next p hp =>
    exact
      { h with
        period := by rw [← h.period, hp]; simp
        record := fun q hq => by
          rw [← Option.some.inj hq]
          exact legal_countedRejection (h.record p hp) }

/-! ### Vertical edges -/

/-- The sums of eight legal lines lie in the ranges of a published set (R81). -/
theorem sums_of_legal {l : List Line} (h : ∀ x ∈ l, x.legal) :
    160 * l.length ≤ (l.map Line.period).sum ∧ (l.map Line.period).sum ≤ 8191 * l.length
      ∧ 2 * (l.map Line.width).sum ≤ (l.map Line.period).sum := by
  induction l with
  | nil => simp
  | cons x l ih =>
    obtain ⟨low, high, width⟩ := h x List.mem_cons_self
    obtain ⟨lows, highs, widths⟩ := ih fun y hy => h y (List.mem_cons_of_mem x hy)
    simp only [List.length_cons, List.map_cons, List.sum_cons]
    omega

theorem legal_composeSet (h : u.LawAt c) (hu : isRunning u = true) (p : OpenPeriod) {e : VEdge}
    (hlow : 16 ≤ e.count) (hhigh : e.count ≤ 4095) : (composeSet u p e).sync.legal := by
  obtain ⟨lows, highs, widths⟩ := sums_of_legal h.ringLegal
  rw [h.ring_length hu] at lows highs
  simp only [composeSet, SyncSet.legal, ringPeriods, ringWidths]
  omega

/-- The record of a period that opens is empty. -/
theorem legal_opened (t : Nat) : (periodOpenedAt t).legal := by
  simp [OpenPeriod.legal, periodOpenedAt, noFaults]

/-- A period opens in PRIMING or PUBLISHING. -/
theorem lawAt_openPeriodAt {e : VEdge} (h : u.LawAt c) (hu : isRunning u = true)
    {x : UnitState} {r : Option Bool} (hx : isOpenState x) (hr : r.isSome ↔ x = .publishing)
    (he : e.newCount ≤ c) :
    (openPeriodAt e { u with state := x, halfLineRef := r }).LawAt c := by
  have opened := h.restate hu (x := x) (p := some (periodOpenedAt e.tick)) (r := r)
    (isRunning_of_isOpenState hx) (by simpa using hx)
    (fun q hq => Option.some.inj hq ▸ legal_opened e.tick) hr
  exact { opened with counter := he, counterRunning := fun _ => isRunning_of_isOpenState hx }

/-- A period opens with the state and half-line reference as they are. -/
theorem lawAt_openPeriodAt_kept {e : VEdge} (h : u.LawAt c) (hx : isOpenState u.state)
    (he : e.newCount ≤ c) : (openPeriodAt e u).LawAt c :=
  lawAt_openPeriodAt h (isRunning_of_isOpenState hx) hx h.halfLine he

theorem lawAt_invertVRef (h : u.LawAt c) (hu : isRunning u = true) : (invertVRef u).LawAt c :=
  { h.restate hu (x := .unprimed) (p := none) (r := none) rfl (by simp [isOpenState]) (by simp)
      (by simp) with
    counter := Nat.zero_le _
    counterRunning := fun _ => rfl }

theorem setHRef_state (p : Polarity) (u : MeasUnit) : (setHRef p u).state = u.state := by
  unfold setHRef
  split <;> rfl

theorem isOpenState_setHRef (p : Polarity) {u : MeasUnit} (h : isOpenState u.state) :
    isOpenState (setHRef p u).state := by
  rw [setHRef_state]
  exact h

theorem lawAt_closeWithSet {record : FaultSet} {p : OpenPeriod} {e : VEdge} (h : u.LawAt c)
    (hx : u.state = .publishing) (hlow : 16 ≤ e.count) (hhigh : e.count ≤ 4095)
    (he : e.newCount ≤ c) : (closeWithSet record p e u).1.LawAt c := by
  have hu : isRunning u = true := isRunning_iff.mpr (.inr (.inr hx))
  have opened : isOpenState u.state := .inr hx
  have referenced : (setHRef (composeSet u p e).sync.hPolarity
      { u with halfLineRef := some (composeSet u p e).halfLine }).LawAt c :=
    lawAt_setHRef _ (h.restate hu (x := u.state) (p := u.period) hu h.period h.record
      (by simp [hx]))
  have stillOpen := isOpenState_setHRef (composeSet u p e).sync.hPolarity
    (u := { u with halfLineRef := some (composeSet u p e).halfLine }) opened
  unfold closeWithSet
  dsimp only
  split
  · refine lawAt_openPeriodAt_kept { referenced with lastSet := fun m hm => ?_ } stillOpen he
    rw [← Option.some.inj hm]
    exact legal_composeSet h hu p hlow hhigh
  · exact lawAt_openPeriodAt_kept referenced stillOpen he

theorem lawAt_closeTested {record : FaultSet} {p : OpenPeriod} {e : VEdge} (h : u.LawAt c)
    (hx : isOpenState u.state) (hhigh : e.count ≤ 4095) (he : e.newCount ≤ c) :
    (closeTested record p e u).1.LawAt c := by
  have hu := isRunning_of_isOpenState hx
  unfold closeTested
  split
  · exact lawAt_invertVRef h hu
  · split
    · exact lawAt_openPeriodAt_kept h hx he
    · next long =>
      split
      · next publishing =>
        exact lawAt_closeWithSet h publishing (Nat.le_of_not_lt long) hhigh he
      · exact lawAt_openPeriodAt h hu (.inr rfl) (by simp) he

theorem lawAt_verticalEdge {e : VEdge} (h : u.LawAt c) (hhigh : e.count ≤ 4095)
    (he : e.newCount ≤ c) : (verticalEdge e u).1.LawAt c := by
  have closed : ∀ p, isOpenState u.state → (closePeriod p e u).1.LawAt c := by
    intro p hx
    unfold closePeriod
    split
    · exact lawAt_closeTested h hx hhigh he
    · exact lawAt_closeTested h hx hhigh he
  unfold verticalEdge
  split
  · exact h
  · exact h
  · next hx =>
    exact lawAt_openPeriodAt h (isRunning_iff.mpr (.inl hx)) (.inl rfl)
      (by rw [h.halfLine, hx]; simp) he
  all_goals
    next hx =>
    have opened : isOpenState u.state := by simp [isOpenState, hx]
    split
    · exact closed _ opened
    · exact lawAt_openPeriodAt_kept h opened he

/-! ### Lines -/

/-- A line in progress closes 160..8191 ticks after it opened, with a width of at most half its
period. -/
theorem legal_characterise {o : OpenLine} {t : Nat} (hlow : 160 ≤ t - o.openTick)
    (hhigh : t - o.openTick < 8192) : (characterise u o t).line.legal := by
  refine ⟨hlow, by simp only [characterise]; omega, ?_⟩
  simp only [characterise]
  split <;> omega

theorem lawAt_countLine (h : u.LawAt 4095) (hu : isRunning u = true) :
    (countLine u).LawAt 4096 :=
  { h with
    counter := Nat.succ_le_succ h.counter
    counterRunning := fun _ => hu
    quiet := Nat.min_le_left _ _
    quietRunning := fun _ => hu }

theorem forall_legal_append {l : List Line} {x : Line} (h : ∀ y ∈ l, y.legal) (hx : x.legal) :
    ∀ y ∈ l ++ [x], y.legal := by
  intro y hy
  obtain hy | hy := List.mem_append.mp hy
  · exact h y hy
  · exact List.mem_singleton.mp hy ▸ hx

theorem lawAt_admitLine {src : VSource} {l : ClosedLine} (h : u.LawAt c)
    (hu : isRunning u = true) (hl : l.line.legal) : (admitLine src l u).LawAt c := by
  have length := h.ring_length hu
  have short := h.shortLength
  have shorts := forall_legal_append h.shortLegal hl
  unfold admitLine
  split
  · exact h
  · split
    · dsimp only
      split
      · next full =>
        rw [List.length_append, List.length_singleton] at full
        exact
          { h with
            ringLength := ringLength_of_running hu
              (by rw [List.length_append, List.length_singleton]; omega)
            ringLegal := shorts
            shortLegal := fun _ hl => absurd hl List.not_mem_nil
            shortLength := Nat.zero_le _
            shortRunning := fun some => absurd rfl some }
      · next notFull =>
        exact
          { h with
            shortLegal := shorts
            shortLength := by simp only; omega
            shortRunning := fun _ => hu }
    · exact
        { h with
          ringLength := ringLength_of_running hu
            (by rw [List.length_append, List.length_singleton, List.length_drop]; omega)
          ringLegal := forall_legal_append (fun y hy => h.ringLegal y (List.mem_of_mem_drop hy)) hl
          shortLegal := fun _ hl => absurd hl List.not_mem_nil
          shortLength := Nat.zero_le _
          shortRunning := fun some => absurd rfl some }

/-- Where the pulse of a run ends, the record keeps its counts. -/
theorem legal_endRunPulse (src : VSource) (run : Nat) {p : OpenPeriod} (h : p.legal) :
    (endRunPulse src run p).legal := by
  unfold endRunPulse
  split <;> exact h

theorem lawAt_endRun (src : VSource) (h : u.LawAt c) : (endRun src u).LawAt c :=
  { h with
    run := Nat.zero_le _
    runRunning := fun some => absurd rfl some
    runStart := fun _ hr => absurd hr (by simp [endRun])
    period := by
      change _ ↔ isOpenState u.state
      rw [← h.period]
      simp only [endRun]
      split <;> simp
    record := fun q hq => by
      simp only [endRun] at hq
      split at hq
      · obtain ⟨p, hp, rfl⟩ := Option.map_eq_some_iff.mp hq
        exact legal_endRunPulse src _ (h.record p hp)
      · exact h.record q hq }

theorem lawAt_extendRun {l : ClosedLine} (h : u.LawAt c) (hu : isRunning u = true)
    (hl : l.start.count ≤ 4095) : (extendRun l u).LawAt c :=
  { h with
    run := Nat.min_le_left _ _
    runRunning := fun _ => hu
    runStart := fun r hr => by
      simp only [extendRun] at hr
      split at hr
      · exact Option.some.inj hr ▸ hl
      · exact h.runStart r hr }

theorem lawAt_separatorTakes {src : VSource} {l : ClosedLine} (h : u.LawAt c)
    (hu : isRunning u = true) (hl : l.start.count ≤ 4095) (hc : 3 ≤ c) :
    (separatorTakes src l u).1.LawAt c := by
  have extended := lawAt_extendRun h hu hl
  have disarmed : MeasUnit.LawAt c { extendRun l u with sepArmed := false } :=
    { extended with }
  unfold separatorTakes
  dsimp only
  split
  · split
    · split
      · next r hr => exact lawAt_verticalEdge disarmed (extended.runStart r hr) hc
      · exact disarmed
    · exact extended
  · exact lawAt_endRun src h

/-- POLARITY_FLIP in a record leaves NOISE as it was. -/
theorem noise_addFlip (b : Bool) (f : FaultSet) :
    (if b then f.add .polarityFlip else f).noise = f.noise := by
  cases b <;> rfl

theorem lawAt_flipTest {src : VSource} {l : ClosedLine} (h : u.LawAt c) :
    (flipTest src l u).1.LawAt c := by
  unfold flipTest
  split
  · next p hp =>
    dsimp only
    refine
      { h with
        period := by rw [← h.period, hp]; simp
        record := fun q hq => ?_ }
    have legal := h.record p hp
    rw [← Option.some.inj hq]
    exact ⟨legal.1, by rw [noise_addFlip]; exact legal.2⟩
  · exact h

theorem lawAt_handOnLine {src : VSource} {l : ClosedLine} (h : u.LawAt c)
    (hu : isRunning u = true) (hl : l.start.count ≤ 4095) (hc : 3 ≤ c) :
    (handOnLine src l u).1.LawAt c :=
  lawAt_flipTest (lawAt_separatorTakes h hu hl hc)

end

/-! ### Functions that leave the unit running -/

/-- An open state or UNPRIMED after a vertical edge: a running unit keeps running. -/
theorem isRunning_verticalEdge {e : VEdge} {u : MeasUnit} (hu : isRunning u = true) :
    isRunning (verticalEdge e u).1 = true := by
  have tested : ∀ record p, isOpenState u.state →
      isRunning (closeTested record p e u).1 = true := by
    intro record p hx
    unfold closeTested closeWithSet
    split
    · rfl
    · split
      · exact hu
      · have stillOpen := isOpenState_setHRef (composeSet u p e).sync.hPolarity
          (u := { u with halfLineRef := some (composeSet u p e).halfLine }) hx
        split
        · dsimp only
          split
          · exact isRunning_of_isOpenState stillOpen
          · exact isRunning_of_isOpenState stillOpen
        · rfl
  unfold verticalEdge
  split
  · exact hu
  · exact hu
  · rfl
  all_goals
    next hx =>
    have opened : isOpenState u.state := by simp [isOpenState, hx]
    split
    · unfold closePeriod
      split
      · exact tested _ _ opened
      · exact tested _ _ opened
    · exact hu

theorem isRunning_handOnLine {src : VSource} {l : ClosedLine} {u : MeasUnit}
    (hu : isRunning u = true) : isRunning (handOnLine src l u).1 = true := by
  have taken : isRunning (separatorTakes src l u).1 = true := by
    unfold separatorTakes
    dsimp only
    split
    · split
      · split
        · exact isRunning_verticalEdge hu
        · exact hu
      · exact hu
    · exact hu
  change isRunning (flipTest src l (separatorTakes src l u).1).1 = true
  unfold flipTest
  split
  · exact taken
  · exact taken

theorem isRunning_admitLine {src : VSource} {l : ClosedLine} {u : MeasUnit}
    (hu : isRunning u = true) : isRunning (admitLine src l u) = true := by
  unfold admitLine
  split
  · exact hu
  · split
    · dsimp only
      split <;> exact hu
    · exact hu

section
variable {c : Nat} {u : MeasUnit}

theorem lawAt_lineClosed {order : ExpiryOrder} {l : ClosedLine} (h : u.LawAt 4095)
    (hu : isRunning u = true) (hl : l.line.legal) (hs : l.start.count ≤ 4095) :
    (lineClosed order l u).1.LawAt 4095 := by
  have running := isRunning_admitLine (src := ringSource order u) (l := l) hu
  have counted := lawAt_countLine (lawAt_admitLine (src := ringSource order u) h hu hl) running
  have handed : ∀ src, (handOnLine src l (countLine (admitLine (ringSource order u) l u))).1.LawAt
      4096 := fun src => lawAt_handOnLine counted running hs (by omega)
  unfold lineClosed
  dsimp only
  split
  · split
    · exact lawAt_loseVertical _ counted running
    · next short =>
      exact lawAt_handOnLine (counted.mono (by omega)) running hs (by omega)
  · split
    · exact lawAt_loseVertical _ (handed _) (isRunning_handOnLine running)
    · next short =>
      simp only [Bool.or_eq_true, decide_eq_true_eq, not_or] at short
      exact (handed _).mono (by omega)

theorem lawAt_gainLine {l : Line} (h : u.LawAt 4095) (hq : u.state = .quiet) (hl : l.legal)
    (hedge : u.lastHEdge.isSome) : (gainLine l u).1.LawAt 4095 := by
  have lines := forall_legal_append h.gainLegal hl
  have gained := h.gainLength
  have noPeriod : u.period = none := by
    rw [← Option.not_isSome_iff_eq_none, h.period, hq]
    simp [isOpenState]
  unfold gainLine gainHorizontal
  dsimp only
  split
  · next full =>
    rw [List.length_append, List.length_singleton] at full
    refine lawAt_setHRef _ ?_
    exact
      { ringLength := ringLength_of_running rfl
          (by rw [List.length_append, List.length_singleton]; omega)
        ringLegal := lines
        gainLegal := fun _ hl => absurd hl List.not_mem_nil
        shortLegal := fun _ hl => absurd hl List.not_mem_nil
        gainLength := Nat.zero_le _
        gainQuiet := fun some => absurd rfl some
        shortLength := Nat.zero_le _
        shortRunning := fun _ => rfl
        counter := Nat.zero_le _
        counterRunning := fun _ => rfl
        quiet := le_refl _
        quietRunning := fun _ => rfl
        run := Nat.zero_le _
        runRunning := fun _ => rfl
        runStart := fun _ hr => absurd hr (by simp)
        line := h.line
        edge := fun _ => hedge
        period := by rw [noPeriod]; simp [isOpenState]
        record := h.record
        halfLine := by simp
        filters := fun off => absurd off (by simp)
        lastSet := h.lastSet }
  · next notFull =>
    exact
      { h with
        gainLegal := lines
        gainLength := by simp only; omega
        gainQuiet := fun _ => hq }

/-! ### Horizontal edges -/

theorem lawAt_startLine (t : Nat) (h : u.LawAt 4095) : (startLine t u).LawAt 4095 :=
  { h with
    line := fun o ho => by
      rw [← Option.some.inj ho]
      exact ⟨rfl, h.counter⟩
    edge := fun _ => rfl }

theorem lawAt_settleOpenCount (h : u.LawAt 4095) : (settleOpenCount u).LawAt 4095 :=
  { h with
    line := fun o ho => by
      obtain ⟨o', ho', rfl⟩ := Option.map_eq_some_iff.mp ho
      exact ⟨(h.line o' ho').1, h.counter⟩ }

/-- An edge closes a line that began at the last accepted edge, 160..8191 ticks before. -/
theorem hEdgeAt_closes {t : Nat} {l : ClosedLine} (h : hEdgeAt u t = .closes l) :
    ∃ a o, u.lastHEdge = some a ∧ 160 ≤ t - a ∧ t - a < 8192 ∧ u.line = some o
      ∧ l = characterise u o t := by
  unfold hEdgeAt at h
  split at h
  · exact absurd h (by simp)
  · next a ha =>
    split at h
    · exact absurd h (by simp)
    · split at h
      · exact absurd h (by simp)
      · split at h
        · exact absurd h (by simp)
        · next o ho =>
          exact ⟨a, o, ha, by omega, by omega, ho, by simpa using h.symm⟩

theorem closes_legal {t : Nat} {l : ClosedLine} (h : u.LawAt 4095) (hl : hEdgeAt u t = .closes l) :
    l.line.legal ∧ l.start.count ≤ 4095 := by
  obtain ⟨a, o, ha, hlow, hhigh, ho, rfl⟩ := hEdgeAt_closes hl
  obtain ⟨began, count⟩ := h.line o ho
  obtain rfl : a = o.openTick := Option.some.inj (ha.symm.trans began)
  exact ⟨legal_characterise hlow hhigh, count⟩

theorem lawAt_horizontalEdge {order : ExpiryOrder} {t : Nat} (h : u.LawAt 4095)
    (hoff : u.state ≠ .off) : (horizontalEdge order t u).1.LawAt 4095 := by
  unfold horizontalEdge
  split
  · exact lawAt_startLine t h
  · exact lawAt_countRejection h
  · exact lawAt_startLine t (lawAt_expireHorizontal h)
  · next l hl =>
    obtain ⟨legal, count⟩ := closes_legal h hl
    have started := lawAt_startLine t h
    dsimp only
    split
    · next running => exact lawAt_settleOpenCount (lawAt_lineClosed started running legal count)
    · next still =>
      obtain off | quiet := not_isRunning_iff.mp (Bool.eq_false_iff.mpr still)
      · exact absurd off hoff
      · exact lawAt_settleOpenCount (lawAt_gainLine started quiet legal rfl)

theorem lawAt_endActivePhase (t : Nat) (h : u.LawAt c) : (endActivePhase t u).LawAt c :=
  { h with
    line := fun o ho => by
      obtain ⟨o', ho', rfl⟩ := Option.map_eq_some_iff.mp ho
      exact h.line o' ho' }

/-! ### Transitions of the V pin -/

theorem lawAt_vPinSeen (h : u.LawAt c) (hu : isRunning u = true) : (vPinSeen u).LawAt c := by
  unfold vPinSeen
  split
  · exact { h with quiet := Nat.zero_le _, quietRunning := fun _ => hu }
  · have restated := h.restate hu (x := .unprimed) (p := none) (r := none) rfl
      (by simp [isOpenState]) (by simp) (by simp)
    exact { restated with quiet := Nat.zero_le _, quietRunning := fun _ => rfl }

theorem isRunning_vPinSeen (hu : isRunning u = true) : isRunning (vPinSeen u) = true := by
  unfold vPinSeen
  split
  · exact hu
  · rfl

theorem lawAt_endVPulse (h : u.LawAt c) : (endVPulse u).LawAt c :=
  { h with
    period := by
      change _ ↔ isOpenState u.state
      rw [← h.period]
      simp [endVPulse]
    record := fun q hq => by
      obtain ⟨p, hp, rfl⟩ := Option.map_eq_some_iff.mp hq
      exact h.record p hp }

theorem lawAt_vTransition {level : Level} {t : Nat} (h : u.LawAt 4095) :
    (vTransition level t u).1.LawAt 4095 := by
  unfold vTransition
  split
  · next running =>
    have seen := lawAt_vPinSeen h running
    dsimp only
    split
    · exact lawAt_verticalEdge seen seen.counter (Nat.zero_le _)
    · exact lawAt_endVPulse seen
  · exact h

/-! ### The filters -/

theorem lawAt_withFilter {pin : Pin} {f : PinFilter} (h : u.LawAt c) (hoff : u.state ≠ .off) :
    (withFilter u pin f).LawAt c := by
  cases pin with
  | h => exact { h with filters := fun off => absurd off hoff }
  | v => exact { h with filters := fun off => absurd off hoff }

theorem withFilter_state (u : MeasUnit) (pin : Pin) (f : PinFilter) :
    (withFilter u pin f).state = u.state := by
  cases pin <;> rfl

/-! What an acceptance is, by the filter. -/

theorem acceptTransition_off (order : ExpiryOrder) (pin : Pin) (h : u.state = .off) :
    acceptTransition order pin u = (u, []) := by
  unfold acceptTransition
  rw [h]

theorem acceptTransition_none (order : ExpiryOrder) {pin : Pin}
    (h : (filterOf u pin).waiting = none) : acceptTransition order pin u = (u, []) := by
  unfold acceptTransition
  rw [h]
  cases u.state <;> rfl

theorem acceptTransition_h (order : ExpiryOrder) {w : Waiting} (hoff : u.state ≠ .off)
    (hw : u.hFilter.waiting = some w) :
    acceptTransition order .h u =
      if otherLevel u.hFilter.passed = activeLevel u.hRef then
        horizontalEdge order w.tick (hPinTaken u)
      else (endActivePhase w.tick (hPinTaken u), []) := by
  unfold acceptTransition
  rw [filterOf, hw]
  cases hs : u.state with
  | off => exact absurd hs hoff
  | quiet | unprimed | priming | publishing => rfl

theorem acceptTransition_v (order : ExpiryOrder) {w : Waiting} (hoff : u.state ≠ .off)
    (hw : u.vFilter.waiting = some w) :
    acceptTransition order .v u =
      vTransition (otherLevel u.vFilter.passed) w.tick
        (withFilter u .v { passed := otherLevel u.vFilter.passed, waiting := none }) := by
  unfold acceptTransition
  rw [filterOf, hw]
  cases hs : u.state with
  | off => exact absurd hs hoff
  | quiet | unprimed | priming | publishing => rfl

theorem lawAt_acceptTransition {order : ExpiryOrder} {pin : Pin} (h : u.LawAt 4095) :
    (acceptTransition order pin u).1.LawAt 4095 := by
  by_cases hoff : u.state = .off
  · rw [acceptTransition_off order pin hoff]; exact h
  · cases hw : (filterOf u pin).waiting with
    | none => rw [acceptTransition_none order hw]; exact h
    | some w =>
      have passed := lawAt_withFilter (pin := pin)
        (f := { passed := otherLevel (filterOf u pin).passed, waiting := none }) h hoff
      cases pin with
      | h =>
        rw [acceptTransition_h order hoff hw]
        split
        · exact lawAt_horizontalEdge passed hoff
        · exact lawAt_endActivePhase _ passed
      | v =>
        rw [acceptTransition_v order hoff hw]
        exact lawAt_vTransition passed

/-! What the change of a pin is, by the filter. -/

section
variable (order : ExpiryOrder) (level : Level) (t : Nat) (window : BitVec 4)

theorem pinChange_off {pin : Pin} (h : u.state = .off) :
    pinChange order pin level t window u = (u, []) := by
  unfold pinChange
  rw [h]

theorem pinChange_none {pin : Pin} (hoff : u.state ≠ .off)
    (hw : (filterOf u pin).waiting = none) :
    pinChange order pin level t window u =
      if level = (filterOf u pin).passed then (u, [])
      else (withWaiting u pin (some { tick := t, window := window }), []) := by
  unfold pinChange
  rw [hw]
  cases hs : u.state with
  | off => exact absurd hs hoff
  | quiet | unprimed | priming | publishing => rfl

theorem pinChange_some {pin : Pin} {w : Waiting} (hoff : u.state ≠ .off)
    (hw : (filterOf u pin).waiting = some w) :
    pinChange order pin level t window u =
      if t - w.tick < w.window.toNat then rejectPulse pin t u
      else
        (withWaiting (acceptTransition order pin u).1 pin (some { tick := t, window := window }),
          (acceptTransition order pin u).2) := by
  unfold pinChange
  rw [hw]
  cases hs : u.state with
  | off => exact absurd hs hoff
  | quiet | unprimed | priming | publishing => rfl

end

theorem countRejection_state (u : MeasUnit) : (countRejection u).1.state = u.state := by
  unfold countRejection
  split <;> rfl

theorem lawAt_rejectPulse {pin : Pin} {t : Nat} (h : u.LawAt 4095) (hoff : u.state ≠ .off) :
    (rejectPulse pin t u).1.LawAt 4095 := by
  have counted : (countRejection (withWaiting u pin none)).1.LawAt 4095 :=
    lawAt_countRejection (lawAt_withFilter h hoff)
  unfold rejectPulse
  dsimp only
  split
  · exact lawAt_expireHorizontal counted
  · exact counted

/-! ### A unit that is not OFF stays so -/

theorem expireHorizontal_ne_off (h : u.state ≠ .off) : (expireHorizontal u).1.state ≠ .off := by
  unfold expireHorizontal
  split
  · exact h
  · exact h
  all_goals simp [loseHorizontal]

theorem ne_off_of_isRunning (h : isRunning u = true) : u.state ≠ .off := by
  intro off
  rw [isRunning, off] at h
  exact absurd h (by simp)

theorem lineClosed_ne_off {order : ExpiryOrder} {l : ClosedLine} (h : isRunning u = true) :
    (lineClosed order l u).1.state ≠ .off := by
  have running := isRunning_admitLine (src := ringSource order u) (l := l) h
  have lost : ∀ v, (loseVertical l.line.polarity v).1.state ≠ .off := fun v => by
    rw [loseVertical, setHRef_state]; simp
  have handed : ∀ src, (handOnLine src l (countLine (admitLine (ringSource order u) l u))).1.state
      ≠ .off := fun src => ne_off_of_isRunning (isRunning_handOnLine running)
  unfold lineClosed
  dsimp only
  split
  · split
    · exact lost _
    · exact handed _
  · split
    · exact lost _
    · exact handed _

theorem gainLine_ne_off {l : Line} (h : u.state ≠ .off) : (gainLine l u).1.state ≠ .off := by
  unfold gainLine gainHorizontal
  dsimp only
  split
  · rw [setHRef_state]; simp
  · exact h

theorem horizontalEdge_ne_off {order : ExpiryOrder} {t : Nat} (h : u.state ≠ .off) :
    (horizontalEdge order t u).1.state ≠ .off := by
  unfold horizontalEdge
  split
  · exact h
  · rw [countRejection_state]; exact h
  · exact expireHorizontal_ne_off h
  · dsimp only
    split
    · next running => exact lineClosed_ne_off (u := startLine t u) running
    · exact gainLine_ne_off (u := startLine t u) h

theorem vTransition_ne_off {level : Level} {t : Nat} (h : u.state ≠ .off) :
    (vTransition level t u).1.state ≠ .off := by
  unfold vTransition
  split
  · next running =>
    dsimp only
    split
    · exact ne_off_of_isRunning (isRunning_verticalEdge (isRunning_vPinSeen running))
    · exact ne_off_of_isRunning (u := vPinSeen u) (isRunning_vPinSeen running)
  · exact h

theorem acceptTransition_ne_off {order : ExpiryOrder} {pin : Pin} (h : u.state ≠ .off) :
    (acceptTransition order pin u).1.state ≠ .off := by
  cases hw : (filterOf u pin).waiting with
  | none => rw [acceptTransition_none order hw]; exact h
  | some w =>
    cases pin with
    | h =>
      rw [acceptTransition_h order h hw]
      split
      · exact horizontalEdge_ne_off h
      · exact h
    | v =>
      rw [acceptTransition_v order h hw]
      exact vTransition_ne_off h

theorem lawAt_pinChange {order : ExpiryOrder} {pin : Pin} {level : Level} {t : Nat}
    {window : BitVec 4} (h : u.LawAt 4095) :
    (pinChange order pin level t window u).1.LawAt 4095 := by
  by_cases hoff : u.state = .off
  · rw [pinChange_off order level t window hoff]; exact h
  · cases hw : (filterOf u pin).waiting with
    | none =>
      rw [pinChange_none order level t window hoff hw]
      split
      · exact h
      · exact lawAt_withFilter h hoff
    | some w =>
      rw [pinChange_some order level t window hoff hw]
      split
      · exact lawAt_rejectPulse h hoff
      · exact lawAt_withFilter (lawAt_acceptTransition h) (acceptTransition_ne_off hoff)

end

/-! ### Every move -/

theorem lawAt_restartUnit (enabled : Bool) (hLevel vLevel : Level) :
    (restartUnit enabled hLevel vLevel).LawAt 4095 := by
  have reset : resetUnit.LawAt 4095 := by
    constructor <;> simp [resetUnit, isRunning, isOpenState]
  exact lawAt_discarded (u := resetUnit) (x := if enabled then .quiet else .off)
    (hf := { passed := hLevel, waiting := none }) (vf := { passed := vLevel, waiting := none })
    reset (by cases enabled <;> simp) fun _ => ⟨rfl, rfl⟩

theorem lawAt_resetUnit : resetUnit.LawAt 4095 := lawAt_restartUnit false .low .low

/-- Units that were as they are keep the law. -/
theorem UnitLaw.of_units {s t : State} (h : UnitLaw s) (same : ∀ n, t.unit n = s.unit n) :
    UnitLaw t := fun n => by rw [same]; exact h n

/-- A move of one unit keeps the law if the unit does. -/
theorem UnitLaw.of_unit {s t : State} {n : InputIx} (h : UnitLaw s) (own : (t.unit n).law)
    (others : ∀ m, m ≠ n → t.unit m = s.unit m) : UnitLaw t := fun m => by
  by_cases hm : m = n
  · exact hm ▸ own
  · rw [others m hm]; exact h m

theorem unit_withUnit_ne {s : State} {n m : InputIx} (h : m ≠ n) (u : MeasUnit) :
    (s.withUnit n u).unit m = s.unit m := by
  rw [State.unit, input_withUnit, if_neg h]; rfl

theorem unit_onUnit (n : InputIx) (tick : Nat) (f : MeasUnit → Measured) (s : State) :
    (onUnit n tick f s).unit n = (f (s.unit n)).1 :=
  ((takeReports_moves n _ tick _).frame.unit n).trans (unit_withUnit_self s n _)

theorem unit_onUnit_ne {n m : InputIx} (h : m ≠ n) (tick : Nat) (f : MeasUnit → Measured)
    (s : State) : (onUnit n tick f s).unit m = s.unit m :=
  ((takeReports_moves n _ tick _).frame.unit m).trans (unit_withUnit_ne h _)

/-- An event of a unit keeps the law if its function keeps the unit's. -/
theorem unitLaw_onUnit {n : InputIx} {tick : Nat} {f : MeasUnit → Measured} {s : State}
    (h : UnitLaw s) (hf : (s.unit n).LawAt 4095 → (f (s.unit n)).1.LawAt 4095) :
    UnitLaw (onUnit n tick f s) := by
  refine h.of_unit (n := n) ?_ fun m hm => unit_onUnit_ne hm tick f s
  rw [unit_onUnit, MeasUnit.law_iff]
  exact hf ((MeasUnit.law_iff _).mp (h n))

theorem deliver_unit (tick : Nat) (p : Pass) (s : State) (n : InputIx) :
    (deliver tick p s).unit n = s.unit n := by
  unfold deliver
  split
  · exact (takeResult_moves _ s tick p).frame.unit n
  · unfold takeProbeResult
    split <;> rfl

theorem endPass_inputs (c : Completion) (p : Pass) (s : State) :
    (endPass c p s).inputs = s.inputs := by
  unfold endPass
  dsimp only
  split <;> rfl

theorem completeStart_unit (c : Completion) (p : Pass) (s : State) (n : InputIx) :
    (completeStart c p s).unit n = s.unit n := by
  unfold completeStart
  split
  · exact unit_of_inputs (endPass_inputs c p s) n
  · split
    · unfold restartPass
      dsimp only
      split <;> rfl
    · exact (unit_of_inputs (endPass_inputs c p _) n).trans (deliver_unit c.tick p s n)

theorem unitLaw_restartBlocks (s : State) : UnitLaw (restartBlocks s) := fun n => by
  have restarted : (restartBlocks s).unit n = (restartedInput
      (((boundInputs s).foldl (fun s n => release n .coreRestart s) s).input n)).unit :=
    congrArg Input.unit (getElem_mapVec restartedInput _ n.val n.isLt)
  rw [restarted, MeasUnit.law_iff]
  exact lawAt_restartUnit _ _ _

/-- Off, enabled and redetected units hold no measurement and nothing in their filters. -/
theorem UnitLaw.of_seeded {s t : State} {n : InputIx} (h : UnitLaw s) {x : UnitState}
    (hx : x = .off ∨ x = .quiet) {hf vf : PinFilter}
    (hw : x = .off → hf.waiting = none ∧ vf.waiting = none)
    (own : t.unit n =
      { discardMeasurement (s.unit n) with state := x, hFilter := hf, vFilter := vf })
    (others : ∀ m, m ≠ n → t.unit m = s.unit m) : UnitLaw t := by
  refine h.of_unit ?_ others
  rw [own, MeasUnit.law_iff]
  exact lawAt_discarded ((MeasUnit.law_iff _).mp (h n)) hx hw

theorem unitLaw_enableInput {n : InputIx} {s : State} (h : UnitLaw s) :
    UnitLaw (enableInput n s) := by
  have frame := (enableTracker_moves n
    (s.withConfig n { (s.input n).config with enabled := true })).frame
  refine h.of_seeded (n := n) (x := .quiet) (.inr rfl) (by simp) (unit_withUnit_self _ n _)
    fun m hm => ?_
  exact (unit_withUnit_ne hm _).trans ((frame.unit m).trans (unit_withConfig s n m _))

theorem unitLaw_disableInput {n : InputIx} {s : State} (h : UnitLaw s) :
    UnitLaw (disableInput n s) := by
  have frame := (disableTracker_moves n
    (s.withConfig n { s.config n with enabled := false })).frame
  have kept : ∀ m, (disableTracker n (s.withConfig n { s.config n with enabled := false })).unit m
      = s.unit m := fun m => (frame.unit m).trans (unit_withConfig s n m _)
  refine h.of_seeded (n := n) (x := .off) (hf := { (s.unit n).hFilter with waiting := none })
    (vf := { (s.unit n).vFilter with waiting := none }) (.inl rfl) (fun _ => ⟨rfl, rfl⟩) ?_
    fun m hm => (unit_withUnit_ne hm _).trans (kept m)
  refine (unit_withUnit_self _ n _).trans ?_
  rw [kept]
  rfl

theorem unitLaw_clearFaultInput {n : InputIx} {s : State} (h : UnitLaw s) :
    UnitLaw (clearFaultInput n s) := by
  refine h.of_seeded (n := n) (x := .quiet) (.inr rfl) (by simp) (unit_withUnit_self _ n _)
    fun m hm => ?_
  exact (unit_withUnit_ne hm _).trans ((changeState_unit _ n m _).trans (unit_withTracker s n m _))

theorem CoreMove.unitLaw {s t : State} (move : CoreMove s t) (h : UnitLaw s) : UnitLaw t := by
  cases move with
  | same hst => exact h.of_units hst.unit
  | pinMoved n pin level => exact h.of_units fun m => unit_withPin s n m pin level
  | accepted n pin order tick => exact unitLaw_onUnit h lawAt_acceptTransition
  | changed n pin order level t window tick => exact unitLaw_onUnit h lawAt_pinChange
  | gainTimeout n tick hq => exact unitLaw_onUnit h fun law => lawAt_gainTimeout law hq
  | hLost n tick hr => exact unitLaw_onUnit h lawAt_loseHorizontal
  | completed c p => exact h.of_units (completeStart_unit c p s)
  | change a run hrun => exact h.of_units fun n => ((changeOf_frame hrun s).units n).2.2
  | probeWithdrawn =>
    refine h.of_units fun n => ?_
    unfold withdrawProbe
    split <;> rfl
  | rebound args =>
    unfold runRebind
    split
    · exact h
    · exact h.of_units (rebindInput_moves _ s).frame.unit
  | faultCleared args =>
    unfold runClearFault
    split
    · exact h
    · split
      · exact unitLaw_clearFaultInput h
      · exact h
  | restarted => exact unitLaw_restartBlocks s
  | enabled n _ => exact unitLaw_enableInput h
  | disabled n _ => exact unitLaw_disableInput h
  | settleCoast n value =>
    exact h.of_units fun m => (unit_withTracker _ n m _).trans (unit_withConfig s n m _)
  | glitch n value => exact h.of_units fun m => unit_withConfig s n m _
  | faultEnables n value => exact h.of_units fun m => unit_withConfig s n m _
  | examined | arbitrated | probeSubmitted => exact h.of_units fun _ => rfl

/-! ### The obligation -/

/-- Settles O8: every function of a unit keeps the unit's law, and no other move touches a unit but an
enable, a disable, a CLEAR_FAULT and a restart, which leave it without a measurement. -/
theorem stepKeepsUnitLaw : Obligations.StepKeepsUnitLaw := fun _ _ h =>
  step_keeps
    (fun adr s _ n => by rw [powerOnReset_unit, MeasUnit.law_iff]; exact lawAt_resetUnit)
    (fun _ _ move => move.unitLaw) h

end Sys2Proof.Machine
end

