-- ==== Sys2Proof/Proofs/Trackers.lean ====
section
/-! The trackers: what each operation makes of the law of one tracker, and the obligation that every
step keeps it. -/

namespace Sys2Proof.Machine

open Relation (ReflTransGen)

/-! ### The law of one tracker -/

/-- What a single state may hold is absent in every other (R108). -/
structure Tracker.StateLaw (t : Tracker) : Prop where
  held : t.held.isSome → isSettledState t.state
  settleRef : t.settleRef.isSome → t.state = .settling
  counter : t.settleCounter ≠ 0 → t.state = .settling
  coast : t.coast ≠ 0 → t.state = .coasting
  recheck : t.recheck = true → t.state = .unmatched

/-- The request that waits for a tracker carries its number and suits its state (R109, R110). -/
def Tracker.RequestLaw (t : Tracker) (q : Option Request) : Prop :=
  ∀ r, q = some r →
    r.seq = some t.reqSeq
      ∧ ((t.state = .pending ∧ (r.kind = .search ∨ r.kind = .verifyRecall))
        ∨ (isBoundState t.state ∧ r.kind = .verifyBound))

/-- The law of a tracker `t` with configuration `c` and waiting request `q`, by its parts. -/
structure Tracker.LawAt (c : InputConfig) (t : Tracker) (q : Option Request) : Prop
    extends Tracker.StateLaw t where
  enabled : c.enabled = false ↔ t.state = .idle
  settle : 1 ≤ c.settle.toNat
  counterLe : t.settleCounter ≤ 15
  coastLe : t.coast ≤ c.budget.toNat
  binding : t.binding.isSome ↔ isBoundState t.state
  reference : t.recallRef.isSome → t.state ≠ .idle ∧ ¬ isBoundState t.state
  latch : t.latch.isEmpty = false ↔ t.state = .fault
  request : t.RequestLaw q

theorem trackerLawAt_iff (n : InputIx) (s : State) :
    TrackerLawAt n s ↔
      (s.tracker n).LawAt (s.config n) (s.request (inputRequester n)) := by
  constructor
  · rintro ⟨enabled, settle, held, settleRef, counter, counterLe, coast, coastLe, binding, reference,
      recheck, latch, request⟩
    exact ⟨⟨held, settleRef, counter, coast, recheck⟩, enabled, settle, counterLe, coastLe, binding,
      reference, latch, request⟩
  · intro h
    exact ⟨h.enabled, h.settle, h.held, h.settleRef, h.counter, h.counterLe, h.coast, h.coastLe,
      h.binding, h.reference, h.recheck, h.latch, h.request⟩

theorem Tracker.RequestLaw.none (t : Tracker) : t.RequestLaw none := fun _ h => nomatch h

section
variable {c : InputConfig} {t : Tracker} {q : Option Request}

theorem Tracker.LawAt.withoutRequest (h : t.LawAt c q) : t.LawAt c .none :=
  { h with request := .none t }

theorem Tracker.LawAt.withHeld (h : t.LawAt c q) (settled : isSettledState t.state)
    (m : Option MeasSet) : Tracker.LawAt c { t with held := m } q :=
  { h with held := fun _ => settled }

theorem Tracker.LawAt.withoutRecall (h : t.LawAt c q) :
    Tracker.LawAt c { t with recallRef := .none } q :=
  { h with reference := fun h => nomatch h }

theorem Tracker.LawAt.coast_eq (h : t.LawAt c q) (ne : t.state ≠ .coasting) : t.coast = 0 :=
  not_not.mp fun e => ne (h.coast e)

theorem Tracker.LawAt.unbound (h : t.LawAt c q) (ne : ¬ isBoundState t.state) :
    t.binding = .none := by
  have := h.binding.not.mpr ne
  simpa using this

theorem Tracker.LawAt.verify_kind (h : t.LawAt c q) (bound : isBoundState t.state) {r : Request}
    (hr : q = some r) : r.kind = .verifyBound := by
  obtain ⟨-, ⟨hp, -⟩ | ⟨-, kind⟩⟩ := h.request r hr
  · rw [hp] at bound; simp [isBoundState] at bound
  · exact kind

end

/-! ### A change of state -/

theorem changedTracker_counter {t : Tracker} (h : t.StateLaw) (new : TrackerState) :
    (changedTracker new t).settleCounter = 0 := by
  change (if t.state = .settling then 0 else t.settleCounter) = 0
  split
  · rfl
  · next ne => exact not_not.mp fun e => ne (h.counter e)

theorem changedTracker_coast {t : Tracker} (h : t.StateLaw) (new : TrackerState) :
    (changedTracker new t).coast = 0 := by
  unfold changedTracker
  dsimp only
  split
  · rfl
  · next ne => exact not_not.mp fun e => ne (h.coast e)

theorem dropsHeld_false {x : TrackerState} (h : dropsHeld x = false) : isSettledState x := by
  cases x <;> simp_all [dropsHeld, isSettledState]

/-- A change of state leaves nothing behind that only the old state may hold (R109). -/
theorem Tracker.StateLaw.changed {t : Tracker} (h : t.StateLaw) (new : TrackerState) :
    (changedTracker new t).StateLaw where
  held := by
    change (if dropsHeld new then none else t.held).isSome → isSettledState new
    split
    · simp
    · next keeps => exact fun _ => dropsHeld_false (by simpa using keeps)
  settleRef := by
    change (if t.state = .settling then none else t.settleRef).isSome → _
    split
    · simp
    · next ne => exact fun some => absurd (h.settleRef some) ne
  counter := by simp [changedTracker_counter h]
  coast := by simp [changedTracker_coast h]
  recheck := by
    change (if t.state = .unmatched then false else t.recheck) = true → _
    split
    · simp
    · next ne => exact fun marked => absurd (h.recheck marked) ne

/-- The law after a change of state, by what the change itself does not settle. -/
theorem Tracker.StateLaw.lawAt_changed {c : InputConfig} {t : Tracker} {q : Option Request}
    {new : TrackerState} (h : t.StateLaw) (settle : 1 ≤ c.settle.toNat)
    (enabled : c.enabled = false ↔ new = .idle) (binding : t.binding.isSome ↔ isBoundState new)
    (reference : t.recallRef.isSome → new ≠ .idle ∧ ¬ isBoundState new)
    (latch : t.latch.isEmpty = false ↔ new = .fault)
    (request : (changedTracker new t).RequestLaw q) : (changedTracker new t).LawAt c q :=
  { h.changed new with
    enabled := enabled
    settle := settle
    counterLe := by simp [changedTracker_counter h]
    coastLe := by simp [changedTracker_coast h]
    binding := binding
    reference := reference
    latch := latch
    request := request }

theorem changedRequest_of_not_kept {old new : TrackerState} (h : keepsRequest old new = false)
    (seq : Byte) (q : Option Request) : changedRequest old new seq q = none := by
  simp [changedRequest, h]

theorem isBoundState_of_keepsRequest {old new : TrackerState} (h : keepsRequest old new = true) :
    isBoundState old ∧ isBoundState new := by
  cases old <;> cases new <;> simp_all [keepsRequest, isBoundState]

/-- A verify that waits through a change between BOUND and COASTING waits with the new number. -/
theorem requestLaw_changedRequest {t : Tracker} {new : TrackerState} {q : Option Request}
    (h : ∀ r, q = some r → keepsRequest t.state new = true → r.kind = .verifyBound) :
    (changedTracker new t).RequestLaw (changedRequest t.state new (t.reqSeq + 1) q) := by
  intro r hr
  unfold changedRequest at hr
  split at hr
  · next keeps =>
    obtain ⟨r', hr', rfl⟩ := Option.map_eq_some_iff.mp hr
    exact ⟨rfl, .inr ⟨(isBoundState_of_keepsRequest keeps).2, h r' hr' keeps⟩⟩
  · exact nomatch hr

@[simp] theorem request_withRequest_self (s : State) (r : Requester) (q : Option Request) :
    (s.withRequest r q).request r = q := by
  simp [request_withRequest]

@[simp] theorem changeState_request_self (n : InputIx) (new : TrackerState) (s : State) :
    (changeState n new s).request (inputRequester n) =
      changedRequest (s.tracker n).state new ((s.tracker n).reqSeq + 1)
        (s.request (inputRequester n)) := by
  simp [changeState]

theorem trackerLawAt_changeState {n : InputIx} {s : State} {new : TrackerState}
    (h : (s.tracker n).StateLaw) (settle : 1 ≤ (s.config n).settle.toNat)
    (enabled : (s.config n).enabled = false ↔ new = .idle)
    (binding : (s.tracker n).binding.isSome ↔ isBoundState new)
    (reference : (s.tracker n).recallRef.isSome → new ≠ .idle ∧ ¬ isBoundState new)
    (latch : (s.tracker n).latch.isEmpty = false ↔ new = .fault)
    (request : ∀ r, s.request (inputRequester n) = some r →
      keepsRequest (s.tracker n).state new = true → r.kind = .verifyBound) :
    TrackerLawAt n (changeState n new s) := by
  rw [trackerLawAt_iff, changeState_tracker_self, changeState_config, changeState_request_self]
  exact h.lawAt_changed settle enabled binding reference latch (requestLaw_changedRequest request)

/-! ### The parts of an operation -/

theorem trackerLawAt_withTracker {n : InputIx} {s : State} {t : Tracker} :
    TrackerLawAt n (s.withTracker n t) ↔ t.LawAt (s.config n) (s.request (inputRequester n)) := by
  rw [trackerLawAt_iff]
  simp

/-- The law speaks of the configuration, the tracker and the waiting request alone. -/
theorem TrackerLawAt.of_same {n : InputIx} {s t : State} (h : TrackerLawAt n s)
    (tracker : t.tracker n = s.tracker n) (config : t.config n = s.config n)
    (request : t.request (inputRequester n) = s.request (inputRequester n)
      ∨ t.request (inputRequester n) = none) : TrackerLawAt n t := by
  rw [trackerLawAt_iff] at *
  rw [tracker, config]
  obtain same | gone := request
  · rw [same]; exact h
  · rw [gone]; exact h.withoutRequest

theorem arbitrate_request (r : Requester) (s : State) :
    (arbitrate s).request r = s.request r ∨ (arbitrate s).request r = none := by
  obtain same | ⟨k, q, -, -, -, eq⟩ := arbitrateClassifier_cases s.classifier
  · exact .inl (request_of_classifier same r)
  · rw [State.request, arbitrate_classifier, eq]
    by_cases hr : r = k
    · subst hr; exact .inr (by simp [grant])
    · have : k.val ≠ r.val := fun e => hr (Fin.ext e.symm)
      exact .inl (by simp [grant, this, State.request])

theorem TrackerLawAt.arbitrate {n : InputIx} {s : State} (h : TrackerLawAt n s) :
    TrackerLawAt n (arbitrate s) := h.of_same rfl rfl (arbitrate_request _ s)

theorem TrackerLawAt.submit {n : InputIx} {s : State} {q : Request} (h : TrackerLawAt n s)
    (hq : (s.tracker n).RequestLaw (some q)) :
    TrackerLawAt n (Machine.submit (inputRequester n) q s) := by
  refine TrackerLawAt.arbitrate ?_
  rw [trackerLawAt_iff] at *
  rw [request_withRequest_self]
  exact { h with request := hq }

theorem TrackerLawAt.submitAt {n : InputIx} {s : State} {q : Request} (h : TrackerLawAt n s)
    (hq : (s.tracker n).RequestLaw (some q)) (tick : Nat) :
    TrackerLawAt n (Machine.submitAt (inputRequester n) q tick s) := by
  unfold Machine.submitAt
  split
  · exact h.submit hq
  · split
    · exact h.of_same rfl rfl (.inl rfl)
    · exact h.submit hq

theorem TrackerLawAt.submitHeld {n : InputIx} {s : State} {k : PassKind} (h : TrackerLawAt n s)
    (hs : (s.tracker n).state = .pending) (hk : k = .search ∨ k = .verifyRecall) :
    TrackerLawAt n (Machine.submitHeld n k s) := by
  unfold Machine.submitHeld
  split
  · exact h.submit fun r hr => by cases hr; exact ⟨rfl, .inl ⟨hs, hk⟩⟩
  · exact h

theorem TrackerLawAt.holdSet {n : InputIx} {s : State} (h : TrackerLawAt n s)
    (hs : isSettledState (s.tracker n).state) (m : Option MeasSet) :
    TrackerLawAt n (Machine.holdSet n m s) :=
  trackerLawAt_withTracker.mpr (((trackerLawAt_iff n s).mp h).withHeld hs m)

/-! ### Releases -/

section
variable (n : InputIx) (reason : Reason) (s : State)

/-- A release writes the binding, the recall reference and the last-loss record alone. -/
theorem release_tracker_cases :
    (release n reason s).tracker n = s.tracker n ∧ (s.tracker n).binding = none
      ∨ ∃ b, (s.tracker n).binding = some b
        ∧ (release n reason s).tracker n = releasedTracker reason b (s.tracker n) := by
  cases h : (s.tracker n).binding with
  | none => exact .inl ⟨by rw [release_none s h], rfl⟩
  | some b => exact .inr ⟨b, rfl, release_tracker_self s reason h⟩

@[simp] theorem release_binding : ((release n reason s).tracker n).binding = none := by
  obtain ⟨same, none⟩ | ⟨b, -, eq⟩ := release_tracker_cases n reason s
  · rw [same, none]
  · rw [eq]; rfl

@[simp] theorem release_state : ((release n reason s).tracker n).state = (s.tracker n).state := by
  obtain ⟨same, -⟩ | ⟨b, -, eq⟩ := release_tracker_cases n reason s
  · rw [same]
  · rw [eq]; rfl

@[simp] theorem release_latch : ((release n reason s).tracker n).latch = (s.tracker n).latch := by
  obtain ⟨same, -⟩ | ⟨b, -, eq⟩ := release_tracker_cases n reason s
  · rw [same]
  · rw [eq]; rfl

@[simp] theorem release_config (m : InputIx) : (release n reason s).config m = s.config m :=
  (TrackerMoves.release .refl reason).frame.config m

@[simp] theorem release_request (r : Requester) :
    (release n reason s).request r = s.request r := request_of_classifier (by simp) r

end

theorem Tracker.StateLaw.release {n : InputIx} {s : State} (h : (s.tracker n).StateLaw)
    (reason : Reason) : ((release n reason s).tracker n).StateLaw := by
  obtain ⟨same, -⟩ | ⟨b, -, eq⟩ := release_tracker_cases n reason s
  · rw [same]; exact h
  · rw [eq]; exact { h with }

/-- SILENT, SETTLING, PENDING and UNMATCHED: the states of an enabled input that hold neither a binding
nor a latch. -/
def isFreeState (x : TrackerState) : Prop :=
  x = .silent ∨ x = .settling ∨ x = .pending ∨ x = .unmatched

/-- The states of an enabled input outside FAULT. -/
def isLiveState (x : TrackerState) : Prop := x ≠ .idle ∧ x ≠ .fault

theorem isFreeState.ne {x : TrackerState} (h : isFreeState x) :
    x ≠ .idle ∧ x ≠ .fault ∧ ¬ isBoundState x := by
  rcases h with rfl | rfl | rfl | rfl <;> simp [isBoundState]

theorem keepsRequest_free {x y : TrackerState} (h : isFreeState y) : keepsRequest x y = false := by
  rcases h with rfl | rfl | rfl | rfl <;> cases x <;> rfl

/-- A tracker that holds no binding any more goes to a state that needs none. -/
theorem trackerLawAt_toFree {n : InputIx} {s : State} {new : TrackerState}
    (h : (s.tracker n).StateLaw) (settle : 1 ≤ (s.config n).settle.toNat)
    (enabled : (s.config n).enabled = true) (unbound : (s.tracker n).binding = none)
    (latch : (s.tracker n).latch.isEmpty = true) (hnew : isFreeState new) :
    TrackerLawAt n (changeState n new s) := by
  obtain ⟨idle, fault, bound⟩ := hnew.ne
  exact trackerLawAt_changeState h settle (iff_of_false (by simp [enabled]) idle)
    (iff_of_false (by simp [unbound]) bound) (fun _ => ⟨idle, bound⟩)
    (iff_of_false (by simp [latch]) fault)
    fun _ _ keeps => by simp [keepsRequest_free hnew] at keeps

section
variable {n : InputIx} {s : State}

theorem TrackerLawAt.enabled_of_live (h : TrackerLawAt n s)
    (live : (s.tracker n).state ≠ .idle) : (s.config n).enabled = true := by
  have := ((trackerLawAt_iff n s).mp h).enabled.not.mpr live
  simpa using this

theorem TrackerLawAt.latch_empty (h : TrackerLawAt n s)
    (live : (s.tracker n).state ≠ .fault) : (s.tracker n).latch.isEmpty = true := by
  have := ((trackerLawAt_iff n s).mp h).latch.not.mpr live
  simpa using this

/-- A release, if there is a binding, and a change to a state that needs none. -/
theorem TrackerLawAt.releasedTo (h : TrackerLawAt n s) (live : isLiveState (s.tracker n).state)
    {new : TrackerState} (hnew : isFreeState new) (reason : Reason) :
    TrackerLawAt n (changeState n new (release n reason s)) := by
  have law := (trackerLawAt_iff n s).mp h
  exact trackerLawAt_toFree (law.toStateLaw.release reason) (by simpa using law.settle)
    (by simpa using h.enabled_of_live live.1) (by simp)
    (by simpa using h.latch_empty live.2) hnew

/-- A change from a state without a binding to a state that needs none. -/
theorem TrackerLawAt.freeTo (h : TrackerLawAt n s) (hold : isFreeState (s.tracker n).state)
    {new : TrackerState} (hnew : isFreeState new) : TrackerLawAt n (changeState n new s) := by
  have law := (trackerLawAt_iff n s).mp h
  obtain ⟨idle, fault, bound⟩ := hold.ne
  exact trackerLawAt_toFree law.toStateLaw law.settle (h.enabled_of_live idle)
    (law.unbound bound) (h.latch_empty fault) hnew

/-- The tick that a result leaves beside the record of its release is no part of the law. -/
theorem TrackerLawAt.releasedByResultTo (h : TrackerLawAt n s)
    (live : isLiveState (s.tracker n).state) {new : TrackerState} (hnew : isFreeState new)
    (reason : Reason) (tick : Nat) :
    TrackerLawAt n (changeState n new (releaseByResult n reason tick s)) := by
  have law := (trackerLawAt_iff n s).mp h
  refine trackerLawAt_toFree ?_ ?_ ?_ ?_ ?_ hnew
  · have released := law.toStateLaw.release reason
    simpa [releaseByResult] using
      ({ released with } : Tracker.StateLaw
        { (release n reason s).tracker n with lossTick := some tick })
  · simpa [releaseByResult] using law.settle
  · simpa [releaseByResult] using h.enabled_of_live live.1
  · simp [releaseByResult]
  · simpa [releaseByResult] using h.latch_empty live.2

/-! ### Settling -/

@[simp] theorem changeState_state (n : InputIx) (new : TrackerState) (s : State) :
    ((changeState n new s).tracker n).state = new := by
  rw [changeState_tracker_self]; rfl

@[simp] theorem holdSet_state (n : InputIx) (m : Option MeasSet) (s : State) :
    ((holdSet n m s).tracker n).state = (s.tracker n).state := by
  simp [holdSet]

/-- A counted set stays in SETTLING or completes it, whatever the count. -/
theorem TrackerLawAt.settleWith (h : TrackerLawAt n s) (hs : (s.tracker n).state = .settling)
    (c : Nat) (m : MeasSet) : TrackerLawAt n (Machine.settleWith n c m s) := by
  have law := (trackerLawAt_iff n s).mp h
  have counted : Tracker.StateLaw { s.tracker n with settleCounter := c, settleRef := some m } :=
    { law.toStateLaw with settleRef := fun _ => hs, counter := fun _ => hs }
  unfold Machine.settleWith completeSettling
  dsimp only
  split
  · have held : TrackerLawAt n (Machine.holdSet n (some m) (changeState n .pending
        (s.withTracker n { s.tracker n with settleCounter := c, settleRef := some m }))) := by
      refine TrackerLawAt.holdSet (trackerLawAt_toFree (new := .pending) ?_ ?_ ?_ ?_ ?_
        (by simp [isFreeState])) (by simp [isSettledState]) _
      · simpa using counted
      · simpa using law.settle
      · simpa using h.enabled_of_live (by simp [hs])
      · simpa using law.unbound (by simp [hs, isBoundState])
      · simpa using h.latch_empty (by simp [hs])
    split
    · exact held.submitHeld (by simp) (.inr rfl)
    · exact held.submitHeld (by simp) (.inl rfl)
  · next below =>
    refine trackerLawAt_withTracker.mpr { law with toStateLaw := counted, counterLe := ?_ }
    have := (s.config n).settle.isLt
    change c ≤ 15
    omega

theorem TrackerLawAt.settleAfresh (h : TrackerLawAt n s)
    (hold : isFreeState (s.tracker n).state) (m : MeasSet) :
    TrackerLawAt n (Machine.settleAfresh n m s) :=
  (h.freeTo hold (by simp [isFreeState])).settleWith (by simp) 1 m

/-! ### Reports -/

theorem TrackerLawAt.takeHGained (h : TrackerLawAt n s) :
    TrackerLawAt n (takeHGained n s) := by
  unfold Machine.takeHGained
  split
  case h_1 hs => exact (h.freeTo (by simp [hs, isFreeState]) (new := .settling)
    (by simp [isFreeState])).of_same rfl rfl (.inl rfl)
  all_goals exact h

theorem TrackerLawAt.takeHLost (h : TrackerLawAt n s) : TrackerLawAt n (takeHLost n s) := by
  unfold Machine.takeHLost
  split
  case h_6 | h_7 | h_8 => exact h
  all_goals
    next hs => exact h.releasedTo (by simp [hs, isLiveState]) (by simp [isFreeState]) _

theorem TrackerLawAt.takeVLost (h : TrackerLawAt n s) : TrackerLawAt n (takeVLost n s) := by
  unfold Machine.takeVLost
  split
  case h_1 hs =>
    have law := (trackerLawAt_iff n s).mp h
    exact trackerLawAt_withTracker.mpr { law with
      settleRef := fun none => nomatch none
      counter := fun ne => absurd rfl ne
      counterLe := Nat.zero_le _ }
  case h_6 | h_7 | h_8 => exact h
  all_goals
    next hs => exact h.releasedTo (by simp [hs, isLiveState]) (by simp [isFreeState]) _

theorem TrackerLawAt.submitVerify (h : TrackerLawAt n s)
    (hs : isBoundState (s.tracker n).state) (tick : Nat) (m : MeasSet) :
    TrackerLawAt n (submitVerify n tick m s) :=
  h.submitAt (fun r hr => by cases hr; exact ⟨rfl, .inr ⟨hs, rfl⟩⟩) tick

theorem TrackerLawAt.takeSet (h : TrackerLawAt n s) (tick : Nat) (m : MeasSet) :
    TrackerLawAt n (takeSet n tick m s) := by
  unfold Machine.takeSet
  dsimp only
  split
  case h_1 hs => exact h.settleWith hs _ m
  case h_2 hs =>
    split
    · exact h
    · exact h.settleAfresh (by simp [hs, isFreeState]) m
  case h_3 hs => exact h.submitVerify (.inl hs) tick m
  case h_4 hs => exact h.submitVerify (.inr hs) tick m
  case h_5 hs =>
    split
    · split
      · exact (h.freeTo (by simp [hs, isFreeState]) (new := .pending)
          (by simp [isFreeState])).submitHeld (by simp) (.inl rfl)
      · exact h
    · exact h.settleAfresh (by simp [hs, isFreeState]) m
  all_goals exact h

theorem faultSet_isEmpty_add (f : FaultSet) (k : FaultKind) : (f.add k).isEmpty = false := by
  cases k <;> simp [FaultSet.add, FaultSet.isEmpty]

/-- A detection that latches leaves a tracker in FAULT with a latch that is not empty. -/
theorem TrackerLawAt.latchFault (h : TrackerLawAt n s) (k : FaultKind) (tick : Nat) :
    TrackerLawAt n (latchFault n k tick s) := by
  have law := (trackerLawAt_iff n s).mp h
  have latched : ((s.tracker n).latch.add k).isEmpty = false := faultSet_isEmpty_add _ k
  have fromLive (live : isLiveState (s.tracker n).state) : TrackerLawAt n
      (changeState n .fault (releaseForFault n tick (addToLatch n k s))) := by
    have added : (((addToLatch n k s).tracker n)).StateLaw := by
      simpa [addToLatch] using
        ({ law.toStateLaw with } : Tracker.StateLaw
          { s.tracker n with latch := (s.tracker n).latch.add k })
    have released := added.release .fault
    have named : (nameFault tick ((release n .fault (addToLatch n k s)).tracker n)).StateLaw := by
      unfold nameFault
      split
      · exact { released with }
      · exact released
    refine trackerLawAt_changeState ?_ ?_ (iff_of_false ?_ (by simp))
      (iff_of_false ?_ (by simp [isBoundState])) (fun _ => by simp [isBoundState])
      (iff_of_true ?_ rfl) fun _ _ keeps => ?_
    · simpa [releaseForFault] using named
    · simpa [releaseForFault, addToLatch] using law.settle
    · simpa [releaseForFault, addToLatch] using h.enabled_of_live live.1
    · simp [releaseForFault]
    · simpa [releaseForFault, addToLatch] using latched
    · simpa [isBoundState] using (isBoundState_of_keepsRequest keeps).2
  unfold Machine.latchFault
  split
  case h_1 => exact h
  case h_2 hs =>
    have latchedAlready : TrackerLawAt n (addToLatch n k s) :=
      trackerLawAt_withTracker.mpr { law with latch := iff_of_true latched hs }
    exact latchedAlready.of_same rfl rfl (.inl rfl)
  all_goals
    next hs => exact (fromLive (by simp [hs, isLiveState])).of_same rfl rfl (.inl rfl)

/-- Every report keeps the law of its tracker. -/
theorem TrackerLawAt.takeReport (h : TrackerLawAt n s) (tick : Nat) (r : Report) :
    TrackerLawAt n (takeReport n tick s r) := by
  cases r with
  | hGained => exact h.takeHGained
  | hLost => exact h.takeHLost
  | vLost => exact h.takeVLost
  | published m => exact h.takeSet tick m
  | detected k =>
    unfold Machine.takeReport takeDetection
    dsimp only
    split
    · exact h.latchFault k tick
    · exact h

/-! ### Results -/

theorem TrackerLawAt.bindTo (h : TrackerLawAt n s) (hs : (s.tracker n).state = .pending)
    (via : Via) (m : Match) : TrackerLawAt n (bindTo n via m s) := by
  have law := (trackerLawAt_iff n s).mp h
  unfold Machine.bindTo
  split
  · exact h
  · next i _ _ =>
    refine TrackerLawAt.of_same (s := changeState n .bound _) ?_ rfl rfl (.inl rfl)
    have claimed : ∀ m, (claim i (· + 1) s).tracker m = s.tracker m := fun m =>
      tracker_of_inputs (by simp) m
    have kept : (claim i (· + 1) s).config n = s.config n := config_of_inputs (by simp) n
    refine trackerLawAt_changeState ?_ ?_ (iff_of_false ?_ (by simp))
      (iff_of_true ?_ (by simp [isBoundState])) (fun none => ?_) (iff_of_false ?_ (by simp))
      fun _ _ keeps => ?_
    · simpa [claimed] using
        ({ law.toStateLaw with } : Tracker.StateLaw
          { s.tracker n with binding := some (bindingOf via i m), recallRef := none })
    · simpa [kept] using law.settle
    · simpa [kept] using h.enabled_of_live (by simp [hs])
    · simp
    · simp at none
    · simpa [claimed] using h.latch_empty (by simp [hs])
    · simp [claimed, hs, keepsRequest] at keeps

theorem TrackerLawAt.takeMatch (h : TrackerLawAt n s) (via : Via) (m : Match) :
    TrackerLawAt n (takeMatch n via m s) := by
  unfold Machine.takeMatch
  split
  case h_1 hs => exact h.bindTo hs via m
  all_goals exact h

theorem TrackerLawAt.takeVerifyPass (h : TrackerLawAt n s)
    (hs : isBoundState (s.tracker n).state) (g : Byte) (b : Binding) :
    TrackerLawAt n (takeVerifyPass n g b s) := by
  have law := (trackerLawAt_iff n s).mp h
  have judged : TrackerLawAt n
      (s.withTracker n { s.tracker n with binding := some { b with generation := g } }) :=
    trackerLawAt_withTracker.mpr { law with binding := iff_of_true rfl hs }
  have judgedLaw := (trackerLawAt_iff _ _).mp judged
  unfold Machine.takeVerifyPass
  dsimp only
  split
  · next coasting =>
    refine trackerLawAt_changeState judgedLaw.toStateLaw judgedLaw.settle
      (iff_of_false ?_ (by simp)) (iff_of_true (by simp) (by simp [isBoundState]))
      (fun some => ?_) (iff_of_false ?_ (by simp)) fun r hr _ => ?_
    · simpa using h.enabled_of_live (by simp [coasting])
    · exact absurd (by simpa using hs) (judgedLaw.reference some).2
    · simpa using h.latch_empty (by simp [coasting])
    · exact judgedLaw.verify_kind (by simpa using hs) hr
  · exact judged

theorem TrackerLawAt.takeDeviation (h : TrackerLawAt n s)
    (hs : isBoundState (s.tracker n).state) (tick : Nat) (m : MeasSet) :
    TrackerLawAt n (takeDeviation n tick m s) := by
  have law := (trackerLawAt_iff n s).mp h
  have live : isLiveState (s.tracker n).state := by
    rcases hs with e | e <;> simp [e, isLiveState]
  unfold Machine.takeDeviation
  dsimp only
  split
  · next within =>
    have coasting : TrackerLawAt n
        (if (s.tracker n).state = .bound then changeState n .coasting s else s)
        ∧ ((if (s.tracker n).state = .bound then changeState n .coasting s else s).tracker n).state
          = .coasting
        ∧ (if (s.tracker n).state = .bound then changeState n .coasting s else s).config n
          = s.config n := by
      split
      · next bound =>
        refine ⟨trackerLawAt_changeState law.toStateLaw law.settle (iff_of_false ?_ (by simp))
          (iff_of_true (law.binding.mpr hs) (by simp [isBoundState])) (fun some => ?_)
          (iff_of_false ?_ (by simp)) fun r hr _ => law.verify_kind hs hr, by simp, by simp⟩
        · simpa using h.enabled_of_live live.1
        · exact absurd hs (law.reference some).2
        · simpa using h.latch_empty live.2
      · next ne => exact ⟨h, hs.resolve_left ne, rfl⟩
    obtain ⟨lawful, state, config⟩ := coasting
    refine TrackerLawAt.of_same (s := State.withTracker _ n _) ?_ rfl rfl (.inl rfl)
    refine trackerLawAt_withTracker.mpr
      { (trackerLawAt_iff _ _).mp lawful with coast := fun _ => state, coastLe := ?_ }
    rw [config]
    exact within
  · exact (h.releasedByResultTo live (by simp [isFreeState]) _ _).settleWith (by simp) 1 m

theorem TrackerLawAt.takeEdited (h : TrackerLawAt n s)
    (live : isLiveState (s.tracker n).state) (tick : Nat) (m : MeasSet) :
    TrackerLawAt n (takeEdited n tick m s) :=
  ((h.releasedByResultTo live (new := .pending) (by simp [isFreeState]) _ _).holdSet
    (by simp [isSettledState]) _).submitHeld (by simp) (.inl rfl)

theorem TrackerLawAt.takeVerify (h : TrackerLawAt n s) (tick : Nat) (pass : Bool) (g : Byte)
    (m : MeasSet) : TrackerLawAt n (takeVerify n tick pass g m s) := by
  have judged (hs : isBoundState (s.tracker n).state) (b : Binding) : TrackerLawAt n
      (if pass then Machine.takeVerifyPass n g b s
        else if g = b.generation then Machine.takeDeviation n tick m s
        else Machine.takeEdited n tick m s) := by
    split
    · exact h.takeVerifyPass hs g b
    · split
      · exact h.takeDeviation hs tick m
      · refine h.takeEdited ?_ tick m
        rcases hs with e | e <;> simp [e, isLiveState]
  unfold Machine.takeVerify
  dsimp only
  split
  case h_1 hs _ => exact judged (.inl hs) _
  case h_2 hs _ => exact judged (.inr hs) _
  case h_3 => exact h

/-- Every result keeps the law of the tracker it reaches. -/
theorem TrackerLawAt.takeResult (h : TrackerLawAt n s) (tick : Nat) (p : Pass) :
    TrackerLawAt n (takeResult n tick p s) := by
  have law := (trackerLawAt_iff n s).mp h
  unfold Machine.takeResult
  split
  · exact h.takeMatch _ _
  · unfold takeNoMatch
    split
    case h_1 hs =>
      exact (h.freeTo (by simp [hs, isFreeState]) (new := .unmatched)
        (by simp [isFreeState])).of_same rfl rfl (.inl rfl)
    all_goals exact h
  · exact h.takeMatch _ _
  · unfold takeRecallFail
    split
    case h_1 hs =>
      exact (trackerLawAt_withTracker.mpr law.withoutRecall).submitHeld (by simpa using hs)
        (.inl rfl)
    all_goals exact h
  · exact h.takeVerify tick _ _ _
  · exact h

end

/-! ### The other trackers -/

theorem inputRequester_ne {n m : InputIx} (h : m ≠ n) : inputRequester m ≠ inputRequester n :=
  fun e => h (Fin.castSucc_injective 6 e)

/-- A tracker's moves write no request but its own; an arbitration may grant any. -/
theorem TrackerMove.request_ne {n : InputIx} {s t : State} (h : TrackerMove n s t)
    {r : Requester} (hr : r ≠ inputRequester n) :
    t.request r = s.request r ∨ t.request r = none := by
  cases h with
  | request q => exact .inl (by simp [request_withRequest, hr])
  | arbitrated => exact arbitrate_request r s
  | tracker | claim | notice | replaced => exact .inl rfl

theorem TrackerMoves.request_ne {n : InputIx} {s t : State} (h : TrackerMoves n s t)
    {r : Requester} (hr : r ≠ inputRequester n) :
    t.request r = s.request r ∨ t.request r = none := by
  induction h with
  | refl => exact .inl rfl
  | tail _ last ih =>
    obtain same | gone := last.request_ne hr
    · rw [same]; exact ih
    · exact .inr gone

theorem TrackerLaw.of_own {n : InputIx} {s t : State} (h : TrackerLaw s) (own : TrackerLawAt n t)
    (others : ∀ m, m ≠ n → t.tracker m = s.tracker m ∧ t.config m = s.config m
      ∧ (t.request (inputRequester m) = s.request (inputRequester m)
        ∨ t.request (inputRequester m) = none)) : TrackerLaw t := by
  intro m
  by_cases hm : m = n
  · subst hm; exact own
  · obtain ⟨tracker, config, request⟩ := others m hm
    exact (h m).of_same tracker config request

theorem TrackerLaw.of_moves {n : InputIx} {s t : State} (h : TrackerLaw s)
    (moves : TrackerMoves n s t) (own : TrackerLawAt n t) : TrackerLaw t :=
  h.of_own own fun _ hm =>
    ⟨moves.frame.tracker_ne hm, moves.frame.config _, moves.request_ne (inputRequester_ne hm)⟩

theorem TrackerLaw.of_same {s t : State} (h : TrackerLaw s)
    (tracker : ∀ n, t.tracker n = s.tracker n) (config : ∀ n, t.config n = s.config n)
    (request : ∀ r, t.request r = s.request r ∨ t.request r = none) : TrackerLaw t := fun n =>
  (h n).of_same (tracker n) (config n) (request _)

/-! ### Events of a unit and completions -/

theorem TrackerLaw.takeReports {n : InputIx} {s : State} (h : TrackerLaw s) (tick : Nat)
    (rs : List Report) : TrackerLaw (rs.foldl (takeReport n tick) s) := by
  induction rs generalizing s with
  | nil => exact h
  | cons r rs ih =>
    exact ih (h.of_moves (takeReport_moves n s tick r) ((h n).takeReport tick r))

theorem TrackerLaw.onUnit {n : InputIx} {s : State} (h : TrackerLaw s) (tick : Nat)
    (f : MeasUnit → Measured) : TrackerLaw (onUnit n tick f s) :=
  (h.of_same (t := s.withUnit n (f (s.unit n)).1) (by simp) (by simp)
    fun _ => .inl rfl).takeReports tick _

theorem TrackerLaw.endPass {s : State} (h : TrackerLaw s) (c : Completion) (p : Pass) :
    TrackerLaw (endPass c p s) := by
  unfold Machine.endPass
  dsimp only
  split
  · exact h.of_same (fun _ => rfl) (fun _ => rfl) fun _ => .inl rfl
  · exact h.of_same (fun _ => rfl) (fun _ => rfl) (arbitrate_request · (clearPass c.tick p s))

theorem TrackerLaw.deliver {s : State} (h : TrackerLaw s) (tick : Nat) (p : Pass) :
    TrackerLaw (deliver tick p s) := by
  unfold Machine.deliver
  split
  · exact h.of_moves (takeResult_moves _ s tick p) ((h _).takeResult tick p)
  · unfold takeProbeResult
    split <;> exact h.of_same (fun _ => rfl) (fun _ => rfl) fun _ => .inl rfl

theorem TrackerLaw.completeStart {s : State} (h : TrackerLaw s) (c : Completion) (p : Pass) :
    TrackerLaw (completeStart c p s) := by
  unfold Machine.completeStart
  split
  · exact h.endPass c p
  · split
    · unfold restartPass
      dsimp only
      split <;> exact h.of_same (fun _ => rfl) (fun _ => rfl) fun _ => .inl rfl
    · exact (h.deliver c.tick p).endPass c p

/-! ### Catalog changes -/

theorem Tracker.LawAt.markRecheck {c : InputConfig} {t : Tracker} {q : Option Request}
    (h : t.LawAt c q) : (markRecheck t).LawAt c q := by
  unfold Machine.markRecheck
  split
  · next hs => exact { h with recheck := fun _ => hs }
  · exact h

theorem Tracker.LawAt.clearRecallOf {c : InputConfig} {t : Tracker} {q : Option Request}
    (h : t.LawAt c q) (i : SlotIx) : (clearRecallOf i t).LawAt c q := by
  unfold Machine.clearRecallOf
  split
  · exact h.withoutRecall
  · exact h

theorem TrackerLaw.mapTrackers {s : State} (h : TrackerLaw s) {f : Tracker → Tracker}
    (hf : ∀ {c t q}, Tracker.LawAt c t q → Tracker.LawAt c (f t) q) :
    TrackerLaw (mapTrackers f s) := by
  intro n
  have law := hf ((trackerLawAt_iff n s).mp (h n))
  rw [trackerLawAt_iff, tracker_mapTrackers, config_mapTrackers]
  exact law

theorem TrackerLaw.handMarks {s : State} (h : TrackerLaw s) : TrackerLaw (handMarks s) :=
  (h.of_same (t := disturbPass s) (fun _ => rfl) (fun _ => rfl) fun _ => .inl rfl).mapTrackers
    fun law => law.markRecheck

theorem isLiveState_of_settled {x : TrackerState} (h : isSettledState x) : isLiveState x := by
  rcases h with rfl | rfl | rfl | rfl <;> simp [isLiveState]

/-- The released inputs of a change keep the law, and stand in PENDING after it. -/
theorem TrackerLaw.retireInputs {l : List InputIx} {s : State} (h : TrackerLaw s)
    (hl : ∀ n ∈ l, isSettledState (s.tracker n).state) :
    TrackerLaw (l.foldl retireInput s)
      ∧ ∀ n, n ∈ l ∨ (s.tracker n).state = .pending →
        ((l.foldl retireInput s).tracker n).state = .pending := by
  induction l generalizing s with
  | nil => exact ⟨h, fun n hn => hn.resolve_left (by simp)⟩
  | cons m l ih =>
    have moved := retireInput_moves m s
    have after (n : InputIx) : ((retireInput s m).tracker n).state
        = if n = m then .pending else (s.tracker n).state := by
      split
      · next e => subst e; exact changeState_state _ _ _
      · next ne => rw [moved.frame.tracker_ne ne]
    obtain ⟨law, pending⟩ := ih (s := retireInput s m)
      (h.of_moves moved ((h m).releasedTo
        (isLiveState_of_settled (hl m List.mem_cons_self)) (by simp [isFreeState]) _))
      fun n hn => by
        rw [after n]
        split
        · exact .inl rfl
        · exact hl n (List.mem_cons_of_mem m hn)
    refine ⟨law, fun n hn => pending n ?_⟩
    rw [after n]
    rcases hn with hn | hn
    · rcases List.mem_cons.mp hn with rfl | hn
      · exact .inr (by simp)
      · exact .inl hn
    · exact .inr (by rw [hn]; split <;> rfl)

theorem TrackerLaw.submitSearches {l : List InputIx} {s : State} (h : TrackerLaw s)
    (hl : ∀ n ∈ l, (s.tracker n).state = .pending) :
    TrackerLaw (l.foldl (fun s n => submitHeld n .search s) s) := by
  induction l generalizing s with
  | nil => exact h
  | cons n l ih =>
    refine ih (h.of_moves (.submitHeld .refl .search)
      ((h n).submitHeld (hl n List.mem_cons_self) (.inl rfl))) fun m hm => ?_
    rw [tracker_of_inputs (submitHeld_inputs s n .search) m]
    exact hl m (List.mem_cons_of_mem n hm)

theorem mem_submissionOrder {s : State} {l : List InputIx} {n : InputIx}
    (h : n ∈ submissionOrder s l) : n ∈ l := by
  unfold submissionOrder rotated at h
  rcases List.mem_append.mp h with h | h
  · exact List.mem_of_mem_drop h
  · exact List.mem_of_mem_take h

theorem TrackerLaw.submitReleased {l : List InputIx} {s : State} (h : TrackerLaw s)
    (hl : ∀ n ∈ l, (s.tracker n).state = .pending) : TrackerLaw (submitReleased l s) := by
  unfold Machine.submitReleased
  split
  · exact (h.of_same (t := s.nextFree) (fun _ => rfl) (fun _ => rfl)
      fun _ => .inl rfl).submitSearches fun n hn => hl n (mem_submissionOrder hn)
  · exact h.submitSearches hl

theorem mem_inputsBoundTo {i : SlotIx} {s : State} {n : InputIx} :
    n ∈ inputsBoundTo i s ↔ boundTo (s.tracker n) i = true := by
  simp [inputsBoundTo, mem_allInputs]

theorem mem_boundInputs {s : State} {n : InputIx} :
    n ∈ boundInputs s ↔ (s.tracker n).binding.isSome = true := by
  simp [boundInputs, mem_allInputs]

theorem boundTo_iff {t : Tracker} {i : SlotIx} :
    boundTo t i = true ↔ ∃ b, t.binding = some b ∧ b.slot = i := by
  unfold boundTo
  split <;> simp_all

theorem TrackerLaw.isSettled_of_binding {s : State} (h : TrackerLaw s) {n : InputIx}
    (hb : (s.tracker n).binding.isSome = true) : isSettledState (s.tracker n).state := by
  obtain e | e := ((trackerLawAt_iff n s).mp (h n)).binding.mp hb <;> simp [e, isSettledState]

@[simp] theorem markRecheck_state (t : Tracker) : (markRecheck t).state = t.state := by
  unfold markRecheck; split <;> rfl

@[simp] theorem clearRecallOf_state (i : SlotIx) (t : Tracker) :
    (clearRecallOf i t).state = t.state := by
  unfold clearRecallOf; split <;> rfl

@[simp] theorem handMarks_tracker (s : State) (n : InputIx) :
    (handMarks s).tracker n = markRecheck (s.tracker n) :=
  tracker_mapTrackers (disturbPass s) markRecheck n

/-- A change that releases inputs, clears references, rewrites the catalog and hands on its marks. -/
theorem TrackerLaw.releasing {s : State} (h : TrackerLaw s) {l : List InputIx}
    (hl : ∀ n ∈ l, (s.tracker n).binding.isSome = true) {f : Tracker → Tracker}
    (hf : ∀ {c t q}, Tracker.LawAt c t q → Tracker.LawAt c (f t) q)
    (hstate : ∀ t, (f t).state = t.state) (c : State → Catalog) :
    TrackerLaw (Machine.submitReleased l (Machine.handMarks
      ((Machine.mapTrackers f (l.foldl retireInput s)).withCatalog
        (c (Machine.mapTrackers f (l.foldl retireInput s)))))) := by
  obtain ⟨law, pending⟩ := h.retireInputs fun n hn => h.isSettled_of_binding (hl n hn)
  refine TrackerLaw.submitReleased (TrackerLaw.handMarks ?_) fun n hn => ?_
  · exact (law.mapTrackers hf).of_same (fun _ => rfl) (fun _ => rfl) fun _ => .inl rfl
  · simp [hstate, pending n (.inl hn)]

theorem trackerLaw_change {a : Accepted} {run : State → Executed} (hrun : changeOf a = some run)
    {s : State} (h : TrackerLaw s) : TrackerLaw (run s).state := by
  have marked : ∀ c, TrackerLaw (handMarks (s.withCatalog c)) := fun c =>
    (h.of_same (t := s.withCatalog c) (fun _ => rfl) (fun _ => rfl) fun _ => .inl rfl).handMarks
  have toggled : ∀ required new, TrackerLaw (runToggle required new a.args s).state := by
    intro required new
    obtain same | ⟨i, -, -, eq⟩ := runToggle_cases required new a.args s
    · rw [same]; exact h
    · rw [eq]; exact marked _
  obtain ⟨image, -, rfl⟩ | rfl | rfl | rfl | rfl := changeOf_cases hrun
  · obtain same | ⟨i, -, -, -, eq⟩ := runCommit_cases a.args image s
    · rw [same]; exact h
    · rw [eq]; exact marked _
  · exact toggled _ _
  · exact toggled _ _
  · obtain same | ⟨i, -, -, eq⟩ := runRetire_cases a.args s
    · rw [same]; exact h
    · rw [eq]
      refine h.releasing (fun n hn => ?_) (fun law => law.clearRecallOf i) (clearRecallOf_state i)
        fun s => freeSlot i s.catalog
      obtain ⟨b, hb, -⟩ := boundTo_iff.mp (mem_inputsBoundTo.mp hn)
      rw [hb]; rfl
  · exact h.releasing (fun n hn => mem_boundInputs.mp hn) (fun law => law.withoutRecall)
      (fun _ => rfl) fun _ => resetCatalog

/-! ### Input commands, enables and configuration -/

theorem TrackerLaw.rebindBound {n : InputIx} {s : State} (h : TrackerLaw s)
    (hs : isBoundState (s.tracker n).state) : TrackerLaw (rebindBound n s) := by
  have live : isLiveState (s.tracker n).state := by
    rcases hs with e | e <;> simp [e, isLiveState]
  exact h.of_moves (rebindBound_moves n s)
    ((((h n).releasedTo live (new := .pending) (by simp [isFreeState]) _).holdSet
      (by simp [isSettledState]) _).submitHeld (by simp) (.inl rfl))

theorem TrackerLaw.rebindInput {n : InputIx} {s : State} (h : TrackerLaw s) :
    TrackerLaw (rebindInput n s).state := by
  unfold Machine.rebindInput
  dsimp only
  split
  case h_1 hs => exact h.rebindBound (.inl hs)
  case h_2 hs => exact h.rebindBound (.inr hs)
  case h_3 hs =>
    exact h.of_moves ((TrackerMoves.changeState .refl _).submitHeld _)
      (((h n).freeTo (by simp [hs, isFreeState]) (new := .pending)
        (by simp [isFreeState])).submitHeld (by simp) (.inl rfl))
  all_goals exact h

theorem TrackerLaw.withUnit {s : State} (h : TrackerLaw s) (n : InputIx) (u : MeasUnit) :
    TrackerLaw (s.withUnit n u) := h.of_same (by simp) (by simp) fun _ => .inl rfl

theorem TrackerLaw.clearFaultInput {n : InputIx} {s : State} (h : TrackerLaw s)
    (hs : (s.tracker n).state = .fault) : TrackerLaw (clearFaultInput n s) := by
  have law := (trackerLawAt_iff n s).mp (h n)
  refine TrackerLaw.withUnit (h.of_moves ((TrackerMoves.withTracker .refl _).changeState _) ?_) _ _
  refine trackerLawAt_toFree ?_ ?_ ?_ ?_ ?_ (by simp [isFreeState])
  · simpa using
      ({ law.toStateLaw with } : Tracker.StateLaw { s.tracker n with latch := noFaults })
  · simpa using law.settle
  · simpa using (h n).enabled_of_live (by simp [hs])
  · simpa using law.unbound (by simp [hs, isBoundState])
  · simp [noFaults, FaultSet.isEmpty]

theorem config_withConfig_ne (s : State) {n m : InputIx} (h : m ≠ n) (c : InputConfig) :
    (s.withConfig n c).config m = s.config m := by
  simp [State.config, input_withConfig, h]

/-- A change of the configuration of one input, and moves of its tracker. -/
theorem TrackerLaw.of_config {n : InputIx} {s t : State} {c : InputConfig} (h : TrackerLaw s)
    (moves : TrackerMoves n (s.withConfig n c) t) (own : TrackerLawAt n t) : TrackerLaw t :=
  h.of_own own fun m hm => ⟨(moves.frame.tracker_ne hm).trans (by simp),
    (moves.frame.config m).trans (config_withConfig_ne s hm c),
    moves.request_ne (inputRequester_ne hm)⟩

theorem TrackerLaw.enableInput {n : InputIx} {s : State} (h : TrackerLaw s)
    (off : (s.config n).enabled = false) : TrackerLaw (enableInput n s) := by
  have law := (trackerLawAt_iff n s).mp (h n)
  have idle := law.enabled.mp off
  refine TrackerLaw.withUnit (h.of_config (enableTracker_moves n _) ?_) _ _
  refine trackerLawAt_toFree ?_ ?_ ?_ ?_ ?_ (by simp [isFreeState])
  · simpa using law.toStateLaw
  · rw [config_withConfig_self]; exact law.settle
  · simp
  · simpa using law.unbound (by simp [idle, isBoundState])
  · simpa using (h n).latch_empty (by simp [idle])

theorem TrackerLaw.disableInput {n : InputIx} {s : State} (h : TrackerLaw s) :
    TrackerLaw (disableInput n s) := by
  have law := (trackerLawAt_iff n s).mp (h n)
  refine TrackerLaw.withUnit (h.of_config (disableTracker_moves n _) ?_) _ _
  refine trackerLawAt_withTracker.mpr ?_
  have released : ((release n .inputDisabled
      (s.withConfig n { s.config n with enabled := false })).tracker n).StateLaw :=
    Tracker.StateLaw.release (by simpa using law.toStateLaw) _
  have changed := released.changed .idle
  rw [changeState_tracker_self, changeState_config, changeState_request_self,
    changedRequest_of_not_kept (by cases ((release n .inputDisabled _).tracker n).state <;> rfl)]
  refine { changed with
    enabled := iff_of_true (by simp) rfl
    settle := by simpa using law.settle
    counterLe := (changedTracker_counter released .idle).le.trans (Nat.zero_le _)
    coastLe := (changedTracker_coast released .idle).le.trans (Nat.zero_le _)
    binding := ?_
    reference := fun none => nomatch none
    latch := iff_of_false (by simp [noFaults, FaultSet.isEmpty]) (by simp [changedTracker])
    request := .none _ }
  simp [changedTracker, isBoundState]

theorem settleOf_pos (value : Byte) : 1 ≤ (settleOf value).toNat := by
  unfold settleOf
  split
  · decide
  · next ne => exact Nat.pos_of_ne_zero fun e => ne (BitVec.eq_of_toNat_eq e)

theorem TrackerLaw.writeSettleCoast {n : InputIx} {s : State} (h : TrackerLaw s) (value : Byte) :
    TrackerLaw (writeSettleCoast n value s) := by
  have law := (trackerLawAt_iff n s).mp (h n)
  refine h.of_config (.withTracker .refl _) (trackerLawAt_withTracker.mpr ?_)
  rw [config_withConfig_self, tracker_withConfig]
  exact { law with
    settle := settleOf_pos value
    coast := fun ne => law.coast fun e => ne (by simp [e])
    coastLe := Nat.min_le_right _ _ }

/-- A field that the law does not speak of is written in the configuration. -/
theorem TrackerLaw.withConfig {n : InputIx} {s : State} {c : InputConfig} (h : TrackerLaw s)
    (enabled : c.enabled = (s.config n).enabled) (settle : c.settle = (s.config n).settle)
    (budget : c.budget = (s.config n).budget) : TrackerLaw (s.withConfig n c) := by
  have law := (trackerLawAt_iff n s).mp (h n)
  refine h.of_config (c := c) .refl ((trackerLawAt_iff n _).mpr ?_)
  rw [config_withConfig_self, tracker_withConfig]
  exact { law with
    enabled := by rw [enabled]; exact law.enabled
    settle := by rw [settle]; exact law.settle
    coastLe := by rw [budget]; exact law.coastLe }

/-! ### Resets -/

theorem lawAt_resetTracker {c : InputConfig} (settle : 1 ≤ c.settle.toNat) {t : Tracker}
    (ht : ∃ l, t = { resetTracker with
      state := if c.enabled then .silent else .idle, lastLoss := l }) : t.LawAt c none := by
  obtain ⟨l, rfl⟩ := ht
  refine ⟨⟨?_, ?_, ?_, ?_, ?_⟩, ?_, settle, ?_, ?_, ?_, ?_, ?_, .none _⟩
  all_goals cases c.enabled <;> simp [resetTracker, isBoundState, FaultSet.isEmpty, noFaults]

theorem trackerLaw_restartBlocks {s : State} (h : TrackerLaw s) :
    TrackerLaw (restartBlocks s) := by
  intro n
  have frame := foldl_changeFrame (f := fun s n => release n .coreRestart s)
    (fun _ _ => TrackerMoves.release .refl .coreRestart) (boundInputs s) s
  have config := (frame.units n).1
  have law := (trackerLawAt_iff n s).mp (h n)
  have restarted : (restartBlocks s).input n
      = restartedInput (((boundInputs s).foldl (fun s n => release n .coreRestart s) s).input n) :=
    getElem_mapVec restartedInput _ n.val n.isLt
  rw [trackerLawAt_iff, State.config, State.tracker, restarted,
    show (restartBlocks s).request (inputRequester n) = none by
      simp [restartBlocks, State.request, resetClassifier]]
  refine lawAt_resetTracker ?_ ⟨_, rfl⟩
  have settle : 1 ≤ (s.config n).settle.toNat := law.settle
  rw [← config] at settle
  exact settle

/-! ### Every move -/

theorem CoreMove.trackerLaw {s t : State} (move : CoreMove s t) (h : TrackerLaw s) :
    TrackerLaw t := by
  cases move with
  | same hst =>
    exact h.of_same hst.tracker hst.config fun r => .inl (hst.request r)
  | pinMoved n pin level =>
    exact h.of_same (by simp) (by simp) fun _ => .inl (by cases pin <;> rfl)
  | accepted | changed | gainTimeout | hLost => exact h.onUnit _ _
  | completed c p => exact h.completeStart c p
  | change a run hrun => exact trackerLaw_change hrun h
  | arbitrated => exact h.of_same (fun _ => rfl) (fun _ => rfl) (arbitrate_request · s)
  | probeWithdrawn =>
    unfold withdrawProbe
    split
    · refine h.of_same (fun _ => rfl) (fun _ => rfl) fun r => ?_
      rw [request_withRequest]
      split
      · exact .inr rfl
      · exact .inl rfl
    · exact h.of_same (fun _ => rfl) (fun _ => rfl) fun _ => .inl rfl
  | probeSubmitted args =>
    intro n
    refine TrackerLawAt.arbitrate ((h n).of_same rfl rfl (.inl ?_))
    rw [request_withRequest, if_neg]
    exact fun e => absurd (congrArg Fin.val e) n.isLt.ne
  | rebound args =>
    unfold runRebind
    split
    · exact h
    · exact h.rebindInput
  | faultCleared args =>
    unfold runClearFault
    split
    · exact h
    · split
      · next hs => exact h.clearFaultInput hs
      · exact h
  | restarted => exact trackerLaw_restartBlocks h
  | enabled n off => exact h.enableInput off
  | disabled n _ => exact h.disableInput
  | settleCoast n value => exact h.writeSettleCoast value
  | glitch n value | faultEnables n value => exact h.withConfig rfl rfl rfl
  | examined p => exact h.of_same (fun _ => rfl) (fun _ => rfl) fun _ => .inl rfl

theorem trackerLaw_powerOnReset (adr : Level) (s : State) : TrackerLaw (powerOnReset adr s) := by
  intro n
  rw [trackerLawAt_iff, powerOnReset_tracker, powerOnReset_config,
    show (powerOnReset adr s).request (inputRequester n) = none by
      simp [State.request, resetClassifier]]
  exact lawAt_resetTracker (by decide) ⟨none, rfl⟩

/-! ### The obligation -/

/-- Settles O7: every operation of a tracker keeps its own law, and reaches another tracker only by a
grant, which takes a waiting request away. -/
theorem stepKeepsTrackerLaw : Obligations.StepKeepsTrackerLaw := fun _ _ h =>
  step_keeps (fun adr s _ => trackerLaw_powerOnReset adr s) (fun _ _ move => move.trackerLaw) h

end Sys2Proof.Machine
end

