-- ==== Sys2Proof/Proofs/Mailbox.lean ====
section
/-! The mailbox and the probe: what the moves do to the probe's request and pass, and the obligation
that every step keeps the mailbox's laws. -/

namespace Sys2Proof.Machine

/-! ### The two halves of the law -/

/-- The laws of the mailbox's own record (R153, R157, R163). -/
structure Mailbox.Law (m : Mailbox) : Prop where
  accepted : m.accepted = none ↔ m.state = .empty
  held : ∀ a, m.accepted = some a → m.state = .held → (changeOf a).isSome
  waiting : ∀ a, m.accepted = some a → m.state = .waiting → a.code = commandCode .probe
  busy : m.state = .held ∨ m.state = .waiting → m.result = none ∧ m.data = Vector.replicate 21 0
  done : m.state = .done → m.result.isSome

/-- The laws of the probe's request and pass, where `w` says that a PROBE is WAITING (R64, R172). -/
structure ProbeLaw (w : Prop) (s : State) : Prop where
  outstanding : w ↔ (s.request probeRequester).isSome ∨ probePassCurrent s
  once : ¬ ((s.request probeRequester).isSome ∧ probePassCurrent s)
  request : ∀ q, s.request probeRequester = some q → q.kind = .search ∧ q.seq = none
  kind : ∀ p, s.classifier.pass = some p → p.requester = probeRequester → p.kind = .search
  first : ∀ p, s.classifier.pass = some p → p.requester = probeRequester →
    p.probeCurrent = some true → p.disturbed = false ∧ p.start = 1

theorem mailboxLaw_iff (s : State) :
    MailboxLaw s ↔ s.mailbox.Law ∧ ProbeLaw (s.mailbox.state = .waiting) s := by
  constructor
  · rintro ⟨accepted, held, waiting, busy, done, outstanding, once, request, kind, first⟩
    exact ⟨⟨accepted, held, waiting, busy, done⟩, ⟨outstanding, once, request, kind, first⟩⟩
  · rintro ⟨m, p⟩
    exact ⟨m.accepted, m.held, m.waiting, m.busy, m.done, p.outstanding, p.once, p.request, p.kind,
      p.first⟩

theorem probePassCurrent_of_pass {s t : State} (h : t.classifier.pass = s.classifier.pass) :
    probePassCurrent t ↔ probePassCurrent s := by
  unfold probePassCurrent
  rw [h]

theorem probePassCurrent_some {s : State} {p : Pass} (h : s.classifier.pass = some p) :
    probePassCurrent s ↔ p.requester = probeRequester ∧ p.probeCurrent = some true := by
  simp [probePassCurrent, h]

theorem not_probePassCurrent_of_idle {s : State} (h : s.classifier.pass = none) :
    ¬ probePassCurrent s := by
  rintro ⟨p, hp, -⟩
  rw [h] at hp
  exact nomatch hp

/-- The law speaks of the probe's request and the pass in flight alone. -/
theorem ProbeLaw.of_same {w : Prop} {s t : State} (h : ProbeLaw w s)
    (request : t.request probeRequester = s.request probeRequester)
    (pass : t.classifier.pass = s.classifier.pass) : ProbeLaw w t where
  outstanding := by rw [request, probePassCurrent_of_pass pass]; exact h.outstanding
  once := by rw [request, probePassCurrent_of_pass pass]; exact h.once
  request := by rw [request]; exact h.request
  kind := by rw [pass]; exact h.kind
  first := by rw [pass]; exact h.first

/-- A change of the mailbox's state that says no more of WAITING than before. -/
theorem ProbeLaw.transfer {v w : Prop} {s t : State} (h : ProbeLaw v s) (iff : w ↔ v)
    (request : t.request probeRequester = s.request probeRequester)
    (pass : t.classifier.pass = s.classifier.pass) : ProbeLaw w t :=
  have same := h.of_same request pass
  { same with outstanding := iff.trans same.outstanding }

theorem ProbeLaw.congr {v w : Prop} {s : State} (h : ProbeLaw v s) (iff : w ↔ v) : ProbeLaw w s :=
  { h with outstanding := iff.trans h.outstanding }

/-- With another requester's pass, or none, in flight the law is that of the request. -/
theorem ProbeLaw.of_other {w : Prop} {s : State}
    (pass : ∀ p, s.classifier.pass = some p → p.requester ≠ probeRequester)
    (outstanding : w ↔ (s.request probeRequester).isSome)
    (request : ∀ q, s.request probeRequester = some q → q.kind = .search ∧ q.seq = none) :
    ProbeLaw w s := by
  have other : ¬ probePassCurrent s := fun ⟨p, hp, own, _⟩ => pass p hp own
  exact ⟨by simp [outstanding, other], by simp [other], request,
    fun p hp own => absurd own (pass p hp), fun p hp own => absurd own (pass p hp)⟩

/-! ### Arbitration and the moves of a tracker -/

theorem probeRequester_ne_inputRequester (n : InputIx) : probeRequester ≠ inputRequester n :=
  fun e => absurd (congrArg Fin.val e) (Nat.ne_of_gt n.isLt)

theorem request_of_grant {r k : Requester} {q : Request} {s : State} :
    (s.withClassifier (grant r q s.classifier)).request k = if k = r then none else s.request k :=
  request_withRequest s r k none

/-- A grant of the probe's request is the start of its current pass; any other leaves it waiting. -/
theorem ProbeLaw.arbitrate {w : Prop} {s : State} (h : ProbeLaw w s) :
    ProbeLaw w (arbitrate s) := by
  unfold Machine.arbitrate
  obtain same | ⟨r, q, idle, hq, -, eq⟩ := arbitrateClassifier_cases s.classifier
  · rw [same]; exact h.of_same rfl rfl
  · rw [eq]
    have pass : (s.withClassifier (grant r q s.classifier)).classifier.pass
        = some (grantedPass r q) := rfl
    have waiting : w ↔ (s.request probeRequester).isSome := by
      simpa [not_probePassCurrent_of_idle idle] using h.outstanding
    by_cases hr : r = probeRequester
    · subst hr
      have taken : (s.withClassifier (grant probeRequester q s.classifier)).request probeRequester
          = none := by rw [request_of_grant, if_pos rfl]
      have current : probePassCurrent (s.withClassifier (grant probeRequester q s.classifier)) :=
        ⟨_, pass, rfl, rfl⟩
      refine ⟨?_, by simp [taken], by simp [taken], fun p hp _ => ?_, fun p hp _ _ => ?_⟩
      · refine iff_of_true (waiting.mpr ?_) (.inr current)
        change s.classifier.requests[probeRequester].isSome
        rw [hq]; rfl
      · rw [pass] at hp; cases hp; exact (h.request q hq).1
      · rw [pass] at hp; cases hp; exact ⟨rfl, rfl⟩
    · have kept : (s.withClassifier (grant r q s.classifier)).request probeRequester
          = s.request probeRequester := by rw [request_of_grant, if_neg (Ne.symm hr)]
      refine .of_other (fun p hp => ?_) (by rw [kept]; exact waiting) (by rw [kept]; exact h.request)
      rw [pass] at hp; cases hp; exact hr

/-- No move of a tracker touches the probe but by a grant. -/
theorem TrackerMove.probeLaw {n : InputIx} {w : Prop} {s t : State} (move : TrackerMove n s t)
    (h : ProbeLaw w s) : ProbeLaw w t := by
  cases move with
  | request q =>
    refine h.of_same ?_ rfl
    rw [request_withRequest, if_neg (probeRequester_ne_inputRequester n)]
  | arbitrated => exact h.arbitrate
  | replaced q tick p hp hq =>
    have other : ∀ p', (some { grantedPass (inputRequester n) q with disturbed := p.disturbed })
        = some p' → p'.requester ≠ probeRequester := by
      rintro p' ⟨⟩
      exact (probeRequester_ne_inputRequester n).symm
    have notCurrent : ¬ probePassCurrent s := by
      rw [probePassCurrent_some hp]
      simp only [supersedesGranted, Bool.and_eq_true, beq_iff_eq] at hq
      obtain ⟨⟨⟨-, own⟩, -⟩, -⟩ := hq
      rintro ⟨probe, -⟩
      exact probeRequester_ne_inputRequester n (probe.symm.trans own)
    have waiting : w ↔ (s.request probeRequester).isSome := by
      simpa [notCurrent] using h.outstanding
    exact .of_other other waiting h.request
  | tracker | claim | notice => exact h.of_same rfl rfl

theorem TrackerMoves.probeLaw {n : InputIx} {w : Prop} {s t : State} (moves : TrackerMoves n s t)
    (h : ProbeLaw w s) : ProbeLaw w t := by
  induction moves with
  | refl => exact h
  | tail _ last ih => exact last.probeLaw ih

theorem foldl_probeLaw {f : State → InputIx → State} (hf : ∀ s n, TrackerMoves n s (f s n))
    {w : Prop} (l : List InputIx) {s : State} (h : ProbeLaw w s) : ProbeLaw w (l.foldl f s) := by
  induction l generalizing s with
  | nil => exact h
  | cons n l ih => exact ih ((hf s n).probeLaw h)

/-- While a pass is in flight, the moves of a tracker leave it with its requester and touch no
request but their own. -/
theorem TrackerMoves.busy {n : InputIx} {s t : State} (moves : TrackerMoves n s t) {p : Pass}
    (hp : s.classifier.pass = some p) :
    ∃ p', t.classifier.pass = some p' ∧ p'.requester = p.requester
      ∧ ∀ r, r ≠ inputRequester n → t.request r = s.request r := by
  induction moves with
  | refl => exact ⟨p, hp, rfl, fun _ _ => rfl⟩
  | tail _ last ih =>
    obtain ⟨p', hp', own, kept⟩ := ih
    cases last with
    | request q => exact ⟨p', hp', own, fun r hr => by simp [request_withRequest, hr, kept r hr]⟩
    | arbitrated => exact ⟨p', by rw [arbitrate_busy _ hp']; exact hp', own,
        fun r hr => by rw [arbitrate_busy _ hp']; exact kept r hr⟩
    | replaced q tick p₂ hp₂ hq =>
      simp only [supersedesGranted, Bool.and_eq_true, beq_iff_eq] at hq
      obtain ⟨⟨⟨-, same⟩, -⟩, -⟩ := hq
      rw [hp'] at hp₂
      cases hp₂
      exact ⟨_, rfl, same.symm.trans own, kept⟩
    | tracker | claim | notice => exact ⟨p', hp', own, kept⟩

/-! ### The mailbox's record -/

theorem Mailbox.Law.emptied {s : State} : (emptyMailbox s).mailbox.Law :=
  ⟨iff_of_true rfl rfl, fun _ h => (nomatch h), fun _ h => (nomatch h),
    fun h => h.elim (fun e => (nomatch e)) (fun e => (nomatch e)), fun h => (nomatch h)⟩

/-- A command that has been accepted completes (R156). -/
theorem Mailbox.Law.completed {r : Executed} (h : r.state.mailbox.accepted ≠ none) :
    (completeCommand r).mailbox.Law := by
  rw [completeCommand_mailbox]
  exact ⟨iff_of_false h (by simp), by simp, by simp, by simp, by simp⟩

theorem ProbeLaw.completed {r : Executed} (h : ProbeLaw False r.state) :
    ProbeLaw ((completeCommand r).mailbox.state = .waiting) (completeCommand r) :=
  h.transfer (by simp [completeCommand_mailbox]) rfl rfl

theorem mailboxLaw_completeCommand {r : Executed} (h : r.state.mailbox.accepted ≠ none)
    (probe : ProbeLaw False r.state) : MailboxLaw (completeCommand r) :=
  (mailboxLaw_iff _).mpr ⟨.completed h, probe.completed⟩

theorem acceptCommand_accepted (code : Byte) (s : State) :
    (acceptCommand code s).mailbox.accepted = some (acceptedCopy code s) := rfl

/-- A command that executes at its acceptance completes, with no probe outstanding. -/
theorem mailboxLaw_issueNow {code : Byte} {run : State → Executed} {s : State}
    (mailbox : (run (acceptCommand code s)).state.mailbox = (acceptCommand code s).mailbox)
    (probe : ProbeLaw False (acceptCommand code s) →
      ProbeLaw False (run (acceptCommand code s)).state)
    (h : ProbeLaw False s) : MailboxLaw (issueNow code run s) :=
  mailboxLaw_completeCommand (by rw [mailbox, acceptCommand_accepted]; simp)
    (probe (h.of_same rfl rfl))

/-! ### Catalog changes -/

/-- While no probe is outstanding a change may disturb the pass in flight. -/
theorem ProbeLaw.disturbPass {s : State} (h : ProbeLaw False s) :
    ProbeLaw False (disturbPass s) := by
  have notCurrent : ¬ probePassCurrent s := fun current => h.outstanding.mpr (.inr current)
  cases hp : s.classifier.pass with
  | none =>
    have same : (Machine.disturbPass s).classifier.pass = none := by
      rw [Machine.disturbPass, State.withPass_pass, hp]; rfl
    exact h.of_same rfl (same.trans hp.symm)
  | some p =>
    have pass : (Machine.disturbPass s).classifier.pass = some { p with disturbed := true } := by
      rw [Machine.disturbPass, State.withPass_pass, hp]; rfl
    rw [probePassCurrent_some hp] at notCurrent
    have still : ¬ probePassCurrent (Machine.disturbPass s) := by
      rw [probePassCurrent_some pass]; exact notCurrent
    have none : ¬ ((Machine.disturbPass s).request probeRequester).isSome :=
      fun some => h.outstanding.mpr (.inl some)
    exact ⟨by simp [still, none], fun both => still both.2, h.request,
      fun p' hp' own => by rw [pass] at hp'; cases hp'; exact h.kind p hp own,
      fun p' hp' own current => absurd ⟨p', hp', own, current⟩ still⟩

theorem ProbeLaw.handMarks {s : State} (h : ProbeLaw False s) : ProbeLaw False (handMarks s) :=
  h.disturbPass.of_same rfl rfl

theorem ProbeLaw.submitReleased {w : Prop} (l : List InputIx) {s : State} (h : ProbeLaw w s) :
    ProbeLaw w (submitReleased l s) := by
  have searches := fun l u => foldl_probeLaw (f := fun s n => submitHeld n .search s)
    (fun _ _ => TrackerMoves.submitHeld .refl .search) (w := w) l (s := u)
  unfold Machine.submitReleased
  split
  · exact searches _ _ (h.of_same rfl rfl)
  · exact searches _ _ h

theorem probeLaw_released {f : Tracker → Tracker} {c : State → Catalog} (l k : List InputIx)
    {s : State} (h : ProbeLaw False s) :
    ProbeLaw False (submitReleased k (handMarks
      ((mapTrackers f (l.foldl retireInput s)).withCatalog
        (c (mapTrackers f (l.foldl retireInput s)))))) :=
  .submitReleased k <| .handMarks <|
    (foldl_probeLaw (fun s n => retireInput_moves n s) l h).of_same rfl rfl

theorem probeLaw_change {a : Accepted} {run : State → Executed} (hrun : changeOf a = some run)
    {s : State} (h : ProbeLaw False s) : ProbeLaw False (run s).state := by
  have marked : ∀ c, ProbeLaw False (handMarks (s.withCatalog c)) := fun c =>
    (h.of_same (t := s.withCatalog c) rfl rfl).handMarks
  have toggled : ∀ required new, ProbeLaw False (runToggle required new a.args s).state := by
    intro required new
    obtain same | ⟨i, -, -, eq⟩ := runToggle_cases required new a.args s
    · rw [same]; exact h
    · rw [eq]; exact marked _
  obtain ⟨image, -, rfl⟩ | rfl | rfl | rfl | rfl := changeOf_cases hrun
  · obtain same | ⟨i, -, -, -, eq⟩ := runCommit_cases a.args image s
    · rw [same]; exact h
    · rw [eq]; exact marked _
  · exact toggled _ _
  · exact toggled _ _
  · obtain same | ⟨i, -, -, eq⟩ := runRetire_cases a.args s
    · rw [same]; exact h
    · rw [eq]; exact probeLaw_released (f := clearRecallOf i) (c := fun s => freeSlot i s.catalog) _ _ h
  · exact probeLaw_released (f := fun t => { t with recallRef := none })
      (c := fun _ => resetCatalog) _ _ h

/-- A change executes or is held, and its copy stays. -/
theorem mailboxLaw_issueChange {code : Byte} {run : State → Executed} {s : State}
    (hrun : changeOf (acceptedCopy code s) = some run) (h : ProbeLaw False s) :
    MailboxLaw (issueChange code run s) := by
  unfold issueChange
  dsimp only
  split
  · refine mailboxLaw_completeCommand ?_ (probeLaw_change hrun (h.of_same rfl rfl))
    rw [(changeOf_frame hrun (acceptCommand code s)).mailbox, acceptCommand_accepted]
    simp
  · refine (mailboxLaw_iff _).mpr ⟨⟨?_, ?_, ?_, ?_, ?_⟩, h.transfer ?_ rfl rfl⟩
    · exact iff_of_false (by simp [acceptCommand_accepted]) (by simp)
    · intro a ha _
      cases ha
      rw [hrun]; rfl
    · simp
    · exact fun _ => ⟨rfl, rfl⟩
    · simp
    · simp

/-! ### Completions -/

theorem requesterInput_eq_none {r : Requester} : requesterInput r = none ↔ r = probeRequester := by
  unfold requesterInput probeRequester
  split
  · next h => exact iff_of_false (by simp) fun e => by simp [e] at h
  · next h => exact iff_of_true rfl (Fin.ext (by have := r.isLt; simp; omega))

theorem requesterInput_eq_some {r : Requester} {n : InputIx} :
    requesterInput r = some n ↔ r = inputRequester n := by
  unfold requesterInput inputRequester
  split
  · next h =>
    simp only [Option.some.injEq]
    exact ⟨fun e => by subst e; rfl, fun e => by subst e; rfl⟩
  · next h => exact iff_of_false (by simp) fun e => h (by rw [e]; exact n.isLt)

/-- The end of a pass that the probe has no current part in. -/
theorem ProbeLaw.endPass {w : Prop} {s : State} (outstanding : w ↔ (s.request probeRequester).isSome)
    (request : ∀ q, s.request probeRequester = some q → q.kind = .search ∧ q.seq = none)
    (c : Completion) (p : Pass) : ProbeLaw w (endPass c p s) := by
  have ended : ProbeLaw w (clearPass c.tick p s) :=
    .of_other (fun _ h => nomatch h) outstanding request
  unfold Machine.endPass
  dsimp only
  split
  · exact ended
  · exact ended.arbitrate

theorem endPass_mailbox (c : Completion) (p : Pass) (s : State) :
    (endPass c p s).mailbox = s.mailbox := by
  unfold endPass
  dsimp only
  split <;> rfl

/-- A search has found a match or none. -/
theorem passResult_of_search {p : Pass} (h : p.kind = .search) :
    passResult p = .noMatch ∨ ∃ m, passResult p = .matched m := by
  unfold passResult
  rw [h]
  dsimp only
  unfold searchResult
  split
  · exact .inl rfl
  · exact .inr ⟨_, rfl⟩

/-- A finished search of the probe's completes the command that waits for it. -/
theorem takeProbeResult_completes {p : Pass} {s : State} (h : p.kind = .search)
    (waiting : s.mailbox.state = .waiting) :
    ∃ r : Executed, r.state = s ∧ takeProbeResult (passResult p) s = completeCommand r := by
  unfold takeProbeResult
  obtain eq | ⟨m, eq⟩ := passResult_of_search h
  · exact ⟨refuse .noMatch [] s, rfl, by rw [eq, waiting]⟩
  · exact ⟨{ state := s, code := .ok, data := probeReport m }, rfl, by rw [eq, waiting]⟩

theorem mailboxLaw_endPass {s : State} {c : Completion} {p : Pass} (law : s.mailbox.Law)
    (probe : ProbeLaw (s.mailbox.state = .waiting) (endPass c p s)) :
    MailboxLaw (endPass c p s) := by
  rw [mailboxLaw_iff, endPass_mailbox]
  exact ⟨law, probe⟩

theorem mailboxLaw_completeStart {s : State} {p : Pass} (c : Completion)
    (hp : s.classifier.pass = some p) (h : MailboxLaw s) : MailboxLaw (completeStart c p s) := by
  obtain ⟨law, probe⟩ := (mailboxLaw_iff s).mp h
  unfold completeStart
  split
  · next stale =>
    have notCurrent : ¬ probePassCurrent s := by
      rw [probePassCurrent_some hp]
      rintro ⟨own, current⟩
      simp [passCurrent, requesterInput_eq_none.mpr own, current] at stale
    exact mailboxLaw_endPass law
      (.endPass (by simpa [notCurrent] using probe.outstanding) probe.request c p)
  · next wanted =>
    split
    · next disturbed =>
      have other : p.requester ≠ probeRequester := fun own => by
        have current : p.probeCurrent = some true := by
          simpa [passCurrent, requesterInput_eq_none.mpr own] using wanted
        simp [(probe.first p hp own current).1] at disturbed
      have notCurrent : ¬ probePassCurrent s := by
        rw [probePassCurrent_some hp]; exact fun own => other own.1
      have waiting : s.mailbox.state = .waiting ↔ (s.request probeRequester).isSome := by
        simpa [notCurrent] using probe.outstanding
      have restarted : ProbeLaw (s.mailbox.state = .waiting) (s.withPass (some (restartedPass p))) :=
        .of_other (fun p' hp' => by cases hp'; exact other) waiting probe.request
      unfold restartPass
      dsimp only
      split
      · exact (mailboxLaw_iff _).mpr ⟨law, restarted.of_same rfl rfl⟩
      · exact (mailboxLaw_iff _).mpr ⟨law, restarted⟩
    · unfold deliver
      cases hn : requesterInput p.requester with
      | some n =>
        have own := requesterInput_eq_some.mp hn
        have moves := takeResult_moves n s c.tick p
        obtain ⟨p', hp', requester, -⟩ := moves.busy hp
        have after := moves.probeLaw probe
        have mailbox := moves.frame.mailbox
        have notCurrent : ¬ probePassCurrent (takeResult n c.tick p s) := by
          rw [probePassCurrent_some hp']
          rintro ⟨own', -⟩
          exact probeRequester_ne_inputRequester n (own'.symm.trans (requester.trans own))
        refine mailboxLaw_endPass (by rw [mailbox]; exact law) (.endPass ?_ after.request c p)
        rw [mailbox]
        simpa [notCurrent] using after.outstanding
      | none =>
        have own := requesterInput_eq_none.mp hn
        have current : p.probeCurrent = some true := by simpa [passCurrent, hn] using wanted
        have isCurrent : probePassCurrent s := ⟨p, hp, own, current⟩
        have waiting : s.mailbox.state = .waiting := probe.outstanding.mpr (.inr isCurrent)
        have granted : ¬ (s.request probeRequester).isSome := fun some =>
          probe.once ⟨some, isCurrent⟩
        obtain ⟨r, rfl, eq⟩ := takeProbeResult_completes (probe.kind p hp own) waiting
        dsimp only
        rw [eq]
        refine mailboxLaw_endPass (.completed fun e => ?_)
          (.endPass (s := completeCommand r) ?_ probe.request c p)
        · rw [law.accepted.mp e] at waiting
          exact nomatch waiting
        · exact iff_of_false (by simp [completeCommand_mailbox]) granted

/-! ### The mailbox's own events -/

theorem ProbeLaw.withdrawn {s : State} (h : ProbeLaw True s) :
    ProbeLaw False (withdrawProbe s) := by
  unfold withdrawProbe
  split
  · next q hq =>
    have notCurrent : ¬ probePassCurrent s := fun current => h.once ⟨by simp [hq], current⟩
    refine ⟨?_, fun both => notCurrent both.2, ?_, h.kind, h.first⟩
    · rw [request_withRequest_self]
      exact iff_of_false id fun either => either.elim (by simp) notCurrent
    · rw [request_withRequest_self]
      exact fun _ h => nomatch h
  · next hq =>
    obtain ⟨p, hp, own, current⟩ := (h.outstanding.mp trivial).resolve_left (by simp [hq])
    have pass : (s.withPass (s.classifier.pass.map fun p =>
        if p.requester = probeRequester then { p with probeCurrent := some false } else p)
        ).classifier.pass = some { p with probeCurrent := some false } := by
      rw [State.withPass_pass, hp]; simp [own]
    have lost : ¬ probePassCurrent (s.withPass (s.classifier.pass.map fun p =>
        if p.requester = probeRequester then { p with probeCurrent := some false } else p)) := by
      rw [probePassCurrent_some pass]; simp
    refine ⟨?_, fun both => lost both.2, h.request, ?_, ?_⟩
    · exact iff_of_false id fun either =>
        either.elim (fun some => by simp [State.request] at hq some; simp [hq] at some) lost
    · intro p' hp' _
      rw [pass] at hp'; cases hp'
      exact h.kind p hp own
    · intro p' hp' own' current'
      exact absurd ⟨p', hp', own', current'⟩ lost

theorem mailboxLaw_withdrawCommand {s : State} (h : MailboxLaw s) :
    MailboxLaw (withdrawCommand s) := by
  obtain ⟨law, probe⟩ := (mailboxLaw_iff s).mp h
  unfold withdrawCommand
  split
  · next held =>
    have none : ProbeLaw ((emptyMailbox s).mailbox.state = .waiting) (emptyMailbox s) :=
      probe.transfer (iff_of_false (by simp [emptyMailbox, State.withMailbox]) (by simp [held])) rfl rfl
    exact (mailboxLaw_iff _).mpr ⟨.emptied, none.arbitrate⟩
  · next waiting =>
    have outstanding : ProbeLaw True (emptyMailbox s) :=
      probe.transfer (iff_of_true trivial waiting) rfl rfl
    have mailbox : (withdrawProbe (emptyMailbox s)).mailbox = (emptyMailbox s).mailbox := by
      unfold withdrawProbe
      split <;> rfl
    rw [mailboxLaw_iff, mailbox]
    exact ⟨.emptied, outstanding.withdrawn.congr (by simp [emptyMailbox])⟩
  · exact h
  · exact h

theorem mailboxLaw_issueProbe {s : State} (h : ProbeLaw False s) : MailboxLaw (issueProbe s) := by
  unfold issueProbe
  dsimp only
  split
  · exact mailboxLaw_completeCommand (by simp [refuse, acceptCommand_accepted])
      (h.of_same rfl rfl)
  · have notCurrent : ¬ probePassCurrent s := fun current => h.outstanding.mpr (.inr current)
    refine (mailboxLaw_iff _).mpr ⟨?_, ProbeLaw.arbitrate ?_⟩
    · exact ⟨iff_of_false (by simp [acceptCommand_accepted]) (by simp), by simp,
        fun a ha _ => by cases ha; rfl, fun _ => ⟨rfl, rfl⟩, by simp⟩
    · refine ⟨iff_of_true rfl (.inl ?_), fun both => notCurrent both.2, ?_, h.kind, h.first⟩
      · rw [request_withRequest_self]; rfl
      · rw [request_withRequest_self]
        rintro q ⟨⟩
        exact ⟨rfl, rfl⟩

theorem mailboxLaw_executeHeld {s : State} (h : MailboxLaw s) : MailboxLaw (executeHeld s) := by
  obtain ⟨law, probe⟩ := (mailboxLaw_iff s).mp h
  unfold executeHeld
  split
  · next a held hgate ha =>
    split
    · next run hrun =>
      have none : ProbeLaw False s := probe.congr (by simp [held])
      have completed : MailboxLaw (completeCommand (run s)) :=
        mailboxLaw_completeCommand (by rw [(changeOf_frame hrun s).mailbox, ha]; simp)
          (probeLaw_change hrun none)
      obtain ⟨law', probe'⟩ := (mailboxLaw_iff _).mp completed
      exact (mailboxLaw_iff _).mpr ⟨law', probe'.arbitrate⟩
    · exact h
  · exact h

/-! ### Every effect -/

theorem MailboxLaw.of_same {s t : State} (h : MailboxLaw s) (mailbox : t.mailbox = s.mailbox)
    (classifier : t.classifier = s.classifier) : MailboxLaw t := by
  rw [mailboxLaw_iff, mailbox]
  obtain ⟨law, probe⟩ := (mailboxLaw_iff s).mp h
  exact ⟨law, probe.of_same (request_of_classifier classifier _) (congrArg _ classifier)⟩

theorem MailboxLaw.of_moves {n : InputIx} {s t : State} (h : MailboxLaw s)
    (moves : TrackerMoves n s t) : MailboxLaw t := by
  rw [mailboxLaw_iff, moves.frame.mailbox]
  obtain ⟨law, probe⟩ := (mailboxLaw_iff s).mp h
  exact ⟨law, moves.probeLaw probe⟩

theorem mailboxLaw_onUnit {n : InputIx} {s : State} (h : MailboxLaw s) (tick : Nat)
    (f : MeasUnit → Measured) : MailboxLaw (onUnit n tick f s) :=
  (h.of_same (t := s.withUnit n (f (s.unit n)).1) rfl rfl).of_moves (takeReports_moves n _ tick _)

theorem mailboxLaw_spendChoice {n : InputIx} {pin : Pin} {s : State} (h : MailboxLaw s) :
    MailboxLaw (spendChoice n pin s) := by
  unfold spendChoice
  split
  · exact h.of_same rfl rfl
  · exact h

theorem examineStep_probe (s : State) (p : Pass) :
    (examineStep s p).requester = p.requester ∧ (examineStep s p).kind = p.kind
      ∧ (examineStep s p).probeCurrent = p.probeCurrent := by
  unfold examineStep
  split
  · split <;> exact ⟨rfl, rfl, rfl⟩
  · exact ⟨rfl, rfl, rfl⟩
  · exact ⟨rfl, rfl, rfl⟩

theorem mailboxLaw_classifierStep {s : State} (h : MailboxLaw s) :
    MailboxLaw (classifierStep s) := by
  obtain ⟨law, probe⟩ := (mailboxLaw_iff s).mp h
  unfold classifierStep
  split
  · next p hp =>
    split
    · exact h
    · obtain ⟨requester, kind, current⟩ := examineStep_probe s p
      obtain ⟨start, disturbed⟩ := examineStep_start s p
      have iff : probePassCurrent (s.withPass (some (examineStep s p))) ↔ probePassCurrent s := by
        rw [probePassCurrent_some hp, probePassCurrent_some (s := s.withPass _) rfl, requester,
          current]
      refine (mailboxLaw_iff _).mpr ⟨law, ⟨?_, ?_, probe.request, ?_, ?_⟩⟩
      · rw [iff]; exact probe.outstanding
      · rw [iff]; exact probe.once
      · rintro p' ⟨⟩ own
        rw [kind]; exact probe.kind p hp (requester ▸ own)
      · rintro p' ⟨⟩ own hc
        rw [start, disturbed]
        exact probe.first p hp (requester ▸ own) (current ▸ hc)
  · exact h

theorem Effect.mailboxLaw {s t : State} (effect : Effect s t) (h : MailboxLaw s) :
    MailboxLaw t := by
  obtain ⟨law, probe⟩ := (mailboxLaw_iff s).mp h
  have idle : s.mailbox.state = .empty → ProbeLaw False s := fun empty =>
    probe.congr (by simp [empty])
  cases effect with
  | none => exact h
  | pin n pin level tick =>
    unfold movePin
    split
    · exact h
    · exact mailboxLaw_onUnit (mailboxLaw_spendChoice (h.of_same (by cases pin <;> rfl)
        (by cases pin <;> rfl))) _ _
  | accept n pin => exact mailboxLaw_onUnit (mailboxLaw_spendChoice h) _ _
  | gainTimeout | hLost => exact mailboxLaw_onUnit h _ _
  | classifierStep => exact mailboxLaw_classifierStep h
  | passComplete c =>
    unfold Machine.passComplete
    split
    · next p hp =>
      split
      · exact mailboxLaw_completeStart c hp h
      · exact h
    · exact h
  | executeHeld => exact mailboxLaw_executeHeld h
  | argument k value =>
    exact (mailboxLaw_iff _).mpr ⟨{ law with }, probe.of_same rfl rfl⟩
  | enable n _ =>
    have moved := (h.of_same (t := s.withConfig n { (s.input n).config with enabled := true })
      rfl rfl).of_moves (enableTracker_moves n _)
    exact moved.of_same rfl rfl
  | disable n _ =>
    have moved := (h.of_same (t := s.withConfig n { s.config n with enabled := false })
      rfl rfl).of_moves (disableTracker_moves n _)
    exact moved.of_same rfl rfl
  | settleCoast | glitch | faultEnables | notices => exact h.of_same rfl rfl
  | acknowledge done =>
    exact (mailboxLaw_iff _).mpr ⟨.emptied, probe.transfer
      (iff_of_false (by simp [emptyMailbox, State.withMailbox]) (by simp [done])) rfl rfl⟩
  | withdraw => exact mailboxLaw_withdrawCommand h
  | change code run empty hrun => exact mailboxLaw_issueChange hrun (idle empty)
  | report code run empty hrun =>
    obtain ⟨p, hp, -⟩ := hrun (acceptCommand code s)
    refine mailboxLaw_issueNow (by rw [hp]; rfl) (fun hs => ?_) (idle empty)
    rw [hp]
    exact hs.of_same rfl rfl
  | rebind args empty =>
    have moves : ∀ u, ∃ n, TrackerMoves n u (runRebind args u).state := by
      intro u
      unfold runRebind
      split
      · exact ⟨0, .refl⟩
      · exact ⟨_, rebindInput_moves _ u⟩
    obtain ⟨n, moved⟩ := moves (acceptCommand (commandCode .rebind) s)
    exact mailboxLaw_issueNow moved.frame.mailbox moved.probeLaw (idle empty)
  | clearFault args empty =>
    have kept : ∀ u, (runClearFault args u).state.mailbox = u.mailbox
        ∧ (ProbeLaw False u → ProbeLaw False (runClearFault args u).state) := by
      intro u
      unfold runClearFault
      split
      · exact ⟨rfl, id⟩
      · next n _ =>
        split
        · have moves : TrackerMoves n u (changeState n .silent
              (u.withTracker n { u.tracker n with latch := noFaults })) :=
            (TrackerMoves.withTracker .refl _).changeState _
          exact ⟨moves.frame.mailbox, fun hu => (moves.probeLaw hu).of_same rfl rfl⟩
        · exact ⟨rfl, id⟩
    obtain ⟨mailbox, probed⟩ := kept (acceptCommand (commandCode .clearFault) s)
    exact mailboxLaw_issueNow mailbox probed (idle empty)
  | restart empty =>
    refine mailboxLaw_issueNow ?_ (fun _ => ?_) (idle empty)
    · exact (foldl_changeFrame (fun _ _ => TrackerMoves.release .refl .coreRestart) _ _).mailbox
    · have gone : (restartBlocks (acceptCommand (commandCode .restartCore) s)).request probeRequester
          = .none := rfl
      exact .of_other (fun _ hp => nomatch hp) (iff_of_false id (by simp [runRestart, gone]))
        (by simp [runRestart, gone])
  | probe empty => exact mailboxLaw_issueProbe (idle empty)

theorem mailboxLaw_powerOnReset (adr : Level) (s : State) : MailboxLaw (powerOnReset adr s) := by
  have gone : (powerOnReset adr s).request probeRequester = none := rfl
  rw [mailboxLaw_iff, powerOnReset_mailbox]
  refine ⟨⟨iff_of_true rfl rfl, by simp [resetMailbox], by simp [resetMailbox],
    by simp [resetMailbox], by simp [resetMailbox]⟩, .of_other (fun _ hp => nomatch hp) ?_ ?_⟩
  · exact iff_of_false (by simp [resetMailbox]) (by simp [gone])
  · simp [gone]

/-! ### The obligation -/

/-- Settles O11: a PROBE waits exactly while its request or its current pass is outstanding, because a
grant turns the one into the other, a completion ends the wait, and no catalog change is executed
during it. -/
theorem stepKeepsMailboxLaw : Obligations.StepKeepsMailboxLaw := by
  intro s t h hstep
  obtain rfl | ⟨rest, ⟨adr, rfl⟩ | ⟨u, p, effect, rfl⟩⟩ := step_effect hstep
  · exact h
  · exact mailboxLaw_powerOnReset adr _
  · exact (effect.mailboxLaw (h.of_same rfl rfl)).of_same rfl rfl

end Sys2Proof.Machine
end

