-- ==== Sys2Proof/Proofs/Link.lean ====
section
/-! Tracker and unit together: what a unit's events report, what a tracker makes of the reports, and the
obligation that every step keeps the two in agreement. -/

namespace Sys2Proof.Machine

/-! ### The law of one input -/

/-- The law of one input's unit and tracker, by its parts. -/
structure LinkAt (u : MeasUnit) (t : Tracker) : Prop where
  off : u.state = .off ↔ t.state = .idle
  silent : t.state = .silent → u.state = .quiet
  quiet : u.state = .quiet → t.state = .silent ∨ t.state = .fault
  settled : isSettledState t.state → t.held.isSome ∧ u.lastSet.isSome

theorem linkLaw_iff (s : State) : LinkLaw s ↔ ∀ n, LinkAt (s.unit n) (s.tracker n) :=
  forall_congr' fun _ => ⟨fun ⟨off, silent, quiet, settled⟩ => ⟨off, silent, quiet, settled⟩,
    fun h => ⟨h.off, h.silent, h.quiet, h.settled⟩⟩

/-- A tracker whose unit runs, where `published` says that the unit has a last published set. -/
structure Tracking (published : Prop) (t : Tracker) : Prop where
  awake : t.state ≠ .idle
  active : t.state ≠ .silent
  settled : isSettledState t.state → t.held.isSome ∧ published

theorem linkAt_running {u : MeasUnit} {t : Tracker} (h : isRunning u = true) :
    LinkAt u t ↔ Tracking u.lastSet.isSome t := by
  have notOff : u.state ≠ .off := ne_off_of_isRunning h
  have notQuiet : u.state ≠ .quiet := by
    rcases isRunning_iff.mp h with e | e | e <;> simp [e]
  exact ⟨fun h => ⟨h.off.not.mp notOff, fun e => notQuiet (h.silent e), h.settled⟩,
    fun h => ⟨iff_of_false notOff h.awake, fun e => absurd e h.active,
      fun e => absurd e notQuiet, h.settled⟩⟩

theorem linkAt_quiet {u : MeasUnit} {t : Tracker} (h : u.state = .quiet) :
    LinkAt u t ↔ t.state = .silent ∨ t.state = .fault := by
  refine ⟨fun law => law.quiet h, fun stands => ⟨?_, fun _ => h, fun _ => stands, fun settled => ?_⟩⟩
  · rcases stands with e | e <;> simp [h, e]
  · rcases stands with e | e <;> rw [e] at settled <;> simp [isSettledState] at settled

theorem linkAt_off {u : MeasUnit} {t : Tracker} (h : u.state = .off) :
    LinkAt u t ↔ t.state = .idle := by
  refine ⟨fun law => law.off.mp h, fun e => ⟨iff_of_true h e, ?_, ?_, fun settled => ?_⟩⟩
  · simp [e]
  · simp [h]
  · rw [e] at settled; simp [isSettledState] at settled

/-! ### What the events of a unit report -/

/-- The reports that take no tracker out of SILENT or into it, where `published` says that the unit has
a last published set. -/
def Report.Mild (published : Prop) : Report → Prop
  | .published _ => published
  | .detected _ | .vLost => True
  | .hGained | .hLost => False

/-- An event that leaves the unit running. -/
structure Ran (u : MeasUnit) (r : Measured) : Prop where
  running : isRunning r.1 = true
  lastSet : u.lastSet.isSome → r.1.lastSet.isSome
  mild : ∀ x ∈ r.2, x.Mild r.1.lastSet.isSome

/-- What an event of a unit may do to its state and report. -/
inductive UnitEvent (u : MeasUnit) (r : Measured) : Prop where
  | ran (hu : isRunning u = true) (h : Ran u r)
  | still (hu : isRunning u = false) (state : r.1.state = u.state)
      (mild : ∀ x ∈ r.2, ∃ k, x = .detected k)
  | gained (hu : u.state = .quiet) (running : isRunning r.1 = true) (reports : r.2 = [.hGained])
  | lost (hu : isRunning u = true) (state : r.1.state = .quiet) (ds : List Report)
      (mild : ∀ x ∈ ds, ∃ k, x = .detected k) (reports : r.2 = ds ++ [.hLost])

theorem isRunning_congr {u v : MeasUnit} (h : v.state = u.state) : isRunning v = isRunning u := by
  rw [isRunning, isRunning, h]

theorem Ran.of_kept {u v : MeasUnit} {rs : List Report} (hu : isRunning u = true)
    (state : v.state = u.state) (lastSet : v.lastSet = u.lastSet)
    (mild : ∀ x ∈ rs, ∃ k, x = .detected k) : Ran u (v, rs) where
  running := (isRunning_congr state).trans hu
  lastSet := by rw [lastSet]; exact id
  mild x hx := by obtain ⟨k, rfl⟩ := mild x hx; exact trivial

/-- The reports of two events in turn. -/
theorem Ran.trans {u : MeasUnit} {a b : Measured} (h : Ran u a) (h' : Ran a.1 b) :
    Ran u (b.1, a.2 ++ b.2) where
  running := h'.running
  lastSet some := h'.lastSet (h.lastSet some)
  mild x hx := by
    rcases List.mem_append.mp hx with hx | hx
    · have mild := h.mild x hx
      cases x with
      | published m => exact h'.lastSet mild
      | detected | vLost => trivial
      | hGained | hLost => exact mild
    · exact h'.mild x hx

/-- An event seen from a unit that agrees on state and last published set. -/
theorem Ran.from {u v : MeasUnit} {r : Measured} (h : Ran v r) (lastSet : v.lastSet = u.lastSet) :
    Ran u r := { h with lastSet := by rw [← lastSet]; exact h.lastSet }

/-- An event followed by a change that concerns neither state nor last published set. -/
theorem Ran.then {u v : MeasUnit} {r : Measured} (h : Ran u r) (state : v.state = r.1.state)
    (lastSet : v.lastSet = r.1.lastSet) : Ran u (v, r.2) where
  running := (isRunning_congr state).trans h.running
  lastSet := by rw [lastSet]; exact h.lastSet
  mild := by rw [lastSet]; exact h.mild

/-- An event that keeps state and last published set and reports detections alone. -/
theorem UnitEvent.of_kept {u v : MeasUnit} {rs : List Report} (state : v.state = u.state)
    (lastSet : v.lastSet = u.lastSet) (mild : ∀ x ∈ rs, ∃ k, x = .detected k) :
    UnitEvent u (v, rs) := by
  cases hu : isRunning u with
  | true => exact .ran hu (.of_kept hu state lastSet mild)
  | false => exact .still hu state mild

theorem UnitEvent.quietly {u v : MeasUnit} (state : v.state = u.state)
    (lastSet : v.lastSet = u.lastSet) : UnitEvent u (v, []) :=
  .of_kept state lastSet fun _ hx => absurd hx List.not_mem_nil

theorem UnitEvent.then {u v : MeasUnit} {r : Measured} (h : UnitEvent u r)
    (state : v.state = r.1.state) (lastSet : v.lastSet = r.1.lastSet) : UnitEvent u (v, r.2) := by
  cases h with
  | ran hu h => exact .ran hu (h.then state lastSet)
  | still hu kept mild => exact .still hu (state.trans kept) mild
  | gained hu running reports => exact .gained hu ((isRunning_congr state).trans running) reports
  | lost hu quiet ds mild reports => exact .lost hu (state.trans quiet) ds mild reports

theorem UnitEvent.from {u v : MeasUnit} {r : Measured} (h : UnitEvent v r)
    (state : v.state = u.state) (lastSet : v.lastSet = u.lastSet) : UnitEvent u r := by
  cases h with
  | ran hv h => exact .ran ((isRunning_congr state).symm.trans hv) (h.from lastSet)
  | still hv kept mild => exact .still ((isRunning_congr state).symm.trans hv) (kept.trans state) mild
  | gained hv running reports => exact .gained (state ▸ hv) running reports
  | lost hv quiet ds mild reports =>
    exact .lost ((isRunning_congr state).symm.trans hv) quiet ds mild reports

/-! ### Vertical edges and lines -/

theorem setHRef_lastSet (p : Polarity) (u : MeasUnit) : (setHRef p u).lastSet = u.lastSet := by
  unfold setHRef
  split <;> rfl

theorem eq_of_mem_ite_singleton {α : Type} {c : Prop} [Decidable c] {a x : α}
    (h : x ∈ if c then [a] else []) : x = a := by
  split at h
  · exact List.mem_singleton.mp h
  · exact absurd h List.not_mem_nil

theorem not_mem_nil_mild {P : Report → Prop} : ∀ x ∈ ([] : List Report), P x :=
  fun _ hx => absurd hx List.not_mem_nil

/-- A set reaches the tracker only as the unit's last published set. -/
theorem ran_closeWithSet {record : FaultSet} {p : OpenPeriod} {e : VEdge} {u : MeasUnit}
    (hu : isRunning u = true) : Ran u (closeWithSet record p e u) := by
  have state := setHRef_state (composeSet u p e).sync.hPolarity
    { u with halfLineRef := some (composeSet u p e).halfLine }
  have lastSet := setHRef_lastSet (composeSet u p e).sync.hPolarity
    { u with halfLineRef := some (composeSet u p e).halfLine }
  unfold closeWithSet
  dsimp only
  split
  · exact ⟨(isRunning_congr state).trans hu, fun _ => rfl,
      fun x hx => by rw [List.mem_singleton.mp hx]; exact rfl⟩
  · exact .of_kept hu state lastSet not_mem_nil_mild

theorem ran_closeTested {record : FaultSet} {p : OpenPeriod} {e : VEdge} {u : MeasUnit}
    (hu : isRunning u = true) : Ran u (closeTested record p e u) := by
  unfold closeTested
  split
  · exact ⟨rfl, id, not_mem_nil_mild⟩
  · split
    · exact .of_kept hu rfl rfl not_mem_nil_mild
    · split
      · exact ran_closeWithSet hu
      · exact ⟨rfl, id, not_mem_nil_mild⟩

theorem ran_verticalEdge {e : VEdge} {u : MeasUnit} (hu : isRunning u = true) :
    Ran u (verticalEdge e u) := by
  have closed : ∀ p, Ran u (closePeriod p e u) := by
    intro p
    unfold closePeriod
    split
    · have tested := ran_closeTested (record := p.faults.add .shortFrame) (p := p) (e := e) hu
      refine { tested with mild := fun x hx => ?_ }
      rcases List.mem_cons.mp hx with rfl | hx
      · exact trivial
      · exact tested.mild x hx
    · exact ran_closeTested hu
  unfold verticalEdge
  split
  case h_1 off => rw [isRunning, off] at hu; exact absurd hu (by simp)
  case h_2 quiet => rw [isRunning, quiet] at hu; exact absurd hu (by simp)
  case h_3 => exact ⟨rfl, id, not_mem_nil_mild⟩
  all_goals
    split
    · exact closed _
    · exact .of_kept hu rfl rfl not_mem_nil_mild

theorem ran_handOnLine {src : VSource} {l : ClosedLine} {u : MeasUnit} (hu : isRunning u = true) :
    Ran u (handOnLine src l u) := by
  have taken : Ran u (separatorTakes src l u) := by
    unfold separatorTakes
    dsimp only
    split
    · split
      · split
        · exact (ran_verticalEdge (u := { extendRun l u with sepArmed := false }) hu).from rfl
        · exact .of_kept hu rfl rfl not_mem_nil_mild
      · exact .of_kept hu rfl rfl not_mem_nil_mild
    · exact .of_kept hu rfl rfl not_mem_nil_mild
  refine taken.trans ?_
  unfold flipTest
  split
  · exact .of_kept taken.running rfl rfl fun x hx => ⟨_, eq_of_mem_ite_singleton hx⟩
  · exact .of_kept taken.running rfl rfl not_mem_nil_mild

theorem ran_loseVertical (p : Polarity) {u : MeasUnit} : Ran u (loseVertical p u) where
  running := isRunning_congr (setHRef_state p _)
  lastSet := by rw [loseVertical, setHRef_lastSet]; exact id
  mild x hx := by rw [List.mem_singleton.mp hx]; exact trivial

theorem admitLine_lastSet (src : VSource) (l : ClosedLine) (u : MeasUnit) :
    (admitLine src l u).lastSet = u.lastSet := by
  unfold admitLine
  split
  · rfl
  · split
    · dsimp only
      split <;> rfl
    · rfl

theorem ran_lineClosed {order : ExpiryOrder} {l : ClosedLine} {u : MeasUnit}
    (hu : isRunning u = true) : Ran u (lineClosed order l u) := by
  have running : isRunning (countLine (admitLine (ringSource order u) l u)) = true :=
    isRunning_admitLine hu
  have lastSet : (countLine (admitLine (ringSource order u) l u)).lastSet = u.lastSet :=
    admitLine_lastSet _ l u
  unfold lineClosed
  dsimp only
  split
  · split
    · exact (ran_loseVertical _).from lastSet
    · exact (ran_handOnLine running).from lastSet
  · split
    · exact ((ran_handOnLine running).trans (ran_loseVertical _)).from lastSet
    · exact (ran_handOnLine running).from lastSet

/-! ### Edges and pins -/

theorem unitEvent_loseHorizontal {u : MeasUnit} (hu : isRunning u = true) :
    UnitEvent u (loseHorizontal u) := .lost hu rfl [] not_mem_nil_mild rfl

theorem unitEvent_expireHorizontal (u : MeasUnit) : UnitEvent u (expireHorizontal u) := by
  unfold expireHorizontal
  split
  case h_1 => exact .quietly rfl rfl
  case h_2 => exact .quietly rfl rfl
  case h_3 e => exact unitEvent_loseHorizontal (isRunning_iff.mpr (.inl e))
  case h_4 e => exact unitEvent_loseHorizontal (isRunning_iff.mpr (.inr (.inl e)))
  case h_5 e => exact unitEvent_loseHorizontal (isRunning_iff.mpr (.inr (.inr e)))

theorem countRejection_lastSet (u : MeasUnit) : (countRejection u).1.lastSet = u.lastSet := by
  unfold countRejection
  split <;> rfl

theorem countRejection_reports (u : MeasUnit) :
    ∀ x ∈ (countRejection u).2, ∃ k, x = .detected k := by
  unfold countRejection
  split
  · exact not_mem_nil_mild
  · exact fun x hx => ⟨_, eq_of_mem_ite_singleton hx⟩

theorem unitEvent_countRejection (u : MeasUnit) : UnitEvent u (countRejection u) :=
  .of_kept (countRejection_state u) (countRejection_lastSet u) (countRejection_reports u)

theorem unitEvent_gainLine {l : Line} {u : MeasUnit} (hq : u.state = .quiet) :
    UnitEvent u (gainLine l u) := by
  unfold gainLine gainHorizontal
  dsimp only
  split
  · exact .gained hq (isRunning_congr (setHRef_state _ _)) rfl
  · exact .quietly rfl rfl

theorem unitEvent_horizontalEdge {order : ExpiryOrder} {t : Nat} {u : MeasUnit}
    (hoff : u.state ≠ .off) : UnitEvent u (horizontalEdge order t u) := by
  unfold horizontalEdge
  split
  · exact .quietly rfl rfl
  · exact unitEvent_countRejection u
  · exact (unitEvent_expireHorizontal u).then rfl rfl
  · dsimp only
    split
    · next hu =>
      exact .ran hu (((ran_lineClosed (u := startLine t u) hu).then
        (v := settleOpenCount (lineClosed order _ (startLine t u)).1) rfl rfl).from rfl)
    · next hu =>
      have quiet : u.state = .quiet := (not_isRunning_iff.mp (by simpa using hu)).resolve_left hoff
      exact ((unitEvent_gainLine (u := startLine t u) quiet).then
        (v := settleOpenCount (gainLine _ (startLine t u)).1) rfl rfl).from rfl rfl

theorem vPinSeen_lastSet (u : MeasUnit) : (vPinSeen u).lastSet = u.lastSet := by
  unfold vPinSeen
  split <;> rfl

theorem unitEvent_vTransition {level : Level} {t : Nat} {u : MeasUnit} :
    UnitEvent u (vTransition level t u) := by
  unfold vTransition
  split
  · next hu =>
    have seen := isRunning_vPinSeen hu
    dsimp only
    split
    · exact .ran hu ((ran_verticalEdge seen).from (vPinSeen_lastSet u))
    · exact .ran hu ⟨seen, by rw [← vPinSeen_lastSet u]; exact id, not_mem_nil_mild⟩
  · exact .quietly rfl rfl

theorem withFilter_lastSet (u : MeasUnit) (pin : Pin) (f : PinFilter) :
    (withFilter u pin f).lastSet = u.lastSet := by
  cases pin <;> rfl

theorem unitEvent_acceptTransition (order : ExpiryOrder) (pin : Pin) (u : MeasUnit) :
    UnitEvent u (acceptTransition order pin u) := by
  by_cases hoff : u.state = .off
  · rw [acceptTransition_off order pin hoff]; exact .quietly rfl rfl
  · cases hw : (filterOf u pin).waiting with
    | none => rw [acceptTransition_none order hw]; exact .quietly rfl rfl
    | some w =>
      cases pin with
      | h =>
        rw [acceptTransition_h order hoff hw]
        split
        · exact (unitEvent_horizontalEdge (u := hPinTaken u) hoff).from rfl rfl
        · exact .quietly rfl rfl
      | v =>
        rw [acceptTransition_v order hoff hw]
        exact unitEvent_vTransition.from rfl rfl

theorem unitEvent_rejectPulse (pin : Pin) (t : Nat) (u : MeasUnit) :
    UnitEvent u (rejectPulse pin t u) := by
  have dropped : (withWaiting u pin none).state = u.state := withFilter_state u pin _
  have state : (countRejection (withWaiting u pin none)).1.state = u.state :=
    (countRejection_state _).trans dropped
  have lastSet : (countRejection (withWaiting u pin none)).1.lastSet = u.lastSet :=
    (countRejection_lastSet _).trans (withFilter_lastSet u pin _)
  have reports := countRejection_reports (withWaiting u pin none)
  unfold rejectPulse
  dsimp only
  split
  · cases unitEvent_expireHorizontal (countRejection (withWaiting u pin none)).1 with
    | ran hu ran =>
      have hu' := (isRunning_congr state).symm.trans hu
      exact .ran hu' ((Ran.of_kept hu' state lastSet reports).trans ran)
    | still hu kept mild =>
      exact .still ((isRunning_congr state).symm.trans hu) (kept.trans state)
        (List.forall_mem_append.mpr ⟨reports, mild⟩)
    | gained hu running eq =>
      unfold expireHorizontal at eq
      split at eq <;> simp [loseHorizontal] at eq
    | lost hu quiet ds mild eq =>
      exact .lost ((isRunning_congr state).symm.trans hu) quiet _
        (List.forall_mem_append.mpr ⟨reports, mild⟩) (by simp [eq])
  · exact (unitEvent_countRejection _).from dropped (withFilter_lastSet u pin _)

theorem unitEvent_pinChange (order : ExpiryOrder) (pin : Pin) (level : Level) (t : Nat)
    (window : BitVec 4) (u : MeasUnit) :
    UnitEvent u (pinChange order pin level t window u) := by
  by_cases hoff : u.state = .off
  · rw [pinChange_off order level t window hoff]; exact .quietly rfl rfl
  · cases hw : (filterOf u pin).waiting with
    | none =>
      rw [pinChange_none order level t window hoff hw]
      split
      · exact .quietly rfl rfl
      · exact .quietly (withFilter_state u pin _) (withFilter_lastSet u pin _)
    | some w =>
      rw [pinChange_some order level t window hoff hw]
      split
      · exact unitEvent_rejectPulse pin t u
      · exact (unitEvent_acceptTransition order pin u).then (withFilter_state _ pin _)
          (withFilter_lastSet _ pin _)

/-! ### What the reports do to the tracker -/

section
variable {n : InputIx} {s : State} {published : Prop}

theorem tracking_changeState {new : TrackerState} (hnew : new ≠ .idle ∧ new ≠ .silent)
    (settled : isSettledState new → (s.tracker n).held.isSome ∧ published) :
    Tracking published ((changeState n new s).tracker n) := by
  rw [changeState_tracker_self]
  refine ⟨hnew.1, hnew.2, fun h => ⟨?_, (settled h).2⟩⟩
  change (if dropsHeld new then none else (s.tracker n).held).isSome
  have keeps : dropsHeld new = false := by
    rcases h with rfl | rfl | rfl | rfl <;> rfl
  rw [keeps]
  exact (settled h).1

theorem tracking_submitHeld {k : PassKind} (h : Tracking published (s.tracker n)) :
    Tracking published ((submitHeld n k s).tracker n) := by
  rw [tracker_of_inputs (submitHeld_inputs s n k) n]; exact h

theorem tracking_holdSet {m : MeasSet} (h : (s.tracker n).state ≠ .idle)
    (h' : (s.tracker n).state ≠ .silent) (hp : published) :
    Tracking published ((holdSet n (some m) s).tracker n) := by
  rw [holdSet, tracker_withTracker_self]
  exact ⟨h, h', fun _ => ⟨rfl, hp⟩⟩

/-- A counted set stays in SETTLING or becomes the held stable set. -/
theorem tracking_settleWith (hs : (s.tracker n).state = .settling) (hp : published) (c : Nat)
    (m : MeasSet) : Tracking published ((settleWith n c m s).tracker n) := by
  unfold settleWith completeSettling
  dsimp only
  split
  · split
    · exact tracking_submitHeld (tracking_holdSet (by simp) (by simp) hp)
    · exact tracking_submitHeld (tracking_holdSet (by simp) (by simp) hp)
  · rw [tracker_withTracker_self]
    refine ⟨?_, ?_, ?_⟩ <;> simp [hs, isSettledState]

theorem tracking_settleAfresh (hp : published) (m : MeasSet) :
    Tracking published ((settleAfresh n m s).tracker n) :=
  tracking_settleWith (by simp) hp 1 m

theorem Tracking.takeVLost (h : Tracking published (s.tracker n)) :
    Tracking published ((takeVLost n s).tracker n) := by
  unfold Machine.takeVLost
  split
  case h_1 hs =>
    rw [tracker_withTracker_self]
    exact ⟨h.awake, h.active, fun settled => by rw [hs] at settled; simp [isSettledState] at settled⟩
  case h_6 | h_7 | h_8 => exact h
  all_goals exact tracking_changeState (by simp) (by simp [isSettledState])

theorem Tracking.takeSet (h : Tracking published (s.tracker n)) (hp : published) (tick : Nat)
    (m : MeasSet) : Tracking published ((takeSet n tick m s).tracker n) := by
  have verify : Tracking published ((submitVerify n tick m s).tracker n) := by
    unfold submitVerify submitAt
    split
    · rw [tracker_of_inputs (submit_inputs s _ _) n]; exact h
    · split
      · exact h
      · rw [tracker_of_inputs (submit_inputs s _ _) n]; exact h
  unfold Machine.takeSet
  dsimp only
  split
  case h_1 hs => exact tracking_settleWith hs hp _ m
  case h_2 =>
    split
    · exact h
    · exact tracking_settleAfresh hp m
  case h_3 | h_4 => exact verify
  case h_5 hs =>
    split
    · split
      · exact tracking_submitHeld (tracking_changeState (by simp)
          fun _ => h.settled (by simp [hs, isSettledState]))
      · exact h
    · exact tracking_settleAfresh hp m
  all_goals exact h

theorem Tracking.takeDetection (h : Tracking published (s.tracker n)) (k : FaultKind)
    (tick : Nat) : Tracking published ((takeDetection n k tick s).tracker n) := by
  have latched {x : State} : Tracking published ((changeState n .fault x).tracker n) :=
    tracking_changeState (by simp) (by simp [isSettledState])
  unfold Machine.takeDetection latchFault
  split
  · split
    case h_1 => exact h
    case h_2 =>
      rw [addToLatch, tracker_setNotice, tracker_withTracker_self]
      exact ⟨h.awake, h.active, h.settled⟩
    all_goals
      rw [tracker_setNotice]
      exact latched
  · exact h

/-- A mild report leaves a tracker of a running unit so. -/
theorem Tracking.takeReport (h : Tracking published (s.tracker n)) {r : Report}
    (mild : r.Mild published) (tick : Nat) :
    Tracking published ((takeReport n tick s r).tracker n) := by
  cases r with
  | hGained | hLost => exact absurd mild id
  | vLost => exact h.takeVLost
  | published m => exact h.takeSet mild tick m
  | detected k => exact h.takeDetection k tick

theorem Tracking.takeReports {tick : Nat} {rs : List Report}
    (h : Tracking published (s.tracker n)) (mild : ∀ x ∈ rs, x.Mild published) :
    Tracking published ((rs.foldl (Machine.takeReport n tick) s).tracker n) := by
  induction rs generalizing s with
  | nil => exact h
  | cons r rs ih =>
    exact ih (h.takeReport (mild r List.mem_cons_self) tick)
      fun x hx => mild x (List.mem_cons_of_mem r hx)

/-- Detections latch in SILENT and FAULT, and do nothing in IDLE. -/
theorem takeDetections_still {tick : Nat} {rs : List Report} (mild : ∀ x ∈ rs, ∃ k, x = .detected k) :
    ((s.tracker n).state = .idle →
        ((rs.foldl (takeReport n tick) s).tracker n).state = .idle)
      ∧ ((s.tracker n).state = .silent ∨ (s.tracker n).state = .fault →
        ((rs.foldl (takeReport n tick) s).tracker n).state = .silent
          ∨ ((rs.foldl (takeReport n tick) s).tracker n).state = .fault) := by
  induction rs generalizing s with
  | nil => exact ⟨id, id⟩
  | cons r rs ih =>
    obtain ⟨k, rfl⟩ := mild r List.mem_cons_self
    obtain ⟨idle, waking⟩ := ih (s := takeReport n tick s (.detected k))
      fun x hx => mild x (List.mem_cons_of_mem _ hx)
    refine ⟨fun hs => idle ?_, fun hs => waking ?_⟩
    · unfold takeReport takeDetection latchFault
      dsimp only
      rw [hs]
      dsimp only
      split <;> exact hs
    · unfold takeReport takeDetection latchFault
      dsimp only
      split
      · rcases hs with hs | hs
        · rw [hs]; simp
        · rw [hs]; simp [addToLatch, hs]
      · exact hs

theorem takeHGained_tracking (h : (s.tracker n).state = .silent ∨ (s.tracker n).state = .fault) :
    Tracking published ((takeHGained n s).tracker n) := by
  unfold takeHGained
  rcases h with hs | hs
  · rw [hs]
    exact tracking_changeState (by simp) (by simp [isSettledState])
  · rw [hs]
    refine ⟨?_, ?_, ?_⟩ <;> simp [hs, isSettledState]

theorem takeHLost_quiet (h : Tracking published (s.tracker n)) :
    ((takeHLost n s).tracker n).state = .silent ∨ ((takeHLost n s).tracker n).state = .fault := by
  unfold takeHLost
  split
  case h_6 hs => exact absurd hs h.awake
  case h_7 hs => exact .inl hs
  case h_8 hs => exact .inr hs
  all_goals exact .inl (changeState_state _ _ _)

/-- An event of a unit and its reports keep unit and tracker in agreement. -/
theorem linkAt_onUnit {tick : Nat} {f : MeasUnit → Measured}
    (h : LinkAt (s.unit n) (s.tracker n)) (event : UnitEvent (s.unit n) (f (s.unit n))) :
    LinkAt ((onUnit n tick f s).unit n) ((onUnit n tick f s).tracker n) := by
  rw [unit_onUnit]
  have start : (s.withUnit n (f (s.unit n)).1).tracker n = s.tracker n := tracker_withUnit s n n _
  change LinkAt _ (((f (s.unit n)).2.foldl (takeReport n tick) (s.withUnit n (f (s.unit n)).1)).tracker n)
  cases event with
  | ran hu ran =>
    rw [linkAt_running ran.running]
    refine Tracking.takeReports ?_ ran.mild
    rw [start]
    have tracking := (linkAt_running hu).mp h
    exact { tracking with settled := fun settled =>
      ⟨(tracking.settled settled).1, ran.lastSet (tracking.settled settled).2⟩ }
  | still hu state mild =>
    obtain ⟨idle, waking⟩ := takeDetections_still (n := n) (tick := tick)
      (s := s.withUnit n (f (s.unit n)).1) mild
    rw [start] at idle waking
    rcases not_isRunning_iff.mp hu with off | quiet
    · exact (linkAt_off (state.trans off)).mpr (idle ((linkAt_off off).mp h))
    · exact (linkAt_quiet (state.trans quiet)).mpr (waking ((linkAt_quiet quiet).mp h))
  | gained quiet running reports =>
    rw [linkAt_running running, reports]
    exact takeHGained_tracking (by rw [start]; exact (linkAt_quiet quiet).mp h)
  | lost hu quiet ds mild reports =>
    rw [linkAt_quiet quiet, reports, List.foldl_append]
    refine takeHLost_quiet (Tracking.takeReports (published := (s.unit n).lastSet.isSome) ?_ ?_)
    · rw [start]; exact (linkAt_running hu).mp h
    · intro x hx
      obtain ⟨k, rfl⟩ := mild x hx
      exact trivial

/-! ### Results -/

theorem takeVerify_unbound (h : ¬ isBoundState (s.tracker n).state) (tick : Nat) (pass : Bool)
    (g : Byte) (m : MeasSet) : takeVerify n tick pass g m s = s := by
  unfold takeVerify
  dsimp only
  split
  case h_1 hs _ => exact absurd (.inl hs) h
  case h_2 hs _ => exact absurd (.inr hs) h
  case h_3 => rfl

/-- A result reaches a settled tracker alone. -/
theorem takeResult_unsettled (h : ¬ isSettledState (s.tracker n).state) (tick : Nat) (p : Pass) :
    takeResult n tick p s = s := by
  have unbound : ¬ isBoundState (s.tracker n).state := fun bound =>
    h (by rcases bound with e | e <;> simp [e, isSettledState])
  have notPending : (s.tracker n).state ≠ .pending := fun e => h (.inl e)
  unfold takeResult takeMatch takeNoMatch takeRecallFail
  split
  case h_5 => exact takeVerify_unbound unbound tick _ _ _
  case h_6 => rfl
  all_goals
    split
    · next e => exact absurd e notPending
    all_goals rfl

theorem Tracking.takeVerify (h : Tracking published (s.tracker n)) (tick : Nat) (pass : Bool)
    (g : Byte) (m : MeasSet) : Tracking published ((takeVerify n tick pass g m s).tracker n) := by
  have judged (hs : isBoundState (s.tracker n).state) (b : Binding) : Tracking published
      ((if pass then takeVerifyPass n g b s
        else if g = b.generation then takeDeviation n tick m s
        else takeEdited n tick m s).tracker n) := by
    have settled := h.settled (by rcases hs with e | e <;> simp [e, isSettledState])
    split
    · unfold takeVerifyPass
      dsimp only
      split
      · exact tracking_changeState (by simp) fun _ => by simpa using settled
      · rw [tracker_withTracker_self]
        exact ⟨h.awake, h.active, h.settled⟩
    · split
      · unfold takeDeviation
        dsimp only
        split
        · rw [tracker_setNotice, tracker_withTracker_self]
          split
          · have coasting : Tracking published ((changeState n .coasting s).tracker n) :=
              tracking_changeState (by simp) fun _ => settled
            exact ⟨coasting.awake, coasting.active, coasting.settled⟩
          · exact ⟨h.awake, h.active, h.settled⟩
        · exact tracking_settleAfresh settled.2 m
      · exact tracking_submitHeld (tracking_holdSet (by simp) (by simp) settled.2)
  unfold Machine.takeVerify
  dsimp only
  split
  case h_1 hs _ => exact judged (.inl hs) _
  case h_2 hs _ => exact judged (.inr hs) _
  case h_3 => exact h

theorem claim_tracker (i : SlotIx) (f : Nat → Nat) (m : InputIx) :
    (claim i f s).tracker m = s.tracker m := tracker_of_inputs (claim_inputs s i f) m

theorem Tracking.takeMatch (h : Tracking published (s.tracker n)) (via : Via) (m : Match) :
    Tracking published ((takeMatch n via m s).tracker n) := by
  unfold Machine.takeMatch
  split
  case h_1 hs =>
    have settled := h.settled (by simp [hs, isSettledState])
    unfold bindTo
    split
    · exact h
    · exact tracking_changeState (by simp) fun _ => by simpa [claim_tracker] using settled
  all_goals exact h

theorem Tracking.takeResult (h : Tracking published (s.tracker n)) (tick : Nat) (p : Pass) :
    Tracking published ((takeResult n tick p s).tracker n) := by
  unfold Machine.takeResult
  split
  · exact h.takeMatch _ _
  · unfold takeNoMatch
    split
    case h_1 hs =>
      exact tracking_changeState (by simp) fun _ => h.settled (by simp [hs, isSettledState])
    all_goals exact h
  · exact h.takeMatch _ _
  · unfold takeRecallFail
    split
    case h_1 =>
      refine tracking_submitHeld ?_
      rw [tracker_withTracker_self]
      exact ⟨h.awake, h.active, h.settled⟩
    all_goals exact h
  · exact h.takeVerify tick _ _ _
  · exact h

end

/-! ### Every input -/

theorem LinkLaw.of_own {s t : State} {n : InputIx} (h : LinkLaw s)
    (own : LinkAt (t.unit n) (t.tracker n))
    (others : ∀ m, m ≠ n → t.unit m = s.unit m ∧ t.tracker m = s.tracker m) : LinkLaw t := by
  rw [linkLaw_iff] at *
  intro m
  by_cases hm : m = n
  · subst hm; exact own
  · obtain ⟨unit, tracker⟩ := others m hm
    rw [unit, tracker]
    exact h m

/-- The law speaks of the units, and of state and held stable set of the trackers, alone. -/
theorem LinkLaw.of_same {s t : State} (h : LinkLaw s) (unit : ∀ n, t.unit n = s.unit n)
    (state : ∀ n, (t.tracker n).state = (s.tracker n).state)
    (held : ∀ n, (t.tracker n).held = (s.tracker n).held) : LinkLaw t := by
  rw [linkLaw_iff] at *
  intro n
  rw [unit]
  exact ⟨by rw [state]; exact (h n).off, by rw [state]; exact (h n).silent,
    by rw [state]; exact (h n).quiet, by rw [state, held]; exact (h n).settled⟩

theorem LinkLaw.of_inputs {s t : State} (h : LinkLaw s) (same : t.inputs = s.inputs) : LinkLaw t :=
  h.of_same (unit_of_inputs same) (fun n => congrArg _ (tracker_of_inputs same n))
    fun n => congrArg _ (tracker_of_inputs same n)

theorem LinkLaw.of_moves {s t : State} {n : InputIx} (h : LinkLaw s) (moves : TrackerMoves n s t)
    (own : LinkAt (s.unit n) (t.tracker n)) : LinkLaw t :=
  h.of_own (by rw [moves.frame.unit]; exact own)
    fun m hm => ⟨moves.frame.unit m, moves.frame.tracker_ne hm⟩

theorem tracker_onUnit_ne {n m : InputIx} (h : m ≠ n) (tick : Nat) (f : MeasUnit → Measured)
    (s : State) : (onUnit n tick f s).tracker m = s.tracker m :=
  ((takeReports_moves n _ tick _).frame.tracker_ne h).trans (tracker_withUnit s n m _)

theorem LinkLaw.onUnit {n : InputIx} {tick : Nat} {f : MeasUnit → Measured} {s : State}
    (h : LinkLaw s) (event : UnitEvent (s.unit n) (f (s.unit n))) :
    LinkLaw (onUnit n tick f s) :=
  h.of_own (linkAt_onUnit ((linkLaw_iff s).mp h n) event)
    fun _ hm => ⟨unit_onUnit_ne hm tick f s, tracker_onUnit_ne hm tick f s⟩

/-- Moves that leave every settled tracker settled with its set keep the law: a settled tracker has a
running unit. -/
theorem LinkLaw.of_settled {s t : State} {n : InputIx} (h : LinkLaw s) (moves : TrackerMoves n s t)
    (hs : isSettledState (s.tracker n).state)
    (own : Tracking (s.unit n).lastSet.isSome (s.tracker n) →
      Tracking (s.unit n).lastSet.isSome (t.tracker n)) : LinkLaw t := by
  have law := (linkLaw_iff s).mp h n
  have running : isRunning (s.unit n) = true := by
    by_contra stopped
    rcases not_isRunning_iff.mp (by simpa using stopped) with off | quiet
    · rw [law.off.mp off] at hs; simp [isSettledState] at hs
    · rcases law.quiet quiet with e | e <;> rw [e] at hs <;> simp [isSettledState] at hs
  exact h.of_moves moves ((linkAt_running running).mpr (own ((linkAt_running running).mp law)))

theorem LinkLaw.deliver {s : State} (h : LinkLaw s) (tick : Nat) (p : Pass) :
    LinkLaw (deliver tick p s) := by
  unfold Machine.deliver
  split
  · next n _ =>
    by_cases hs : isSettledState (s.tracker n).state
    · exact h.of_settled (takeResult_moves n s tick p) hs fun tracking => tracking.takeResult tick p
    · rw [takeResult_unsettled hs]; exact h
  · unfold takeProbeResult
    split <;> exact h.of_inputs rfl

theorem LinkLaw.completeStart {s : State} (h : LinkLaw s) (c : Completion) (p : Pass) :
    LinkLaw (completeStart c p s) := by
  unfold Machine.completeStart
  split
  · exact h.of_inputs (endPass_inputs c p s)
  · split
    · unfold restartPass
      dsimp only
      split <;> exact h.of_inputs rfl
    · exact (h.deliver c.tick p).of_inputs (endPass_inputs c p _)

/-! ### Catalog changes and input commands -/

theorem LinkLaw.retireInput {s : State} {n : InputIx} (h : LinkLaw s)
    (hs : isSettledState (s.tracker n).state) : LinkLaw (retireInput s n) := by
  refine h.of_settled (retireInput_moves n s) hs fun tracking => ?_
  have settled := tracking.settled hs
  refine tracking_changeState (by simp) fun _ => ⟨?_, settled.2⟩
  obtain ⟨same, -⟩ | ⟨b, -, eq⟩ := release_tracker_cases n .entryRetired s
  · rw [same]; exact settled.1
  · rw [eq]; exact settled.1

theorem LinkLaw.retireInputs {l : List InputIx} {s : State} (h : LinkLaw s)
    (hl : ∀ n ∈ l, isSettledState (s.tracker n).state) : LinkLaw (l.foldl Machine.retireInput s) := by
  induction l generalizing s with
  | nil => exact h
  | cons m l ih =>
    refine ih (h.retireInput (hl m List.mem_cons_self)) fun n hn => ?_
    by_cases hm : n = m
    · subst hm
      rw [Machine.retireInput, changeState_state]
      exact .inl rfl
    · rw [(retireInput_moves m s).frame.tracker_ne hm]
      exact hl n (List.mem_cons_of_mem m hn)

@[simp] theorem markRecheck_held (t : Tracker) : (markRecheck t).held = t.held := by
  unfold markRecheck; split <;> rfl

@[simp] theorem clearRecallOf_held (i : SlotIx) (t : Tracker) :
    (clearRecallOf i t).held = t.held := by
  unfold clearRecallOf; split <;> rfl

theorem LinkLaw.mapTrackers {s : State} (h : LinkLaw s) {f : Tracker → Tracker}
    (state : ∀ t, (f t).state = t.state) (held : ∀ t, (f t).held = t.held) :
    LinkLaw (mapTrackers f s) :=
  h.of_same (by simp) (by simp [state]) (by simp [held])

theorem LinkLaw.handMarks {s : State} (h : LinkLaw s) : LinkLaw (handMarks s) :=
  (h.of_inputs (t := disturbPass s) rfl).mapTrackers markRecheck_state markRecheck_held

theorem submitReleased_inputs (l : List InputIx) (s : State) :
    (submitReleased l s).inputs = s.inputs := by
  have searches : ∀ (l : List InputIx) (u : State),
      (l.foldl (fun s n => submitHeld n .search s) u).inputs = u.inputs := by
    intro l
    induction l with
    | nil => exact fun _ => rfl
    | cons n l ih => exact fun u => (ih _).trans (submitHeld_inputs u n .search)
  unfold submitReleased
  split
  · exact searches _ _
  · exact searches _ _

theorem LinkLaw.releasing {s : State} (h : LinkLaw s) {l : List InputIx}
    (hl : ∀ n ∈ l, isSettledState (s.tracker n).state) {f : Tracker → Tracker}
    (state : ∀ t, (f t).state = t.state) (held : ∀ t, (f t).held = t.held) (c : State → Catalog) :
    LinkLaw (submitReleased l (Machine.handMarks
      ((Machine.mapTrackers f (l.foldl Machine.retireInput s)).withCatalog
        (c (Machine.mapTrackers f (l.foldl Machine.retireInput s)))))) := by
  refine LinkLaw.of_inputs (s := Machine.handMarks _) (LinkLaw.handMarks ?_)
    (submitReleased_inputs l _)
  exact ((h.retireInputs hl).mapTrackers state held).of_inputs rfl

theorem linkLaw_change {a : Accepted} {run : State → Executed} (hrun : changeOf a = some run)
    {s : State} (tracker : TrackerLaw s) (h : LinkLaw s) : LinkLaw (run s).state := by
  have marked : ∀ c, LinkLaw (handMarks (s.withCatalog c)) := fun c =>
    (h.of_inputs (t := s.withCatalog c) rfl).handMarks
  have toggled : ∀ required new, LinkLaw (runToggle required new a.args s).state := by
    intro required new
    obtain same | ⟨i, -, -, eq⟩ := runToggle_cases required new a.args s
    · rw [same]; exact h
    · rw [eq]; exact marked _
  obtain ⟨image, -, rfl⟩ | rfl | rfl | rfl | rfl := changeOf_cases hrun
  · obtain same | ⟨i, -, -, -, eq⟩ := runCommit_cases a.args image s
    · rw [same]; exact h
    · rw [eq]; exact marked _
  · exact toggled _ _
  · exact toggled _ _
  · obtain same | ⟨i, -, -, eq⟩ := runRetire_cases a.args s
    · rw [same]; exact h
    · rw [eq]
      refine h.releasing (fun n hn => tracker.isSettled_of_binding ?_) (clearRecallOf_state i)
        (clearRecallOf_held i) fun s => freeSlot i s.catalog
      obtain ⟨b, hb, -⟩ := boundTo_iff.mp (mem_inputsBoundTo.mp hn)
      rw [hb]; rfl
  · exact h.releasing (f := fun t => { t with recallRef := none })
      (fun n hn => tracker.isSettled_of_binding (mem_boundInputs.mp hn)) (fun _ => rfl) (fun _ => rfl)
      fun _ => resetCatalog

theorem LinkLaw.rebindInput {n : InputIx} {s : State} (h : LinkLaw s) :
    LinkLaw (rebindInput n s).state := by
  have bound : isSettledState (s.tracker n).state → LinkLaw (rebindBound n s) := fun hs => by
    refine h.of_settled (rebindBound_moves n s) hs fun tracking => tracking_submitHeld ?_
    obtain ⟨m, hm⟩ := Option.isSome_iff_exists.mp (tracking.settled hs).2
    rw [hm]
    exact tracking_holdSet (by simp) (by simp) rfl
  unfold Machine.rebindInput
  dsimp only
  split
  case h_1 hs => exact bound (by simp [hs, isSettledState])
  case h_2 hs => exact bound (by simp [hs, isSettledState])
  case h_3 hs =>
    have settled : isSettledState (s.tracker n).state := by simp [hs, isSettledState]
    exact h.of_settled ((TrackerMoves.changeState .refl _).submitHeld _) settled fun tracking =>
      tracking_submitHeld (tracking_changeState (by simp) fun _ => tracking.settled settled)
  all_goals exact h

/-! ### Enables and resets -/

theorem LinkLaw.clearFaultInput {n : InputIx} {s : State} (h : LinkLaw s) :
    LinkLaw (clearFaultInput n s) := by
  have moves : TrackerMoves n s (changeState n .silent
      (s.withTracker n { s.tracker n with latch := noFaults })) :=
    (TrackerMoves.withTracker .refl _).changeState _
  refine h.of_own (n := n) ?_ fun m hm =>
    ⟨(unit_withUnit_ne hm _).trans (moves.frame.unit m),
      (tracker_withUnit _ n m _).trans (moves.frame.tracker_ne hm)⟩
  rw [Machine.clearFaultInput, unit_withUnit_self, tracker_withUnit]
  exact (linkAt_quiet rfl).mpr (.inl (changeState_state _ _ _))

theorem LinkLaw.enableInput {n : InputIx} {s : State} (h : LinkLaw s) :
    LinkLaw (enableInput n s) := by
  have moves := enableTracker_moves n
    (s.withConfig n { (s.input n).config with enabled := true })
  refine h.of_own (n := n) ?_ fun m hm =>
    ⟨(unit_withUnit_ne hm _).trans ((moves.frame.unit m).trans (unit_withConfig s n m _)),
      (tracker_withUnit _ n m _).trans
        ((moves.frame.tracker_ne hm).trans (tracker_withConfig s n m _))⟩
  rw [Machine.enableInput, unit_withUnit_self, tracker_withUnit]
  exact (linkAt_quiet rfl).mpr (.inl (changeState_state _ _ _))

theorem LinkLaw.disableInput {n : InputIx} {s : State} (h : LinkLaw s) :
    LinkLaw (disableInput n s) := by
  have moves := disableTracker_moves n (s.withConfig n { s.config n with enabled := false })
  refine h.of_own (n := n) ?_ fun m hm =>
    ⟨(unit_withUnit_ne hm _).trans ((moves.frame.unit m).trans (unit_withConfig s n m _)),
      (tracker_withUnit _ n m _).trans
        ((moves.frame.tracker_ne hm).trans (tracker_withConfig s n m _))⟩
  rw [Machine.disableInput, unit_withUnit_self, tracker_withUnit, disableTracker,
    tracker_withTracker_self]
  exact (linkAt_off rfl).mpr (changeState_state _ _ _)

theorem linkLaw_restartBlocks (s : State) : LinkLaw (restartBlocks s) := by
  rw [linkLaw_iff]
  intro n
  have restarted : (restartBlocks s).input n = restartedInput
      (((boundInputs s).foldl (fun s n => release n .coreRestart s) s).input n) :=
    getElem_mapVec restartedInput _ n.val n.isLt
  rw [State.unit, State.tracker, restarted]
  generalize (((boundInputs s).foldl (fun s n => release n .coreRestart s) s).input n) = x
  cases hx : x.config.enabled with
  | true =>
    refine (linkAt_quiet ?_).mpr (.inl ?_)
    · simp [restartedInput, restartUnit, seedFilters, hx]
    · simp [restartedInput, restartedTracker, hx]
  | false =>
    refine (linkAt_off ?_).mpr ?_
    · simp [restartedInput, restartUnit, seedFilters, hx]
    · simp [restartedInput, restartedTracker, hx]

theorem CoreMove.linkLaw {s t : State} (move : CoreMove s t) (tracker : TrackerLaw s)
    (h : LinkLaw s) : LinkLaw t := by
  cases move with
  | same hst => exact h.of_inputs hst.2.2
  | pinMoved n pin level => exact h.of_same (by simp) (by simp) (by simp)
  | accepted n pin order tick => exact h.onUnit (unitEvent_acceptTransition order pin _)
  | changed n pin order level t window tick =>
    exact h.onUnit (unitEvent_pinChange order pin level t window _)
  | gainTimeout n tick hq => exact h.onUnit (.quietly rfl rfl)
  | hLost n tick hr => exact h.onUnit (unitEvent_loseHorizontal hr)
  | completed c p => exact h.completeStart c p
  | change a run hrun => exact linkLaw_change hrun tracker h
  | probeWithdrawn =>
    refine h.of_inputs ?_
    unfold withdrawProbe
    split <;> rfl
  | probeSubmitted args => exact h.of_inputs (submit_inputs s _ _)
  | rebound args =>
    unfold runRebind
    split
    · exact h
    · exact h.rebindInput
  | faultCleared args =>
    unfold runClearFault
    split
    · exact h
    · split
      · exact h.clearFaultInput
      · exact h
  | restarted => exact linkLaw_restartBlocks s
  | enabled n _ => exact h.enableInput
  | disabled n _ => exact h.disableInput
  | settleCoast n value =>
    refine h.of_same (by simp [writeSettleCoast]) (fun m => ?_) fun m => ?_
    all_goals
      by_cases hm : m = n
      · subst hm; simp [writeSettleCoast]
      · simp [writeSettleCoast, State.tracker, input_withTracker, input_withConfig, hm]
  | glitch n value =>
    exact h.of_same (by simp [writeGlitch]) (by simp [writeGlitch]) (by simp [writeGlitch])
  | faultEnables n value =>
    exact h.of_same (by simp [writeFaultEnables]) (by simp [writeFaultEnables])
      (by simp [writeFaultEnables])
  | examined | arbitrated => exact h.of_inputs rfl

theorem linkLaw_powerOnReset (adr : Level) (s : State) : LinkLaw (powerOnReset adr s) := by
  rw [linkLaw_iff]
  intro n
  rw [powerOnReset_unit, powerOnReset_tracker]
  exact (linkAt_off rfl).mpr rfl

/-! ### The obligation -/

/-- Settles O9: a unit reports the gain and the loss of horizontal activity exactly where it starts and
stops running, and its tracker leaves and enters SILENT at those reports. -/
theorem stepKeepsLinkLaw : Obligations.StepKeepsLinkLaw := by
  intro s t tracker _ link hstep
  have both : TrackerLaw t ∧ LinkLaw t :=
    step_keeps (P := fun s => TrackerLaw s ∧ LinkLaw s)
      (fun adr s _ => ⟨trackerLaw_powerOnReset adr s, linkLaw_powerOnReset adr s⟩)
      (fun _ _ move h => ⟨move.trackerLaw h.1, move.linkLaw h.1 h.2⟩) ⟨tracker, link⟩ hstep
  exact both.2

end Sys2Proof.Machine
end

