-- ==== Sys2Proof/Proofs/Bindings.lean ====
section
/-! Bindings, recall references and bind counts, with what the pass in flight has found: what each
operation makes of their law, and the obligation that every step keeps it. -/

namespace Sys2Proof.Machine

/-! ### The law by its parts -/

/-- Bindings and recall references name slots that are not FREE, and every bind_count is true (R16, R22,
R138). -/
structure Claims (s : State) : Prop where
  binding : ∀ n b, (s.tracker n).binding = some b →
    (s.slot b.slot).state ≠ .free ∧ b.candidates.head? = some b.slot
  reference : ∀ n r, (s.tracker n).recallRef = some r → (s.slot r.slot).state ≠ .free
  count : ∀ i, (s.slot i).bindCount = (inputsBoundTo i s).length

theorem bindingLaw_iff (s : State) : BindingLaw s ↔ Claims s ∧ FoundActive s :=
  ⟨fun ⟨binding, reference, count, found⟩ => ⟨⟨binding, reference, count⟩, found⟩,
    fun ⟨claims, found⟩ => ⟨claims.binding, claims.reference, claims.count, found⟩⟩

theorem length_inputsBoundTo (i : SlotIx) (s : State) :
    (inputsBoundTo i s).length = allInputs.countP fun n => boundTo (s.tracker n) i :=
  List.countP_eq_length_filter.symm

theorem nodup_allInputs : allInputs.Nodup := by decide

/-- A slot that no input is bound to. -/
theorem inputsBoundTo_eq_nil {i : SlotIx} {s : State} (h : ∀ n, boundTo (s.tracker n) i = false) :
    inputsBoundTo i s = [] :=
  List.filter_eq_nil_iff.mpr fun n _ => by simp [h n]

/-- One input's binding changes, and the bind counts with it. -/
theorem Claims.of_own {n : InputIx} {s t : State} (h : Claims s)
    (others : ∀ m, m ≠ n → t.tracker m = s.tracker m)
    (slots : ∀ i, (t.slot i).state = (s.slot i).state)
    (binding : ∀ b, (t.tracker n).binding = some b →
      (s.slot b.slot).state ≠ .free ∧ b.candidates.head? = some b.slot)
    (reference : ∀ r, (t.tracker n).recallRef = some r → (s.slot r.slot).state ≠ .free)
    (count : ∀ i, (t.slot i).bindCount + (boundTo (s.tracker n) i).toNat
      = (s.slot i).bindCount + (boundTo (t.tracker n) i).toNat) : Claims t where
  binding m b hb := by
    rw [slots]
    by_cases hm : m = n
    · subst hm; exact binding b hb
    · rw [others m hm] at hb; exact h.binding m b hb
  reference m r hr := by
    rw [slots]
    by_cases hm : m = n
    · subst hm; exact reference r hr
    · rw [others m hm] at hr; exact h.reference m r hr
  count i := by
    have step := countP_of_agree_off (p := fun m => boundTo (s.tracker m) i)
      (q := fun m => boundTo (t.tracker m) i) nodup_allInputs (mem_allInputs n)
      fun m hm => by rw [others m hm]
    have before := h.count i
    have counted := count i
    rw [length_inputsBoundTo] at before ⊢
    omega

theorem boundTo_congr {x y : Tracker} (h : x.binding = y.binding) (i : SlotIx) :
    boundTo x i = boundTo y i := by
  unfold boundTo
  rw [h]

/-- An operation that keeps the binding and at most clears the recall reference. -/
theorem Claims.of_kept {n : InputIx} {s t : State} (h : Claims s) (moves : TrackerMoves n s t)
    (catalog : t.catalog = s.catalog) (binding : (t.tracker n).binding = (s.tracker n).binding)
    (reference : (t.tracker n).recallRef = (s.tracker n).recallRef
      ∨ (t.tracker n).recallRef = none) : Claims t := by
  refine h.of_own (fun _ hm => moves.frame.tracker_ne hm)
    (fun i => by rw [slot_of_catalog catalog]) (fun b hb => h.binding n b (binding ▸ hb))
    (fun r hr => ?_) fun i => by rw [slot_of_catalog catalog, boundTo_congr binding]
  rcases reference with same | gone
  · exact h.reference n r (same ▸ hr)
  · rw [gone] at hr; exact nomatch hr

theorem Claims.of_same {s t : State} (h : Claims s) (catalog : t.catalog = s.catalog)
    (tracker : ∀ n, (t.tracker n).binding = (s.tracker n).binding
      ∧ (t.tracker n).recallRef = (s.tracker n).recallRef) : Claims t where
  binding n b hb := by
    rw [slot_of_catalog catalog]; exact h.binding n b ((tracker n).1 ▸ hb)
  reference n r hr := by
    rw [slot_of_catalog catalog]; exact h.reference n r ((tracker n).2 ▸ hr)
  count i := by
    rw [slot_of_catalog catalog, h.count i, length_inputsBoundTo, length_inputsBoundTo]
    exact List.countP_congr fun n _ => by rw [boundTo_congr (tracker n).1]

theorem Claims.of_inputs {s t : State} (h : Claims s) (catalog : t.catalog = s.catalog)
    (inputs : t.inputs = s.inputs) : Claims t :=
  h.of_same catalog fun n => by rw [tracker_of_inputs inputs]; exact ⟨rfl, rfl⟩

/-! ### The parts of an operation -/

section
variable {n : InputIx} {s : State}

theorem Claims.withTracker (h : Claims s) {x : Tracker}
    (binding : x.binding = (s.tracker n).binding)
    (reference : x.recallRef = (s.tracker n).recallRef ∨ x.recallRef = none) :
    Claims (s.withTracker n x) :=
  h.of_kept (.withTracker .refl x) rfl (by rw [tracker_withTracker_self]; exact binding)
    (by rw [tracker_withTracker_self]; exact reference)

theorem Claims.setNotice (h : Claims s) (k : InputNotice) : Claims (s.setNotice n k) :=
  h.of_inputs rfl rfl

theorem Claims.changeState (h : Claims s) (new : TrackerState) : Claims (changeState n new s) :=
  h.of_kept (.changeState .refl new) (by simp) (by rw [changeState_tracker_self]; rfl)
    (.inl (by rw [changeState_tracker_self]; rfl))

theorem Claims.holdSet (h : Claims s) (m : Option MeasSet) : Claims (holdSet n m s) :=
  h.withTracker rfl (.inl rfl)

theorem Claims.submit (h : Claims s) (r : Requester) (q : Request) : Claims (submit r q s) :=
  h.of_inputs (submit_catalog s r q) (submit_inputs s r q)

theorem Claims.submitAt (h : Claims s) (r : Requester) (q : Request) (tick : Nat) :
    Claims (submitAt r q tick s) := by
  unfold Machine.submitAt
  split
  · exact h.submit r q
  · split
    · exact h.of_inputs rfl rfl
    · exact h.submit r q

theorem Claims.submitHeld (h : Claims s) (k : PassKind) : Claims (submitHeld n k s) :=
  h.of_inputs (submitHeld_catalog s n k) (submitHeld_inputs s n k)

theorem boundTo_some {x : Tracker} {b : Binding} (h : x.binding = some b) (i : SlotIx) :
    boundTo x i = (b.slot == i) := by
  unfold boundTo
  rw [h]

theorem boundTo_none {x : Tracker} (h : x.binding = none) (i : SlotIx) : boundTo x i = false := by
  unfold boundTo
  rw [h]

theorem slot_claim (i j : SlotIx) (f : Nat → Nat) :
    (claim i f s).slot j = if j = i then { s.slot i with bindCount := f (s.slot i).bindCount }
      else s.slot j := slot_withSlot s i j _

theorem Claims.bindCount_pos (h : Claims s) {b : Binding}
    (hb : (s.tracker n).binding = some b) : 0 < (s.slot b.slot).bindCount := by
  rw [h.count]
  exact List.length_pos_of_mem (mem_inputsBoundTo.mpr (boundTo_iff.mpr ⟨b, hb, rfl⟩))

/-- A release takes its claim away and leaves a reference to a slot that is not FREE (R146). -/
theorem Claims.release (h : Claims s) (reason : Reason) : Claims (release n reason s) := by
  have moves : TrackerMoves n s (Machine.release n reason s) := .release .refl reason
  obtain ⟨-, unbound⟩ | ⟨b, hb, eq⟩ := release_tracker_cases n reason s
  · rw [release_none s unbound]; exact h
  · have slot (i : SlotIx) : (Machine.release n reason s).slot i
        = (claim b.slot (· - 1) s).slot i := slot_of_catalog (release_catalog s reason hb) i
    refine h.of_own (fun _ hm => moves.frame.tracker_ne hm) moves.frame.slot_state
      (fun b' hb' => ?_) (fun r hr => ?_) fun i => ?_
    · rw [release_binding] at hb'; exact nomatch hb'
    · rw [eq] at hr
      have named : r.slot = b.slot := by
        simp only [releasedTracker, recallAfter] at hr
        cases reason <;> simp only [Option.some.injEq, reduceCtorEq] at hr <;> rw [← hr]
      rw [named]; exact (h.binding n b hb).1
    · rw [slot, slot_claim, boundTo_none (release_binding n reason s), boundTo_some hb]
      split
      · next hi =>
        subst hi
        have pos := h.bindCount_pos hb
        simp only [beq_self_eq_true, Bool.toNat_true, Bool.toNat_false]
        omega
      · next hi => simp [Ne.symm hi]

/-- A binding made from an unbound tracker adds its claim to a slot that is not FREE (R139). -/
theorem Claims.bindTo (h : Claims s) (unbound : (s.tracker n).binding = none) {via : Via}
    {m : Match} (found : ∀ i ∈ m.candidates, (s.slot i).state ≠ .free) :
    Claims (bindTo n via m s) := by
  have moves : TrackerMoves n s (Machine.bindTo n via m s) := .bindTo .refl via m
  unfold Machine.bindTo at moves ⊢
  split
  · exact h
  · next i rest hm =>
    rw [hm] at moves
    have bound : ((Machine.changeState n .bound ((claim i (· + 1) s).withTracker n
        { (claim i (· + 1) s).tracker n with
          binding := some (bindingOf via i m), recallRef := none })).tracker n)
        = changedTracker .bound
          { (claim i (· + 1) s).tracker n with
            binding := some (bindingOf via i m), recallRef := none } := by
      rw [changeState_tracker_self, tracker_withTracker_self]
    have slot (j : SlotIx) : ((Machine.changeState n .bound ((claim i (· + 1) s).withTracker n
        { (claim i (· + 1) s).tracker n with
          binding := some (bindingOf via i m), recallRef := none })).setNotice n .bound).slot j
        = (claim i (· + 1) s).slot j := by
      rw [slot_setNotice, slot_of_catalog (changeState_catalog _ n .bound) j, slot_withTracker]
    refine h.of_own (fun _ hm => moves.frame.tracker_ne hm) moves.frame.slot_state
      (fun b hb => ?_) (fun r hr => ?_) fun j => ?_
    · rw [tracker_setNotice, bound] at hb
      cases hb
      exact ⟨found i (by rw [hm]; exact List.mem_cons_self), by simp [bindingOf, hm]⟩
    · rw [tracker_setNotice, bound] at hr
      exact nomatch hr
    · rw [slot, tracker_setNotice, bound, slot_claim, boundTo_none unbound,
        boundTo_some (b := bindingOf via i m) rfl]
      split
      · next hj => subst hj; simp [bindingOf]
      · next hj => simp [bindingOf, Ne.symm hj]

theorem Claims.settleWith (h : Claims s) (c : Nat) (m : MeasSet) : Claims (settleWith n c m s) := by
  have counted : Claims (s.withTracker n { s.tracker n with settleCounter := c, settleRef := some m }) :=
    h.withTracker rfl (.inl rfl)
  unfold Machine.settleWith completeSettling
  dsimp only
  split
  · split
    · exact ((counted.changeState .pending).holdSet _).submitHeld _
    · exact ((counted.changeState .pending).holdSet _).submitHeld _
  · exact counted

theorem Claims.settleAfresh (h : Claims s) (m : MeasSet) : Claims (settleAfresh n m s) :=
  (h.changeState _).settleWith 1 m

theorem Claims.releaseByResult (h : Claims s) (reason : Reason) (tick : Nat) :
    Claims (releaseByResult n reason tick s) := (h.release reason).withTracker rfl (.inl rfl)

/-! ### Reports and results -/

theorem Claims.takeSet (h : Claims s) (tick : Nat) (m : MeasSet) : Claims (takeSet n tick m s) := by
  unfold Machine.takeSet
  dsimp only
  split
  case h_1 => exact h.settleWith _ _
  case h_2 =>
    split
    · exact h
    · exact h.settleAfresh _
  case h_3 | h_4 => exact h.submitAt _ _ _
  case h_5 =>
    split
    · split
      · exact (h.changeState _).submitHeld _
      · exact h
    · exact h.settleAfresh _
  all_goals exact h

theorem Claims.takeDetection (h : Claims s) (k : FaultKind) (tick : Nat) :
    Claims (takeDetection n k tick s) := by
  have latched : Claims (addToLatch n k s) := h.withTracker rfl (.inl rfl)
  have named : Claims (releaseForFault n tick (addToLatch n k s)) :=
    (latched.release .fault).withTracker (by simp) (.inl (by simp))
  unfold Machine.takeDetection latchFault
  split
  · split
    case h_1 => exact h
    case h_2 => exact latched.setNotice _
    all_goals exact (named.changeState _).setNotice _
  · exact h

theorem Claims.takeReport (h : Claims s) (tick : Nat) (r : Report) :
    Claims (takeReport n tick s r) := by
  cases r with
  | hGained =>
    unfold Machine.takeReport takeHGained
    dsimp only
    split
    case h_1 => exact (h.changeState _).setNotice _
    all_goals exact h
  | hLost =>
    unfold Machine.takeReport takeHLost
    dsimp only
    split
    case h_6 | h_7 | h_8 => exact h
    all_goals exact (h.release _).changeState _
  | vLost =>
    unfold Machine.takeReport takeVLost
    dsimp only
    split
    case h_1 => exact h.withTracker rfl (.inl rfl)
    case h_6 | h_7 | h_8 => exact h
    all_goals exact (h.release _).changeState _
  | published m => exact h.takeSet tick m
  | detected k => exact h.takeDetection k tick

theorem Claims.takeReports (h : Claims s) (tick : Nat) (rs : List Report) :
    Claims (rs.foldl (Machine.takeReport n tick) s) := by
  induction rs generalizing s with
  | nil => exact h
  | cons r rs ih => exact ih (h.takeReport tick r)

theorem Claims.takeMatch (h : Claims s) (tracker : TrackerLawAt n s) {via : Via} {m : Match}
    (found : ∀ i ∈ m.candidates, (s.slot i).state ≠ .free) : Claims (takeMatch n via m s) := by
  unfold Machine.takeMatch
  split
  case h_1 hs =>
    exact h.bindTo (((trackerLawAt_iff n s).mp tracker).unbound (by simp [hs, isBoundState])) found
  all_goals exact h

/-- A passed verify rewrites the generation of the binding it was made for. -/
theorem Claims.takeVerifyPass (h : Claims s) {b : Binding} (hb : (s.tracker n).binding = some b)
    (g : Byte) : Claims (takeVerifyPass n g b s) := by
  have judged : Claims
      (s.withTracker n { s.tracker n with binding := some { b with generation := g } }) := by
    have moves : TrackerMoves n s
        (s.withTracker n { s.tracker n with binding := some { b with generation := g } }) :=
      .withTracker .refl _
    refine h.of_own (fun _ hm => moves.frame.tracker_ne hm) (fun _ => rfl) (fun b' hb' => ?_)
      (fun r hr => ?_) fun i => ?_
    · rw [tracker_withTracker_self] at hb'
      cases hb'
      exact h.binding n b hb
    · rw [tracker_withTracker_self] at hr
      exact h.reference n r hr
    · rw [tracker_withTracker_self, boundTo_some hb,
        boundTo_some (b := { b with generation := g }) rfl]
      rfl
  unfold Machine.takeVerifyPass
  dsimp only
  split
  · exact judged.changeState _
  · exact judged

theorem Claims.takeDeviation (h : Claims s) (tick : Nat) (m : MeasSet) :
    Claims (takeDeviation n tick m s) := by
  unfold Machine.takeDeviation
  dsimp only
  split
  · have coasting : Claims (if (s.tracker n).state = .bound then Machine.changeState n .coasting s
        else s) := by
      split
      · exact h.changeState _
      · exact h
    exact (coasting.withTracker (n := n)
      (x := { State.tracker _ n with coast := (s.tracker n).coast + 1 }) rfl
      (.inl rfl)).setNotice _
  · exact (h.releaseByResult _ _).settleAfresh _

theorem Claims.takeVerify (h : Claims s) (tick : Nat) (pass : Bool) (g : Byte) (m : MeasSet) :
    Claims (takeVerify n tick pass g m s) := by
  have judged (b : Binding) (hb : (s.tracker n).binding = some b) : Claims
      (if pass then Machine.takeVerifyPass n g b s
        else if g = b.generation then Machine.takeDeviation n tick m s
        else takeEdited n tick m s) := by
    split
    · exact h.takeVerifyPass hb g
    · split
      · exact h.takeDeviation tick m
      · exact (((h.releaseByResult _ _).changeState _).holdSet _).submitHeld _
  unfold Machine.takeVerify
  dsimp only
  split
  case h_1 hb => exact judged _ hb
  case h_2 hb => exact judged _ hb
  case h_3 => exact h

/-- What the result of a pass names as found. -/
def resultFound : PassResult → List SlotIx
  | .matched m | .recalled m => m.candidates
  | .noMatch | .bound _ _ | .recallFailed => []

theorem Claims.takeResult (h : Claims s) (tracker : TrackerLawAt n s) (tick : Nat) {p : Pass}
    (found : ∀ i ∈ resultFound (passResult p), (s.slot i).state ≠ .free) :
    Claims (takeResult n tick p s) := by
  unfold Machine.takeResult
  split
  case h_1 eq => exact h.takeMatch tracker (by rw [eq] at found; exact found)
  case h_2 =>
    unfold takeNoMatch
    split
    case h_1 => exact (h.changeState _).setNotice _
    all_goals exact h
  case h_3 eq => exact h.takeMatch tracker (by rw [eq] at found; exact found)
  case h_4 =>
    unfold takeRecallFail
    split
    case h_1 =>
      exact (h.withTracker (n := n) (x := { s.tracker n with recallRef := none }) rfl
        (.inr rfl)).submitHeld _
    all_goals exact h
  case h_5 => exact h.takeVerify tick _ _ _
  case h_6 => exact h

end

/-! ### What the pass in flight has found -/

/-- What a pass has found, as its tally and its verdict keep it. -/
def passFound (p : Pass) : List SlotIx :=
  (p.tally.getD emptyTally).candidates.map Candidate.slot
    ++ match p.verdict with
      | some (.recallPass i _) => [i]
      | _ => []

theorem foundActive_iff (s : State) :
    FoundActive s ↔ ∀ p, s.classifier.pass = some p → p.disturbed = false →
      ∀ i ∈ passFound p, (s.slot i).state = .active := by
  refine forall_congr' fun p => forall_congr' fun _ => forall_congr' fun _ => ?_
  constructor
  · rintro ⟨searched, recalled⟩ i hi
    rcases List.mem_append.mp hi with hi | hi
    · obtain ⟨c, hc, rfl⟩ := List.mem_map.mp hi
      cases ht : p.tally with
      | none => simp [ht, emptyTally] at hc
      | some t => rw [ht] at hc; exact searched t ht c hc
    · split at hi
      · next j g hv => rw [List.mem_singleton.mp hi]; exact recalled j g hv
      · exact absurd hi List.not_mem_nil
  · intro found
    refine ⟨fun t ht c hc => found c.slot (List.mem_append_left _ ?_), fun i g hv =>
      found i (List.mem_append_right _ ?_)⟩
    · rw [ht]; exact List.mem_map_of_mem hc
    · rw [hv]; exact List.mem_singleton_self i

/-- What a result names has been found by its pass. -/
theorem resultFound_subset {p : Pass} {i : SlotIx} (h : i ∈ resultFound (passResult p)) :
    i ∈ passFound p := by
  have verdict : ∀ k, i ∈ resultFound (verdictResult k p.verdict) → i ∈ passFound p := by
    intro k hk
    unfold verdictResult at hk
    split at hk
    · exact absurd hk List.not_mem_nil
    · next j g hv =>
      refine List.mem_append_right _ ?_
      rw [hv]; exact hk
    · exact absurd hk List.not_mem_nil
    · split at hk <;> exact absurd hk List.not_mem_nil
  unfold passResult at h
  split at h
  · unfold searchResult at h
    split at h
    · exact absurd h List.not_mem_nil
    · exact List.mem_append_left _ h
  · exact verdict _ h
  · exact verdict _ h

theorem passFound_fresh {p : Pass} (tally : (p.tally.getD emptyTally).candidates = [])
    (verdict : p.verdict = none) : passFound p = [] := by
  unfold passFound
  rw [tally, verdict]
  rfl

theorem passFound_grantedPass (r : Requester) (q : Request) : passFound (grantedPass r q) = [] := by
  refine passFound_fresh ?_ rfl
  unfold grantedPass
  cases q.kind <;> rfl

theorem passFound_restartedPass (p : Pass) : passFound (restartedPass p) = [] := by
  refine passFound_fresh ?_ rfl
  unfold restartedPass
  cases p.tally <;> rfl

/-- The law speaks of the pass in flight and the states of the slots alone. -/
theorem FoundActive.of_same {s t : State} (h : FoundActive s)
    (pass : t.classifier.pass = s.classifier.pass)
    (slots : ∀ i, (t.slot i).state = (s.slot i).state) : FoundActive t := by
  rw [foundActive_iff] at *
  intro p hp hd i hi
  rw [slots]
  exact h p (pass ▸ hp) hd i hi

/-- With a pass that has found nothing, or a disturbed one, or none. -/
theorem foundActive_of_pass {s : State} (h : ∀ p, s.classifier.pass = some p →
    p.disturbed = true ∨ passFound p = []) : FoundActive s := by
  rw [foundActive_iff]
  intro p hp hd i hi
  rcases h p hp with disturbed | fresh
  · rw [hd] at disturbed; exact nomatch disturbed
  · rw [fresh] at hi; exact absurd hi List.not_mem_nil

theorem FoundActive.arbitrate {s : State} (h : FoundActive s) : FoundActive (arbitrate s) := by
  obtain same | ⟨r, q, -, -, -, eq⟩ := arbitrateClassifier_cases s.classifier
  · rw [Machine.arbitrate, same]; exact h
  · refine foundActive_of_pass fun p hp => .inr ?_
    rw [arbitrate_classifier, eq] at hp
    cases hp
    exact passFound_grantedPass r q

theorem TrackerMove.foundActive {n : InputIx} {s t : State} (move : TrackerMove n s t)
    (h : FoundActive s) : FoundActive t := by
  cases move with
  | tracker | request | notice => exact h.of_same rfl fun _ => rfl
  | claim i f =>
    refine h.of_same rfl fun j => ?_
    rw [slot_claim]
    split
    · next e => rw [e]
    · rfl
  | arbitrated => exact h.arbitrate
  | replaced q tick p =>
    refine foundActive_of_pass fun p' hp' => .inr ?_
    cases hp'
    exact passFound_grantedPass (inputRequester n) q

theorem TrackerMoves.foundActive {n : InputIx} {s t : State} (moves : TrackerMoves n s t)
    (h : FoundActive s) : FoundActive t := by
  induction moves with
  | refl => exact h
  | tail _ last ih => exact last.foundActive ih

/-! ### Examinations -/

theorem mem_placeCandidate {c d : Candidate} {l : List Candidate} :
    d ∈ placeCandidate c l ↔ d = c ∨ d ∈ l := by
  induction l with
  | nil => simp [placeCandidate]
  | cons e l ih =>
    unfold placeCandidate
    split
    · simp only [List.mem_cons, ih]; tauto
    · simp only [List.mem_cons]

/-- An examined slot becomes a candidate only while it is ACTIVE (R32). -/
theorem tallySlot_candidates {i : SlotIx} {x : Slot} {m : SyncSet} {t : Tally} {c : Candidate}
    (h : c ∈ (tallySlot i x m t).candidates) : c ∈ t.candidates ∨ c.slot = i ∧ x.state = .active := by
  unfold tallySlot at h
  split at h
  · next fit =>
    simp only [Bool.and_eq_true, decide_eq_true_eq] at fit
    rcases mem_placeCandidate.mp (List.mem_of_mem_take h) with rfl | hc
    · exact .inr ⟨rfl, fit.1⟩
    · exact .inl hc
  · exact .inl h

theorem examineRecall_pass {s : State} {r : Option Recall} {m : SyncSet} {i : SlotIx} {g : Byte}
    (h : examineRecall s r m = .recallPass i g) : (s.slot i).state = .active := by
  unfold examineRecall at h
  split at h
  · exact nomatch h
  · dsimp only at h
    split at h
    · next r fit =>
      simp only [Bool.and_eq_true, decide_eq_true_eq] at fit
      obtain ⟨⟨active, -⟩, -⟩ := fit
      cases h
      exact active
    · exact nomatch h

/-- An examination finds ACTIVE slots alone. -/
theorem passFound_examineStep {s : State} {p : Pass} {i : SlotIx}
    (h : i ∈ passFound (examineStep s p)) : i ∈ passFound p ∨ (s.slot i).state = .active := by
  have verify : ∀ x, i ∈ passFound { p with position := p.position + 1, verdict := x } →
      x = examineVerify s p → i ∈ passFound p ∨ (s.slot i).state = .active := by
    intro x hx eq
    rcases List.mem_append.mp hx with hx | hx
    · exact .inl (List.mem_append_left _ hx)
    · dsimp only at hx
      split at hx
      · next j g =>
        rw [List.mem_singleton.mp hx]
        unfold examineVerify at eq
        split at eq
        · simp only [examineBound, Option.some.injEq] at eq
          split at eq <;> exact nomatch eq
        · exact .inr (examineRecall_pass (Option.some.inj eq).symm)
        · refine .inl (List.mem_append_right _ ?_)
          rw [← eq]; exact List.mem_singleton_self _
      · exact absurd hx List.not_mem_nil
  unfold examineStep at h
  split at h
  · split at h
    · next hpos =>
      dsimp only at h
      rcases List.mem_append.mp h with h | h
      · obtain ⟨c, hc, rfl⟩ := List.mem_map.mp h
        cases ht : p.tally with
        | none => simp [ht, emptyTally] at hc
        | some t =>
          rw [ht] at hc
          rcases tallySlot_candidates hc with old | ⟨named, active⟩
          · refine .inl (List.mem_append_left _ ?_)
            rw [ht]; exact List.mem_map_of_mem old
          · rw [named]; exact .inr active
      · exact .inl (List.mem_append_right _ h)
    · exact .inl h
  · exact verify _ h rfl
  · exact verify _ h rfl

/-! ### Events of a unit, examinations and completions -/

theorem BindingLaw.of_same {s t : State} (h : BindingLaw s) (catalog : t.catalog = s.catalog)
    (inputs : t.inputs = s.inputs) (pass : t.classifier.pass = s.classifier.pass) :
    BindingLaw t := by
  rw [bindingLaw_iff] at *
  exact ⟨h.1.of_inputs catalog inputs, h.2.of_same pass fun i => by rw [slot_of_catalog catalog]⟩

theorem BindingLaw.arbitrate {s : State} (h : BindingLaw s) : BindingLaw (arbitrate s) := by
  rw [bindingLaw_iff] at *
  exact ⟨h.1.of_inputs rfl rfl, h.2.arbitrate⟩

theorem BindingLaw.of_moves {n : InputIx} {s t : State} (h : BindingLaw s)
    (moves : TrackerMoves n s t) (claims : Claims s → Claims t) : BindingLaw t := by
  rw [bindingLaw_iff] at *
  exact ⟨claims h.1, moves.foundActive h.2⟩

theorem BindingLaw.onUnit {n : InputIx} {s : State} (h : BindingLaw s) (tick : Nat)
    (f : MeasUnit → Measured) : BindingLaw (onUnit n tick f s) := by
  rw [bindingLaw_iff] at *
  have start : Claims (s.withUnit n (f (s.unit n)).1) := h.1.of_same rfl fun m => by simp
  exact ⟨start.takeReports tick _, (takeReports_moves n _ tick _).foundActive
    (h.2.of_same rfl fun _ => rfl)⟩

theorem BindingLaw.endPass {s : State} (claims : Claims s) (c : Completion) (p : Pass) :
    BindingLaw (endPass c p s) := by
  have ended : BindingLaw (clearPass c.tick p s) :=
    (bindingLaw_iff _).mpr ⟨claims.of_inputs rfl rfl, foundActive_of_pass fun _ hp => nomatch hp⟩
  unfold Machine.endPass
  dsimp only
  split
  · exact ended
  · exact ended.arbitrate

theorem BindingLaw.completeStart {s : State} (h : BindingLaw s) (tracker : TrackerLaw s)
    (c : Completion) {p : Pass} (hp : s.classifier.pass = some p) :
    BindingLaw (completeStart c p s) := by
  obtain ⟨claims, found⟩ := (bindingLaw_iff s).mp h
  unfold Machine.completeStart
  split
  · exact .endPass claims c p
  · split
    · have restarted : BindingLaw (s.withPass (some (restartedPass p))) :=
        (bindingLaw_iff _).mpr ⟨claims.of_inputs rfl rfl, foundActive_of_pass fun p' hp' =>
          .inr (by cases hp'; exact passFound_restartedPass p)⟩
      unfold restartPass
      dsimp only
      split
      · exact restarted.of_same rfl rfl rfl
      · exact restarted
    · next undisturbed =>
      refine .endPass ?_ c p
      unfold deliver
      split
      · next n _ =>
        refine claims.takeResult (tracker n) c.tick fun i hi => ?_
        rw [(foundActive_iff s).mp found p hp (by simpa using undisturbed) i (resultFound_subset hi)]
        simp
      · unfold takeProbeResult
        split <;> exact claims.of_inputs rfl rfl

/-! ### Catalog changes -/

/-- A change hands its disturbed mark to the pass, whose findings are void then (R59). -/
theorem foundActive_handMarks (s : State) : FoundActive (handMarks s) := by
  refine foundActive_of_pass fun p hp => .inl ?_
  have pass : (handMarks s).classifier.pass
      = s.classifier.pass.map fun p => { p with disturbed := true } := rfl
  rw [pass] at hp
  obtain ⟨p', -, rfl⟩ := Option.map_eq_some_iff.mp hp
  rfl

theorem Claims.handMarks {s : State} (h : Claims s) : Claims (handMarks s) := by
  refine h.of_same (by simp) fun n => ?_
  rw [handMarks_tracker]
  unfold markRecheck
  split <;> exact ⟨rfl, rfl⟩

theorem bindingLaw_handMarks {s : State} (h : Claims s) : BindingLaw (handMarks s) :=
  (bindingLaw_iff _).mpr ⟨h.handMarks, foundActive_handMarks s⟩

/-- A slot that is written anew, not FREE afterwards, with the bind count that its inputs give it. -/
theorem Claims.withSlot {s t : State} {i : SlotIx} (h : Claims s) (inputs : t.inputs = s.inputs)
    (others : ∀ j, j ≠ i → t.slot j = s.slot j) (state : (t.slot i).state ≠ .free)
    (count : (t.slot i).bindCount = (s.slot i).bindCount) : Claims t := by
  have kept (j : SlotIx) : (s.slot j).state ≠ .free → (t.slot j).state ≠ .free := by
    intro hj
    by_cases e : j = i
    · subst e; exact state
    · rw [others j e]; exact hj
  refine ⟨fun n b hb => ?_, fun n r hr => ?_, fun j => ?_⟩
  · rw [tracker_of_inputs inputs] at hb
    exact ⟨kept _ (h.binding n b hb).1, (h.binding n b hb).2⟩
  · rw [tracker_of_inputs inputs] at hr
    exact kept _ (h.reference n r hr)
  · have same : (t.slot j).bindCount = (s.slot j).bindCount := by
      by_cases e : j = i
      · subst e; exact count
      · rw [others j e]
    rw [same, h.count j, length_inputsBoundTo, length_inputsBoundTo]
    exact List.countP_congr fun n _ => by rw [tracker_of_inputs inputs]

/-- No input is bound to a FREE slot, so its bind count is 0. -/
theorem Claims.bindCount_of_free (h : Claims s) {i : SlotIx} (free : (s.slot i).state = .free) :
    (s.slot i).bindCount = 0 := by
  rw [h.count, inputsBoundTo_eq_nil fun n => ?_]
  · rfl
  · by_contra bound
    obtain ⟨b, hb, rfl⟩ := boundTo_iff.mp (by simpa using bound)
    exact (h.binding n b hb).1 free

theorem Claims.installEntry {s : State} (h : Claims s) (i : SlotIx) (e : Entry) :
    Claims (s.withCatalog (installEntry i e s.catalog)) := by
  have slot := slot_installEntry s i
  refine h.withSlot (i := i) rfl (fun j hj => by rw [slot, if_neg hj]) ?_ ?_
  · rw [slot, if_pos rfl]; exact installedSlot_state_ne_free e _
  · rw [slot, if_pos rfl]
    unfold installedSlot
    cases hs : (s.slot i).state with
    | free => exact (h.bindCount_of_free hs).symm
    | active => rfl
    | suspended => rfl

theorem Claims.toggled {s : State} (h : Claims s) (i : SlotIx) {new : SlotState}
    (hn : new ≠ .free) : Claims (s.withSlot i { s.slot i with state := new }) :=
  h.withSlot (i := i) rfl (fun j hj => by rw [slot_withSlot, if_neg hj])
    (by rw [slot_withSlot, if_pos rfl]; exact hn) (by rw [slot_withSlot, if_pos rfl])

theorem Claims.retireInput {s : State} (h : Claims s) (n : InputIx) : Claims (retireInput s n) :=
  (h.release _).changeState _

@[simp] theorem changeState_binding (n : InputIx) (new : TrackerState) (s : State) :
    ((changeState n new s).tracker n).binding = (s.tracker n).binding := by
  rw [changeState_tracker_self]; rfl

/-- The releases of a change leave its inputs unbound and every other binding as it was. -/
theorem Claims.retireInputs {l : List InputIx} {s : State} (h : Claims s) :
    Claims (l.foldl Machine.retireInput s)
      ∧ ∀ n, ((l.foldl Machine.retireInput s).tracker n).binding
          = if n ∈ l then none else (s.tracker n).binding := by
  induction l generalizing s with
  | nil => exact ⟨h, fun n => by simp⟩
  | cons m l ih =>
    obtain ⟨claims, bindings⟩ := ih (h.retireInput m)
    refine ⟨claims, fun n => (bindings n).trans ?_⟩
    by_cases hm : n = m
    · subst hm
      simp [Machine.retireInput]
    · rw [(retireInput_moves m s).frame.tracker_ne hm]
      simp [hm]

@[simp] theorem clearRecallOf_binding (i : SlotIx) (t : Tracker) :
    (clearRecallOf i t).binding = t.binding := by
  unfold clearRecallOf; split <;> rfl

theorem clearRecallOf_ne {i : SlotIx} {t : Tracker} {r : Recall}
    (h : (clearRecallOf i t).recallRef = some r) : t.recallRef = some r ∧ r.slot ≠ i := by
  unfold clearRecallOf at h
  split at h
  · exact nomatch h
  · next notNamed =>
    refine ⟨h, fun e => notNamed ?_⟩
    unfold recallNames
    rw [h]
    exact beq_iff_eq.mpr e

/-- A retired slot is free of bindings and references before it is FREE (R16). -/
theorem claims_retired {s : State} (h : Claims s) (i : SlotIx) :
    Claims ((mapTrackers (clearRecallOf i) ((inputsBoundTo i s).foldl retireInput s)).withCatalog
      (freeSlot i
        (mapTrackers (clearRecallOf i) ((inputsBoundTo i s).foldl retireInput s)).catalog)) := by
  obtain ⟨claims, bindings⟩ := h.retireInputs (l := inputsBoundTo i s)
  generalize hx : (inputsBoundTo i s).foldl retireInput s = x at claims bindings
  have unbound (n : InputIx) : boundTo (x.tracker n) i = false := by
    by_contra bound
    obtain ⟨b, hb, named⟩ := boundTo_iff.mp (by simpa using bound)
    rw [bindings] at hb
    split at hb
    · exact nomatch hb
    · next notBound =>
      exact notBound (mem_inputsBoundTo.mpr (boundTo_iff.mpr ⟨b, hb, named⟩))
  have slot (j : SlotIx) : ((mapTrackers (clearRecallOf i) x).withCatalog
      (freeSlot i (mapTrackers (clearRecallOf i) x).catalog)).slot j
      = if j = i then freeSlotValue else x.slot j := slot_freeSlot _ i j
  refine ⟨fun n b hb => ?_, fun n r hr => ?_, fun j => ?_⟩
  · rw [tracker_withCatalog, tracker_mapTrackers, clearRecallOf_binding] at hb
    have other : b.slot ≠ i := fun e =>
      absurd (boundTo_iff.mpr ⟨b, hb, e⟩) (by simp [unbound n])
    rw [slot, if_neg other]
    exact claims.binding n b hb
  · rw [tracker_withCatalog, tracker_mapTrackers] at hr
    obtain ⟨kept, other⟩ := clearRecallOf_ne hr
    rw [slot, if_neg other]
    exact claims.reference n r kept
  · rw [slot, length_inputsBoundTo]
    simp only [tracker_withCatalog, tracker_mapTrackers,
      boundTo_congr (clearRecallOf_binding i _)]
    rw [← length_inputsBoundTo]
    split
    · next e => subst e; rw [inputsBoundTo_eq_nil unbound]; rfl
    · exact claims.count j

/-- With every binding and every reference gone and every bind count 0, no claim is left. -/
theorem claims_none {s : State} (binding : ∀ n, (s.tracker n).binding = none)
    (reference : ∀ n, (s.tracker n).recallRef = none) (count : ∀ i, (s.slot i).bindCount = 0) :
    Claims s where
  binding n b hb := by rw [binding] at hb; exact nomatch hb
  reference n r hr := by rw [reference] at hr; exact nomatch hr
  count i := by
    rw [count, inputsBoundTo_eq_nil fun n => boundTo_none (binding n) i]; rfl

theorem claims_cleared {s : State} (h : Claims s) :
    Claims ((mapTrackers (fun t => { t with recallRef := none })
      ((boundInputs s).foldl retireInput s)).withCatalog resetCatalog) := by
  obtain ⟨-, bindings⟩ := h.retireInputs (l := boundInputs s)
  refine claims_none (fun n => ?_) (fun n => by simp) fun i => by
    simp [State.slot, State.withCatalog, resetCatalog, freeSlotValue]
  rw [tracker_withCatalog, tracker_mapTrackers]
  refine (bindings n).trans ?_
  split
  · rfl
  · next notBound =>
    rw [mem_boundInputs] at notBound
    simpa using notBound

theorem BindingLaw.submitReleased {s : State} (h : BindingLaw s) (l : List InputIx) :
    BindingLaw (submitReleased l s) := by
  have searches : ∀ (l : List InputIx) (u : State), BindingLaw u →
      BindingLaw (l.foldl (fun s n => submitHeld n .search s) u) := by
    intro l
    induction l with
    | nil => exact fun _ hu => hu
    | cons n l ih =>
      exact fun u hu => ih _ (hu.of_moves (.submitHeld .refl .search)
        fun claims => claims.submitHeld (n := n) .search)
  unfold Machine.submitReleased
  split
  · exact searches _ _ (h.of_same rfl rfl rfl)
  · exact searches _ _ h

theorem bindingLaw_change {a : Accepted} {run : State → Executed} (hrun : changeOf a = some run)
    {s : State} (h : BindingLaw s) : BindingLaw (run s).state := by
  obtain ⟨claims, -⟩ := (bindingLaw_iff s).mp h
  have toggled : ∀ required new, new ≠ .free →
      BindingLaw (runToggle required new a.args s).state := by
    intro required new hn
    obtain same | ⟨i, -, -, eq⟩ := runToggle_cases required new a.args s
    · rw [same]; exact h
    · rw [eq]; exact bindingLaw_handMarks (claims.toggled i hn)
  obtain ⟨image, -, rfl⟩ | rfl | rfl | rfl | rfl := changeOf_cases hrun
  · obtain same | ⟨i, -, -, -, eq⟩ := runCommit_cases a.args image s
    · rw [same]; exact h
    · rw [eq]; exact bindingLaw_handMarks (claims.installEntry i _)
  · exact toggled _ _ (by simp)
  · exact toggled _ _ (by simp)
  · obtain same | ⟨i, -, -, eq⟩ := runRetire_cases a.args s
    · rw [same]; exact h
    · rw [eq]; exact (bindingLaw_handMarks (claims_retired claims i)).submitReleased _
  · exact (bindingLaw_handMarks (claims_cleared claims)).submitReleased _

/-! ### Input commands, enables and resets -/

theorem BindingLaw.rebindInput {n : InputIx} {s : State} (h : BindingLaw s) :
    BindingLaw (rebindInput n s).state := by
  refine h.of_moves (rebindInput_moves n s) fun claims => ?_
  unfold Machine.rebindInput
  dsimp only
  split
  case h_1 | h_2 => exact (((claims.release _).changeState _).holdSet _).submitHeld _
  case h_3 => exact (claims.changeState _).submitHeld _
  all_goals exact claims

theorem BindingLaw.withConfig {s : State} (h : BindingLaw s) (n : InputIx) (c : InputConfig) :
    BindingLaw (s.withConfig n c) := by
  rw [bindingLaw_iff] at *
  exact ⟨h.1.of_same rfl fun m => by simp, h.2.of_same rfl fun _ => rfl⟩

theorem BindingLaw.withUnit {s : State} (h : BindingLaw s) (n : InputIx) (u : MeasUnit) :
    BindingLaw (s.withUnit n u) := by
  rw [bindingLaw_iff] at *
  exact ⟨h.1.of_same rfl fun m => by simp, h.2.of_same rfl fun _ => rfl⟩

theorem BindingLaw.clearFaultInput {n : InputIx} {s : State} (h : BindingLaw s) :
    BindingLaw (clearFaultInput n s) := by
  have moves : TrackerMoves n s (changeState n .silent
      (s.withTracker n { s.tracker n with latch := noFaults })) :=
    (TrackerMoves.withTracker .refl _).changeState _
  have silent := h.of_moves moves fun claims =>
    (claims.withTracker (x := { s.tracker n with latch := noFaults }) rfl (.inl rfl)).changeState _
  exact silent.withUnit n _

theorem bindingLaw_restartBlocks {s : State} : BindingLaw (restartBlocks s) := by
  refine (bindingLaw_iff _).mpr ⟨claims_none (fun n => ?_) (fun n => ?_) fun i => ?_,
    foundActive_of_pass fun _ hp => nomatch hp⟩
  · rw [State.tracker, State.input, show (restartBlocks s).inputs[n] = restartedInput _ from
      getElem_mapVec restartedInput _ n.val n.isLt]
    rfl
  · rw [State.tracker, State.input, show (restartBlocks s).inputs[n] = restartedInput _ from
      getElem_mapVec restartedInput _ n.val n.isLt]
    rfl
  · rw [State.slot, show (restartBlocks s).catalog.slots[i] = _ from
      getElem_mapVec (fun x : Slot => { x with bindCount := 0 }) _ i.val i.isLt]

theorem CoreMove.bindingLaw {s t : State} (move : CoreMove s t) (tracker : TrackerLaw s)
    (h : BindingLaw s) : BindingLaw t := by
  obtain ⟨claims, found⟩ := (bindingLaw_iff s).mp h
  cases move with
  | same hst => exact h.of_same hst.1 hst.2.2 (congrArg _ hst.2.1)
  | pinMoved n pin level =>
    refine (bindingLaw_iff _).mpr ⟨claims.of_same ?_ fun m => by simp, found.of_same ?_ fun i => ?_⟩
    all_goals cases pin <;> rfl
  | accepted | changed | gainTimeout | hLost => exact h.onUnit _ _
  | examined p hp =>
    refine (bindingLaw_iff _).mpr ⟨claims.of_inputs rfl rfl, (foundActive_iff _).mpr ?_⟩
    rintro p' ⟨⟩ hd i hi
    rcases passFound_examineStep hi with old | active
    · exact (foundActive_iff s).mp found p hp ((examineStep_start s p).2 ▸ hd) i old
    · exact active
  | completed c p hp => exact h.completeStart tracker c hp
  | change a run hrun => exact bindingLaw_change hrun h
  | arbitrated => exact h.arbitrate
  | probeWithdrawn =>
    unfold withdrawProbe
    split
    · exact h.of_same rfl rfl rfl
    · refine (bindingLaw_iff _).mpr ⟨claims.of_inputs rfl rfl, (foundActive_iff _).mpr ?_⟩
      intro p' hp' hd i hi
      obtain ⟨p, hp, rfl⟩ := Option.map_eq_some_iff.mp hp'
      refine (foundActive_iff s).mp found p hp ?_ i ?_
      · split at hd <;> exact hd
      · split at hi <;> exact hi
  | probeSubmitted args => exact (h.of_same (t := s.withRequest _ _) rfl rfl rfl).arbitrate
  | rebound args =>
    unfold runRebind
    split
    · exact h
    · exact h.rebindInput
  | faultCleared args =>
    unfold runClearFault
    split
    · exact h
    · split
      · exact h.clearFaultInput
      · exact h
  | restarted => exact bindingLaw_restartBlocks
  | enabled n _ =>
    exact ((h.withConfig n _).of_moves (enableTracker_moves n _)
      fun claims => claims.changeState _).withUnit n _
  | disabled n _ =>
    exact ((h.withConfig n _).of_moves (disableTracker_moves n _)
      fun claims => ((claims.release _).changeState _).withTracker rfl (.inr rfl)).withUnit n _
  | settleCoast n value =>
    exact (h.withConfig n _).of_moves (.withTracker .refl _)
      fun claims => claims.withTracker rfl (.inl rfl)
  | glitch | faultEnables => exact h.withConfig _ _

theorem bindingLaw_powerOnReset (adr : Level) (s : State) : BindingLaw (powerOnReset adr s) :=
  (bindingLaw_iff _).mpr ⟨claims_none (fun n => by rw [powerOnReset_tracker]; rfl)
    (fun n => by rw [powerOnReset_tracker]; rfl) fun i => by rw [powerOnReset_slot]; rfl,
    foundActive_of_pass fun _ hp => nomatch hp⟩

/-! ### The obligation -/

/-- Settles O10: every claim is made and taken away with its binding, a slot becomes FREE only once
nothing names it, and a binding is made to a slot that the undisturbed pass found ACTIVE. -/
theorem stepKeepsBindingLaw : Obligations.StepKeepsBindingLaw := by
  intro s t tracker binding hstep
  have both : TrackerLaw t ∧ BindingLaw t :=
    step_keeps (P := fun s => TrackerLaw s ∧ BindingLaw s)
      (fun adr s _ => ⟨trackerLaw_powerOnReset adr s, bindingLaw_powerOnReset adr s⟩)
      (fun _ _ move h => ⟨move.trackerLaw h.1, move.bindingLaw h.1 h.2⟩) ⟨tracker, binding⟩ hstep
  exact both.2

end Sys2Proof.Machine
end

