-- ==== Sys2Proof/Proofs/Port.lean ====
section
/-! The host port: data bytes, what a read of the window returns, the view's snapshots, and the
obligations about the port, with the state after reset. -/

namespace Sys2Proof.Machine

/-! ### The state after reset -/

theorem powerOnReset_reset : powerOnReset .low State.reset = State.reset := rfl

/-- Settles O4: the reset is its own fixed point, and every law holds after any reset. -/
theorem resetMeetsEveryLaw : Obligations.ResetMeetsEveryLaw := by
  have fixed := powerOnReset_reset
  refine ⟨congrArg _ fixed, catalogLaw_resetCatalog rfl, (gateLaw_idle rfl).mpr rfl, ?_, ?_, ?_, ?_,
    ?_, ?_⟩
  · exact fixed ▸ trackerLaw_powerOnReset .low State.reset
  · intro n
    rw [← fixed, powerOnReset_unit, MeasUnit.law_iff]
    exact lawAt_resetUnit
  · exact fixed ▸ linkLaw_powerOnReset .low State.reset
  · exact fixed ▸ bindingLaw_powerOnReset .low State.reset
  · exact fixed ▸ mailboxLaw_powerOnReset .low State.reset
  · exact fixed ▸ viewLaw_powerOnReset .low State.reset

/-! ### Data bytes -/

/-- The state after a data byte whose effect has made `u` of the state before: the pointer moves on,
and the byte is acknowledged (R194). -/
def afterByte (u : State) : State :=
  { u with port := { u.port with pointer := u.port.pointer + 1, acked := true } }

/-- A data byte at a position that its command covers. -/
theorem exec_dataByte {c : Instr} {f : Pos → Option (State → State)} {s : State} {p : Pos}
    {act : State → State} (hexec : exec c s = .next (noteChange s (onDataByte f s)))
    (hb : s.port.bus = .dataNext) (hp : windowPos s.port.pointer = p) (hf : f p = some act) :
    exec c s = .next (noteChange s (afterByte (act s))) := by
  rw [hexec, onDataByte_at s hb hp hf]
  rfl

/-- One that touches neither the catalog nor the inputs shows in no view. -/
theorem exec_dataByte_unseen {c : Instr} {f : Pos → Option (State → State)} {s : State} {p : Pos}
    {act : State → State} (hexec : exec c s = .next (noteChange s (onDataByte f s)))
    (hb : s.port.bus = .dataNext) (hp : windowPos s.port.pointer = p) (hf : f p = some act)
    (catalog : (act s).catalog = s.catalog) (inputs : (act s).inputs = s.inputs) :
    exec c s = .next (afterByte (act s)) := by
  rw [exec_dataByte hexec hb hp hf]
  exact congrArg _ (noteChange_of_same catalog inputs)

/-- Settles O16: each of these positions has a row of its own in the table of writes, which touches
neither the catalog nor the inputs. -/
theorem plainPositionsStoreOrIgnore : Obligations.PlainPositionsStoreOrIgnore := by
  refine ⟨fun v s hb => ⟨fun k hp => ?argument, ?ignored⟩, fun v s hb => ⟨fun hp => ?kind,
    fun hp => ?index, fun k hp => ?staging⟩⟩
  case argument =>
    exact exec_dataByte_unseen (act := storeArgument k v) (f := registerAct v s) rfl hb hp rfl rfl
      rfl
  case ignored =>
    have kept : registerAct v s (windowPos s.port.pointer) = some id →
        exec (.registerWrite v) s = .next (afterByte s) := fun hf =>
      exec_dataByte_unseen (act := id) (f := registerAct v s) rfl hb rfl hf rfl rfl
    rintro (listed | ⟨k, hp⟩ | ⟨k, hp⟩ | ⟨n, hp, same⟩ | ⟨hp, empty⟩)
    · simp only [List.mem_cons, List.not_mem_nil, or_false] at listed
      exact kept (by rcases listed with hp | hp | hp | hp | hp | hp | hp | hp <;> rw [hp] <;> rfl)
    · exact kept (by rw [hp]; rfl)
    · exact kept (by rw [hp]; rfl)
    · exact kept (by rw [hp]; exact if_pos same)
    · exact kept (by rw [hp]; exact if_pos empty)
  case kind =>
    exact exec_dataByte_unseen (act := storeViewKind v) (f := viewSelectorAct v) rfl hb hp rfl rfl
      rfl
  case index =>
    exact exec_dataByte_unseen (act := storeViewIndex v) (f := viewSelectorAct v) rfl hb hp rfl rfl
      rfl
  case staging =>
    exact exec_dataByte_unseen (act := storeStaging k v) (f := stagingAct v) rfl hb hp rfl rfl rfl

/-! ### Notice and mask bytes -/

theorem getLsbD_cleared {w k : Nat} (flags : BitVec w) (v : Byte) (hk : k < w) :
    (flags &&& ~~~v.setWidth w).getLsbD k = (flags.getLsbD k && !v.getLsbD k) := by
  simp [hk]

theorem getLsbD_written {w k : Nat} (v : Byte) (hk : k < w) :
    (v.setWidth w).getLsbD k = v.getLsbD k := by
  simp [hk]

/-- Settles O17: a notice byte is masked out of the flags and a mask byte replaces the masks, bit by
bit. -/
theorem noticeAndMaskBytes : Obligations.NoticeAndMaskBytes := by
  refine ⟨fun v s hb => ⟨fun n hp => ⟨_, ?inputFlags, fun k hk => getLsbD_cleared _ v hk⟩,
      fun hp => ⟨_, ?globalFlags, fun k hk => getLsbD_cleared _ v hk⟩⟩,
    fun v s hb => ⟨fun n hp => ⟨_, ?inputMasks, fun k hk => getLsbD_written v hk⟩,
      fun hp => ⟨_, ?globalMasks, fun k hk => getLsbD_written v hk⟩⟩⟩
  case inputFlags =>
    exact exec_dataByte_unseen (act := clearInputNotices n v) (f := noticeAct v) rfl hb hp rfl rfl
      rfl
  case globalFlags =>
    exact exec_dataByte_unseen (act := clearGlobalNotices v) (f := noticeAct v) rfl hb hp rfl rfl
      rfl
  case inputMasks =>
    exact exec_dataByte_unseen (act := writeInputMasks n v) (f := maskAct v) rfl hb hp rfl rfl rfl
  case globalMasks =>
    exact exec_dataByte_unseen (act := writeGlobalMasks v) (f := maskAct v) rfl hb hp rfl rfl rfl

/-! ### Configuration bytes -/

/-- A change of a configuration shows in no view. -/
theorem noteChange_withConfig {n : InputIx} {c : InputConfig} {s t : State}
    (h : t.inputs = (s.withConfig n c).inputs) (hc : t.catalog = s.catalog) : noteChange s t = t := by
  have shown : ∀ r, shownRecord t r = shownRecord s r := by
    intro r
    cases r with
    | catalogEntry i => simp [shownRecord, slot_of_catalog hc]
    | inputStatus m =>
      simp [shownRecord, tracker_of_inputs (s := s.withConfig n c) (t := t) h]
    | measurement m => simp [shownRecord, unit_of_inputs (s := s.withConfig n c) (t := t) h]
  have unchanged : recordChanged s t = false := by
    unfold recordChanged
    split <;> simp [shown]
  unfold noteChange
  rw [unchanged, Bool.or_false]
  rfl

/-- A configuration byte that is stored and shows in no view. -/
theorem exec_configByte {c : Instr} {f : Pos → Option (State → State)} {s : State} {p : Pos}
    {n : InputIx} {x : InputConfig} {act : State → State}
    (hexec : exec c s = .next (noteChange s (onDataByte f s)))
    (hb : s.port.bus = .dataNext) (hp : windowPos s.port.pointer = p) (hf : f p = some act)
    (hact : act s = s.withConfig n x) : exec c s = .next (afterByte (s.withConfig n x)) := by
  rw [exec_dataByte hexec hb hp hf, hact]
  exact congrArg _ (noteChange_withConfig (n := n) (c := x) rfl rfl)

theorem toNat_settleOf (v : Byte) :
    (settleOf v).toNat = if v.toNat % 16 = 0 then 1 else v.toNat % 16 := by
  have low : (v.setWidth 4).toNat = v.toNat % 16 := BitVec.toNat_setWidth 4 v
  unfold settleOf
  split
  · next zero => rw [zero] at low; simp [← low]
  · next nonzero =>
    rw [if_neg fun e => nonzero (BitVec.eq_of_toNat_eq (by rw [low, e]; rfl)), low]

theorem toNat_budgetOf (v : Byte) : (budgetOf v).toNat = v.toNat / 16 := by
  have := v.isLt
  simp only [budgetOf, BitVec.toNat_setWidth, BitVec.toNat_ushiftRight, Nat.shiftRight_eq_div_pow]
  omega

/-- The two names of the settle and coast byte do the same. -/
theorem exec_settleCoast {c : Instr} {v : Byte} {s : State} {n : InputIx}
    (hc : c = .settleCountWrite v ∨ c = .coastBudgetWrite v) (hb : s.port.bus = .dataNext)
    (hp : windowPos s.port.pointer = .settleCoast n) :
    exec c s = .next (noteChange s (afterByte (writeSettleCoast n v s))) := by
  rcases hc with rfl | rfl
  · exact exec_dataByte (act := writeSettleCoast n v) (f := settleCoastAct v) rfl hb hp rfl
  · exact exec_dataByte (act := writeSettleCoast n v) (f := settleCoastAct v) rfl hb hp rfl

theorem writeSettleCoast_config (n : InputIx) (v : Byte) (s : State) :
    (writeSettleCoast n v s).config n
      = { s.config n with settle := settleOf v, budget := budgetOf v } := by
  simp [writeSettleCoast]

theorem writeSettleCoast_tracker (n : InputIx) (v : Byte) (s : State) :
    (writeSettleCoast n v s).tracker n
      = { s.tracker n with coast := min (s.tracker n).coast (budgetOf v).toNat } := by
  simp [writeSettleCoast]

theorem writeSettleCoast_input_ne {n m : InputIx} (h : m ≠ n) (v : Byte) (s : State) :
    (writeSettleCoast n v s).input m = s.input m := by
  simp [writeSettleCoast, input_withTracker, input_withConfig, h]

theorem writeSettleCoast_pinLevel (n : InputIx) (v : Byte) (s : State) :
    (writeSettleCoast n v s).pinLevel n = s.pinLevel n := by
  funext pin
  cases pin <;> simp [writeSettleCoast, State.pinLevel, input_withTracker, input_withConfig]

/-- Settles O19: the bytes are stored in the configuration, which no view shows, and the budget byte
bounds the coast counter. -/
theorem configurationBytesStore : Obligations.ConfigurationBytesStore := by
  refine ⟨fun v s n hb => ⟨fun hp => ⟨v.setWidth 4, ?glitch, BitVec.toNat_setWidth 4 v⟩,
    fun hp => ?enables⟩, fun c v s n hc hb hp => ?settleCoast⟩
  case glitch =>
    exact exec_configByte (act := writeGlitch n v) (f := glitchAct v) rfl hb hp rfl rfl
  case enables =>
    exact exec_configByte (act := writeFaultEnables n v) (f := faultEnablesAct v) rfl hb hp rfl rfl
  case settleCoast =>
    refine ⟨_, exec_settleCoast hc hb hp, ?_⟩
    have config := writeSettleCoast_config n v s
    refine ⟨?_, ?_, ?_, ?_, ?_, ?_, ?_, writeSettleCoast_pinLevel n v s,
      fun m hm => writeSettleCoast_input_ne hm v s, rfl, rfl, rfl, rfl, rfl, rfl⟩
    · exact (congrArg (fun c : InputConfig => c.settle.toNat) config).trans (toNat_settleOf v)
    · exact (congrArg (fun c : InputConfig => c.budget.toNat) config).trans (toNat_budgetOf v)
    · have bounded : min (s.tracker n).coast (v.toNat / 16)
          = if v.toNat / 16 < (s.tracker n).coast then v.toNat / 16 else (s.tracker n).coast := by
        split <;> omega
      rw [← bounded, ← toNat_budgetOf]
      exact writeSettleCoast_tracker n v s
    · exact (congrArg InputConfig.enabled config :)
    · exact (congrArg InputConfig.glitch config :)
    · exact (congrArg InputConfig.enables config :)
    · exact (by simp [writeSettleCoast] : (writeSettleCoast n v s).unit n = s.unit n)

end Sys2Proof.Machine
end

