-- ==== Sys2Proof/Proofs/Window.lean ====
section
/-! What the host reads: the transactions of the serial port, the positions of the window, and the
snapshots of the view byte by byte. -/

namespace Sys2Proof.Machine

/-! ### Bytes -/

theorem toNat_loByte (x : Nat) : (loByte x).toNat = x % 256 := by
  simp [loByte]

theorem toNat_loByte_of_lt {x : Nat} (h : x < 256) : (loByte x).toNat = x := by
  rw [toNat_loByte, Nat.mod_eq_of_lt h]

theorem toNat_hiByte_of_lt {x : Nat} (h : x < 65536) : (hiByte x).toNat = x / 256 := by
  rw [hiByte, BitVec.toNat_ofNat, Nat.mod_eq_of_lt (by omega)]

/-- A two-byte field reads back from its bytes. -/
theorem word_of_bytes {x : Nat} (h : x < 65536) :
    (loByte x).toNat + 256 * (hiByte x).toNat = x := by
  rw [toNat_loByte, toNat_hiByte_of_lt h]
  omega

theorem toNat_slotByte (i : SlotIx) : (slotByte i).toNat = i.val :=
  toNat_loByte_of_lt (by omega)

theorem toNat_inputByte (n : InputIx) : (inputByte n).toNat = n.val :=
  toNat_loByte_of_lt (by omega)

theorem toNat_boolByte (b : Bool) : (boolByte b).toNat = b.toNat := by
  cases b <;> rfl

theorem toNat_faultSet (f : FaultSet) :
    f.toByte.toNat = f.noise.toNat + 2 * f.shortFrame.toNat + 4 * f.polarityFlip.toNat := by
  have noise := f.noise.toNat_lt
  have short := f.shortFrame.toNat_lt
  have flip := f.polarityFlip.toNat_lt
  rw [FaultSet.toByte, BitVec.toNat_ofNat, Nat.mod_eq_of_lt (by omega)]

theorem toNat_settleCoastByte (c : InputConfig) :
    (settleCoastByte c).toNat = c.settle.toNat + 16 * c.budget.toNat := by
  have settle := c.settle.isLt
  rw [settleCoastByte, BitVec.toNat_append, ← Nat.shiftLeft_add_eq_or_of_lt (by omega),
    Nat.shiftLeft_eq]
  omega

theorem toNat_classifierStatus (c : Classifier) :
    (classifierStatus c).toNat =
      (if c.pass.isSome then 1 else 0) + (if c.gate = .closed then 2 else 0)
        + 16 * (match c.pass with | some p => p.requester.val | none => 7) := by
  unfold classifierStatus
  cases hp : c.pass with
  | none => cases c.gate <;> rfl
  | some p =>
    have := p.requester.isLt
    cases c.gate <;> simp only [Option.isSome_some, BitVec.toNat_ofNat] <;> simp <;> omega

/-! ### The window -/

theorem windowPos_perInput (n : InputIx) :
    windowPos (BitVec.ofNat 8 (0x10 + 2 * n.val)) = .notices n
      ∧ windowPos (BitVec.ofNat 8 (0x11 + 2 * n.val)) = .masks n
      ∧ windowPos (BitVec.ofNat 8 (0x20 + 4 * n.val)) = .enable n
      ∧ windowPos (BitVec.ofNat 8 (0x21 + 4 * n.val)) = .settleCoast n
      ∧ windowPos (BitVec.ofNat 8 (0x22 + 4 * n.val)) = .glitch n
      ∧ windowPos (BitVec.ofNat 8 (0x23 + 4 * n.val)) = .faultEnables n := by
  revert n
  decide

theorem windowPos_argument (k : Fin 8) :
    windowPos (BitVec.ofNat 8 (0x42 + k.val)) = .argument k := by
  revert k
  decide

theorem windowPos_resultData (k : Fin 21) :
    windowPos (BitVec.ofNat 8 (0x4B + k.val)) = .resultData k := by
  revert k
  decide

theorem windowPos_staging (k : Fin 32) :
    windowPos (BitVec.ofNat 8 (0x60 + k.val)) = .staging k := by
  revert k
  decide

theorem windowPos_view (k : Fin 63) : windowPos (BitVec.ofNat 8 (0x80 + k.val)) = .view k := by
  revert k
  decide

theorem windowPos_unassigned {p : Nat} (h : (0x09 ≤ p ∧ p ≤ 0x0F) ∨ (0x1C ≤ p ∧ p ≤ 0x1F)
    ∨ (0x38 ≤ p ∧ p ≤ 0x3F) ∨ (0xC0 ≤ p ∧ p ≤ 0xFF)) :
    windowPos (BitVec.ofNat 8 p) = .unassigned := by
  have value : (BitVec.ofNat 8 p).toNat = p := by
    rw [BitVec.toNat_ofNat, Nat.mod_eq_of_lt (by omega)]
  unfold windowPos
  simp only [value]
  rcases h with h | h | h | h <;> simp (disch := omega) only [if_neg, if_pos, dif_neg]

/-- Every position reads what its owner holds. -/
theorem windowReads_all (s : State) : windowReads s := by
  unfold windowReads
  dsimp only
  refine ⟨rfl, rfl, ?globalFlags, ?globalMasks, rfl, rfl, rfl, ?occupancy, ?status, fun n => ?input,
    rfl, ?mailboxState, fun k => ?argument, ?result, fun k => ?data, fun k => ?staging,
    fun k => ?view, ?since, fun p hp => ?unassigned⟩
  case globalFlags => exact BitVec.toNat_setWidth_of_le (by omega)
  case globalMasks => exact BitVec.toNat_setWidth_of_le (by omega)
  case occupancy => exact fun bound => toNat_loByte_of_lt (by omega)
  case status => exact toNat_classifierStatus s.classifier
  case input =>
    obtain ⟨notices, masks, enable, settleCoast, glitch, enables⟩ := windowPos_perInput n
    rw [notices, masks, enable, settleCoast, glitch, enables]
    exact ⟨BitVec.toNat_setWidth_of_le (by omega), BitVec.toNat_setWidth_of_le (by omega),
      toNat_boolByte _, toNat_settleCoastByte _, BitVec.toNat_setWidth_of_le (by omega),
      toNat_faultSet _⟩
  case mailboxState =>
    change mailboxStateCode s.mailbox.state = _
    cases s.mailbox.state <;> rfl
  case argument => rw [windowPos_argument]; rfl
  case result =>
    change resultByte s.mailbox.result = _
    cases s.mailbox.result with
    | none => rfl
    | some c => cases c <;> rfl
  case data => rw [windowPos_resultData]; rfl
  case staging => rw [windowPos_staging]; rfl
  case view => rw [windowPos_view]; rfl
  case since => rfl
  case unassigned => rw [windowPos_unassigned hp]; rfl

/-! ### Transactions -/

/-- A change of the port alone shows in no view. -/
theorem noteChange_withPort (s : State) (p : Port) : noteChange s (s.withPort p) = s.withPort p :=
  noteChange_of_same rfl rfl

theorem takeByte_away {s : State} (h : s.port.pointer ≠ 0x80) :
    takeByte s = s.withPort { s.port with bus := .sending (readByte s) } := by
  unfold takeByte atViewStart
  rw [if_neg (by simpa using h)]

theorem takeByte_latches {s : State} (h : s.port.pointer = 0x80) :
    takeByte s =
      s.withPort { s.port with
        snapshot := snapshotOf s (selectedRecord s.port.viewKind s.port.viewIndex)
        follows := selectedRecord s.port.viewKind s.port.viewIndex
        since := false
        bus := .sending
          (snapshotOf s (selectedRecord s.port.viewKind s.port.viewIndex))[0] } := by
  have first : readByte (latchView s)
      = (snapshotOf s (selectedRecord s.port.viewKind s.port.viewIndex))[0] := by
    have start : windowPos (latchView s).port.pointer = .view 0 := by
      change windowPos s.port.pointer = _
      rw [h]; decide
    rw [readByte, start]; rfl
  unfold takeByte atViewStart
  rw [if_pos (by simpa using h)]
  simp only [first]
  rfl

/-- What a byte reads does not depend on where the transaction stands. -/
theorem readPos_withPort {s : State} {p : Port} (snapshot : p.snapshot = s.port.snapshot)
    (since : p.since = s.port.since) (staging : p.staging = s.port.staging)
    (kind : p.viewKind = s.port.viewKind) (index : p.viewIndex = s.port.viewIndex) (x : Pos) :
    readPos (s.withPort p) x = readPos s x := by
  cases x with
  | viewKind => exact kind
  | viewIndex => exact index
  | staging k => exact congrArg (·[k]) staging
  | view k => exact congrArg (·[k]) snapshot
  | sinceLatch => exact congrArg boolByte since
  | _ => rfl

/-- A byte taken away from 0x80 at a pointer that has just moved, or in a transaction just begun. -/
theorem takeByte_moved {s : State} {x : Byte} {ack : Bool} (away : x ≠ 0x80) :
    takeByte (s.withPort { s.port with pointer := x, acked := ack }) =
      s.withPort { s.port with
        pointer := x, acked := ack, bus := .sending (readPos s (windowPos x)) } := by
  rw [takeByte_away (by exact away), readByte,
    readPos_withPort (s := s) (p := { s.port with pointer := x, acked := ack }) rfl rfl rfl rfl rfl]
  rfl

/-- Settles O13: a byte is taken from its position as it stands, and the positions are those of the
table. -/
theorem serialBytesReadWindow : Obligations.SerialBytesReadWindow := by
  refine ⟨⟨fun s => ?write, fun a d s other => ?ignored, fun v s next => ?pointer⟩,
    ⟨fun s away => ?read, fun s b sending away => ?acknowledged, fun s b sending => ?released⟩,
    windowReads_all, fun k => by cases k <;> rfl, fun k => by cases k <;> rfl⟩
  case write =>
    change Host.Outcome.next (noteChange s (takeAddress s.port.address .write s)) = _
    rw [takeAddress, if_pos rfl]
    exact congrArg _ (noteChange_withPort s _)
  case ignored =>
    change Host.Outcome.next (noteChange s (takeAddress a d s)) = _
    rw [takeAddress, if_neg other]
    exact congrArg _ (noteChange_withPort s _)
  case pointer =>
    change Host.Outcome.next (noteChange s (takePointer v s)) = _
    rw [takePointer, next]
    exact congrArg _ (noteChange_withPort s _)
  case read =>
    change Host.Outcome.next (noteChange s (takeAddress s.port.address .read s)) = _
    rw [takeAddress, if_pos rfl]
    exact (congrArg (fun t => Host.Outcome.next (noteChange s t)) (takeByte_moved away)).trans
      (congrArg _ (noteChange_withPort s _))
  case acknowledged =>
    change Host.Outcome.next (noteChange s (takeHostAck true s)) = _
    rw [takeHostAck, sending]
    exact (congrArg (fun t => Host.Outcome.next (noteChange s t)) (takeByte_moved away)).trans
      (congrArg _ (noteChange_withPort s _))
  case released =>
    change Host.Outcome.next (noteChange s (takeHostAck false s)) = _
    rw [takeHostAck, sending]
    exact congrArg _ (noteChange_withPort s _)

/-! ### Selectors -/

theorem byte_eq_iff_toNat {b c : Byte} : b = c ↔ b.toNat = c.toNat :=
  ⟨congrArg _, BitVec.eq_of_toNat_eq⟩

theorem selectedRecord_eq_none (kind index : Byte) :
    selectedRecord kind index = none ↔
      3 ≤ kind.toNat ∨ (kind.toNat = 0 ∧ 64 ≤ index.toNat)
        ∨ ((kind.toNat = 1 ∨ kind.toNat = 2) ∧ 6 ≤ index.toNat) := by
  have k0 : kind = 0 ↔ kind.toNat = 0 := byte_eq_iff_toNat
  have k1 : kind = 1 ↔ kind.toNat = 1 := byte_eq_iff_toNat
  have k2 : kind = 2 ↔ kind.toNat = 2 := byte_eq_iff_toNat
  unfold selectedRecord
  by_cases h0 : kind = 0
  · have := k0.mp h0
    rw [if_pos h0]
    split <;> simp only [reduceCtorEq, false_iff, true_iff] <;> omega
  · rw [if_neg h0]
    by_cases h1 : kind = 1
    · have := k1.mp h1
      rw [if_pos h1]
      split <;> simp only [reduceCtorEq, false_iff, true_iff] <;> omega
    · rw [if_neg h1]
      by_cases h2 : kind = 2
      · have := k2.mp h2
        rw [if_pos h2]
        split <;> simp only [reduceCtorEq, false_iff, true_iff] <;> omega
      · rw [if_neg h2]
        have := k0.not.mp h0
        have := k1.not.mp h1
        have := k2.not.mp h2
        simp only [true_iff]
        omega

theorem selectedRecord_entry (i : SlotIx) : selectedRecord 0 (slotByte i) = some (.catalogEntry i) := by
  have value := toNat_slotByte i
  simp [selectedRecord, value]

theorem selectedRecord_input (n : InputIx) :
    selectedRecord 1 (inputByte n) = some (.inputStatus n)
      ∧ selectedRecord 2 (inputByte n) = some (.measurement n) := by
  have value := toNat_inputByte n
  constructor <;> simp [selectedRecord, value]

/-! ### Snapshots -/

theorem byteAt_snapshot {s : State} {r : ViewRecord} {k : Nat} (h : k < 63) :
    byteAt (snapshotOf s (some r)) k = (viewHeader r ++ shownBytes (shownRecord s r))[k]?.getD 0 :=
  byteAt_padTo _ h

theorem getD_of_length_le {l : List Byte} {k : Nat} (h : l.length ≤ k) : l[k]?.getD 0 = 0 := by
  rw [List.getElem?_eq_none h]; rfl

theorem length_slotImage (x : Slot) : (slotImage x).length = 32 := by
  unfold slotImage
  split <;> simp [entryImage, wordBytes]

theorem entryShown_all (s : State) (i : SlotIx) : entryShown s i := by
  unfold entryShown
  dsimp only
  refine ⟨rfl, toNat_slotByte i, fun k hk => ?image, fun p low high => ?rest⟩
  case image =>
    rw [byteAt_snapshot (by omega), byteAt_padTo _ hk]
    have offset : 0x82 + k - 0x80 = k + 2 := by omega
    rw [offset]; rfl
  case rest =>
    rw [byteAt_snapshot (by omega)]
    refine getD_of_length_le ?_
    change (slotImage (s.slot i)).length + 2 ≤ _
    rw [length_slotImage]
    omega

theorem toNat_setFlagsByte (m : MeasSet) :
    (setFlagsByte m).toNat =
      (if m.sync.hPolarity = .positive then 1 else 0)
        + (if m.sync.vPolarity = .positive then 2 else 0)
        + (if m.sync.scan = .interlaced then 4 else 0)
        + (if m.sync.form = .composite then 8 else 0)
        + (if m.halfLine then 16 else 0) + (if m.noiseSeen then 32 else 0) := by
  have half : (if m.halfLine then 16 else 0) = 16 * m.halfLine.toNat := by
    cases m.halfLine <;> rfl
  have noise : (if m.noiseSeen then 32 else 0) = 32 * m.noiseSeen.toNat := by
    cases m.noiseSeen <;> rfl
  have halfLt := m.halfLine.toNat_lt
  have noiseLt := m.noiseSeen.toNat_lt
  rw [half, noise, setFlagsByte]
  refine toNat_loByte_of_lt ?_
  repeat' split
  all_goals omega

theorem measurementShown_all (s : State) (n : InputIx) : measurementShown s n := by
  have shown {k : Nat} (h : k < 63) : byteAt (snapshotOf s (some (.measurement n))) k
      = ([2, inputByte n] ++ measurementBytes (s.unit n).lastSet)[k]?.getD 0 := byteAt_snapshot h
  unfold measurementShown
  dsimp only
  refine ⟨rfl, toNat_inputByte n, fun absent p low high => ?absent, fun m hm legal => ?present⟩
  case absent =>
    rw [shown (by omega), absent]
    exact getD_of_length_le (by simp [measurementBytes]; omega)
  case present =>
    obtain ⟨-, hPeriod, hWidth, -, vLines, vWidth⟩ := legal
    have byte {k : Nat} (h : k < 63) : byteAt (snapshotOf s (some (.measurement n))) k
        = ([2, inputByte n] ++ measurementBytes (some m))[k]?.getD 0 := by rw [shown h, hm]
    have number (k : Nat) (h : k < 63) := congrArg BitVec.toNat (byte h)
    have word (k x : Nat) (h : k + 1 < 63)
        (lo : ([2, inputByte n] ++ measurementBytes (some m))[k]?.getD 0 = loByte x)
        (hi : ([2, inputByte n] ++ measurementBytes (some m))[k + 1]?.getD 0 = hiByte x)
        (hx : x < 65536) :
        (byteAt (snapshotOf s (some (.measurement n))) k).toNat
          + 256 * (byteAt (snapshotOf s (some (.measurement n))) (k + 1)).toNat = x := by
      rw [byte (by omega), byte h, lo, hi]
      exact word_of_bytes hx
    refine ⟨byte (k := 2) (by omega), byte (k := 3) (by omega),
      word 4 _ (by omega) rfl rfl (by omega), word 6 _ (by omega) rfl rfl (by omega),
      word 8 _ (by omega) rfl rfl (by omega),
      (number 10 (by omega)).trans (toNat_loByte_of_lt (by omega)),
      (number 11 (by omega)).trans (toNat_setFlagsByte m), fun p low high => ?_⟩
    rw [byte (by omega)]
    exact getD_of_length_le (by simp [measurementBytes, wordBytes]; omega)

theorem length_bindingBytes (b : Option Binding) : (bindingBytes b).length = 11 := by
  cases b with
  | none => rfl
  | some b => simp [bindingBytes, candidateBytes]

theorem length_lastLossBytes (l : Option LastLoss) : (lastLossBytes l).length = 4 := by
  cases l <;> rfl

theorem length_recallBytes (r : Option Recall) : (recallBytes r).length = 3 := by
  cases r <;> rfl

/-- A candidate's byte, 0 past the end of the list. -/
theorem toNat_candidateBytes (l : List SlotIx) {k : Nat} (h : k < 4) :
    ((candidateBytes l)[k]?.getD 0).toNat = match l[k]? with | some c => c.val | none => 0 := by
  rw [candidateBytes, List.getElem?_take, if_pos h]
  cases hl : l[k]? with
  | some c =>
    have short : k < l.length := (List.getElem?_eq_some_iff.mp hl).1
    rw [List.getElem?_append_left (by simpa using short), List.getElem?_map, hl]
    exact toNat_slotByte c
  | none =>
    have long : l.length ≤ k := List.getElem?_eq_none_iff.mp hl
    rw [List.getElem?_append_right (by simpa using long), List.length_map]
    have zero (j : Nat) : (([0, 0, 0, 0] : List Byte)[j]?.getD (0 : Byte)).toNat = 0 := by
      rcases j with _ | _ | _ | _ | j <;> rfl
    exact zero _

/-- The parts of an INPUT_STATUS snapshot, each at its offset. -/
theorem statusByte_parts (s : State) (n : InputIx) :
    (∀ k, k < 11 → byteAt (snapshotOf s (some (.inputStatus n))) (6 + k)
        = (bindingBytes (s.tracker n).binding)[k]?.getD 0)
      ∧ (∀ k, k < 4 → byteAt (snapshotOf s (some (.inputStatus n))) (17 + k)
        = (lastLossBytes (s.tracker n).lastLoss)[k]?.getD 0)
      ∧ (∀ k, k < 3 → byteAt (snapshotOf s (some (.inputStatus n))) (21 + k)
        = (recallBytes (s.tracker n).recallRef)[k]?.getD 0)
      ∧ ∀ k, 24 ≤ k → k < 63 → byteAt (snapshotOf s (some (.inputStatus n))) k = 0 := by
  have binding := length_bindingBytes (s.tracker n).binding
  have loss := length_lastLossBytes (s.tracker n).lastLoss
  have recallLength := length_recallBytes (s.tracker n).recallRef
  have shown {k : Nat} (h : k < 63) : byteAt (snapshotOf s (some (.inputStatus n))) k
      = ([1, inputByte n, trackerStateCode (s.tracker n).state, loByte (s.tracker n).settleCounter,
          loByte (s.tracker n).coast, (s.tracker n).latch.toByte]
          ++ (bindingBytes (s.tracker n).binding ++ (lastLossBytes (s.tracker n).lastLoss
            ++ recallBytes (s.tracker n).recallRef)))[k]?.getD 0 := by
    rw [byteAt_snapshot h]
    simp [viewHeader, shownBytes, shownRecord, statusRecord, statusBytes]
  refine ⟨fun k hk => ?_, fun k hk => ?_, fun k hk => ?_, fun k low high => ?_⟩
  · rw [shown (by omega), List.getElem?_append_right (by simp), List.getElem?_append_left
      (by simp [binding]; omega)]
    congr 2
    simp
  · rw [shown (by omega), List.getElem?_append_right (by simp; omega), List.getElem?_append_right
      (by simp [binding]; omega), List.getElem?_append_left (by simp [binding, loss]; omega)]
    congr 2
    simp [binding]
    omega
  · rw [shown (by omega), List.getElem?_append_right (by simp; omega), List.getElem?_append_right
      (by simp [binding]; omega), List.getElem?_append_right (by simp [binding, loss]; omega)]
    congr 2
    simp [binding, loss]
    omega
  · rw [shown high]
    exact getD_of_length_le (by simp [binding, loss, recallLength]; omega)

theorem statusShown_all (s : State) (n : InputIx) : statusShown s n := by
  obtain ⟨binding, loss, reference, rest⟩ := statusByte_parts s n
  unfold statusShown
  dsimp only
  refine ⟨rfl, toNat_inputByte n, ?state, ?counter, ?coast, ?latch, ?noBinding, ?someBinding, ?noLoss,
    ?someLoss, ?noReference, ?someReference, ?rest⟩
  case state =>
    change trackerStateCode (s.tracker n).state = _
    cases (s.tracker n).state <;> rfl
  case counter =>
    exact fun bound => toNat_loByte_of_lt (x := (s.tracker n).settleCounter) (by omega)
  case coast => exact fun bound => toNat_loByte_of_lt (x := (s.tracker n).coast) (by omega)
  case latch => exact toNat_faultSet _
  case noBinding =>
    intro absent p low high
    obtain ⟨k, rfl⟩ := Nat.exists_eq_add_of_le low
    rw [show 0x86 + k - 0x80 = 6 + k by omega, binding k (by omega), absent]
    exact (List.getElem?_replicate (n := 11) (a := (0 : Byte)) ▸ by split <;> rfl)
  case someBinding =>
    intro b hb
    have byte (k : Nat) (hk : k < 11) := hb ▸ binding k hk
    refine ⟨byte 0 (by omega), ?_, byte 2 (by omega), ?_, fun bound => ?_, ?_, fun bound => ?_,
      fun k hk => ?_⟩
    · rw [byte 1 (by omega)]; exact toNat_slotByte b.slot
    · rw [byte 3 (by omega)]
      change boolByte (b.via == .byRecall) = _
      cases b.via <;> rfl
    · rw [byte 4 (by omega)]; exact toNat_loByte_of_lt (by omega)
    · rw [byte 5 (by omega)]; rfl
    · rw [byte 6 (by omega)]; exact toNat_loByte_of_lt (by omega)
    · rw [show 0x8D + k - 0x80 = 6 + (7 + k) by omega, byte (7 + k) (by omega), Nat.add_comm 7 k]
      exact toNat_candidateBytes b.candidates hk
  case noLoss =>
    intro absent p low high
    obtain ⟨k, rfl⟩ := Nat.exists_eq_add_of_le low
    rw [show 0x91 + k - 0x80 = 17 + k by omega, loss k (by omega), absent]
    rcases k with _ | _ | _ | _ | k <;> rfl
  case someLoss =>
    intro l hl
    have byte (k : Nat) (hk : k < 4) := hl ▸ loss k hk
    refine ⟨byte 0 (by omega), ?_, byte 3 (by omega), ?_⟩
    · rw [byte 2 (by omega)]; exact toNat_slotByte l.slot
    · rw [byte 1 (by omega)]
      change reasonCode l.reason = _
      cases l.reason <;> rfl
  case noReference =>
    intro absent p low high
    obtain ⟨k, rfl⟩ := Nat.exists_eq_add_of_le low
    rw [show 0x95 + k - 0x80 = 21 + k by omega, reference k (by omega), absent]
    rcases k with _ | _ | _ | k <;> rfl
  case someReference =>
    intro r hr
    have byte (k : Nat) (hk : k < 3) := hr ▸ reference k hk
    refine ⟨byte 0 (by omega), ?_, byte 2 (by omega)⟩
    rw [byte 1 (by omega)]; exact toNat_slotByte r.slot
  case rest => exact fun p low high => rest _ (by omega) (by omega)

/-! ### The latch -/

theorem snapshotOf_none (s : State) :
    (snapshotOf s none)[0] = 0x80 ∧ ∀ k : Fin 63, k ≠ 0 → (snapshotOf s none)[k] = 0 := by
  refine ⟨rfl, ?_⟩
  change ∀ k : Fin 63, k ≠ 0 → (padTo 63 [0x80])[k] = 0
  decide

theorem noteChange_latched {s : State} {p : Port} (h : p.since = false) :
    noteChange s (s.withPort p) = { s with port := { p with since := false } } := by
  rw [noteChange_withPort, ← h]
  rfl

/-- Settles O14: both events that take the byte at 0x80 latch before they read it, and the snapshot
spells the record byte by byte. -/
theorem readOfViewStartLatches : Obligations.ReadOfViewStartLatches := by
  refine ⟨fun s r c hr => ⟨fun start hc => ?address, fun b sending before hc => ?host⟩,
    ⟨selectedRecord_eq_none, snapshotOf_none⟩, selectedRecord_entry, selectedRecord_input,
    fun s => ⟨entryShown_all s, fun n => ⟨statusShown_all s n, measurementShown_all s n⟩⟩⟩
  case address =>
    subst hr
    have taken : takeAddress s.port.address .read s
        = s.withPort { s.port with
            snapshot := snapshotOf s (selectedRecord s.port.viewKind s.port.viewIndex)
            follows := selectedRecord s.port.viewKind s.port.viewIndex
            since := false
            bus := .sending (snapshotOf s (selectedRecord s.port.viewKind s.port.viewIndex))[0]
            acked := true } := by
      rw [takeAddress, if_pos rfl, beginTransaction, takeByte_latches (by exact start)]
      rfl
    have named : exec c s = .next (noteChange s (takeAddress s.port.address .read s)) := by
      simp only [List.mem_cons, List.not_mem_nil, or_false] at hc
      rcases hc with rfl | rfl
      · have due : takesViewStart (.addressByte s.port.address) s = true := by
          simp [takesViewStart, atViewStart, start]
        change Host.Outcome.next (noteChange s (viewRead _ s)) = _
        rw [viewRead, if_pos due]
      · rfl
    rw [named, taken]
    exact congrArg _ (noteChange_latched rfl)
  case host =>
    subst hr
    have moved : s.port.pointer + 1 = 0x80 := by rw [before]; rfl
    have taken : takeHostAck true s
        = s.withPort { s.port with
            pointer := 0x80
            snapshot := snapshotOf s (selectedRecord s.port.viewKind s.port.viewIndex)
            follows := selectedRecord s.port.viewKind s.port.viewIndex
            since := false
            bus := .sending
              (snapshotOf s (selectedRecord s.port.viewKind s.port.viewIndex))[0] } := by
      rw [takeHostAck, sending]
      simp only [endByte, if_true]
      rw [takeByte_latches (by exact moved)]
      rw [← moved]
      rfl
    have named : exec c s = .next (noteChange s (takeHostAck true s)) := by
      simp only [List.mem_cons, List.not_mem_nil, or_false] at hc
      rcases hc with rfl | rfl
      · have due : takesViewStart .hostAcknowledge s = true := by
          simp only [takesViewStart, sending]
          exact beq_iff_eq.mpr moved
        change Host.Outcome.next (noteChange s (viewRead _ s)) = _
        rw [viewRead, if_pos due]
      · rfl
    rw [named, taken]
    exact congrArg _ (noteChange_latched rfl)

end Sys2Proof.Machine
end

