-- ==== Sys2Proof/Proofs/Commands.lean ====
section
/-! The mailbox: how a command byte is accepted, executed and completed, and the obligations about the
commands that are not releases. -/

namespace Sys2Proof.Machine

/-! ### Acceptance and completion -/

/-- A command byte in EMPTY: the command's own issue, then the byte's end. -/
theorem exec_command {c : Instr} {issue : State → State} {s : State}
    (hexec : exec c s = onCommand issue s) (ready : commandReady s) :
    exec c s = .next (noteChange s (afterByte (issue s))) := by
  obtain ⟨hb, hp, empty⟩ := ready
  exact exec_dataByte (f := commandAct issue s) (act := issue) hexec hb hp (if_pos empty)

/-- One that touches neither the catalog nor the inputs shows in no view. -/
theorem exec_command_unseen {c : Instr} {issue : State → State} {s : State}
    (hexec : exec c s = onCommand issue s) (ready : commandReady s)
    (catalog : (issue s).catalog = s.catalog) (inputs : (issue s).inputs = s.inputs) :
    exec c s = .next (afterByte (issue s)) := by
  rw [exec_command hexec ready, noteChange_of_same (t := afterByte (issue s)) catalog inputs]

/-- A catalog change accepted while the gate is open executes at once. -/
theorem issueChange_opened {code : Byte} {run : State → Executed} {s : State}
    (h : s.classifier.gate = .opened) :
    issueChange code run s = completeCommand (run (acceptCommand code s)) := by
  have taken : (acceptCommand code s).classifier.gate = .opened := h
  unfold issueChange
  simp only [taken]

/-- One accepted while the gate is closed is held. -/
theorem issueChange_closed {code : Byte} {run : State → Executed} {s : State}
    (h : s.classifier.gate = .closed) :
    issueChange code run s = { s with
      mailbox :=
        { state := .held, command := code, args := s.mailbox.args
          accepted := some (acceptedCopy code s), result := none, data := Vector.replicate 21 0 } } := by
  have taken : (acceptCommand code s).classifier.gate = .closed := h
  unfold issueChange
  simp only [taken]
  rfl

/-- What the execution of an accepted command leaves for its completion: mailbox, port, global flags
and masks. -/
structure Executing (code : Byte) (s t : State) : Prop where
  mailbox : t.mailbox = (acceptCommand code s).mailbox
  port : t.port = s.port
  globalFlags : t.notices.globalFlags = s.notices.globalFlags
  globalMasks : t.notices.globalMasks = s.notices.globalMasks
  masks : t.notices.masks = s.notices.masks

theorem Executing.accepted (code : Byte) (s : State) : Executing code s (acceptCommand code s) :=
  ⟨rfl, rfl, rfl, rfl, rfl⟩

theorem Executing.of_change {code : Byte} {s t : State}
    (h : ChangeFrame (acceptCommand code s) t) : Executing code s t :=
  ⟨h.mailbox, h.port, h.globalFlags, h.globalMasks, h.masks⟩

/-- The state after a command that executes to `r` at its acceptance. -/
def answered (s : State) (r : Executed) : State := noteChange s (afterByte (completeCommand r))

theorem portAdvanced_of_port {s u : State} (h : u.port = s.port) :
    portAdvanced s (noteChange s (afterByte u)) := by
  rw [portAdvanced, noteChange_port]
  simp [afterByte, h]

theorem Executing.portAdvanced {code : Byte} {s : State} {r : Executed}
    (h : Executing code s r.state) : Machine.portAdvanced s (answered s r) :=
  portAdvanced_of_port (u := completeCommand r) h.port

/-- The mailbox of an executed command is that of its completion. -/
theorem answered_mailbox {code : Byte} {s : State} {r : Executed}
    (h : r.state.mailbox = (acceptCommand code s).mailbox) :
    (answered s r).mailbox =
      { state := .done, command := code, args := s.mailbox.args
        accepted := some (acceptedCopy code s), result := some r.code, data := padTo 21 r.data } := by
  have mailbox : (answered s r).mailbox = { r.state.mailbox with
      state := .done, result := some r.code, data := padTo 21 r.data } := rfl
  rw [mailbox, h]
  rfl

/-- Mailbox and global notices of an executed command are those of its completion. -/
theorem Executing.completedWith {code : Byte} {s : State} {r : Executed}
    (h : Executing code s r.state) :
    Machine.completedWith (acceptedCopy code s) r.code r.data s (answered s r) := by
  exact ⟨answered_mailbox h.mailbox, congrArg (· ||| globalNoticeBit .mailboxDone) h.globalFlags,
    h.globalMasks, h.masks⟩

/-- A command that executes at its acceptance whatever the gate. -/
theorem exec_now {c : Instr} {code : Byte} {run : State → Executed} {s : State}
    (hexec : exec c s = onCommand (issueNow code run) s) (ready : commandReady s) :
    exec c s = .next (answered s (run (acceptCommand code s))) := exec_command hexec ready

/-- A catalog change that executes at its acceptance. -/
theorem exec_change {c : Instr} {code : Byte} {run : State → Executed} {s : State}
    (hexec : exec c s = onCommand (issueChange code run) s) (ready : commandReady s)
    (gate : s.classifier.gate = .opened) :
    exec c s = .next (answered s (run (acceptCommand code s))) := by
  rw [exec_command hexec ready, issueChange_opened gate]
  rfl

/-- A command that touches neither the catalog nor the inputs is not noted. -/
theorem answered_unseen {s : State} {r : Executed} (catalog : r.state.catalog = s.catalog)
    (inputs : r.state.inputs = s.inputs) : answered s r = afterByte (completeCommand r) :=
  noteChange_of_same (t := afterByte (completeCommand r)) catalog inputs

/-- A command that is refused, or that only reports, changes nothing but the mailbox, MAILBOX_DONE and
the pointer. -/
theorem answered_same {code : Byte} {s : State} {r : Executed}
    (h : r.state = acceptCommand code s) :
    (answered s r).port = { s.port with pointer := s.port.pointer + 1, acked := true }
      ∧ completedWith (acceptedCopy code s) r.code r.data s (answered s r)
      ∧ (answered s r).notices.flags = s.notices.flags ∧ (answered s r).catalog = s.catalog
      ∧ (answered s r).classifier = s.classifier ∧ (answered s r).inputs = s.inputs
      ∧ (answered s r).freeIndex = s.freeIndex := by
  have executing : Executing code s r.state := h ▸ .accepted code s
  have catalog : r.state.catalog = s.catalog := h ▸ rfl
  have inputs : r.state.inputs = s.inputs := h ▸ rfl
  refine ⟨?_, executing.completedWith, ?_, catalog, ?_, inputs, ?_⟩
  · rw [answered_unseen catalog inputs]
    simp [afterByte, executing.port]
  · exact (congrArg (fun u : State => u.notices.flags) h :)
  · exact (congrArg State.classifier h :)
  · exact (congrArg State.freeIndex h :)

/-! ### Arguments -/

theorem numAt_eq {k : Nat} (v : Vector Byte k) {i : Nat} (h : i < k) : numAt v i = v[i].toNat := by
  simp [numAt, byteAt, h]

theorem slotArg_eq_some {args : Vector Byte 8} {i : SlotIx} (h : (args[0]).toNat = i.val) :
    slotArg args = some i := by
  rw [← numAt_eq args (by omega)] at h
  simp [slotArg, h, i.isLt]

theorem slotArg_eq_none {args : Vector Byte 8} (h : 64 ≤ (args[0]).toNat) : slotArg args = none := by
  rw [← numAt_eq args (by omega)] at h
  exact dif_neg (by omega)

theorem inputArg_eq_some {args : Vector Byte 8} {n : InputIx} (h : (args[0]).toNat = n.val) :
    inputArg args = some n := by
  rw [← numAt_eq args (by omega)] at h
  simp [inputArg, h, n.isLt]

theorem inputArg_eq_none {args : Vector Byte 8} (h : 6 ≤ (args[0]).toNat) : inputArg args = none := by
  rw [← numAt_eq args (by omega)] at h
  exact dif_neg (by omega)

/-! ### The state byte, overruns, NOP and unknown codes -/

/-- Settles O22: DONE empties the mailbox; HELD and WAITING withdraw the command. -/
theorem stateByteAcknowledgesOrWithdraws : Obligations.StateByteAcknowledgesOrWithdraws := by
  refine ⟨fun v s hb hp => ⟨fun done => ?acknowledged, fun empty => ?ignored⟩,
    fun v s hb hp => ⟨fun held busy => ?held, fun waiting placed => ?placed,
      fun p waiting none hpass hprobe => ?granted⟩⟩
  case acknowledged =>
    exact exec_dataByte_unseen (f := acknowledgeAct s) (act := emptyMailbox) rfl hb hp
      (if_pos done) rfl rfl
  case ignored =>
    exact exec_dataByte_unseen (f := registerAct v s) (act := id) rfl hb hp (if_pos empty) rfl rfl
  all_goals
    have covered : s.mailbox.state = .held ∨ s.mailbox.state = .waiting := by simp [*]
    have withdrawn : withdrawAct s .mailboxState = some withdrawCommand := if_pos (by simpa using covered)
  case held =>
    obtain ⟨p, hpass⟩ := Option.ne_none_iff_exists'.mp busy
    have acted : withdrawCommand s = emptyMailbox s := by
      unfold withdrawCommand
      rw [held]
      exact arbitrate_busy (emptyMailbox s) hpass
    have frame : (withdrawCommand s).catalog = s.catalog ∧ (withdrawCommand s).inputs = s.inputs := by
      rw [acted]; exact ⟨rfl, rfl⟩
    rw [exec_dataByte_unseen (f := withdrawAct s) rfl hb hp withdrawn frame.1 frame.2, acted]
    rfl
  case placed =>
    obtain ⟨q, hq⟩ := Option.isSome_iff_exists.mp placed
    have hq' : (emptyMailbox s).request probeRequester = some q := hq
    have acted : withdrawCommand s = (emptyMailbox s).withRequest probeRequester none := by
      unfold withdrawCommand withdrawProbe
      rw [waiting]
      simp only [hq']
    have frame : (withdrawCommand s).catalog = s.catalog ∧ (withdrawCommand s).inputs = s.inputs := by
      rw [acted]; exact ⟨rfl, rfl⟩
    rw [exec_dataByte_unseen (f := withdrawAct s) rfl hb hp withdrawn frame.1 frame.2, acted]
    rfl
  case granted =>
    have none' : (emptyMailbox s).request probeRequester = Option.none := none
    have hpass' : (emptyMailbox s).classifier.pass = some p := hpass
    have acted : withdrawCommand s
        = (emptyMailbox s).withPass (some { p with probeCurrent := some false }) := by
      unfold withdrawCommand withdrawProbe
      rw [waiting]
      simp only [none', hpass', Option.map_some, hprobe, if_true]
    have frame : (withdrawCommand s).catalog = s.catalog ∧ (withdrawCommand s).inputs = s.inputs := by
      rw [acted]; exact ⟨rfl, rfl⟩
    rw [exec_dataByte_unseen (f := withdrawAct s) rfl hb hp withdrawn frame.1 frame.2, acted]
    rfl

/-- The twelve commands are those with the codes 1 to 12. -/
theorem isCommandCode_commandCode (c : Command) : isCommandCode (commandCode c) = true := by
  cases c <;> rfl

theorem commandOfCode_eq_none {code : Byte} (h : isCommandCode code = false) :
    commandOfCode code = none := by
  refine List.find?_eq_none.mpr fun c _ => ?_
  simp only [beq_iff_eq]
  rintro rfl
  exact absurd h (by simp [isCommandCode_commandCode])

/-- Settles O23: none of the three touches a block beside the mailbox. -/
theorem overrunNopAndUnknownCodes : Obligations.OverrunNopAndUnknownCodes := by
  refine ⟨fun v s hb hp busy => ?overrun, fun s ready => ⟨?nop, fun code known => ?unknown⟩⟩
  case overrun =>
    exact exec_dataByte_unseen (f := overrunAct s) (act := fun s => s.setGlobalNotice .mailboxOverrun)
      rfl hb hp (if_neg busy) rfl rfl
  case nop =>
    exact exec_command_unseen (issue := issueNow (commandCode .nop) (refuse .ok [])) rfl ready rfl rfl
  case unknown =>
    have unnamed : commandOfCode code = none :=
      commandOfCode_eq_none (by simpa [Instr.wellFormed] using known)
    have plain : (if code = commandCode .commit then some s.port.staging else none) = none :=
      if_neg fun e => absurd (e ▸ unnamed) (by decide)
    have hexec : exec (.unknownCommand code) s
        = onCommand (issueNow code (refuse .badCommand [code])) s :=
      if_neg (by rw [unnamed]; exact Bool.false_ne_true)
    rw [exec_command_unseen hexec ready rfl rfl, ← plain]
    rfl

/-! ### Catalog changes and reads -/

/-- Settles O29: a held change is only copied. -/
theorem closedGateHoldsCatalogChanges : Obligations.ClosedGateHoldsCatalogChanges := by
  intro s c code ready gate listed
  have held {c : Instr} {code : Byte} {run : State → Executed}
      (hexec : exec c s = onCommand (issueChange code run) s) :
      exec c s = .next (afterByte { s with
        mailbox :=
          { state := .held, command := code, args := s.mailbox.args
            accepted := some (acceptedCopy code s), result := none
            data := Vector.replicate 21 0 } }) := by
    have acted := issueChange_closed (code := code) (run := run) gate
    rw [exec_command_unseen hexec ready (by rw [acted]) (by rw [acted]), acted]
  simp only [List.mem_cons, Prod.mk.injEq, List.not_mem_nil, or_false] at listed
  obtain ⟨rfl, rfl⟩ | ⟨rfl, rfl⟩ | ⟨rfl, rfl⟩ | ⟨rfl, rfl⟩ | ⟨rfl, rfl⟩ := listed
  · exact held (run := runCommit s.mailbox.args s.port.staging) rfl
  · exact held (run := runSuspend s.mailbox.args) rfl
  · exact held (run := runResume s.mailbox.args) rfl
  · exact held (run := runRetire s.mailbox.args) rfl
  · exact held (run := runClear) rfl

/-- Settles O25: the reads change nothing but the staging record, which is the port's. -/
theorem catalogReadsReport : Obligations.CatalogReadsReport := by
  intro s ready
  have exec_fetch := exec_now (c := .fetchEntry) (code := commandCode .fetchEntry)
    (run := runFetch s.mailbox.args) (s := s) rfl ready
  have exec_find := exec_now (c := .findTag) (code := commandCode .findTag)
    (run := runFindTag s.mailbox.args) (s := s) rfl ready
  refine ⟨fun i hi => ⟨_, exec_fetch, ?fetched⟩, fun outside => ⟨_, exec_fetch, ?refused⟩,
    fun tag htag law => ⟨_, exec_find, ?found⟩⟩
  case fetched =>
    simp only [runFetch, slotArg_eq_some hi]
    rw [answered_unseen (s := s) ?_ ?_]
    · exact ⟨rfl, ⟨rfl, rfl, rfl, rfl⟩, rfl, rfl, rfl, rfl, rfl⟩
    · rfl
    · rfl
  case refused =>
    simp only [runFetch, slotArg_eq_none outside]
    obtain ⟨port, completed, flags, catalog, classifier, inputs, free⟩ :=
      answered_same (s := s) (r := refuse .badSlot [] (acceptCommand (commandCode .fetchEntry) s)) rfl
    exact ⟨port, completed, flags, catalog, classifier, inputs, free⟩
  case found =>
    have sorted := ((catalogLaw_iff s).mp law).2.2.1
    have word : wordAt s.mailbox.args 0 = tag := by
      rw [← htag, wordAt, numAt_eq _ (by omega), numAt_eq _ (by omega)]
    have same : (runFindTag s.mailbox.args (acceptCommand (commandCode .findTag) s)).state
        = acceptCommand (commandCode .findTag) s := by
      unfold runFindTag
      split <;> rfl
    obtain ⟨port, completed, flags, catalog, classifier, inputs, free⟩ := answered_same same
    refine ⟨fun i hi => ?_, fun absent => ?_, port, flags, catalog, classifier, inputs, free⟩
    · have hit : findTag (wordAt s.mailbox.args 0)
          (acceptCommand (commandCode .findTag) s).catalog.tagMap = some i :=
        (findTag_eq_some sorted).mpr (word ▸ hi)
      unfold runFindTag at completed ⊢
      rw [hit] at completed ⊢
      exact completed
    · have miss : findTag (wordAt s.mailbox.args 0)
          (acceptCommand (commandCode .findTag) s).catalog.tagMap = none :=
        findTag_eq_none.mpr (word ▸ absent)
      unfold runFindTag at completed ⊢
      rw [miss] at completed ⊢
      exact completed

theorem markRecheck_eq (t : Tracker) :
    markRecheck t = { t with recheck := t.recheck || t.state == .unmatched } := by
  unfold markRecheck
  split
  · next unmatched => simp [unmatched]
  · next other => rw [beq_false_of_ne other, Bool.or_false]

/-- The marks are what R18 and R19 say. -/
theorem marksHanded_handMarks (s : State) : marksHanded s (handMarks s) := by
  refine ⟨rfl, fun n => ?_⟩
  rw [handMarks, input_mapTrackers, markRecheck_eq]
  rfl

theorem installedSlot_eq {x : Slot} (e : Entry) (law : SlotLaw x) :
    installedSlot e x =
      { state := if x.state = .free then .active else x.state
        generation := if x.state = .free ∨ x.generation = 255 then 1 else x.generation + 1
        bindCount := if x.state = .free then 0 else x.bindCount
        entry := e } := by
  obtain ⟨generation, -, -⟩ := law
  unfold installedSlot nextGeneration
  cases h : x.state with
  | free => simp [generation.mp h]
  | active | suspended => simp

/-- The installation of an entry is what R12 says. -/
theorem entryInstalled_installEntry {s : State} (law : CatalogLaw s) (i : SlotIx) (e : Entry) :
    entryInstalled i e s (s.withCatalog (installEntry i e s.catalog)) := by
  refine ⟨?_, fun j hj => ?_, ?_, fun tag j => ?_⟩
  · rw [slot_installEntry, if_pos rfl, installedSlot_eq e (law.1 i)]
  · rw [slot_installEntry, if_neg hj]
  · change (if (s.slot i).state = .free then s.catalog.occupancy + 1 else s.catalog.occupancy) = _
    split <;> rfl
  · change (tag, j) ∈ insertTag e.tag i (eraseSlotTag i s.catalog.tagMap) ↔ _
    rw [mem_insertTag, mem_eraseSlotTag, Prod.mk.injEq, and_comm (a := tag = e.tag)]

/-- A commit that finds its slot free of failing checks and its tag free or its own. -/
theorem runCommit_passed {args : Vector Byte 8} {image : Vector Byte 32} {s : State} {i : SlotIx}
    (slot : slotArg args = some i) (fields : fieldFailure image = none)
    (tag : ∀ j, findTag (stagedEntry image).tag s.catalog.tagMap = some j → j = i) :
    runCommit args image s = commitPassed i (stagedEntry image) s := by
  unfold runCommit commitFields
  simp only [slot, fields]
  split
  · next j found => exact if_pos (tag j found)
  · rfl

/-- The three refusals of a commit, in their order. -/
theorem runCommit_refused {args : Vector Byte 8} {image : Vector Byte 32} {s : State}
    {code : ResultCode} {data : List Byte} (sorted : s.catalog.tagMap.Pairwise fun a b => a.1 < b.1)
    (h : commitRefused (args[0]).toNat image s code data) :
    runCommit args image s = refuse code data s := by
  have named (inside : (args[0]).toNat < 64) : ∃ i : SlotIx, i.val = (args[0]).toNat
      ∧ slotArg args = some i := ⟨⟨_, inside⟩, rfl, slotArg_eq_some rfl⟩
  obtain ⟨outside, rfl, rfl⟩ | ⟨inside, rfl, c, fails, rfl⟩
    | ⟨inside, passes, rfl, j, taken, other, rfl⟩ := h
  · unfold runCommit
    rw [slotArg_eq_none outside]
  · obtain ⟨i, -, slot⟩ := named inside
    unfold runCommit
    simp only [slot, fieldFailure_eq_some.mpr fails]
  · obtain ⟨i, hi, slot⟩ := named inside
    have found : findTag (stagedEntry image).tag s.catalog.tagMap = some j :=
      (findTag_eq_some sorted).mpr taken
    have ne : j ≠ i := fun e => other (by rw [e, hi])
    unfold runCommit commitFields
    simp only [slot, fieldFailure_eq_none.mpr passes, found, if_neg ne]

/-- Settles O27: the checks pass, the entry is installed, the marks are handed on. -/
theorem commitInstallsEntry : Obligations.CommitInstallsEntry := by
  intro s i law ready gate hi passes tag
  have sorted := ((catalogLaw_iff s).mp law).2.2.1
  have run := runCommit_passed (s := acceptCommand (commandCode .commit) s) (slotArg_eq_some hi)
    (fieldFailure_eq_none.mpr passes) fun j found => tag j ((findTag_eq_some sorted).mp found)
  have hexec := exec_change (c := .commit) (run := runCommit s.mailbox.args s.port.staging) rfl ready
    gate
  rw [run] at hexec
  refine ⟨_, hexec, ?_⟩
  have frame : ChangeFrame (acceptCommand (commandCode .commit) s)
      (commitPassed i (stagedEntry s.port.staging) (acceptCommand (commandCode .commit) s)).state :=
    (withCatalog_changeFrame _ _).trans (handMarks_changeFrame _)
  have executing := Executing.of_change frame
  exact ⟨entryInstalled_installEntry law i _,
    marksHanded_handMarks (s.withCatalog (installEntry i (stagedEntry s.port.staging) s.catalog)),
    executing.completedWith, rfl,
    executing.portAdvanced, rfl⟩

/-- Settles O28: a refusal answers with the code of the first failing check. -/
theorem commitRefusalsChangeNothing : Obligations.CommitRefusalsChangeNothing := by
  intro s code data law ready gate refused
  have run := runCommit_refused (s := acceptCommand (commandCode .commit) s)
    ((catalogLaw_iff s).mp law).2.2.1 refused
  have hexec := exec_change (c := .commit) (run := runCommit s.mailbox.args s.port.staging) rfl ready
    gate
  rw [run] at hexec
  obtain ⟨port, completed, flags, catalog, classifier, inputs, free⟩ := answered_same (s := s)
    (r := refuse code data (acceptCommand (commandCode .commit) s)) rfl
  exact ⟨_, hexec, completed, flags, catalog, classifier, inputs, free, port⟩

theorem runToggle_done {required new : SlotState} {args : Vector Byte 8} {s : State} {i : SlotIx}
    (hi : (args[0]).toNat = i.val) (stands : (s.slot i).state = required) :
    runToggle required new args s =
      { state := handMarks (s.withSlot i { s.slot i with state := new }), code := .ok
        data := [slotByte i, slotStateCode new, (s.slot i).generation,
          loByte (s.slot i).bindCount] } := by
  unfold runToggle
  simp only [slotArg_eq_some hi, if_pos stands, slot_withSlot, if_true]
  rfl

theorem runToggle_refused {required new : SlotState} {args : Vector Byte 8} {s : State} {i : SlotIx}
    (hi : (args[0]).toNat = i.val) (other : (s.slot i).state ≠ required) :
    runToggle required new args s
      = refuse .badState [slotByte i, slotStateCode (s.slot i).state] s := by
  unfold runToggle
  simp only [slotArg_eq_some hi, if_neg other]

theorem runToggle_outside {required new : SlotState} {args : Vector Byte 8} {s : State}
    (far : 64 ≤ (args[0]).toNat) : runToggle required new args s = refuse .badSlot [] s := by
  unfold runToggle
  rw [slotArg_eq_none far]

/-- The three outcomes of SUSPEND and RESUME. -/
theorem toggle_outcomes {required new : SlotState} {code : Byte} {s : State} {r : Executed}
    (hr : runToggle required new s.mailbox.args (acceptCommand code s) = r) :
    portAdvanced s (answered s r) ∧ (answered s r).notices.flags = s.notices.flags
      ∧ (answered s r).freeIndex = s.freeIndex
      ∧ (∀ i, (s.mailbox.args[0]).toNat = i.val → (s.slot i).state = required →
          (answered s r).slot i = { s.slot i with state := new }
            ∧ otherSlotsKept i s (answered s r) ∧ marksHanded s (answered s r)
            ∧ completedWith (acceptedCopy code s) .ok
              [slotByte i, slotStateCode new, (s.slot i).generation, loByte (s.slot i).bindCount] s
              (answered s r))
      ∧ (∀ i, (s.mailbox.args[0]).toNat = i.val → (s.slot i).state ≠ required →
          (answered s r).catalog = s.catalog ∧ (answered s r).classifier = s.classifier
            ∧ (answered s r).inputs = s.inputs
            ∧ completedWith (acceptedCopy code s) .badState
              [slotByte i, slotStateCode (s.slot i).state] s (answered s r))
      ∧ (64 ≤ (s.mailbox.args[0]).toNat →
          (answered s r).catalog = s.catalog ∧ (answered s r).classifier = s.classifier
            ∧ (answered s r).inputs = s.inputs
            ∧ completedWith (acceptedCopy code s) .badSlot [] s (answered s r)) := by
  have toggled (i : SlotIx) (hi : (s.mailbox.args[0]).toNat = i.val)
      (stands : (s.slot i).state = required) := hr.symm.trans
    (runToggle_done (new := new) (s := acceptCommand code s) hi stands)
  have refused (i : SlotIx) (hi : (s.mailbox.args[0]).toNat = i.val)
      (other : (s.slot i).state ≠ required) := hr.symm.trans
    (runToggle_refused (new := new) (s := acceptCommand code s) hi other)
  have outside (far : 64 ≤ (s.mailbox.args[0]).toNat) := hr.symm.trans
    (runToggle_outside (required := required) (new := new) (s := acceptCommand code s) far)
  have executing : Executing code s r.state ∧ r.state.notices.flags = s.notices.flags
      ∧ r.state.freeIndex = s.freeIndex := by
    subst hr
    obtain same | ⟨i, -, -, eq⟩ := runToggle_cases required new s.mailbox.args (acceptCommand code s)
    · rw [same]; exact ⟨.accepted code s, rfl, rfl⟩
    · rw [eq]
      exact ⟨.of_change ((withCatalog_changeFrame _ _).trans (handMarks_changeFrame _)), rfl, rfl⟩
  obtain ⟨executing, flags, free⟩ := executing
  refine ⟨executing.portAdvanced, flags, free, fun i hi stands => ?_, fun i hi other => ?_,
    fun far => ?_⟩
  · have completed := executing.completedWith
    rw [toggled i hi stands] at completed ⊢
    refine ⟨?_, ⟨fun j hj => ?_, rfl, rfl⟩,
      marksHanded_handMarks (s.withSlot i { s.slot i with state := new }), completed⟩
    · exact (slot_withSlot s i i _).trans (if_pos rfl)
    · exact (slot_withSlot s i j _).trans (if_neg hj)
  · obtain ⟨-, completed, -, catalog, classifier, inputs, -⟩ :=
      answered_same (code := code) (s := s) (r := r) (by rw [refused i hi other]; rfl)
    rw [refused i hi other] at completed catalog classifier inputs ⊢
    exact ⟨catalog, classifier, inputs, completed⟩
  · obtain ⟨-, completed, -, catalog, classifier, inputs, -⟩ :=
      answered_same (code := code) (s := s) (r := r) (by rw [outside far]; rfl)
    rw [outside far] at completed catalog classifier inputs ⊢
    exact ⟨catalog, classifier, inputs, completed⟩

/-- Settles O30: both commands are the same toggle, with the two states exchanged. -/
theorem suspendAndResumeToggle : Obligations.SuspendAndResumeToggle := by
  intro s c required new listed ready gate
  simp only [List.mem_cons, Prod.mk.injEq, List.not_mem_nil, or_false] at listed
  obtain ⟨rfl, rfl, rfl⟩ | ⟨rfl, rfl, rfl⟩ := listed
  · exact ⟨_, exec_change (c := .suspend) (run := runSuspend s.mailbox.args) rfl ready gate,
      toggle_outcomes rfl⟩
  · exact ⟨_, exec_change (c := .resume) (run := runResume s.mailbox.args) rfl ready gate,
      toggle_outcomes rfl⟩

end Sys2Proof.Machine
end

