-- ==== Sys2Proof/Proofs/Requests.lean ====
section
/-! Arbitration in rotation, the submission of a request, and the PROBE that places one. -/

namespace Sys2Proof.Machine

/-! ### The rotation -/

theorem getElem_arbitrationOrder (p : Requester) (k : Requester) :
    (arbitrationOrder p)[k.val]'k.isLt = p + k := by
  fin_cases k
  · exact (Fin.add_zero p).symm
  all_goals rfl

theorem mem_arbitrationOrder (p r : Requester) : r ∈ arbitrationOrder p := by
  have place := getElem_arbitrationOrder p (r - p)
  rw [add_sub_cancel] at place
  exact place ▸ List.getElem_mem _

/-- The requester found is occupied, and the first from the pointer on. -/
theorem nextRequester_eq_some {c : Classifier} {r : Requester} (h : nextRequester c = some r) :
    (c.requests[r]).isSome
      ∧ ∀ k : Requester, (c.requests[k]).isSome → (r - c.pointer).val ≤ (k - c.pointer).val := by
  obtain ⟨occupied, i, hi, found, before⟩ := List.find?_eq_some_iff_getElem.mp h
  refine ⟨occupied, fun k hk => Nat.le_of_not_lt fun earlier => ?_⟩
  have place : r = c.pointer + ⟨i, hi⟩ :=
    found.symm.trans (getElem_arbitrationOrder c.pointer ⟨i, hi⟩)
  have index : (r - c.pointer).val = i := by rw [place, add_sub_cancel_left]
  have at_k := (getElem_arbitrationOrder c.pointer (k - c.pointer)).trans (add_sub_cancel _ _)
  have passed := (congrArg (fun j : Requester => !(c.requests[j]).isSome) at_k).symm.trans
    (before (k - c.pointer).val (index ▸ earlier))
  exact absurd ((congrArg not hk).symm.trans passed) Bool.false_ne_true

theorem nextRequester_isSome {c : Classifier} {k : Requester} (h : (c.requests[k]).isSome) :
    ∃ r, nextRequester c = some r :=
  Option.isSome_iff_exists.mp (List.find?_isSome.mpr ⟨k, mem_arbitrationOrder c.pointer k, h⟩)

/-- A request that is not granted comes nearer to its grant. -/
theorem rotation_nearer : ∀ p r k : Requester, k ≠ r → (r - p).val ≤ (k - p).val →
    (k - (r + 1)).val < (k - p).val ∧ (k - p).val ≤ 6 := by decide

/-- The grant that arbitration makes to an idle classifier. -/
theorem arbitrateClassifier_grants {c : Classifier} {r : Requester} {q : Request}
    (idle : c.pass = none) (next : nextRequester c = some r) (hq : c.requests[r] = some q) :
    arbitrateClassifier c = grant r q c := by
  unfold arbitrateClassifier
  rw [idle, next]
  simp only [hq]

/-- Settles O42: the first occupied slot from the pointer on is granted. -/
theorem arbitrationRotates : Obligations.ArbitrationRotates := by
  rintro c idle ⟨k, hk⟩
  obtain ⟨r, next⟩ := nextRequester_isSome hk
  obtain ⟨occupied, first⟩ := nextRequester_eq_some next
  obtain ⟨q, hq⟩ := Option.isSome_iff_exists.mp occupied
  refine ⟨r, q, hq, ?_, first, fun k ne hk => rotation_nearer c.pointer r k ne (first k hk)⟩
  rw [arbitrateClassifier_grants idle next hq]
  rfl

/-! ### Submissions -/

/-- An idle classifier with no other request waiting grants the one submitted. -/
theorem nextRequester_of_only {c : Classifier} {r : Requester} (occupied : (c.requests[r]).isSome)
    (only : ∀ k, k ≠ r → c.requests[k] = none) : nextRequester c = some r := by
  obtain ⟨k, next⟩ := nextRequester_isSome occupied
  have taken := (nextRequester_eq_some next).1
  have same : k = r := by
    by_contra ne
    simp [only k ne] at taken
  rw [next, same]

theorem requests_cleared {v : Vector (Option Request) 7} {r : Requester}
    (only : ∀ k : Requester, k ≠ r → v[k] = none) : v.set r none = Vector.replicate 7 none := by
  refine Vector.ext fun k hk => ?_
  rw [Vector.getElem_set, Vector.getElem_replicate]
  split
  · rfl
  · next ne => exact only ⟨k, hk⟩ fun e => ne (congrArg Fin.val e).symm

/-- A submission waits while the classifier is busy, and is granted at once where it is idle and no
other request waits. -/
theorem requestSubmitted_of_classifier {r : Requester} {q : Request} {s t : State}
    (h : t.classifier = (submit r q s).classifier) : requestSubmitted r q s t := by
  refine ⟨fun busy => ?_, fun idle only => ?_⟩
  · obtain ⟨p, hp⟩ := Option.ne_none_iff_exists'.mp busy
    rw [h, submit_busy s hp]
    rfl
  · have occupied : (s.withRequest r (some q)).classifier.requests[r] = some q :=
      Vector.getElem_set_self ..
    have others : ∀ k, k ≠ r → (s.withRequest r (some q)).classifier.requests[k] = none := by
      intro k ne
      exact (request_withRequest s r k (some q)).trans ((if_neg ne).trans (only k ne))
    have granted : arbitrateClassifier (s.withRequest r (some q)).classifier
        = grant r q (s.withRequest r (some q)).classifier :=
      arbitrateClassifier_grants idle (nextRequester_of_only (by rw [occupied]; rfl) others) occupied
    have kinds : (grantedPass r q).tally = if q.kind = .search then some emptyTally else none := by
      unfold grantedPass
      cases q.kind <;> rfl
    rw [h, submit, arbitrate_classifier, granted, ← kinds]
    unfold grant
    rw [requests_cleared others]
    rfl

theorem requestSubmitted_submit (r : Requester) (q : Request) (s : State) :
    requestSubmitted r q s (submit r q s) := requestSubmitted_of_classifier rfl

/-! ### PROBE -/

/-- The checks of R171 fail in order. -/
theorem probeFailure_eq {args : Vector Byte 8} :
    probeFailure args =
      if wordAt args 0 < 1280 ∨ 65528 < wordAt args 0 then some 1
      else if wordAt args 0 ≤ wordAt args 2 then some 2
      else if wordAt args 4 < 16 ∨ 4095 < wordAt args 4 then some 3
      else if 15 < numAt args 7 then some 4 else none := by
  have out (lo hi x : Nat) : (!within lo hi x) = decide (x < lo ∨ hi < x) := by
    rw [Bool.eq_iff_iff, Bool.not_eq_true', ← Bool.not_eq_true, within, Bool.and_eq_true,
      decide_eq_true_eq, decide_eq_true_eq, decide_eq_true_eq]
    omega
  simp only [probeFailure, probeChecks, List.find?_cons, out]
  by_cases h1 : wordAt args 0 < 1280 ∨ 65528 < wordAt args 0
  · simp [h1]
  by_cases h2 : wordAt args 0 ≤ wordAt args 2
  · simp [h1, h2]
  by_cases h3 : wordAt args 4 < 16 ∨ 4095 < wordAt args 4
  · simp [h1, h2, h3]
  by_cases h4 : 15 < numAt args 7
  · simp [h1, h2, h3, h4]
  · simp [h1, h2, h3, h4]

/-- Settles O33: a probe set that passes is a request of slot 6; one that fails is a refusal. -/
theorem probePlacesRequest : Obligations.ProbePlacesRequest := by
  intro s ready
  have flags7 : numAt s.mailbox.args 7 = (s.mailbox.args[7]).toNat := numAt_eq _ (by omega)
  cases failure : probeFailure s.mailbox.args with
  | none =>
    have issued : issueProbe s = submit probeRequester (probeRequest s.mailbox.args)
        ((acceptCommand (commandCode .probe) s).withMailbox
          { (acceptCommand (commandCode .probe) s).mailbox with state := .waiting }) := by
      unfold issueProbe
      rw [failure]
    refine ⟨_, exec_command_unseen (c := .probe) (issue := issueProbe) rfl ready (by rw [issued]; rfl)
      (by rw [issued]; rfl), by rw [issued]; rfl, by rw [issued]; rfl, by rw [issued]; rfl,
      by rw [issued]; rfl, by rw [issued]; rfl, fun _ => ?_, fun code bad => ?_⟩
    · rw [issued]
      exact ⟨requestSubmitted_submit _ _ _, rfl, rfl⟩
    · rw [probeFailure_eq, flags7] at failure
      simp only [probeSet] at bad
      split_ifs at failure
      omega
  | some code =>
    have issued : issueProbe s
        = completeCommand (refuse .badRecord [loByte code] (acceptCommand (commandCode .probe) s)) := by
      unfold issueProbe
      rw [failure]
    obtain ⟨port, completed, flags, catalog, classifier, inputs, free⟩ := answered_same (s := s)
      (r := refuse .badRecord [loByte code] (acceptCommand (commandCode .probe) s)) rfl
    refine ⟨_, exec_command (c := .probe) (issue := issueProbe) rfl ready, ?_⟩
    rw [issued]
    refine ⟨catalog, inputs, port, flags, free, fun ⟨legal, low⟩ => ?_, fun other bad => ?_⟩
    · obtain ⟨low0, high0, width, low4, high4, -⟩ := legal
      simp only [probeSet] at low0 high0 width low4 high4
      rw [probeFailure_eq, flags7] at failure
      split_ifs at failure <;> omega
    · have same : code = other := by
        rw [probeFailure_eq, flags7] at failure
        simp only [probeSet] at bad
        split_ifs at failure <;> simp only [Option.some.injEq] at failure <;> omega
      exact ⟨classifier, same ▸ completed⟩

end Sys2Proof.Machine
end

