-- ==== Sys2Proof/Proofs/Images.lean ====
section
/-! The entry image reads back, and the consistency of sets. -/

namespace Sys2Proof.Machine

/-! ### The bytes of an entry image -/

theorem byteAt_slotImage {x : Slot} {k : Nat} (occupied : x.state ≠ .free) (hk : k < 32) :
    byteAt (padTo 32 (slotImage x)) k = (entryImage x)[k]?.getD 0 := by
  have image : slotImage x = entryImage x := by
    unfold slotImage
    split
    · next free => exact absurd free occupied
    · rfl
    · rfl
  rw [byteAt_padTo _ hk, image]

/-- The presence byte of an entry (R209). -/
def presenceByte (e : Entry) : Nat :=
  e.hWidth.isSome.toNat + 4 * e.vWidth.isSome.toNat + 16 * e.presentation.isSome.toNat

/-- The constraint byte of an entry (R209). -/
def constraintByte (e : Entry) : Nat :=
  polarityCode e.hPolarity + 4 * polarityCode e.vPolarity + 16 * scanCode e.scan
    + 64 * formCode e.form

/-- The 32 bytes one by one (R208). -/
theorem entryImage_eq (x : Slot) : entryImage x =
    [slotStateCode x.state, x.generation, loByte x.bindCount, loByte x.entry.rank,
      loByte x.entry.tag, hiByte x.entry.tag, loByte x.entry.hPeriod.min, hiByte x.entry.hPeriod.min,
      loByte x.entry.hPeriod.max, hiByte x.entry.hPeriod.max, loByte x.entry.vLines.min,
      hiByte x.entry.vLines.min, loByte x.entry.vLines.max, hiByte x.entry.vLines.max,
      loByte (presenceByte x.entry), loByte (constraintByte x.entry),
      loByte (windowBounds x.entry.hWidth).min, hiByte (windowBounds x.entry.hWidth).min,
      loByte (windowBounds x.entry.hWidth).max, hiByte (windowBounds x.entry.hWidth).max,
      loByte (windowBounds x.entry.vWidth).min, loByte (windowBounds x.entry.vWidth).max,
      loByte (presentationFields x.entry.presentation).totalPx,
      hiByte (presentationFields x.entry.presentation).totalPx,
      loByte (presentationFields x.entry.presentation).activePx,
      hiByte (presentationFields x.entry.presentation).activePx,
      loByte (presentationFields x.entry.presentation).activeLines,
      hiByte (presentationFields x.entry.presentation).activeLines,
      loByte (presentationFields x.entry.presentation).firstPx,
      hiByte (presentationFields x.entry.presentation).firstPx,
      loByte (presentationFields x.entry.presentation).firstLine,
      hiByte (presentationFields x.entry.presentation).firstLine] := by
  simp [entryImage, wordBytes, presenceByte, constraintByte]

theorem windowBounds_lt {w : Option Window} {lo hi : Nat}
    (h : ∀ x, w = some x → x.legal lo hi) :
    (windowBounds w).min ≤ hi ∧ (windowBounds w).max ≤ hi := by
  cases w with
  | none => exact ⟨Nat.zero_le _, Nat.zero_le _⟩
  | some x =>
    obtain ⟨-, order, top⟩ := h x rfl
    exact ⟨order.trans top, top⟩

theorem presentationFields_lt {p : Option Presentation} (h : ∀ x, p = some x → x.legal) :
    (presentationFields p).totalPx < 65536 ∧ (presentationFields p).activePx < 65536
      ∧ (presentationFields p).activeLines < 65536 ∧ (presentationFields p).firstPx < 65536
      ∧ (presentationFields p).firstLine < 65536 := by
  cases p with
  | none => simp [presentationFields]
  | some x =>
    obtain ⟨-, total, -, active, -, lines, first, line⟩ := h x rfl
    simp only [presentationFields, Option.getD_some]
    omega

/-- The fields of a legal entry, each at the place R208 gives it. -/
structure ImageFields (img : Vector Byte 32) (e : Entry) : Prop where
  rank : numAt img 3 = e.rank
  tag : wordAt img 4 = e.tag
  hMin : wordAt img 6 = e.hPeriod.min
  hMax : wordAt img 8 = e.hPeriod.max
  vMin : wordAt img 10 = e.vLines.min
  vMax : wordAt img 12 = e.vLines.max
  presence : numAt img 14 = presenceByte e
  constraint : numAt img 15 = constraintByte e
  hwMin : wordAt img 16 = (windowBounds e.hWidth).min
  hwMax : wordAt img 18 = (windowBounds e.hWidth).max
  vwMin : numAt img 20 = (windowBounds e.vWidth).min
  vwMax : numAt img 21 = (windowBounds e.vWidth).max
  totalPx : wordAt img 22 = (presentationFields e.presentation).totalPx
  activePx : wordAt img 24 = (presentationFields e.presentation).activePx
  activeLines : wordAt img 26 = (presentationFields e.presentation).activeLines
  firstPx : wordAt img 28 = (presentationFields e.presentation).firstPx
  firstLine : wordAt img 30 = (presentationFields e.presentation).firstLine

theorem presenceByte_lt (e : Entry) : presenceByte e < 256 := by
  have h := Bool.toNat_le e.hWidth.isSome
  have v := Bool.toNat_le e.vWidth.isSome
  have p := Bool.toNat_le e.presentation.isSome
  unfold presenceByte
  omega

theorem polarityCode_lt (p : Option Polarity) : polarityCode p < 3 := by
  rcases p with _ | _ | _ <;> decide

theorem scanCode_lt (p : Option Scan) : scanCode p < 3 := by
  rcases p with _ | _ | _ <;> decide

theorem formCode_lt (p : Option SyncForm) : formCode p < 3 := by
  rcases p with _ | _ | _ <;> decide

theorem constraintByte_lt (e : Entry) : constraintByte e < 256 := by
  have h := polarityCode_lt e.hPolarity
  have v := polarityCode_lt e.vPolarity
  have i := scanCode_lt e.scan
  have f := formCode_lt e.form
  unfold constraintByte
  omega

/-- A two-byte field of an image at its place. -/
theorem wordAt_slotImage {x : Slot} {k v : Nat} {l : List Byte} (occupied : x.state ≠ .free)
    (image : entryImage x = l) (hk : k + 1 < 32) (low : l[k]? = some (loByte v))
    (high : l[k + 1]? = some (hiByte v)) (bound : v < 65536) :
    wordAt (padTo 32 (slotImage x)) k = v := by
  rw [wordAt, numAt, numAt, byteAt_slotImage occupied (by omega), byteAt_slotImage occupied hk,
    image, low, high]
  exact word_of_bytes bound

/-- A one-byte field of an image at its place. -/
theorem numAt_slotImage {x : Slot} {k v : Nat} {l : List Byte} (occupied : x.state ≠ .free)
    (image : entryImage x = l) (hk : k < 32) (byte : l[k]? = some (loByte v)) (bound : v < 256) :
    numAt (padTo 32 (slotImage x)) k = v := by
  rw [numAt, byteAt_slotImage occupied hk, image, byte]
  exact toNat_loByte_of_lt bound

theorem imageFields_slotImage {x : Slot} (occupied : x.state ≠ .free) (legal : x.entry.legal) :
    ImageFields (padTo 32 (slotImage x)) x.entry := by
  obtain ⟨-, tag, rank, ⟨-, hOrder, hTop⟩, ⟨-, vOrder, vTop⟩, hWidth, vWidth, block⟩ := legal
  obtain ⟨hwMin, hwMax⟩ := windowBounds_lt hWidth
  obtain ⟨vwMin, vwMax⟩ := windowBounds_lt vWidth
  obtain ⟨total, active, lines, first, line⟩ := presentationFields_lt block
  have image := entryImage_eq x
  exact {
    rank := numAt_slotImage occupied image (by omega) rfl (by omega)
    tag := wordAt_slotImage occupied image (by omega) rfl rfl (by omega)
    hMin := wordAt_slotImage occupied image (by omega) rfl rfl (by omega)
    hMax := wordAt_slotImage occupied image (by omega) rfl rfl (by omega)
    vMin := wordAt_slotImage occupied image (by omega) rfl rfl (by omega)
    vMax := wordAt_slotImage occupied image (by omega) rfl rfl (by omega)
    presence := numAt_slotImage occupied image (by omega) rfl (presenceByte_lt _)
    constraint := numAt_slotImage occupied image (by omega) rfl (constraintByte_lt _)
    hwMin := wordAt_slotImage occupied image (by omega) rfl rfl (by omega)
    hwMax := wordAt_slotImage occupied image (by omega) rfl rfl (by omega)
    vwMin := numAt_slotImage occupied image (by omega) rfl (by omega)
    vwMax := numAt_slotImage occupied image (by omega) rfl (by omega)
    totalPx := wordAt_slotImage occupied image (by omega) rfl rfl total
    activePx := wordAt_slotImage occupied image (by omega) rfl rfl active
    activeLines := wordAt_slotImage occupied image (by omega) rfl rfl lines
    firstPx := wordAt_slotImage occupied image (by omega) rfl rfl first
    firstLine := wordAt_slotImage occupied image (by omega) rfl rfl line }

/-! ### What the codes read back to -/

theorem ImageFields.presenceAt {img : Vector Byte 32} {e : Entry} (h : ImageFields img e) :
    Machine.presenceAt img 0 = e.hWidth.isSome.toNat
      ∧ Machine.presenceAt img 2 = e.vWidth.isSome.toNat
      ∧ Machine.presenceAt img 4 = e.presentation.isSome.toNat := by
  have byte : (byteAt img 14).toNat = presenceByte e := h.presence
  have hw := Bool.toNat_le e.hWidth.isSome
  have vw := Bool.toNat_le e.vWidth.isSome
  have p := Bool.toNat_le e.presentation.isSome
  simp only [Machine.presenceAt, twoBits, byte, presenceByte]
  omega

theorem ImageFields.constraintAt {img : Vector Byte 32} {e : Entry} (h : ImageFields img e) :
    Machine.constraintAt img 0 = polarityCode e.hPolarity
      ∧ Machine.constraintAt img 2 = polarityCode e.vPolarity
      ∧ Machine.constraintAt img 4 = scanCode e.scan
      ∧ Machine.constraintAt img 6 = formCode e.form := by
  have byte : (byteAt img 15).toNat = constraintByte e := h.constraint
  have hp := polarityCode_lt e.hPolarity
  have vp := polarityCode_lt e.vPolarity
  have scan := scanCode_lt e.scan
  have form := formCode_lt e.form
  simp only [Machine.constraintAt, twoBits, byte, constraintByte]
  omega

theorem polarityOf_polarityCode (p : Option Polarity) : polarityOf (polarityCode p) = p := by
  rcases p with _ | _ | _ <;> rfl

theorem scanOf_scanCode (p : Option Scan) : scanOf (scanCode p) = p := by
  rcases p with _ | _ | _ <;> rfl

theorem formOf_formCode (p : Option SyncForm) : formOf (formCode p) = p := by
  rcases p with _ | _ | _ <;> rfl

/-- An optional field reads back from its presence and its fields. -/
theorem ite_present {α : Type} (o : Option α) (z : α) :
    (if o.isSome.toNat = 1 then some (o.getD z) else none) = o := by
  cases o <;> rfl

theorem ImageFields.stagedEntry {img : Vector Byte 32} {e : Entry} (h : ImageFields img e) :
    Machine.stagedEntry img = e := by
  obtain ⟨hw, vw, block⟩ := h.presenceAt
  obtain ⟨hp, vp, scan, form⟩ := h.constraintAt
  unfold Machine.stagedEntry
  rw [h.tag, h.rank, h.hMin, h.hMax, h.vMin,
    h.vMax, h.hwMin, h.hwMax, h.vwMin, h.vwMax, h.totalPx,
    h.activePx, h.activeLines, h.firstPx, h.firstLine, hw, vw, block, hp, vp, scan, form,
    polarityOf_polarityCode, polarityOf_polarityCode, scanOf_scanCode, formOf_formCode]
  have hWidth : (if e.hWidth.isSome.toNat = 1 then
      some (Window.mk (windowBounds e.hWidth).min (windowBounds e.hWidth).max) else none)
      = e.hWidth := ite_present e.hWidth ⟨0, 0⟩
  have vWidth : (if e.vWidth.isSome.toNat = 1 then
      some (Window.mk (windowBounds e.vWidth).min (windowBounds e.vWidth).max) else none)
      = e.vWidth := ite_present e.vWidth ⟨0, 0⟩
  rw [hWidth, vWidth]
  have presentation := ite_present e.presentation ⟨0, 0, 0, 0, 0⟩
  exact congrArg (fun p => { e with presentation := p }) presentation

/-- An image with the fields of a legal entry passes every check. -/
theorem ImageFields.fieldsPass {img : Vector Byte 32} {e : Entry} (h : ImageFields img e)
    (legal : e.legal) : Machine.fieldsPass img := by
  obtain ⟨tag, -, rank, hPeriod, vLines, hWidth, vWidth, presentation⟩ := legal
  obtain ⟨hw, vw, block⟩ := h.presenceAt
  obtain ⟨hp, vp, scan, form⟩ := h.constraintAt
  have hpLt := polarityCode_lt e.hPolarity
  have vpLt := polarityCode_lt e.vPolarity
  have scanLt := scanCode_lt e.scan
  have formLt := formCode_lt e.form
  have hwOk : ¬ (1 < e.hWidth.isSome.toNat) ∧ (e.hWidth.isSome.toNat = 1 →
      (windowBounds e.hWidth).min ≤ (windowBounds e.hWidth).max) := by
    cases hx : e.hWidth with
    | none => simp
    | some w => exact ⟨Nat.lt_irrefl 1, fun _ => (hWidth w hx).2.1⟩
  have vwOk : ¬ (1 < e.vWidth.isSome.toNat) ∧ (e.vWidth.isSome.toNat = 1 →
      (windowBounds e.vWidth).min ≤ (windowBounds e.vWidth).max) := by
    cases hx : e.vWidth with
    | none => simp
    | some w => exact ⟨Nat.lt_irrefl 1, fun _ => (vWidth w hx).2.1⟩
  have blockOk : ¬ (1 < e.presentation.isSome.toNat) ∧ (e.presentation.isSome.toNat = 1 →
      (presentationFields e.presentation).legal) := by
    cases hx : e.presentation with
    | none => simp
    | some p => exact ⟨Nat.lt_irrefl 1, fun _ => presentation p hx⟩
  rw [← fieldFailure_eq_none, fieldFailure, Option.map_eq_none_iff, List.find?_eq_none]
  unfold Presentation.legal at blockOk
  simp only [fieldChecks, List.forall_mem_cons, List.not_mem_nil, false_imp_iff, implies_true,
    and_true, Bool.not_eq_true', Bool.or_eq_true, Bool.and_eq_true, decide_eq_true_eq, within,
    ← Bool.not_eq_true, windowOk_iff, not_not, h.tag, h.rank, h.hMin, h.hMax, h.vMin,
    h.vMax, h.hwMin, h.hwMax,
    h.vwMin, h.vwMax, h.totalPx, h.activePx, h.activeLines, h.firstPx, h.firstLine, hw, vw, block,
    hp, vp, scan, form]
  exact ⟨by omega, by omega, hPeriod, vLines, by omega, by omega, by omega, by omega, by omega,
    by omega, by omega, by omega, by omega, by omega, by omega, by omega⟩

/-- Settles O26: every field stands at its place of the image, and each code reads back. -/
theorem entryImageReadsBack : Obligations.EntryImageReadsBack := by
  intro x occupied legal few
  have fields := imageFields_slotImage occupied legal
  have byte (k : Nat) (hk : k < 32) : (padTo 32 (slotImage x))[k] = (entryImage x)[k]?.getD 0 := by
    rw [← byteAt_slotImage occupied hk, byteAt, Vector.getElem?_eq_getElem hk]
    rfl
  rw [byte 0 (by omega), byte 1 (by omega), byte 2 (by omega), entryImage_eq]
  exact ⟨fields.stagedEntry, fields.fieldsPass legal, rfl, rfl, toNat_loByte_of_lt (by omega)⟩

/-! ### Consistency -/

theorem consistent_iff (a b : MeasSet) : consistent a b = true ↔
    ((a.sync.hPeriod : Int) - b.sync.hPeriod).natAbs ≤ 8
      ∧ ((a.sync.vLines : Int) - b.sync.vLines).natAbs ≤ 1
      ∧ a.sync.hPolarity = b.sync.hPolarity ∧ a.sync.vPolarity = b.sync.vPolarity
      ∧ a.sync.scan = b.sync.scan ∧ a.sync.form = b.sync.form := by
  have close (x y k : Nat) : ((x : Int) - y).natAbs ≤ k ↔ x ≤ y + k ∧ y ≤ x + k := by omega
  simp only [consistent, Bool.and_eq_true, decide_eq_true_eq, beq_iff_eq, close, and_assoc]

theorem consistent_comm (a b : MeasSet) : consistent a b = consistent b a := by
  have swap (x y : Nat) : ((x : Int) - y).natAbs = ((y : Int) - x).natAbs := by omega
  rw [Bool.eq_iff_iff, consistent_iff, consistent_iff, swap, swap a.sync.vLines,
    eq_comm (a := a.sync.hPolarity), eq_comm (a := a.sync.vPolarity), eq_comm (a := a.sync.scan),
    eq_comm (a := a.sync.form)]

/-- A set that differs from its fellows in h_period alone. -/
def setOfPeriod (hPeriod : Nat) : MeasSet :=
  { seq := 0
    sync :=
      { hPeriod := hPeriod, hWidth := 0, vLines := 16, vWidth := 0, hPolarity := .negative
        vPolarity := .negative, scan := .progressive, form := .separate }
    halfLine := false, noiseSeen := false }

/-- Settles O49; three sets at steps of 8 eighths show that the relation is not transitive. -/
theorem consistencyOfSets : Obligations.ConsistencyOfSets :=
  ⟨consistent_iff, consistent_comm, setOfPeriod 1280, setOfPeriod 1288, setOfPeriod 1296, rfl, rfl,
    rfl⟩

end Sys2Proof.Machine
end

