-- ==== Sys2Proof/Proofs/Releases.lean ====
section
/-! Changes of state and releases in full, and the commands and writes that are made of them for one
input: enables and disables, REBIND, CLEAR_FAULT and RESTART_CORE. -/

namespace Sys2Proof.Machine

/-! ### Changes of state -/

theorem keepsRequest_iff {old new : TrackerState} : keepsRequest old new = true ↔
    (new = .bound ∧ old = .coasting) ∨ (new = .coasting ∧ old = .bound) := by
  cases old <;> cases new <;> simp [keepsRequest]

theorem dropsHeld_iff {x : TrackerState} : dropsHeld x = true ↔
    x = .idle ∨ x = .silent ∨ x = .settling ∨ x = .fault := by
  cases x <;> simp [dropsHeld]

theorem getElem_set_of_ne {α : Type} {k : Nat} (v : Vector α k) {i j : Fin k} (h : j ≠ i) (x : α) :
    (v.set i x)[j] = v[j] :=
  Vector.getElem_set_ne i.isLt j.isLt fun e => h (Fin.ext e).symm

theorem set_of_getElem {α : Type} {k : Nat} (v : Vector α k) {i : Fin k} {x : α} (h : v[i] = x) :
    v.set i x = v := by
  subst h
  exact Vector.set_getElem_self i.isLt

/-- A change of state touches one slot of requests and nothing else of the classifier (R109). -/
theorem otherRequestsKept_changeState {n : InputIx} {new : TrackerState} {s u t : State}
    (hu : u.classifier = s.classifier) (ht : t.classifier = (changeState n new u).classifier) :
    otherRequestsKept (inputRequester n) s t := by
  rw [changeState_classifier, hu] at ht
  refine ⟨fun q hq => ?_, by rw [ht], by rw [ht], by rw [ht], by rw [ht]⟩
  rw [State.request, ht]
  exact getElem_set_of_ne s.classifier.requests hq _

/-- In every change but the two between BOUND and COASTING the request goes (R109). -/
theorem request_changeState {n : InputIx} {new : TrackerState} {u t : State}
    (ht : t.classifier = (changeState n new u).classifier)
    (drops : keepsRequest (u.tracker n).state new = false) :
    t.request (inputRequester n) = none := by
  rw [request_of_classifier ht, changeState_request_self, changedRequest_of_not_kept drops]

theorem changeState_frame (n : InputIx) (new : TrackerState) (s : State) :
    TrackerFrame n s (changeState n new s) := (TrackerMoves.changeState .refl new).frame

/-! ### Releases -/

/-- A tracker after a release: without a binding nothing is released (R146, R147). -/
def afterRelease (reason : Reason) (t : Tracker) : Tracker :=
  match t.binding with
  | none => t
  | some b => releasedTracker reason b t

theorem afterRelease_none (reason : Reason) {t : Tracker} (h : t.binding = none) :
    afterRelease reason t = t := by
  unfold afterRelease
  rw [h]

theorem afterRelease_some (reason : Reason) {t : Tracker} {b : Binding} (h : t.binding = some b) :
    afterRelease reason t = releasedTracker reason b t := by
  unfold afterRelease
  rw [h]

theorem release_tracker (n : InputIx) (reason : Reason) (s : State) :
    (release n reason s).tracker n = afterRelease reason (s.tracker n) := by
  obtain ⟨same, none⟩ | ⟨b, hb, eq⟩ := release_tracker_cases n reason s
  · rw [same, afterRelease_none reason none]
  · rw [eq, afterRelease_some reason hb]

theorem release_frame (n : InputIx) (reason : Reason) (s : State) :
    TrackerFrame n s (release n reason s) := (TrackerMoves.release .refl reason).frame

theorem recallAfter_eq (reason : Reason) (b : Binding) : recallAfter reason b =
    if reason = .signalLost ∨ reason = .deviated then
      some { slot := b.slot, generation := b.generation } else none := by
  cases reason <;> simp [recallAfter]

/-- The unbind claim of a release (R22, R146). -/
theorem release_unclaims {n : InputIx} {reason : Reason} {s t : State} {b : Binding}
    (hb : (s.tracker n).binding = some b) (ht : t.catalog = (release n reason s).catalog) :
    t.slot b.slot = { s.slot b.slot with bindCount := (s.slot b.slot).bindCount - 1 }
      ∧ otherSlotsKept b.slot s t := by
  rw [release_catalog s reason hb] at ht
  refine ⟨?_, fun j hj => ?_, (congrArg Catalog.occupancy ht :),
    (congrArg Catalog.tagMap ht :)⟩
  · rw [slot_of_catalog ht]
    exact (slot_withSlot s b.slot b.slot _).trans (if_pos rfl)
  · rw [slot_of_catalog ht]
    exact (slot_withSlot s b.slot j _).trans (if_neg hj)

/-- A notice raised for one input leaves the other flags and every mask. -/
theorem noticesRaised_setNotice {n : InputIx} {k : InputNotice} {s t : State}
    (ht : t.notices = (s.setNotice n k).notices) : noticesRaised n (inputNoticeBit k) s t := by
  rw [noticesRaised, otherNoticesKept, ht]
  exact ⟨Vector.getElem_set_self .., fun m hm => getElem_set_of_ne s.notices.flags hm _, rfl, rfl, rfl⟩

/-- LOST is set for every reason but CORE_RESTART (R146). -/
theorem release_notices {n : InputIx} {reason : Reason} {s : State} {b : Binding}
    (hb : (s.tracker n).binding = some b) (ne : reason ≠ .coreRestart) :
    (release n reason s).notices = (s.setNotice n .lost).notices := by
  unfold release
  rw [hb]
  simp only [if_neg ne]
  simp [State.setNotice]

theorem release_notices_coreRestart (n : InputIx) (s : State) :
    (release n .coreRestart s).notices = s.notices := by
  unfold release
  split
  · rfl
  · simp

/-- A release at the catalog and the notice unit, in a state that has done no more there (R146). -/
theorem bindingReleased_release {n : InputIx} {reason : Reason} {s t : State} {b : Binding}
    (hb : (s.tracker n).binding = some b) (ne : reason ≠ .coreRestart)
    (catalog : t.catalog = (release n reason s).catalog)
    (notices : t.notices = (release n reason s).notices) :
    bindingReleased n b (inputNoticeBit .lost) s t ∧ otherNoticesKept n s t := by
  obtain ⟨slot, others⟩ := release_unclaims hb catalog
  obtain ⟨raised, kept⟩ := noticesRaised_setNotice (notices.trans (release_notices hb ne))
  exact ⟨⟨slot, others, raised⟩, kept⟩

/-- Settles O50: the two operations that every other is made of. -/
theorem changeOfStateAndRelease : Obligations.ChangeOfStateAndRelease := by
  refine ⟨fun n new s => ⟨_, rfl, ?_, ?_, otherRequestsKept_changeState rfl rfl,
      (changeState_frame n new s).others, (changeState_frame n new s).unitsKept, by simp, by simp,
      by simp, by simp⟩,
    fun n reason s b hb => ⟨_, rfl, ?_, (release_unclaims hb rfl).1, (release_unclaims hb rfl).2, ?_,
      (release_frame n reason s).others, (release_frame n reason s).unitsKept, by simp, by simp,
      by simp⟩⟩
  · simp only [changeState_tracker_self, changedTracker, dropsHeld_iff]
  · simp only [changeState_request_self, changedRequest, keepsRequest_iff]
  · rw [release_tracker_self s reason hb, ← recallAfter_eq]
    rfl
  · by_cases e : reason = .coreRestart
    · subst e
      rw [if_pos rfl, noticesRaised, otherNoticesKept, release_notices_coreRestart]
      exact ⟨by simp, fun _ _ => rfl, rfl, rfl, rfl⟩
    · rw [if_neg e]
      exact noticesRaised_setNotice (release_notices hb e)

/-! ### Enables and disables -/

theorem pinLevel_withUnit (s : State) (n m : InputIx) (u : MeasUnit) :
    (s.withUnit n u).pinLevel m = s.pinLevel m := by
  funext pin
  cases pin <;> by_cases h : m = n <;> simp [State.pinLevel, input_withUnit, h]

theorem pinLevel_withConfig (s : State) (n m : InputIx) (c : InputConfig) :
    (s.withConfig n c).pinLevel m = s.pinLevel m := by
  funext pin
  cases pin <;> by_cases h : m = n <;> simp [State.pinLevel, input_withConfig, h]

theorem input_withUnit_ne (s : State) {n m : InputIx} (h : m ≠ n) (u : MeasUnit) :
    (s.withUnit n u).input m = s.input m := by
  rw [input_withUnit, if_neg h]

theorem input_withConfig_ne (s : State) {n m : InputIx} (h : m ≠ n) (c : InputConfig) :
    (s.withConfig n c).input m = s.input m := by
  rw [input_withConfig, if_neg h]

theorem enableInput_tracker (n : InputIx) (s : State) :
    (enableInput n s).tracker n = changedTracker .silent (s.tracker n) := by
  simp [enableInput, enableTracker, changeState_tracker_self]

theorem enableInput_unit (n : InputIx) (s : State) :
    (enableInput n s).unit n = enableUnit (s.pinLevel n .h) (s.pinLevel n .v) (s.unit n) := by
  simp [enableInput]
  rfl

theorem enableInput_config (n : InputIx) (s : State) :
    (enableInput n s).config n = { s.config n with enabled := true } :=
  (config_withUnit _ n n _).trans ((changeState_config _ n n .silent).trans
    (config_withConfig_self s n _))

theorem enableInput_kept (n : InputIx) (s : State) :
    (enableInput n s).pinLevel n = s.pinLevel n ∧ otherInputsKept n s (enableInput n s) := by
  have frame := (enableTracker_moves n (s.withConfig n { s.config n with enabled := true })).frame
  refine ⟨?_, fun m hm => ?_⟩
  · exact (pinLevel_withUnit _ n n _).trans
      ((frame.pinLevel n).trans (pinLevel_withConfig s n n _))
  · exact (input_withUnit_ne _ hm _).trans
      ((frame.others m hm).trans (input_withConfig_ne s hm _))

/-- The tracker of an input in IDLE goes to SILENT with nothing else to clear. -/
theorem changedTracker_of_idle {t : Tracker} (h : t.StateLaw) (idle : t.state = .idle)
    (new : TrackerState) :
    changedTracker new t = { t with state := new, reqSeq := t.reqSeq + 1 } := by
  have held : t.held = none := by
    by_contra some
    exact absurd (h.held (Option.isSome_iff_ne_none.mpr some)) (by simp [idle, isSettledState])
  simp [changedTracker, idle, held]

theorem disableInput_tracker (n : InputIx) (s : State) :
    (disableInput n s).tracker n =
      { changedTracker .idle (afterRelease .inputDisabled (s.tracker n)) with
        recallRef := none, latch := noFaults } := by
  simp [disableInput, disableTracker, changeState_tracker_self, release_tracker]

theorem disableInput_unit (n : InputIx) (s : State) :
    (disableInput n s).unit n = disableUnit (s.unit n) := by
  have frame := (disableTracker_moves n (s.withConfig n { s.config n with enabled := false })).frame
  have same := (frame.unit n).trans (unit_withConfig s n n _)
  rw [disableInput, unit_withUnit_self, same]

theorem disableInput_config (n : InputIx) (s : State) :
    (disableInput n s).config n = { s.config n with enabled := false } := by
  have frame := (disableTracker_moves n (s.withConfig n { s.config n with enabled := false })).frame
  exact (config_withUnit _ n n _).trans ((frame.config n).trans (config_withConfig_self s n _))

theorem disableInput_kept (n : InputIx) (s : State) :
    (disableInput n s).pinLevel n = s.pinLevel n ∧ otherInputsKept n s (disableInput n s) := by
  have frame := (disableTracker_moves n (s.withConfig n { s.config n with enabled := false })).frame
  refine ⟨?_, fun m hm => ?_⟩
  · exact (pinLevel_withUnit _ n n _).trans
      ((frame.pinLevel n).trans (pinLevel_withConfig s n n _))
  · exact (input_withUnit_ne _ hm _).trans
      ((frame.others m hm).trans (input_withConfig_ne s hm _))

/-- What a change of state to a state other than BOUND and COASTING leaves, whatever the old one. -/
theorem Tracker.StateLaw.changedTracker_eq {t : Tracker} (h : t.StateLaw) (new : TrackerState) :
    changedTracker new t =
      { t with
        state := new, reqSeq := t.reqSeq + 1, settleCounter := 0, settleRef := none, coast := 0
        recheck := false, held := if dropsHeld new then none else t.held } := by
  have settleRef : (if t.state = .settling then none else t.settleRef) = none := by
    split
    · rfl
    · next ne => exact Option.not_isSome_iff_eq_none.mp fun some => ne (h.settleRef some)
  have counter : (if t.state = .settling then 0 else t.settleCounter) = 0 :=
    changedTracker_counter h new
  have coast : (if t.state = .coasting then 0 else t.coast) = 0 := changedTracker_coast h new
  have recheck : (if t.state = .unmatched then false else t.recheck) = false := by
    split
    · rfl
    · next ne => exact Bool.eq_false_iff.mpr fun marked => ne (h.recheck marked)
  rw [changedTracker, settleRef, counter, coast, recheck]

theorem Tracker.StateLaw.afterRelease {t : Tracker} (h : t.StateLaw) (reason : Reason) :
    (Machine.afterRelease reason t).StateLaw := by
  unfold Machine.afterRelease
  split
  · exact h
  · exact { h with }

theorem disableInput_requests (n : InputIx) (s : State) :
    (disableInput n s).request (inputRequester n) = none
      ∧ otherRequestsKept (inputRequester n) s (disableInput n s) := by
  have released := release_classifier (s.withConfig n { s.config n with enabled := false }) n
    .inputDisabled
  have classifier : (disableInput n s).classifier = (changeState n .idle (release n .inputDisabled
      (s.withConfig n { s.config n with enabled := false }))).classifier := rfl
  refine ⟨request_changeState classifier ?_, otherRequestsKept_changeState released classifier⟩
  cases ((release n .inputDisabled _).tracker n).state <;> rfl

theorem disableInput_unbinds {n : InputIx} {s : State} {b : Binding}
    (hb : (s.tracker n).binding = some b) :
    bindingReleased n b (inputNoticeBit .lost) s (disableInput n s)
      ∧ otherNoticesKept n s (disableInput n s) :=
  bindingReleased_release (s := s.withConfig n { s.config n with enabled := false })
    (by simpa using hb) (reason := .inputDisabled) (by decide)
    (by simp [disableInput, disableTracker]) (by simp [disableInput, disableTracker])

theorem disableInput_unbound {n : InputIx} {s : State} (h : (s.tracker n).binding = none) :
    (disableInput n s).catalog = s.catalog ∧ (disableInput n s).notices = s.notices := by
  have same := release_none (s.withConfig n { s.config n with enabled := false }) (n := n)
    (by simpa using h) (reason := .inputDisabled)
  simp [disableInput, disableTracker, same]

/-- Settles O20: an enable is a change of state, a disable a release and a change of state. -/
theorem enableBitStartsAndStopsInput : Obligations.EnableBitStartsAndStopsInput := by
  refine ⟨fun v s n law hb hp on off => ?enable, fun v s n law hb hp off on => ?disable⟩
  all_goals have own := (trackerLawAt_iff n s).mp (law n)
  case enable =>
    have idle := own.enabled.mp off
    have covered : enableAct true v s (.enable n) = some (enableInput n) := by
      simp [enableAct, enableBit, on, off]
    obtain ⟨pins, others⟩ := enableInput_kept n s
    have unit := enableInput_unit n s
    have classifier : (enableInput n s).classifier = s.classifier := by
      have silent : s.request (inputRequester n) = none := by
        refine Option.eq_none_iff_forall_ne_some.mpr fun q hq => ?_
        obtain ⟨-, ⟨pending, -⟩ | ⟨bound, -⟩⟩ := own.request q hq
        · simp [idle] at pending
        · simp [idle, isBoundState] at bound
      have emptied : (enableInput n s).classifier = { s.classifier with
          requests := s.classifier.requests.set (inputRequester n) none } := by
        rw [← changedRequest_of_not_kept (keepsRequest_free (x := (s.tracker n).state)
          (.inl rfl : isFreeState .silent)) ((s.tracker n).reqSeq + 1) (s.request (inputRequester n))]
        simp [enableInput, enableTracker, changeState_classifier]
      rw [emptied, set_of_getElem s.classifier.requests silent]
    exact ⟨_, exec_dataByte (c := .enableWrite v) rfl hb hp covered, enableInput_config n s,
      (enableInput_tracker n s).trans (changedTracker_of_idle own.toStateLaw idle .silent),
      (congrArg MeasUnit.state unit :), (congrArg MeasUnit.gainLines unit :),
      (congrArg MeasUnit.line unit :), (congrArg MeasUnit.hFilter unit :),
      (congrArg MeasUnit.vFilter unit :), (congrArg MeasUnit.hRef unit :),
      (congrArg MeasUnit.vRef unit :), (congrArg MeasUnit.setSeq unit :),
      (congrArg MeasUnit.lastSet unit :), pins, others,
      portAdvanced_of_port (u := enableInput n s) (by simp [enableInput, enableTracker]),
      (by simp [enableInput, enableTracker] : (enableInput n s).catalog = s.catalog), classifier,
      (by simp [enableInput, enableTracker] : (enableInput n s).mailbox = s.mailbox),
      (by simp [enableInput, enableTracker] : (enableInput n s).notices = s.notices),
      (by simp [enableInput, enableTracker] : (enableInput n s).freeIndex = s.freeIndex)⟩
  case disable =>
    have covered : enableAct false v s (.enable n) = some (disableInput n) := by
      simp only [enableAct, enableBit, off, on]
      rfl
    obtain ⟨pins, others⟩ := disableInput_kept n s
    have unit := disableInput_unit n s
    have frame :=
      (disableTracker_moves n (s.withConfig n { s.config n with enabled := false })).frame
    have tracker := disableInput_tracker n s
    rw [(own.toStateLaw.afterRelease _).changedTracker_eq] at tracker
    have tracker' : (disableInput n s).tracker n =
        { state := .idle, held := none, settleRef := none, settleCounter := 0, coast := 0
          binding := none, recallRef := none, recheck := false, latch := noFaults
          lastLoss :=
            match (s.tracker n).binding with
            | some b => some ⟨.inputDisabled, b.slot, b.generation⟩
            | none => (s.tracker n).lastLoss
          lossTick := if (s.tracker n).binding = none then (s.tracker n).lossTick else none
          reqSeq := (s.tracker n).reqSeq + 1 } := by
      rw [tracker]
      cases hbinding : (s.tracker n).binding with
      | none => rw [afterRelease_none _ hbinding]; simp [dropsHeld, hbinding]
      | some b => rw [afterRelease_some _ hbinding]; simp [dropsHeld, releasedTracker]
    have hexec := exec_dataByte (c := .disableWrite v) rfl hb hp covered
    obtain ⟨request, requests⟩ := disableInput_requests n s
    have config := disableInput_config n s
    have unbinds (b : Binding) (hb : (s.tracker n).binding = some b) := disableInput_unbinds hb
    have unbound := disableInput_unbound (n := n) (s := s)
    have port : (disableInput n s).port = s.port := frame.port
    have mailbox : (disableInput n s).mailbox = s.mailbox := frame.mailbox
    have freeIndex : (disableInput n s).freeIndex = s.freeIndex := frame.freeIndex
    clear covered tracker
    generalize disableInput n s = u at *
    refine ⟨_, hexec, config, tracker', request, requests, fun b hb => ?_, unbound,
      (congrArg MeasUnit.state unit :), (congrArg MeasUnit.ring unit :),
      (congrArg MeasUnit.line unit :), (congrArg MeasUnit.gainLines unit :),
      (congrArg MeasUnit.shortLines unit :), (congrArg MeasUnit.lineCounter unit :),
      (congrArg MeasUnit.sepRun unit :), (congrArg MeasUnit.period unit :),
      (congrArg MeasUnit.halfLineRef unit :), (congrArg MeasUnit.vQuiet unit :),
      (congrArg (fun u : MeasUnit => u.hFilter.waiting) unit :),
      (congrArg (fun u : MeasUnit => u.vFilter.waiting) unit :), (congrArg MeasUnit.hRef unit :),
      (congrArg MeasUnit.vRef unit :), (congrArg MeasUnit.setSeq unit :),
      (congrArg MeasUnit.lastSet unit :), pins, others, portAdvanced_of_port port, mailbox,
      freeIndex⟩
    obtain ⟨⟨slot, slots, flags⟩, notices⟩ := unbinds b hb
    exact ⟨slot, slots, flags, notices⟩

end Sys2Proof.Machine
end

