-- ==== Sys2Proof/Proofs/InputCommands.lean ====
section
/-! The commands that work on inputs: REBIND, CLEAR_FAULT and RESTART_CORE. -/

namespace Sys2Proof.Machine

/-! ### Searches on the held stable set -/

theorem submitHeld_of_held {n : InputIx} {k : PassKind} {s : State} {m : MeasSet}
    (h : (s.tracker n).held = some m) :
    submitHeld n k s = submit (inputRequester n)
      { kind := k, set := .measured m, seq := some (s.tracker n).reqSeq } s := by
  unfold submitHeld
  rw [h]
  rfl

/-- A submission after a change that has touched the submitter's own request alone. -/
theorem requestSubmitted_of_set {r : Requester} {q : Request} {x : Option Request} {s u t : State}
    (hu : u.classifier = { s.classifier with requests := s.classifier.requests.set r x })
    (ht : t.classifier = (submit r q u).classifier) : requestSubmitted r q s t := by
  have same : (u.withRequest r (some q)).classifier = (s.withRequest r (some q)).classifier := by
    change { u.classifier with requests := u.classifier.requests.set r (some q) }
      = { s.classifier with requests := s.classifier.requests.set r (some q) }
    rw [hu]
    simp
  refine requestSubmitted_of_classifier (ht.trans ?_)
  rw [submit, submit, arbitrate_classifier, arbitrate_classifier, same]

/-- A tracker that changes state and submits with its new number (R110). -/
theorem requestSubmitted_changeState {n : InputIx} {new : TrackerState} {q : Request} {s u v t : State}
    (hu : u.classifier = s.classifier) (hv : v.classifier = (changeState n new u).classifier)
    (ht : t.classifier = (submit (inputRequester n) q v).classifier) :
    requestSubmitted (inputRequester n) q s t := by
  refine requestSubmitted_of_set (x := changedRequest (u.tracker n).state new
    ((u.tracker n).reqSeq + 1) (u.request (inputRequester n))) (hv.trans ?_) ht
  rw [changeState_classifier, hu]

/-! ### REBIND -/

/-- A bound or coasting tracker after a release and a change to PENDING. -/
theorem changedTracker_pending_of_bound {t : Tracker} {c : InputConfig} {q : Option Request}
    {b : Binding} (h : t.LawAt c q) (hb : t.binding = some b) (reason : Reason) :
    changedTracker .pending (afterRelease reason t) =
      { t with
        state := .pending, coast := 0, binding := none, recallRef := recallAfter reason b
        lastLoss := lossOf reason b, lossTick := none, reqSeq := t.reqSeq + 1 } := by
  have bound : isBoundState t.state := h.binding.mp (by rw [hb]; rfl)
  rw [afterRelease_some reason hb]
  rcases bound with e | e
  · have coast := h.coast_eq (by simp [e])
    simp [changedTracker, releasedTracker, e, coast, dropsHeld, lossOf]
  · simp [changedTracker, releasedTracker, e, dropsHeld, lossOf]

theorem rebindBound_outcome {n : InputIx} {s : State} {b : Binding} {m : MeasSet} (law : TrackerLaw s)
    (hb : (s.tracker n).binding = some b) (hm : (s.unit n).lastSet = some m) :
    (rebindBound n s).tracker n =
        { s.tracker n with
          state := .pending, held := some m, coast := 0, binding := none, recallRef := none
          lastLoss := lossOf .hostRebind b, lossTick := none
          reqSeq := (s.tracker n).reqSeq + 1 }
      ∧ requestSubmitted (inputRequester n)
          { kind := .search, set := .measured m, seq := some ((s.tracker n).reqSeq + 1) } s
          (rebindBound n s)
      ∧ bindingReleased n b (inputNoticeBit .lost) s (rebindBound n s)
      ∧ otherNoticesKept n s (rebindBound n s) := by
  have own := (trackerLawAt_iff n s).mp (law n)
  have pending : (changeState n .pending (release n .hostRebind s)).tracker n
      = changedTracker .pending (afterRelease .hostRebind (s.tracker n)) := by
    rw [changeState_tracker_self, release_tracker]
  rw [changedTracker_pending_of_bound own hb] at pending
  have held : ((holdSet n (s.unit n).lastSet
      (changeState n .pending (release n .hostRebind s))).tracker n) =
        { s.tracker n with
          state := .pending, held := some m, coast := 0, binding := none, recallRef := none
          lastLoss := lossOf .hostRebind b, lossTick := none
          reqSeq := (s.tracker n).reqSeq + 1 } := by
    rw [holdSet, tracker_withTracker_self, pending, hm]
    rfl
  have submitted := submitHeld_of_held (k := .search) (congrArg Tracker.held held)
  have number := congrArg Tracker.reqSeq held
  rw [number] at submitted
  refine ⟨?_, ?_, ?_⟩
  · exact (tracker_of_inputs (submitHeld_inputs _ n .search) n).trans held
  · exact requestSubmitted_changeState (release_classifier s n .hostRebind) (new := .pending)
      (v := holdSet n (s.unit n).lastSet (changeState n .pending (release n .hostRebind s))) rfl
      (congrArg State.classifier submitted)
  · exact bindingReleased_release (reason := .hostRebind) hb (by decide)
      (by simp [rebindBound]) (by simp [rebindBound])

/-- REBIND of an input in UNMATCHED: a change of state and a search, with no release. -/
theorem rebindUnmatched_outcome {n : InputIx} {s : State} {m : MeasSet} (law : TrackerLaw s)
    (unmatched : (s.tracker n).state = .unmatched) (hm : (s.tracker n).held = some m) :
    (submitHeld n .search (changeState n .pending s)).tracker n =
        { s.tracker n with
          state := .pending, recheck := false, reqSeq := (s.tracker n).reqSeq + 1 }
      ∧ requestSubmitted (inputRequester n)
          { kind := .search, set := .measured m, seq := some ((s.tracker n).reqSeq + 1) } s
          (submitHeld n .search (changeState n .pending s)) := by
  have own := (trackerLawAt_iff n s).mp (law n)
  have pending : (changeState n .pending s).tracker n =
      { s.tracker n with
        state := .pending, recheck := false, reqSeq := (s.tracker n).reqSeq + 1 } := by
    rw [changeState_tracker_self]
    simp [changedTracker, unmatched, dropsHeld]
  have held : ((changeState n .pending s).tracker n).held = some m := by rw [pending]; exact hm
  have submitted := submitHeld_of_held (k := .search) held
  rw [show ((changeState n .pending s).tracker n).reqSeq = (s.tracker n).reqSeq + 1 by
    rw [pending]] at submitted
  exact ⟨(tracker_of_inputs (submitHeld_inputs _ n .search) n).trans pending,
    requestSubmitted_changeState (s := s) (u := s) rfl (new := .pending) rfl
      (congrArg State.classifier submitted)⟩

theorem Executing.of_moves {code : Byte} {n : InputIx} {s t : State}
    (h : TrackerMoves n (acceptCommand code s) t) : Executing code s t := .of_change h.frame.change

/-- A result with the tracker of one input moved keeps the units and, at the other inputs, everything. -/
theorem answered_moved {code : Byte} {n : InputIx} {s : State} {r : Executed}
    (h : TrackerMoves n (acceptCommand code s) r.state) :
    portAdvanced s (answered s r) ∧ unitsKept s (answered s r) ∧ otherInputsKept n s (answered s r)
      ∧ completedWith (acceptedCopy code s) r.code r.data s (answered s r)
      ∧ (answered s r).freeIndex = s.freeIndex :=
  ⟨(Executing.of_moves h).portAdvanced, h.frame.unitsKept, h.frame.others,
    (Executing.of_moves h).completedWith, h.frame.freeIndex⟩

theorem runRebind_of_arg {args : Vector Byte 8} {n : InputIx} (h : (args[0]).toNat = n.val)
    (s : State) : runRebind args s = rebindInput n s := by
  unfold runRebind
  rw [inputArg_eq_some h]

/-- REBIND of a bound or coasting input. -/
theorem rebindInput_bound {n : InputIx} {s : State} {b : Binding}
    (bound : isBoundState (s.tracker n).state) (hb : (s.tracker n).binding = some b) :
    rebindInput n s =
      { state := rebindBound n s, code := .ok
        data := [inputByte n, trackerStateCode (s.tracker n).state, 1, slotByte b.slot, b.generation] }
      := by
  have report : inputReport n s ++ reboundReport (s.tracker n)
      = [inputByte n, trackerStateCode (s.tracker n).state, 1, slotByte b.slot, b.generation] := by
    rw [reboundReport, hb]
    rfl
  rw [← report]
  unfold rebindInput
  rcases bound with e | e <;> simp only [e]

theorem rebindInput_unmatched {n : InputIx} {s : State}
    (unmatched : (s.tracker n).state = .unmatched) (unbound : (s.tracker n).binding = none) :
    rebindInput n s =
      { state := submitHeld n .search (changeState n .pending s), code := .ok
        data := [inputByte n, 6, 0, 0, 0] } := by
  unfold rebindInput inputReport reboundReport
  simp only [unmatched, unbound]
  rfl

theorem rebindInput_refused {n : InputIx} {s : State}
    (h : (s.tracker n).state ∈ [TrackerState.idle, .silent, .settling, .pending, .fault]) :
    rebindInput n s = refuse .badState (inputReport n s) s := by
  unfold rebindInput
  simp only [List.mem_cons, List.not_mem_nil, or_false] at h
  rcases h with e | e | e | e | e <;> simp only [e]

/-- Settles O34: a release, a change to PENDING, a search. -/
theorem rebindClassifiesAgain : Obligations.RebindClassifiesAgain := by
  refine ⟨fun s n b m law ready hn hb hm => ?bound, fun s law ready free => ?others⟩
  case bound =>
    have hexec := exec_now (c := .rebind) (code := commandCode .rebind)
      (run := runRebind s.mailbox.args) rfl ready
    rw [runRebind_of_arg hn] at hexec
    have own := (trackerLawAt_iff n s).mp (law n)
    have bound : isBoundState (s.tracker n).state := own.binding.mp (by rw [hb]; rfl)
    have moves := rebindInput_moves n (acceptCommand (commandCode .rebind) s)
    obtain ⟨tracker, submitted, released, others⟩ :=
      rebindBound_outcome (s := acceptCommand (commandCode .rebind) s) law hb hm
    rw [rebindInput_bound (s := acceptCommand (commandCode .rebind) s) bound hb] at hexec moves
    obtain ⟨port, units, inputs, completed, free⟩ := answered_moved moves
    generalize rebindBound n (acceptCommand (commandCode .rebind) s) = u at *
    exact ⟨_, hexec, port, units, inputs, tracker, submitted, released, others.1, completed, free⟩
  case others =>
    have hexec := exec_now (c := .rebind) (code := commandCode .rebind)
      (run := runRebind s.mailbox.args) rfl ready
    cases harg : inputArg s.mailbox.args with
    | none =>
      have run : ∀ u, runRebind s.mailbox.args u = refuse .badInput [] u := fun u => by
        unfold runRebind
        rw [harg]
      rw [run] at hexec
      obtain ⟨port, completed, flags, catalog, classifier, inputs, free⟩ := answered_same (s := s)
        (r := refuse .badInput [] (acceptCommand (commandCode .rebind) s)) rfl
      have outside (n : InputIx) (hn : (s.mailbox.args[0]).toNat = n.val) : False := by
        simp [inputArg_eq_some hn] at harg
      refine ⟨_, hexec, ?_, fun n => ?_, catalog, flags, free,
        fun n m hn => (outside n hn).elim, fun n hn => (outside n hn).elim,
        fun _ => ⟨inputs, classifier, completed⟩⟩
      · exact (Executing.accepted _ s).portAdvanced (r := refuse .badInput [] _)
      · exact ⟨rfl, rfl, rfl⟩
    | some n =>
      have hn : (s.mailbox.args[0]).toNat = n.val := by
        unfold inputArg at harg
        split at harg
        · cases harg; exact (numAt_eq _ (by omega)).symm
        · exact nomatch harg
      have only (k : InputIx) (hk : (s.mailbox.args[0]).toNat = k.val) : k = n :=
        Fin.ext (hk.symm.trans hn)
      have own := (trackerLawAt_iff n s).mp (law n)
      have inside : ¬ 6 ≤ (s.mailbox.args[0]).toNat := by omega
      rw [runRebind_of_arg hn] at hexec
      by_cases unmatched : (s.tracker n).state = .unmatched
      · have unbound := own.unbound (free n hn)
        have held : ∀ m, (s.tracker n).held = some m → _ := fun m hm =>
          rebindUnmatched_outcome (s := acceptCommand (commandCode .rebind) s) law unmatched hm
        have moves := rebindInput_moves n (acceptCommand (commandCode .rebind) s)
        rw [rebindInput_unmatched (s := acceptCommand (commandCode .rebind) s) unmatched unbound]
          at hexec moves
        obtain ⟨port, units, inputs, completed, free⟩ := answered_moved moves
        have catalog : (submitHeld n .search (changeState n .pending
          (acceptCommand (commandCode .rebind) s))).catalog = s.catalog := by simp
        have notices : (submitHeld n .search (changeState n .pending
          (acceptCommand (commandCode .rebind) s))).notices = s.notices := by simp
        generalize submitHeld n .search (changeState n .pending
          (acceptCommand (commandCode .rebind) s)) = u at *
        refine ⟨_, hexec, port, units, catalog, (congrArg Notices.flags notices :), free,
          fun k m hk _ hm => ?_, fun k hk refused => ?_, fun far => absurd far inside⟩
        · cases only k hk
          obtain ⟨tracker, submitted⟩ := held m hm
          exact ⟨tracker, inputs, submitted, completed⟩
        · cases only k hk
          simp [unmatched] at refused
      · have refused : (s.tracker n).state ∈ [TrackerState.idle, .silent, .settling, .pending, .fault] := by
          have := free n hn
          cases h : (s.tracker n).state <;> simp_all [isBoundState]
        rw [rebindInput_refused (s := acceptCommand (commandCode .rebind) s) refused] at hexec
        obtain ⟨port, completed, flags, catalog, classifier, inputs, free⟩ := answered_same (s := s)
          (r := refuse .badState (inputReport n s) (acceptCommand (commandCode .rebind) s)) rfl
        refine ⟨_, hexec, ?_, fun n => ⟨rfl, rfl, rfl⟩, catalog, flags, free,
          fun k m hk stands => ?_, fun k hk _ => ?_, fun far => absurd far inside⟩
        · exact (Executing.accepted _ s).portAdvanced (r := refuse .badState (inputReport n s) _)
        · cases only k hk
          exact absurd stands unmatched
        · cases only k hk
          exact ⟨inputs, classifier, completed⟩

/-! ### CLEAR_FAULT -/

theorem runClearFault_of_arg {args : Vector Byte 8} {n : InputIx} (h : (args[0]).toNat = n.val)
    (s : State) : runClearFault args s =
      if (s.tracker n).state = .fault then
        { state := clearFaultInput n s, code := .ok
          data := [inputByte n, (s.tracker n).latch.toByte] }
      else refuse .badState (inputReport n s) s := by
  unfold runClearFault
  rw [inputArg_eq_some h]

theorem inputArg_cases (args : Vector Byte 8) :
    (6 ≤ (args[0]).toNat ∧ inputArg args = none)
      ∨ ∃ n : InputIx, (args[0]).toNat = n.val ∧ inputArg args = some n := by
  by_cases far : 6 ≤ (args[0]).toNat
  · exact .inl ⟨far, inputArg_eq_none far⟩
  · have hn : (args[0]).toNat = (⟨(args[0]).toNat, by omega⟩ : InputIx).val := rfl
    exact .inr ⟨_, hn, inputArg_eq_some hn⟩

/-- What a CLEAR_FAULT makes of an input in FAULT. -/
theorem clearFaultInput_outcome {n : InputIx} {s : State} (law : TrackerLaw s)
    (fault : (s.tracker n).state = .fault) :
    (clearFaultInput n s).tracker n =
        { s.tracker n with
          state := .silent, latch := noFaults, reqSeq := (s.tracker n).reqSeq + 1 }
      ∧ (clearFaultInput n s).unit n
        = redetectUnit (s.pinLevel n .h) (s.pinLevel n .v) (s.unit n)
      ∧ configKept n s (clearFaultInput n s) ∧ otherInputsKept n s (clearFaultInput n s)
      ∧ (clearFaultInput n s).classifier = s.classifier := by
  have own := (trackerLawAt_iff n s).mp (law n)
  have held : (s.tracker n).held = none := by
    refine Option.not_isSome_iff_eq_none.mp fun some => ?_
    simpa [fault, isSettledState] using own.held some
  have frame := ((TrackerMoves.withTracker (n := n) (s := s) .refl
    { s.tracker n with latch := noFaults }).changeState .silent).frame
  refine ⟨?_, ?_, ⟨?_, ?_⟩, fun m hm => ?_, ?_⟩
  · simp [clearFaultInput, changeState_tracker_self, changedTracker, fault, held]
  · exact unit_withUnit_self _ n _
  · exact (config_withUnit _ n n _).trans (frame.config n)
  · exact (pinLevel_withUnit _ n n _).trans (frame.pinLevel n)
  · exact (input_withUnit_ne _ hm _).trans (frame.others m hm)
  · have silent : s.request (inputRequester n) = none := by
      refine Option.eq_none_iff_forall_ne_some.mpr fun q hq => ?_
      obtain ⟨-, ⟨pending, -⟩ | ⟨bound, -⟩⟩ := own.request q hq
      · simp [fault] at pending
      · simp [fault, isBoundState] at bound
    have emptied : (clearFaultInput n s).classifier = { s.classifier with
        requests := s.classifier.requests.set (inputRequester n) none } := by
      rw [← changedRequest_of_not_kept (keepsRequest_free (x := (s.tracker n).state)
        (.inl rfl : isFreeState .silent)) ((s.tracker n).reqSeq + 1) (s.request (inputRequester n))]
      simp [clearFaultInput, changeState_classifier]
    rw [emptied, set_of_getElem s.classifier.requests silent]

/-- Settles O35: CLEAR_FAULT is a change of state, the latch emptied first, and a unit started again. -/
theorem clearFaultRestartsDetection : Obligations.ClearFaultRestartsDetection := by
  intro s law ready
  have hexec := exec_now (c := .clearFault) (code := commandCode .clearFault)
    (run := runClearFault s.mailbox.args) rfl ready
  -- A refusal changes no input.
  have refused {code : ResultCode} {data : List Byte}
      (run : runClearFault s.mailbox.args (acceptCommand (commandCode .clearFault) s)
        = refuse code data (acceptCommand (commandCode .clearFault) s)) :
      ∃ t, exec .clearFault s = .next t ∧ portAdvanced s t ∧ t.catalog = s.catalog
        ∧ t.classifier = s.classifier ∧ t.notices.flags = s.notices.flags
        ∧ t.freeIndex = s.freeIndex ∧ t.inputs = s.inputs
        ∧ completedWith (copyOf .clearFault s) code data s t := by
    obtain ⟨-, completed, flags, catalog, classifier, inputs, free⟩ := answered_same (s := s)
      (r := refuse code data (acceptCommand (commandCode .clearFault) s)) rfl
    rw [run] at hexec
    exact ⟨_, hexec, (Executing.accepted _ s).portAdvanced (r := refuse code data _), catalog,
      classifier, flags, free, inputs, completed⟩
  obtain ⟨far, harg⟩ | ⟨n, hn, harg⟩ := inputArg_cases s.mailbox.args
  · obtain ⟨t, hexec, port, catalog, classifier, flags, free, inputs, completed⟩ :=
      refused (code := .badInput) (data := []) (by unfold runClearFault; rw [harg])
    have outside (k : InputIx) (hk : (s.mailbox.args[0]).toNat = k.val) : False := by omega
    exact ⟨t, hexec, port, catalog, classifier, flags, free, fun k hk => (outside k hk).elim,
      fun k hk => (outside k hk).elim, fun _ => ⟨inputs, completed⟩⟩
  have only (k : InputIx) (hk : (s.mailbox.args[0]).toNat = k.val) : k = n :=
    Fin.ext (hk.symm.trans hn)
  have inside : ¬ 6 ≤ (s.mailbox.args[0]).toNat := by omega
  have run := runClearFault_of_arg hn (acceptCommand (commandCode .clearFault) s)
  by_cases fault : (s.tracker n).state = .fault
  · have stands : ((acceptCommand (commandCode .clearFault) s).tracker n).state = .fault := fault
    rw [run, if_pos stands] at hexec
    obtain ⟨tracker, unit, config, inputs, classifier⟩ :=
      clearFaultInput_outcome (s := acceptCommand (commandCode .clearFault) s) law fault
    have executing : Executing (commandCode .clearFault) s
        (clearFaultInput n (acceptCommand (commandCode .clearFault) s)) := by
      constructor <;> simp [clearFaultInput]
    have catalog : (clearFaultInput n (acceptCommand (commandCode .clearFault) s)).catalog
        = s.catalog := by simp [clearFaultInput]
    have notices : (clearFaultInput n (acceptCommand (commandCode .clearFault) s)).notices
        = s.notices := by simp [clearFaultInput]
    have free : (clearFaultInput n (acceptCommand (commandCode .clearFault) s)).freeIndex
        = s.freeIndex := by simp [clearFaultInput]
    generalize clearFaultInput n (acceptCommand (commandCode .clearFault) s) = u at *
    refine ⟨_, hexec, executing.portAdvanced, catalog, classifier, (congrArg Notices.flags notices :),
      free, fun k hk _ => ?_, fun k hk other => ?_, fun far => absurd far inside⟩
    · cases only k hk
      exact ⟨tracker, (congrArg MeasUnit.state unit :), (congrArg MeasUnit.period unit :),
        (congrArg MeasUnit.ring unit :), (congrArg MeasUnit.gainLines unit :),
        (congrArg MeasUnit.line unit :), (congrArg MeasUnit.lineCounter unit :),
        (congrArg MeasUnit.vQuiet unit :), (congrArg MeasUnit.halfLineRef unit :),
        (congrArg MeasUnit.hFilter unit :), (congrArg MeasUnit.vFilter unit :),
        (congrArg MeasUnit.hRef unit :), (congrArg MeasUnit.vRef unit :),
        (congrArg MeasUnit.setSeq unit :), (congrArg MeasUnit.lastSet unit :), config, inputs,
        executing.completedWith⟩
    · cases only k hk
      exact absurd fault other
  · have stands : ((acceptCommand (commandCode .clearFault) s).tracker n).state ≠ .fault := fault
    obtain ⟨t, hexec, port, catalog, classifier, flags, free, inputs, completed⟩ :=
      refused (run.trans (if_neg stands))
    refine ⟨t, hexec, port, catalog, classifier, flags, free, fun k hk isFault => ?_,
      fun k hk _ => ?_, fun far => absurd far inside⟩
    · cases only k hk
      exact absurd isFault fault
    · cases only k hk
      exact ⟨inputs, completed⟩

/-! ### RESTART_CORE -/

/-- The trackers after the releases of a core restart. -/
theorem foldl_release_tracker (reason : Reason) (l : List InputIx) (s : State) (n : InputIx) :
    ((l.foldl (fun s n => release n reason s) s).tracker n)
      = if n ∈ l then afterRelease reason (s.tracker n) else s.tracker n := by
  induction l generalizing s with
  | nil => rfl
  | cons k l ih =>
    rw [List.foldl_cons, ih]
    by_cases own : n = k
    · subst own
      have released : ((release n reason s).tracker n).binding = none := release_binding n reason s
      rw [if_pos List.mem_cons_self, afterRelease_none reason released, ite_self,
        release_tracker]
    · rw [(release_frame k reason s).tracker_ne own]
      simp [own]

/-- What moves of trackers keep beside the frame of a change. -/
theorem foldl_moves_catalog {f : State → InputIx → State} (h : ∀ s n, TrackerMoves n s (f s n))
    (l : List InputIx) (s : State) :
    (l.foldl f s).freeIndex = s.freeIndex ∧ (l.foldl f s).catalog.occupancy = s.catalog.occupancy
      ∧ (l.foldl f s).catalog.tagMap = s.catalog.tagMap
      ∧ ∀ i, ∃ k, (l.foldl f s).slot i = { s.slot i with bindCount := k } := by
  induction l generalizing s with
  | nil => exact ⟨rfl, rfl, rfl, fun i => ⟨_, rfl⟩⟩
  | cons n l ih =>
    have frame := (h s n).frame
    obtain ⟨free, occupancy, tagMap, slots⟩ := ih (f s n)
    refine ⟨free.trans frame.freeIndex, occupancy.trans frame.occupancy, tagMap.trans frame.tagMap,
      fun i => ?_⟩
    obtain ⟨j, hj⟩ := frame.slots i
    obtain ⟨k, hk⟩ := slots i
    exact ⟨k, by rw [List.foldl_cons, hk, hj]⟩

theorem restartBlocks_input (s : State) (n : InputIx) :
    (restartBlocks s).input n =
      restartedInput (((boundInputs s).foldl (fun s n => release n .coreRestart s) s).input n) :=
  getElem_mapVec restartedInput _ n.val n.isLt

theorem restartBlocks_tracker (s : State) (n : InputIx) :
    (restartBlocks s).tracker n =
      { state := if (s.config n).enabled then .silent else .idle
        held := none, settleRef := none, settleCounter := 0, coast := 0, binding := none
        recallRef := none, recheck := false, latch := noFaults
        lastLoss :=
          match (s.tracker n).binding with
          | some b => lossOf .coreRestart b
          | none => (s.tracker n).lastLoss
        lossTick := none, reqSeq := 0 } := by
  have frame := foldl_changeFrame (f := fun s n => release n .coreRestart s)
    (fun s n => TrackerMoves.release .refl .coreRestart) (boundInputs s) s
  have config : (((boundInputs s).foldl (fun s n => release n .coreRestart s) s).input n).config
      = s.config n := (frame.units n).1
  have tracker : (((boundInputs s).foldl (fun s n => release n .coreRestart s) s).input n).tracker
      = afterRelease .coreRestart (s.tracker n) := by
    refine (foldl_release_tracker .coreRestart (boundInputs s) s n).trans ?_
    split
    · rfl
    · next free =>
      rw [mem_boundInputs, Option.not_isSome_iff_eq_none] at free
      exact (afterRelease_none _ free).symm
  have loss : (afterRelease .coreRestart (s.tracker n)).lastLoss =
      match (s.tracker n).binding with
      | some b => lossOf .coreRestart b
      | none => (s.tracker n).lastLoss := by
    unfold afterRelease
    cases (s.tracker n).binding <;> rfl
  rw [State.tracker, restartBlocks_input, restartedInput, restartedTracker, config, tracker, ← loss]
  rfl

theorem restartBlocks_unit (s : State) (n : InputIx) :
    (restartBlocks s).unit n
        = restartUnit (s.config n).enabled (s.pinLevel n .h) (s.pinLevel n .v)
      ∧ configKept n s (restartBlocks s) := by
  have frame := foldl_changeFrame (f := fun s n => release n .coreRestart s)
    (fun s n => TrackerMoves.release .refl .coreRestart) (boundInputs s) s
  obtain ⟨config, pins, -⟩ := frame.units n
  have pins' : (restartBlocks s).pinLevel n = s.pinLevel n := by
    rw [← pins]
    funext pin
    cases pin
    · exact (congrArg Input.hPin (restartBlocks_input s n) :)
    · exact (congrArg Input.vPin (restartBlocks_input s n) :)
  refine ⟨?_, ?_, pins'⟩
  · rw [← config, ← pins, State.unit, restartBlocks_input]
    rfl
  · rw [← config, State.config, restartBlocks_input]
    rfl

theorem restartBlocks_slot (s : State) (i : SlotIx) :
    (restartBlocks s).slot i = { s.slot i with bindCount := 0 } := by
  obtain ⟨-, -, -, slots⟩ := foldl_moves_catalog (f := fun s n => release n .coreRestart s)
    (fun s n => TrackerMoves.release .refl .coreRestart) (boundInputs s) s
  obtain ⟨k, hk⟩ := slots i
  have emptied : (restartBlocks s).slot i =
      { ((boundInputs s).foldl (fun s n => release n .coreRestart s) s).slot i with
        bindCount := 0 } :=
    getElem_mapVec (fun x : Slot => ({ x with bindCount := 0 } : Slot))
      ((boundInputs s).foldl (fun s n => release n .coreRestart s) s).catalog.slots i.val i.isLt
  rw [emptied, hk]

theorem mailboxDone_alone : ∀ x : BitVec 3,
    x &&& globalNoticeBit .mailboxDone ||| globalNoticeBit .mailboxDone = 1 := by decide

/-- Settles O36: the bound inputs are released, then every block takes its values of a restart. -/
theorem restartCoreResetsTracking : Obligations.RestartCoreResetsTracking := by
  intro s ready
  have hexec := exec_now (c := .restartCore) (code := commandCode .restartCore) (run := runRestart)
    rfl ready
  have frame := foldl_changeFrame (f := fun s n => release n .coreRestart s)
    (fun s n => TrackerMoves.release .refl .coreRestart)
    (boundInputs (acceptCommand (commandCode .restartCore) s))
    (acceptCommand (commandCode .restartCore) s)
  obtain ⟨free, occupancy, tagMap, -⟩ := foldl_moves_catalog
    (f := fun s n => release n .coreRestart s)
    (fun s n => TrackerMoves.release .refl .coreRestart)
    (boundInputs (acceptCommand (commandCode .restartCore) s))
    (acceptCommand (commandCode .restartCore) s)
  have trackers := restartBlocks_tracker (acceptCommand (commandCode .restartCore) s)
  have units := restartBlocks_unit (acceptCommand (commandCode .restartCore) s)
  have slots := restartBlocks_slot (acceptCommand (commandCode .restartCore) s)
  have notices : (restartBlocks (acceptCommand (commandCode .restartCore) s)).notices =
      { flags := Vector.replicate 6 0, masks := s.notices.masks
        globalFlags := s.notices.globalFlags &&& globalNoticeBit .mailboxDone
        globalMasks := s.notices.globalMasks } := by
    rw [restartBlocks, restartNotices, frame.masks, frame.globalFlags, frame.globalMasks]
    rfl
  have classifier : (restartBlocks (acceptCommand (commandCode .restartCore) s)).classifier
      = resetClassifier := rfl
  have mailbox : (restartBlocks (acceptCommand (commandCode .restartCore) s)).mailbox
      = (acceptCommand (commandCode .restartCore) s).mailbox := frame.mailbox
  have port : (restartBlocks (acceptCommand (commandCode .restartCore) s)).port = s.port := frame.port
  have free : (restartBlocks (acceptCommand (commandCode .restartCore) s)).freeIndex = s.freeIndex :=
    free
  have occupancy : (restartBlocks (acceptCommand (commandCode .restartCore) s)).catalog.occupancy
      = s.catalog.occupancy := occupancy
  have tagMap : (restartBlocks (acceptCommand (commandCode .restartCore) s)).catalog.tagMap
      = s.catalog.tagMap := tagMap
  have data : releasedReport (boundInputs s) ++ abortReport s.classifier.pass =
      [inputSetByte (boundInputs s), loByte (boundInputs s).length,
        if s.classifier.pass = none then 0 else 1,
        match s.classifier.pass with | some p => BitVec.ofNat 8 p.requester.val | none => 0] := by
    cases s.classifier.pass <;> rfl
  have run : runRestart (acceptCommand (commandCode .restartCore) s) =
      { state := restartBlocks (acceptCommand (commandCode .restartCore) s), code := .ok
        data := releasedReport (boundInputs s) ++ abortReport s.classifier.pass } := rfl
  rw [run, data] at hexec
  generalize restartBlocks (acceptCommand (commandCode .restartCore) s) = u at *
  refine ⟨_, hexec, portAdvanced_of_port (u := completeCommand ⟨u, .ok, _⟩) port, classifier, trackers,
    fun n => ?_, slots, occupancy, tagMap, ?_, ⟨?_, ?_, ?_, ?_⟩, free⟩
  · obtain ⟨unit, config⟩ := units n
    refine ⟨(congrArg MeasUnit.state unit :), (congrArg MeasUnit.hRef unit :),
      (congrArg MeasUnit.vRef unit :), (congrArg MeasUnit.period unit :),
      (congrArg MeasUnit.setSeq unit :), (congrArg MeasUnit.lastSet unit :),
      (congrArg MeasUnit.line unit :), (congrArg MeasUnit.ring unit :),
      (congrArg MeasUnit.gainLines unit :), (congrArg MeasUnit.shortLines unit :),
      (congrArg MeasUnit.lineCounter unit :), (congrArg MeasUnit.sepRun unit :),
      (congrArg MeasUnit.sepArmed unit :), (congrArg MeasUnit.vQuiet unit :),
      (congrArg vSourceOf unit :), (congrArg MeasUnit.halfLineRef unit :),
      (congrArg (fun u : MeasUnit => u.hFilter.waiting) unit :),
      (congrArg (fun u : MeasUnit => u.vFilter.waiting) unit :), fun _ => ⟨?_, ?_⟩, config⟩
    · exact (congrArg (fun u : MeasUnit => u.hFilter.passed) unit :)
    · exact (congrArg (fun u : MeasUnit => u.vFilter.passed) unit :)
  · have done := mailboxDone_alone s.notices.globalFlags
    rw [← done]
    exact (congrArg (fun x : Notices => { x with
      globalFlags := x.globalFlags ||| globalNoticeBit .mailboxDone }) notices :)
  · exact answered_mailbox (r := ⟨u, .ok, _⟩) mailbox
  · have done := mailboxDone_alone s.notices.globalFlags
    change u.notices.globalFlags ||| globalNoticeBit .mailboxDone = _
    rw [notices, done]
    exact (by decide : (1 : BitVec 3) = 0 ||| globalNoticeBit .mailboxDone)
  · exact (congrArg Notices.globalMasks notices :)
  · exact (congrArg Notices.masks notices :)

end Sys2Proof.Machine
end

