-- ==== Sys2Proof/Proofs/Retires.lean ====
section
/-! The changes that release inputs, RETIRE and CLEAR_CATALOG, and the execution of a held change. -/

namespace Sys2Proof.Machine

/-! ### Requests that wait or have been granted -/

/-- Request `q` of `r` waits in its slot or has been granted undisturbed. -/
def Placed (r : Requester) (q : Request) (c : Classifier) : Prop :=
  c.requests[r] = some q ∨ c.pass = some (grantedPass r q)

theorem Placed.arbitrate {r : Requester} {q : Request} {c : Classifier} (h : Placed r q c) :
    Placed r q (arbitrateClassifier c) := by
  obtain same | ⟨k, q', idle, hq', -, granted⟩ := arbitrateClassifier_cases c
  · rw [same]; exact h
  · have waits : c.requests[r] = some q := h.resolve_right (by simp [idle])
    rw [granted]
    by_cases own : r = k
    · subst own
      cases waits.symm.trans hq'
      exact .inr rfl
    · exact .inl ((getElem_set_of_ne c.requests own none).trans waits)

theorem placed_submit (r : Requester) (q : Request) (s : State) :
    Placed r q (submit r q s).classifier :=
  Placed.arbitrate (c := (s.withRequest r (some q)).classifier) (.inl (Vector.getElem_set_self ..))

/-- A submission of another requester leaves a request placed. -/
theorem Placed.submit {r k : Requester} {q q' : Request} {s : State} (ne : r ≠ k)
    (h : Placed r q s.classifier) : Placed r q (submit k q' s).classifier :=
  Placed.arbitrate (c := (s.withRequest k (some q')).classifier)
    (h.imp_left (getElem_set_of_ne s.classifier.requests ne _).trans)

/-- While a pass is in flight a submission touches its own slot of requests alone. -/
theorem submit_classifier_busy {r : Requester} {q : Request} {s : State} {p : Pass}
    (h : s.classifier.pass = some p) : (submit r q s).classifier =
      { s.classifier with requests := s.classifier.requests.set r (some q) } := by
  rw [submit_busy s h]
  rfl

/-! ### The searches of the released inputs -/

theorem foldl_submitHeld_kept (k : PassKind) (l : List InputIx) (s : State) :
    (l.foldl (fun s n => submitHeld n k s) s).inputs = s.inputs
      ∧ (l.foldl (fun s n => submitHeld n k s) s).catalog = s.catalog
      ∧ (l.foldl (fun s n => submitHeld n k s) s).notices = s.notices := by
  induction l generalizing s with
  | nil => exact ⟨rfl, rfl, rfl⟩
  | cons n l ih =>
    obtain ⟨inputs, catalog, notices⟩ := ih (submitHeld n k s)
    exact ⟨inputs.trans (by simp), catalog.trans (by simp), notices.trans (by simp)⟩

/-- The search of a tracker on its held stable set. -/
def heldSearch (n : InputIx) (m : MeasSet) (s : State) : Request :=
  { kind := .search, set := .measured m, seq := some (s.tracker n).reqSeq }

/-- A search stays placed through the submissions of other inputs. -/
theorem Placed.foldl_submitHeld {r : Requester} {q : Request} {l : List InputIx} {s : State}
    (others : ∀ n ∈ l, r ≠ inputRequester n) (h : Placed r q s.classifier) :
    Placed r q (l.foldl (fun s n => submitHeld n .search s) s).classifier := by
  induction l generalizing s with
  | nil => exact h
  | cons n l ih =>
    refine ih (s := submitHeld n .search s) (fun k hk => others k (List.mem_cons_of_mem n hk)) ?_
    unfold submitHeld
    split
    · exact h.submit (others n List.mem_cons_self)
    · exact h

/-- Each released input's search is placed. -/
theorem placed_foldl_submitHeld {l : List InputIx} {s : State} (nodup : l.Nodup) {n : InputIx}
    {m : MeasSet} (hn : n ∈ l) (held : (s.tracker n).held = some m) :
    Placed (inputRequester n) (heldSearch n m s)
      (l.foldl (fun s n => submitHeld n .search s) s).classifier := by
  induction l generalizing s with
  | nil => simp at hn
  | cons k l ih =>
    obtain ⟨fresh, nodup⟩ := List.nodup_cons.mp nodup
    rcases List.mem_cons.mp hn with rfl | later
    · refine Placed.foldl_submitHeld (l := l) (s := submitHeld n .search s) (fun j hj same => ?_) ?_
      · exact inputRequester_ne (fun e : n = j => fresh (e ▸ hj)) same
      · rw [submitHeld_of_held held]
        exact placed_submit _ _ _
    · have same : (submitHeld k .search s).tracker n = s.tracker n :=
        tracker_of_inputs (submitHeld_inputs s k .search) n
      have placed := ih (s := submitHeld k .search s) nodup later (by rw [same]; exact held)
      rw [heldSearch, same] at placed
      exact placed

/-- While a pass is in flight the searches wait, and no other request changes. -/
theorem foldl_submitHeld_busy {l : List InputIx} {s : State} {p : Pass}
    (busy : s.classifier.pass = some p) :
    (l.foldl (fun s n => submitHeld n .search s) s).classifier.pass = some p
      ∧ (l.foldl (fun s n => submitHeld n .search s) s).classifier.pointer = s.classifier.pointer
      ∧ ∀ q : Requester, (∀ n ∈ l, q ≠ inputRequester n) →
        (l.foldl (fun s n => submitHeld n .search s) s).classifier.requests[q]
          = s.classifier.requests[q] := by
  induction l generalizing s with
  | nil => exact ⟨busy, rfl, fun _ _ => rfl⟩
  | cons n l ih =>
    have first : (submitHeld n .search s).classifier.pass = some p
        ∧ (submitHeld n .search s).classifier.pointer = s.classifier.pointer
        ∧ ∀ q : Requester, q ≠ inputRequester n →
          (submitHeld n .search s).classifier.requests[q] = s.classifier.requests[q] := by
      unfold submitHeld
      split
      · rw [submitSet, submit_classifier_busy busy]
        exact ⟨busy, rfl, fun q hq => getElem_set_of_ne s.classifier.requests hq _⟩
      · exact ⟨busy, rfl, fun _ _ => rfl⟩
    obtain ⟨pass, pointer, requests⟩ := first
    obtain ⟨pass', pointer', requests'⟩ := ih pass
    exact ⟨pass', pointer'.trans pointer, fun q hq =>
      (requests' q fun k hk => hq k (List.mem_cons_of_mem n hk)).trans
        (requests q (hq n List.mem_cons_self))⟩

theorem submissionOrder_perm (s : State) (l : List InputIx) : (submissionOrder s l).Perm l := by
  unfold submissionOrder rotated
  exact List.perm_append_comm.trans (.of_eq (List.take_append_drop _ l))

/-- The searches of the released inputs, in whichever order (assumption log 7). -/
theorem submitReleased_outcome {l : List InputIx} (nodup : l.Nodup) (s : State) :
    (submitReleased l s).inputs = s.inputs ∧ (submitReleased l s).catalog = s.catalog
      ∧ (submitReleased l s).notices = s.notices
      ∧ (∀ n m, n ∈ l → (s.tracker n).held = some m →
        Placed (inputRequester n) (heldSearch n m s) (submitReleased l s).classifier)
      ∧ ∀ p, s.classifier.pass = some p →
        (submitReleased l s).classifier.pass = some p
          ∧ (submitReleased l s).classifier.pointer = s.classifier.pointer
          ∧ ∀ q : Requester, (∀ n ∈ l, q ≠ inputRequester n) →
            (submitReleased l s).classifier.requests[q] = s.classifier.requests[q] := by
  unfold submitReleased
  split
  · have perm := submissionOrder_perm s l
    obtain ⟨inputs, catalog, notices⟩ :=
      foldl_submitHeld_kept .search (submissionOrder s l) s.nextFree
    refine ⟨inputs, catalog, notices, fun n m hn held => ?_, fun p busy => ?_⟩
    · exact placed_foldl_submitHeld (s := s.nextFree) (perm.nodup_iff.mpr nodup)
        (perm.mem_iff.mpr hn) held
    · obtain ⟨pass, pointer, requests⟩ :=
        foldl_submitHeld_busy (l := submissionOrder s l) (s := s.nextFree) busy
      exact ⟨pass, pointer, fun q hq => requests q fun n hn => hq n (perm.mem_iff.mp hn)⟩
  · obtain ⟨inputs, catalog, notices⟩ := foldl_submitHeld_kept .search l s
    exact ⟨inputs, catalog, notices, fun n m hn held => placed_foldl_submitHeld nodup hn held,
      fun p busy => foldl_submitHeld_busy busy⟩

/-! ### The releases -/

theorem retireInput_tracker (n : InputIx) (s : State) :
    (retireInput s n).tracker n
      = changedTracker .pending (afterRelease .entryRetired (s.tracker n)) := by
  rw [retireInput, changeState_tracker_self, release_tracker]

theorem retireInput_notices {n : InputIx} {s : State} (bound : (s.tracker n).binding.isSome) :
    (retireInput s n).notices = (s.setNotice n .lost).notices := by
  obtain ⟨b, hb⟩ := Option.isSome_iff_exists.mp bound
  rw [retireInput, changeState_notices, release_notices hb (by decide)]

/-- The releases of a change, input by input. -/
theorem foldl_retireInput {l : List InputIx} {s : State} (nodup : l.Nodup)
    (bound : ∀ n ∈ l, (s.tracker n).binding.isSome) :
    (∀ n, (l.foldl retireInput s).tracker n =
        if n ∈ l then changedTracker .pending (afterRelease .entryRetired (s.tracker n))
        else s.tracker n)
      ∧ (∀ n : InputIx, (l.foldl retireInput s).notices.flags[n] =
        if n ∈ l then s.notices.flags[n] ||| inputNoticeBit .lost else s.notices.flags[n])
      ∧ (l.foldl retireInput s).classifier.pass = s.classifier.pass
      ∧ (l.foldl retireInput s).classifier.pointer = s.classifier.pointer
      ∧ ∀ q : Requester, (∀ n ∈ l, q ≠ inputRequester n) →
        (l.foldl retireInput s).classifier.requests[q] = s.classifier.requests[q] := by
  induction l generalizing s with
  | nil => exact ⟨fun _ => rfl, fun _ => rfl, rfl, rfl, fun _ _ => rfl⟩
  | cons k l ih =>
    obtain ⟨fresh, nodup⟩ := List.nodup_cons.mp nodup
    have frame := (retireInput_moves k s).frame
    have ne_of_mem {n : InputIx} (hn : n ∈ l) : n ≠ k := fun e => fresh (e ▸ hn)
    obtain ⟨trackers, flags, pass, pointer, requests⟩ := ih (s := retireInput s k) nodup
      fun n hn => by
        rw [frame.tracker_ne (ne_of_mem hn)]
        exact bound n (List.mem_cons_of_mem k hn)
    obtain ⟨raised, kept⟩ := noticesRaised_setNotice (s := s)
      (retireInput_notices (bound k List.mem_cons_self))
    obtain ⟨others, -⟩ := kept
    obtain ⟨requests', pointer', pass', -⟩ := otherRequestsKept_changeState (s := s)
      (t := retireInput s k) (release_classifier s k .entryRetired) rfl
    refine ⟨fun n => ?_, fun n => ?_, pass.trans pass', pointer.trans pointer', fun q hq => ?_⟩
    · rw [List.foldl_cons, trackers n]
      by_cases own : n = k
      · subst own
        rw [if_neg fresh, if_pos List.mem_cons_self, retireInput_tracker]
      · simp only [List.mem_cons, own, false_or, frame.tracker_ne own]
    · rw [List.foldl_cons, flags n]
      by_cases own : n = k
      · subst own
        rw [if_neg fresh, if_pos List.mem_cons_self, raised]
      · simp only [List.mem_cons, own, false_or, others n own]
    · rw [List.foldl_cons, requests q fun n hn => hq n (List.mem_cons_of_mem k hn)]
      exact requests' q (hq k List.mem_cons_self)

/-- The releases touch only the slots of the bindings they release. -/
theorem foldl_retireInput_slot {l : List InputIx} {s : State} (nodup : l.Nodup) {j : SlotIx}
    (away : ∀ n ∈ l, ∀ b, (s.tracker n).binding = some b → b.slot ≠ j) :
    (l.foldl retireInput s).slot j = s.slot j := by
  induction l generalizing s with
  | nil => rfl
  | cons k l ih =>
    obtain ⟨fresh, nodup⟩ := List.nodup_cons.mp nodup
    have frame := (retireInput_moves k s).frame
    have first : (retireInput s k).slot j = s.slot j := by
      have catalog : (retireInput s k).catalog = (release k .entryRetired s).catalog := by
        simp [retireInput]
      cases hb : (s.tracker k).binding with
      | none => rw [slot_of_catalog catalog, release_none s hb]
      | some b =>
        obtain ⟨-, others, -⟩ := release_unclaims hb catalog
        exact others j (away k List.mem_cons_self b hb).symm
    rw [List.foldl_cons, ih nodup fun n hn b hb => ?_, first]
    rw [frame.tracker_ne fun e => fresh (e ▸ hn)] at hb
    exact away n (List.mem_cons_of_mem k hn) b hb

/-! ### RETIRE and CLEAR_CATALOG -/

theorem clearRecallOf_eq (i : SlotIx) (t : Tracker) : clearRecallOf i t =
    { t with
      recallRef := if t.recallRef.map Recall.slot = some i then none else t.recallRef } := by
  unfold clearRecallOf recallNames
  cases h : t.recallRef with
  | none =>
    simp only [Option.map_none, reduceCtorEq, if_false, Bool.false_eq_true]
    rw [← h]
  | some r =>
    by_cases e : r.slot = i
    · simp [e]
    · simp only [beq_eq_false_iff_ne.mpr e, Option.map_some, Option.some.injEq, e, if_false,
        Bool.false_eq_true]
      rw [← h]

/-- A tracker whose binding a change releases, once its references and marks have been handled. -/
theorem retiredTracker_eq {n : InputIx} {s : State} {b : Binding} (law : TrackerLawAt n s)
    (hb : (s.tracker n).binding = some b) {f : Tracker → Tracker}
    (hf : ∀ t : Tracker, t.recallRef = none → f t = t) :
    markRecheck (f (changedTracker .pending (afterRelease .entryRetired (s.tracker n)))) =
      { s.tracker n with
        state := .pending, coast := 0, binding := none, recallRef := none
        lastLoss := lossOf .entryRetired b, lossTick := none
        reqSeq := (s.tracker n).reqSeq + 1 } := by
  rw [changedTracker_pending_of_bound ((trackerLawAt_iff n s).mp law) hb, hf _ rfl]
  exact if_neg fun e : TrackerState.pending = .unmatched => nomatch e

theorem nodup_inputsBoundTo (i : SlotIx) (s : State) : (inputsBoundTo i s).Nodup :=
  nodup_allInputs.filter _

theorem nodup_boundInputs (s : State) : (boundInputs s).Nodup := nodup_allInputs.filter _

/-- What every change that releases inputs leaves: `f` clears the references, `c` is the new catalog. -/
def releasing (l : List InputIx) (f : Tracker → Tracker) (c : State → Catalog) (s : State) : State :=
  submitReleased l (handMarks ((mapTrackers f (l.foldl retireInput s)).withCatalog
    (c (mapTrackers f (l.foldl retireInput s)))))

theorem releasing_outcome {l : List InputIx} {f : Tracker → Tracker} {c : State → Catalog} {s : State}
    (law : TrackerLaw s) (nodup : l.Nodup) (bound : ∀ n ∈ l, (s.tracker n).binding.isSome)
    (hf : ∀ t : Tracker, t.recallRef = none → f t = t) :
    (∀ n b, n ∈ l → (s.tracker n).binding = some b →
        retiredInput n b s (releasing l f c s) (releasing l f c s).classifier)
      ∧ (∀ n, n ∉ l →
        (releasing l f c s).tracker n = markRecheck (f (s.tracker n))
          ∧ (releasing l f c s).notices.flags[n] = s.notices.flags[n])
      ∧ flightDisturbed s (releasing l f c s).classifier
      ∧ (∀ q : Requester, (∀ n ∈ l, q ≠ inputRequester n) → s.classifier.pass ≠ none →
        (releasing l f c s).classifier.requests[q] = s.classifier.requests[q])
      ∧ (releasing l f c s).catalog = c (mapTrackers f (l.foldl retireInput s)) := by
  obtain ⟨trackers, flags, pass, pointer, requests⟩ := foldl_retireInput nodup bound
  unfold releasing
  generalize hv : handMarks ((mapTrackers f (l.foldl retireInput s)).withCatalog
    (c (mapTrackers f (l.foldl retireInput s)))) = v
  have vTracker (n : InputIx) : v.tracker n = markRecheck (f ((l.foldl retireInput s).tracker n)) := by
    rw [← hv, handMarks_tracker, tracker_withCatalog, tracker_mapTrackers]
  have vNotices : v.notices = (l.foldl retireInput s).notices := by rw [← hv]; simp
  have vCatalog : v.catalog = c (mapTrackers f (l.foldl retireInput s)) := by rw [← hv]; simp
  have vClassifier : v.classifier = passDisturbed (l.foldl retireInput s).classifier := by
    rw [← hv]; rfl
  obtain ⟨inputs, catalog, notices, placed, busy⟩ := submitReleased_outcome nodup v
  refine ⟨fun n b hn hb => ?_, fun n hn => ?_, fun p hp => ?_, fun q hq flight => ?_,
    catalog.trans vCatalog⟩
  · have tracker : v.tracker n = _ :=
      (vTracker n).trans (((congrArg (fun t => markRecheck (f t))
        ((trackers n).trans (if_pos hn)))).trans (retiredTracker_eq (law n) hb hf))
    refine ⟨(tracker_of_inputs inputs n).trans tracker, ?_, fun m held => ?_⟩
    · rw [notices, vNotices, flags n, if_pos hn]
    · have search := placed n m hn (by rw [tracker]; exact held)
      rw [heldSearch, tracker] at search
      exact search
  · exact ⟨(tracker_of_inputs inputs n).trans (by rw [vTracker, trackers n, if_neg hn]),
      by rw [notices, vNotices, flags n, if_neg hn]⟩
  · obtain ⟨pass', pointer', -⟩ := busy { p with disturbed := true } (by
      rw [vClassifier, passDisturbed, pass, hp]; rfl)
    exact ⟨pass', pointer'.trans (by rw [vClassifier]; exact pointer)⟩
  · obtain ⟨p, hp⟩ := Option.ne_none_iff_exists'.mp flight
    obtain ⟨-, -, requests'⟩ := busy { p with disturbed := true } (by
      rw [vClassifier, passDisturbed, pass, hp]; rfl)
    rw [requests' q hq, vClassifier]
    exact requests q hq

/-- The retire of a non-FREE slot (R16, R21, R148). -/
theorem slotRetired_retire {s : State} (law : TrackerLaw s) (i : SlotIx) :
    slotRetired i s (submitReleased (inputsBoundTo i s) (retireSlot i s))
      (submitReleased (inputsBoundTo i s) (retireSlot i s)).classifier := by
  have bound (n : InputIx) (hn : n ∈ inputsBoundTo i s) : (s.tracker n).binding.isSome := by
    obtain ⟨b, hb, -⟩ := boundTo_iff.mp (mem_inputsBoundTo.mp hn)
    rw [hb]; rfl
  obtain ⟨retired, others, flight, requests, catalog⟩ := releasing_outcome (f := clearRecallOf i)
    (c := fun u => freeSlot i u.catalog) law (nodup_inputsBoundTo i s) bound
    fun t none => by rw [clearRecallOf_eq, none]; simp [← none]
  have same : releasing (inputsBoundTo i s) (clearRecallOf i) (fun u => freeSlot i u.catalog) s
      = submitReleased (inputsBoundTo i s) (retireSlot i s) := rfl
  rw [same] at retired others flight requests catalog
  obtain ⟨-, occupancy, tagMap, -⟩ := foldl_moves_catalog (f := retireInput)
    (fun s n => retireInput_moves n s) (inputsBoundTo i s) s
  refine ⟨?_, fun j hj => ?_, ?_, fun tag j => ?_, fun n b hb slot => ?_, fun n free => ?_, flight,
    fun q hq busy => requests q (fun n hn e => ?_) busy⟩
  · rw [slot_of_catalog (s := (mapTrackers (clearRecallOf i)
      ((inputsBoundTo i s).foldl retireInput s)).withCatalog (freeSlot i _)) catalog, slot_freeSlot,
      if_pos rfl]
    rfl
  · rw [slot_of_catalog (s := (mapTrackers (clearRecallOf i)
      ((inputsBoundTo i s).foldl retireInput s)).withCatalog (freeSlot i _)) catalog, slot_freeSlot,
      if_neg hj]
    refine foldl_retireInput_slot (nodup_inputsBoundTo i s) fun n hn b hb => ?_
    obtain ⟨b', hb', rfl⟩ := boundTo_iff.mp (mem_inputsBoundTo.mp hn)
    cases hb.symm.trans hb'
    exact hj.symm
  · rw [catalog]
    exact congrArg (· - 1) occupancy
  · rw [catalog]
    change (tag, j) ∈ eraseSlotTag i ((inputsBoundTo i s).foldl retireInput s).catalog.tagMap ↔ _
    rw [tagMap, mem_eraseSlotTag]
  · exact retired n b (mem_inputsBoundTo.mpr (boundTo_iff.mpr ⟨b, hb, slot⟩)) hb
  · obtain ⟨tracker, flags⟩ := others n fun hn => by
      simp [mem_inputsBoundTo.mp hn] at free
    exact ⟨tracker.trans (by rw [clearRecallOf_eq, markRecheck_eq]), flags⟩
  · have free := hq n e
    simp [mem_inputsBoundTo.mp hn] at free

/-- CLEAR_CATALOG (R17). -/
theorem catalogCleared_clear {s : State} (law : TrackerLaw s) :
    catalogCleared s (submitReleased (boundInputs s) (clearSlots s))
      (submitReleased (boundInputs s) (clearSlots s)).classifier := by
  obtain ⟨retired, others, flight, requests, catalog⟩ := releasing_outcome
    (f := fun t => { t with recallRef := none }) (c := fun _ => resetCatalog) law
    (nodup_boundInputs s) (fun n hn => mem_boundInputs.mp hn)
    fun t none => by rw [← none]
  have same : releasing (boundInputs s) (fun t => { t with recallRef := none })
      (fun _ => resetCatalog) s = submitReleased (boundInputs s) (clearSlots s) := rfl
  rw [same] at retired others flight requests catalog
  refine ⟨fun i => ?_, by rw [catalog]; rfl, by rw [catalog]; rfl, fun n b hb => ?_,
    fun n free => ?_, flight, fun q hq busy => requests q (fun n hn e => ?_) busy⟩
  · rw [State.slot, catalog]
    exact Vector.getElem_replicate ..
  · exact retired n b (mem_boundInputs.mpr (by rw [hb]; rfl)) hb
  · obtain ⟨tracker, flags⟩ := others n fun hn => by simpa [free] using mem_boundInputs.mp hn
    exact ⟨tracker.trans (by rw [markRecheck_eq]), flags⟩
  · simpa [hq n e] using mem_boundInputs.mp hn

/-! ### At acceptance -/

theorem runRetire_frame (args : Vector Byte 8) (s : State) : ChangeFrame s (runRetire args s).state := by
  obtain same | ⟨i, -, -, eq⟩ := runRetire_cases args s
  · rw [same]; exact .refl s
  · rw [eq]; exact (retireSlot_changeFrame i s).trans (submitReleased_changeFrame _ _)

theorem runRetire_freed {args : Vector Byte 8} {s : State} {i : SlotIx}
    (hi : (args[0]).toNat = i.val) (stands : (s.slot i).state ≠ .free) :
    runRetire args s =
      { state := submitReleased (inputsBoundTo i s) (retireSlot i s), code := .ok
        data := [slotByte i, inputSetByte (inputsBoundTo i s), loByte (inputsBoundTo i s).length] } := by
  unfold runRetire
  simp only [slotArg_eq_some hi, if_neg stands]
  rfl

theorem runRetire_free {args : Vector Byte 8} {s : State} {i : SlotIx}
    (hi : (args[0]).toNat = i.val) (free : (s.slot i).state = .free) :
    runRetire args s = refuse .badState [slotByte i, 0] s := by
  unfold runRetire
  simp only [slotArg_eq_some hi, if_pos free]
  rfl

theorem runRetire_outside {args : Vector Byte 8} {s : State} (far : 64 ≤ (args[0]).toNat) :
    runRetire args s = refuse .badSlot [] s := by
  unfold runRetire
  rw [slotArg_eq_none far]

/-- Settles O31: the three outcomes of the slot argument. -/
theorem retireFreesSlot : Obligations.RetireFreesSlot := by
  intro s law ready gate
  have hexec := exec_change (c := .retire) (code := commandCode .retire)
    (run := runRetire s.mailbox.args) rfl ready gate
  have frame := runRetire_frame s.mailbox.args (acceptCommand (commandCode .retire) s)
  by_cases far : 64 ≤ (s.mailbox.args[0]).toNat
  · rw [runRetire_outside far] at hexec frame
    obtain ⟨-, completed, flags, catalog, classifier, inputs, -⟩ := answered_same (s := s)
      (r := refuse .badSlot [] (acceptCommand (commandCode .retire) s)) rfl
    have outside (i : SlotIx) (hi : (s.mailbox.args[0]).toNat = i.val) : False := by omega
    exact ⟨_, hexec, (Executing.of_change frame).portAdvanced, frame.units,
      fun i hi => (outside i hi).elim, fun i hi => (outside i hi).elim,
      fun _ => ⟨catalog, classifier, inputs, flags, completed⟩⟩
  obtain ⟨i, hi⟩ : ∃ i : SlotIx, (s.mailbox.args[0]).toNat = i.val :=
    ⟨⟨(s.mailbox.args[0]).toNat, by omega⟩, rfl⟩
  have only (k : SlotIx) (hk : (s.mailbox.args[0]).toNat = k.val) : k = i :=
    Fin.ext (hk.symm.trans hi)
  by_cases free : (s.slot i).state = .free
  · rw [runRetire_free (s := acceptCommand (commandCode .retire) s) hi free] at hexec frame
    obtain ⟨-, completed, flags, catalog, classifier, inputs, -⟩ := answered_same (s := s)
      (r := refuse .badState [slotByte i, 0] (acceptCommand (commandCode .retire) s)) rfl
    refine ⟨_, hexec, (Executing.of_change frame).portAdvanced, frame.units, fun k hk stands => ?_,
      fun k hk _ => ?_, fun h => absurd h far⟩
    · cases only k hk
      exact absurd free stands
    · cases only k hk
      exact ⟨catalog, classifier, inputs, flags, completed⟩
  · rw [runRetire_freed (s := acceptCommand (commandCode .retire) s) hi free] at hexec frame
    have retired := slotRetired_retire (s := acceptCommand (commandCode .retire) s) law i
    have bound : inputsBoundTo i (acceptCommand (commandCode .retire) s) = inputsBoundTo i s := rfl
    rw [bound] at hexec frame retired
    have executing := Executing.of_change frame
    generalize submitReleased (inputsBoundTo i s)
      (retireSlot i (acceptCommand (commandCode .retire) s)) = u at *
    refine ⟨_, hexec, executing.portAdvanced (r := ⟨u, .ok, _⟩), frame.units, fun k hk _ => ?_,
      fun k hk isFree => ?_, fun h => absurd h far⟩
    · cases only k hk
      exact ⟨retired, executing.completedWith (r := ⟨u, .ok, _⟩)⟩
    · cases only k hk
      exact absurd isFree free

theorem runClear_frame (s : State) : ChangeFrame s (runClear s).state :=
  (clearSlots_changeFrame s).trans (submitReleased_changeFrame _ _)

/-- Settles O32: CLEAR_CATALOG is never refused. -/
theorem clearCatalogFreesEverySlot : Obligations.ClearCatalogFreesEverySlot := by
  intro s law ready gate
  have hexec := exec_change (c := .clearCatalog) (code := commandCode .clearCatalog)
    (run := runClear) rfl ready gate
  have frame := runClear_frame (acceptCommand (commandCode .clearCatalog) s)
  have cleared := catalogCleared_clear (s := acceptCommand (commandCode .clearCatalog) s) law
  have run : runClear (acceptCommand (commandCode .clearCatalog) s) =
      { state := submitReleased (boundInputs s)
          (clearSlots (acceptCommand (commandCode .clearCatalog) s))
        code := .ok
        data := [loByte s.catalog.occupancy, inputSetByte (boundInputs s),
          loByte (boundInputs s).length] } := rfl
  have bound : boundInputs (acceptCommand (commandCode .clearCatalog) s) = boundInputs s := rfl
  rw [run] at hexec frame
  rw [bound] at cleared
  have executing := Executing.of_change frame
  generalize submitReleased (boundInputs s)
    (clearSlots (acceptCommand (commandCode .clearCatalog) s)) = u at *
  exact ⟨_, hexec, executing.portAdvanced (r := ⟨u, .ok, _⟩), frame.units, cleared,
    executing.completedWith (r := ⟨u, .ok, _⟩)⟩

end Sys2Proof.Machine
end

