-- ==== Sys2Proof/Proofs/Held.lean ====
section
/-! The execution of a held change from its accepted copy. -/

namespace Sys2Proof.Machine

/-! ### The command that is held -/

theorem exec_held {s : State} {a : Accepted} {run : State → Executed} (held : s.mailbox.state = .held)
    (gate : s.classifier.gate = .opened) (accepted : s.mailbox.accepted = some a)
    (hrun : changeOf a = some run) :
    exec .heldCommandExecute s
      = .next (noteChange s (arbitrate (completeCommand (run s)))) := by
  have executed : executeHeld s = arbitrate (completeCommand (run s)) := by
    unfold executeHeld
    simp only [held, gate, accepted, hrun]
  rw [← executed]
  rfl

/-- The state after the execution of a held change, and the arbitration it leaves. -/
def heldAnswer (s : State) (r : Executed) : State := noteChange s (arbitrate (completeCommand r))

theorem changeOf_commit {a : Accepted} {image : Vector Byte 32} (code : a.code = 0x01)
    (h : a.image = some image) : changeOf a = some (runCommit a.args image) := by
  have named : commandOfCode a.code = some .commit := by rw [code]; rfl
  unfold changeOf
  rw [named, h]

theorem changeOf_suspend {a : Accepted} (code : a.code = 0x03) :
    changeOf a = some (runToggle .active .suspended a.args) := by
  have named : commandOfCode a.code = some .suspend := by rw [code]; rfl
  unfold changeOf
  rw [named]
  rfl

theorem changeOf_resume {a : Accepted} (code : a.code = 0x04) :
    changeOf a = some (runToggle .suspended .active a.args) := by
  have named : commandOfCode a.code = some .resume := by rw [code]; rfl
  unfold changeOf
  rw [named]
  rfl

theorem changeOf_retire {a : Accepted} (code : a.code = 0x05) :
    changeOf a = some (runRetire a.args) := by
  have named : commandOfCode a.code = some .retire := by rw [code]; rfl
  unfold changeOf
  rw [named]

theorem changeOf_clear {a : Accepted} (code : a.code = 0x06) : changeOf a = some runClear := by
  have named : commandOfCode a.code = some .clearCatalog := by rw [code]; rfl
  unfold changeOf
  rw [named]

/-! ### Its completion -/

theorem heldCompleted_of_change {s : State} {r : Executed} (h : ChangeFrame s r.state) :
    heldCompleted r.code r.data s (heldAnswer s r) := by
  refine ⟨?_, congrArg (· ||| globalNoticeBit .mailboxDone) h.globalFlags, h.globalMasks, h.masks, ?_⟩
  · exact (congrArg (fun m : Mailbox => ({ m with
      state := .done, result := some r.code, data := padTo 21 r.data } : Mailbox)) h.mailbox :)
  · rw [portKept, heldAnswer, noteChange_port]
    simp [arbitrate, h.port]

/-- A refusal at the gate's opening (R157). -/
theorem heldRefused_of_run {s : State} {a : Accepted} {run : State → Executed} {code : ResultCode}
    {data : List Byte} (held : s.mailbox.state = .held) (gate : s.classifier.gate = .opened)
    (accepted : s.mailbox.accepted = some a) (hrun : changeOf a = some run)
    (refused : run s = refuse code data s) : heldRefused code data s := by
  have hexec := exec_held held gate accepted hrun
  rw [refused] at hexec
  exact ⟨_, hexec, heldCompleted_of_change (r := refuse code data s) (.refl s), rfl, rfl, rfl, rfl, rfl⟩

/-- Settles O37: each change runs as at an open gate, on the copy, and arbitration follows. -/
theorem heldChangesExecuteFromCopy : Obligations.HeldChangesExecuteFromCopy := by
  intro s a held gate accepted
  have exec_of {run : State → Executed} (hrun : changeOf a = some run) :=
    exec_held held gate accepted hrun
  have refused_of {run : State → Executed} {code : ResultCode} {data : List Byte}
      (hrun : changeOf a = some run) (refused : run s = refuse code data s) :=
    heldRefused_of_run held gate accepted hrun refused
  refine ⟨fun image i law code himage hi passes tag => ?commit,
    fun image code data law hcode himage refused => ?commitRefused,
    fun required new listed => ?toggle, fun code => ⟨fun i law hi stands => ?retire,
      fun i hi free => ?retireFree, fun far => ?retireFar⟩, fun code law => ?clear⟩
  case commit =>
    have sorted := ((catalogLaw_iff s).mp law).2.2.1
    have hexec := exec_of (changeOf_commit code himage)
    rw [runCommit_passed (slotArg_eq_some hi) (fieldFailure_eq_none.mpr passes)
      fun j found => tag j ((findTag_eq_some sorted).mp found)] at hexec
    have frame : ChangeFrame s (commitPassed i (stagedEntry image) s).state :=
      (withCatalog_changeFrame _ _).trans (handMarks_changeFrame _)
    exact ⟨_, hexec, entryInstalled_installEntry law i _,
      (marksHanded_handMarks (s.withCatalog (installEntry i (stagedEntry image) s.catalog))).2, rfl,
      heldCompleted_of_change frame, rfl, rfl⟩
  case commitRefused =>
    exact refused_of (changeOf_commit hcode himage)
      (runCommit_refused ((catalogLaw_iff s).mp law).2.2.1 refused)
  case toggle =>
    have hrun : changeOf a = some (runToggle required new a.args) := by
      simp only [List.mem_cons, Prod.mk.injEq, List.not_mem_nil, or_false] at listed
      obtain ⟨code, rfl, rfl⟩ | ⟨code, rfl, rfl⟩ := listed
      · exact changeOf_suspend code
      · exact changeOf_resume code
    refine ⟨fun i hi stands => ?_, fun i hi other => refused_of hrun (runToggle_refused hi other),
      fun far => refused_of hrun (runToggle_outside far)⟩
    have hexec := exec_of hrun
    rw [runToggle_done hi stands] at hexec
    have frame : ChangeFrame s (handMarks (s.withSlot i { s.slot i with state := new })) :=
      (withCatalog_changeFrame _ _).trans (handMarks_changeFrame _)
    refine ⟨_, hexec, ?_, ⟨fun j hj => ?_, rfl, rfl⟩,
      (marksHanded_handMarks (s.withSlot i { s.slot i with state := new })).2, rfl,
      heldCompleted_of_change (r := ⟨handMarks _, .ok, _⟩) frame, rfl, rfl⟩
    · exact (slot_withSlot s i i _).trans (if_pos rfl)
    · exact (slot_withSlot s i j _).trans (if_neg hj)
  case retire =>
    have hexec := exec_of (changeOf_retire code)
    have frame := runRetire_frame a.args s
    rw [runRetire_freed hi stands] at hexec frame
    have retired := slotRetired_retire law i
    generalize submitReleased (inputsBoundTo i s) (retireSlot i s) = u at *
    exact ⟨_, u.classifier, hexec, retired, rfl, frame.units,
      heldCompleted_of_change (r := ⟨u, .ok, _⟩) frame⟩
  case retireFree => exact refused_of (changeOf_retire code) (runRetire_free hi free)
  case retireFar => exact refused_of (changeOf_retire code) (runRetire_outside far)
  case clear =>
    have hexec := exec_of (changeOf_clear code)
    have frame := runClear_frame s
    have cleared := catalogCleared_clear law
    have run : runClear s =
        { state := submitReleased (boundInputs s) (clearSlots s), code := .ok
          data := [loByte s.catalog.occupancy, inputSetByte (boundInputs s),
            loByte (boundInputs s).length] } := rfl
    rw [run] at hexec frame
    generalize submitReleased (boundInputs s) (clearSlots s) = u at *
    exact ⟨_, u.classifier, hexec, cleared, rfl, frame.units,
      heldCompleted_of_change (r := ⟨u, .ok, _⟩) frame⟩

end Sys2Proof.Machine
end

