-- ==== Sys2Proof/Proofs/Search.lean ====
section
/-! The examinations of a pass: the tally of a search, the reference result, and the one step of a
verify. -/

namespace Sys2Proof.Machine

/-! ### A step -/

theorem exec_classifierStep {s : State} {p : Pass} (hp : s.classifier.pass = some p)
    (unfinished : p.position < passLength p.kind) :
    exec .classifierStep s =
      .next { s with classifier := { s.classifier with pass := some (examineStep s p) } } := by
  have going : passFinished p = false := by
    unfold passFinished
    exact decide_eq_false (by omega)
  have stepped : classifierStep s = s.withPass (some (examineStep s p)) := by
    unfold classifierStep
    simp only [hp, going, Bool.false_eq_true, if_false]
  change Host.Outcome.next (noteChange s (classifierStep s)) = _
  rw [stepped, noteChange_of_same (s := s) (t := s.withPass (some (examineStep s p))) rfl rfl]
  rfl

theorem examineStep_search {s : State} {p : Pass} {i : SlotIx} (kind : p.kind = .search)
    (position : p.position = i.val) :
    examineStep s p =
      { p with
        position := i.val + 1
        tally := p.tally.map (tallySlot i (s.slot i) p.set.sync) } := by
  have inside : p.position < 64 := position ▸ i.isLt
  have same : (⟨p.position, inside⟩ : SlotIx) = i := Fin.ext position
  unfold examineStep
  simp only [kind, inside, ↓reduceDIte, same]
  rw [position]

theorem examineStep_verify {s : State} {p : Pass} {n : InputIx} (r : p.requester = inputRequester n)
    (position : p.position = 0) (kind : p.kind ≠ .search) :
    examineStep s p =
      { p with
        position := 1
        verdict :=
          if p.kind = .verifyBound then some (examineBound s (s.tracker n).binding p.set.sync)
          else some (examineRecall s (s.tracker n).recallRef p.set.sync) } := by
  have own : requesterInput p.requester = some n := requesterInput_eq_some.mpr r
  unfold examineStep examineVerify
  cases h : p.kind with
  | search => exact absurd h kind
  | verifyBound => simp [own, position]
  | verifyRecall => simp [own, position]

/-! ### The placement of a candidate -/

/-- The place of a candidate: after every candidate of its rank or higher, before every lower one. -/
theorem placeCandidate_split (c : Candidate) {l : List Candidate} (h : candidatesOrdered l) :
    ∃ before after, l = before ++ after ∧ (∀ d ∈ before, c.rank ≤ d.rank)
      ∧ (∀ d ∈ after, d.rank < c.rank) ∧ placeCandidate c l = before ++ c :: after
      ∧ (before = [] ↔ placedFirst c.rank l = true) := by
  induction l with
  | nil => exact ⟨[], [], rfl, by simp, by simp, rfl, by simp [placedFirst]⟩
  | cons d ds ih =>
    obtain ⟨first, rest⟩ := List.pairwise_cons.mp h
    by_cases passes : c.rank ≤ d.rank
    · obtain ⟨before, after, split, high, low, placed, -⟩ := ih rest
      refine ⟨d :: before, after, by rw [split]; rfl, ?_, low, ?_, ?_⟩
      · exact List.forall_mem_cons.mpr ⟨passes, high⟩
      · rw [placeCandidate, if_pos passes, placed]
        rfl
      · simp [placedFirst, passes]
    · refine ⟨[], d :: ds, rfl, by simp, ?_, by rw [placeCandidate, if_neg passes]; rfl, ?_⟩
      · refine List.forall_mem_cons.mpr ⟨by omega, fun e he => ?_⟩
        obtain lower | ⟨same, -⟩ := first e he <;> omega
      · simp only [placedFirst, decide_eq_true_eq, true_iff]
        omega

/-- A candidate of a later slot keeps the list in order. -/
theorem candidatesOrdered_placeCandidate {c : Candidate} {l : List Candidate}
    (h : candidatesOrdered l) (later : ∀ d ∈ l, d.slot < c.slot) :
    candidatesOrdered (placeCandidate c l) := by
  obtain ⟨before, after, rfl, high, low, placed, -⟩ := placeCandidate_split c h
  obtain ⟨front, back, across⟩ := List.pairwise_append.mp h
  rw [placed]
  refine List.pairwise_append.mpr ⟨front, List.pairwise_cons.mpr ⟨fun d hd => .inl (low d hd), back⟩,
    fun d hd e he => ?_⟩
  rcases List.mem_cons.mp he with rfl | he
  · have rank := high d hd
    have slot := later d (List.mem_append_left after hd)
    rcases Nat.lt_or_eq_of_le rank with lower | same
    · exact .inl lower
    · exact .inr ⟨same.symm, slot⟩
  · exact across d hd e he

theorem tallySlot_unfit {i : SlotIx} {x : Slot} {m : SyncSet} {t : Tally}
    (h : ¬ (x.state = .active ∧ fits x.entry m = true)) : tallySlot i x m t = t :=
  if_neg (by simpa using h)

theorem tallySlot_fit {i : SlotIx} {x : Slot} {m : SyncSet} {t : Tally}
    (h : x.state = .active ∧ fits x.entry m = true) : tallySlot i x m t = tallyFit i x t :=
  if_pos (by simpa using h)

/-- Settles O39: the tally takes the fitting slot at its place. -/
theorem searchStepUpdatesTally : Obligations.SearchStepUpdatesTally := by
  intro s p tally i hp kind position htally ordered earlier few
  have hexec := exec_classifierStep hp (by rw [kind, position]; exact i.isLt)
  rw [examineStep_search kind position, htally] at hexec
  refine ⟨_, hexec, ?_, ?_, ?_, tallySlot_unfit, fun fit => ?_⟩
  · by_cases fit : (s.slot i).state = .active ∧ fits (s.slot i).entry p.set.sync = true
    · rw [tallySlot_fit fit]
      exact (candidatesOrdered_placeCandidate ordered earlier).sublist (List.take_sublist ..)
    · rw [tallySlot_unfit fit]
      exact ordered
  · by_cases fit : (s.slot i).state = .active ∧ fits (s.slot i).entry p.set.sync = true
    · rw [tallySlot_fit fit]
      exact List.length_take_le ..
    · rw [tallySlot_unfit fit]
      exact few
  · intro c hc
    by_cases fit : (s.slot i).state = .active ∧ fits (s.slot i).entry p.set.sync = true
    · rw [tallySlot_fit fit] at hc
      rcases mem_placeCandidate.mp (List.mem_of_mem_take hc) with rfl | hc
      · exact le_rfl
      · exact (earlier c hc).le
    · rw [tallySlot_unfit fit] at hc
      exact (earlier c hc).le
  · rw [tallySlot_fit fit]
    obtain ⟨before, after, split, high, low, placed, first⟩ := placeCandidate_split
      { slot := i, rank := (s.slot i).entry.rank } ordered
    refine ⟨rfl, ?_, fun same => ?_, fun r hr lower => ?_, before, after, split, high, low,
      congrArg (List.take 4) placed, fun none => if_pos (first.mp none), fun some => if_neg ?_⟩
    · rintro (none | ⟨r, hr, above⟩)
      · simp [tallyFit, none]
      · simp [tallyFit, hr, above, above.le]
    · simp [tallyFit, same]
    · simp [tallyFit, hr, lower.le, Nat.not_lt.mpr lower.le, Nat.ne_of_gt lower]
    · exact fun placedFirst => some (first.mpr placedFirst)

/-! ### The reference search -/

/-- A slot as a candidate. -/
def candidateOf (s : State) (i : SlotIx) : Candidate := { slot := i, rank := (s.slot i).entry.rank }

/-- The slots of a list whose ranks lie below `k`, by rank descending. -/
def rankedBelow (s : State) (k : Nat) (l : List SlotIx) : List SlotIx :=
  (List.range k).reverse.flatMap fun r => l.filter fun i => (s.slot i).entry.rank == r

theorem rankedBelow_succ (s : State) (k : Nat) (l : List SlotIx) :
    rankedBelow s (k + 1) l = (l.filter fun i => (s.slot i).entry.rank == k) ++ rankedBelow s k l := by
  simp [rankedBelow, List.range_succ]

theorem rank_lt_of_mem_rankedBelow {s : State} {k : Nat} {l : List SlotIx} {i : SlotIx}
    (h : i ∈ rankedBelow s k l) : (s.slot i).entry.rank < k := by
  simp only [rankedBelow, List.mem_flatMap, List.mem_reverse, List.mem_range, List.mem_filter,
    beq_iff_eq] at h
  obtain ⟨r, hr, -, rank⟩ := h
  omega

/-- A slot of rank `k` or more stands in no list of lower ranks. -/
theorem rankedBelow_append_of_le {s : State} {k : Nat} {i : SlotIx} (l : List SlotIx)
    (h : k ≤ (s.slot i).entry.rank) : rankedBelow s k (l ++ [i]) = rankedBelow s k l := by
  induction k with
  | zero => rfl
  | succ k ih =>
    have other : ((s.slot i).entry.rank == k) = false := beq_false_of_ne (by omega)
    rw [rankedBelow_succ, rankedBelow_succ, ih (by omega), List.filter_append]
    simp [other]

/-- A candidate passes over all of its rank or higher. -/
theorem placeCandidate_append {c : Candidate} {l k : List Candidate}
    (h : ∀ d ∈ l, c.rank ≤ d.rank) : placeCandidate c (l ++ k) = l ++ placeCandidate c k := by
  induction l with
  | nil => rfl
  | cons d l ih =>
    obtain ⟨first, rest⟩ := List.forall_mem_cons.mp h
    rw [List.cons_append, placeCandidate, if_pos first, ih rest]
    rfl

/-- Ahead of lower candidates it stands first. -/
theorem placeCandidate_lower {c : Candidate} {l : List Candidate} (h : ∀ d ∈ l, d.rank < c.rank) :
    placeCandidate c l = c :: l := by
  cases l with
  | nil => rfl
  | cons d l => exact if_neg (Nat.not_le.mpr (h d List.mem_cons_self))

/-- The placement of the next slot gives the ranking of the list with that slot at its end. -/
theorem placeCandidate_rankedBelow {s : State} {k : Nat} {i : SlotIx} (l : List SlotIx)
    (h : (s.slot i).entry.rank < k) :
    placeCandidate (candidateOf s i) ((rankedBelow s k l).map (candidateOf s))
      = (rankedBelow s k (l ++ [i])).map (candidateOf s) := by
  induction k with
  | zero => omega
  | succ k ih =>
    have block : ∀ d ∈ (l.filter fun j => (s.slot j).entry.rank == k).map (candidateOf s),
        (candidateOf s i).rank ≤ d.rank := by
      simp only [List.mem_map, List.mem_filter, beq_iff_eq]
      rintro _ ⟨j, ⟨-, rank⟩, rfl⟩
      exact (Nat.le_of_lt_succ h).trans rank.ge
    rw [rankedBelow_succ, rankedBelow_succ, List.map_append, placeCandidate_append block,
      List.map_append, List.filter_append]
    by_cases top : (s.slot i).entry.rank = k
    · have lower : ∀ d ∈ (rankedBelow s k l).map (candidateOf s), d.rank < (candidateOf s i).rank := by
        simp only [List.mem_map]
        rintro _ ⟨j, hj, rfl⟩
        exact (rank_lt_of_mem_rankedBelow hj).trans_eq top.symm
      rw [placeCandidate_lower lower, rankedBelow_append_of_le l top.ge]
      simp [top]
    · have other : ((s.slot i).entry.rank == k) = false := beq_false_of_ne top
      rw [ih (by omega)]
      simp [other]

theorem length_placeCandidate (c : Candidate) (l : List Candidate) :
    (placeCandidate c l).length = l.length + 1 := by
  induction l with
  | nil => rfl
  | cons d l ih => rw [placeCandidate]; split <;> simp [ih]

/-- Only the first candidates matter to the first candidates. -/
theorem take_placeCandidate (c : Candidate) (k : Nat) (l : List Candidate) :
    (placeCandidate c (l.take k)).take k = (placeCandidate c l).take k := by
  induction l generalizing k with
  | nil => simp
  | cons d l ih =>
    cases k with
    | zero => simp
    | succ k =>
      rw [List.take_succ_cons, placeCandidate, placeCandidate]
      split
      · rw [List.take_succ_cons, List.take_succ_cons, ih]
      · rw [List.take_succ_cons, List.take_succ_cons]
        cases k with
        | zero => rfl
        | succ k => simp [List.take_take]

theorem head?_placeCandidate (c : Candidate) (l : List Candidate) :
    (placeCandidate c l).head? = if placedFirst c.rank l then some c else l.head? := by
  cases l with
  | nil => rfl
  | cons d l =>
    by_cases passes : c.rank ≤ d.rank
    · simp [placeCandidate, placedFirst, passes]
    · simp [placeCandidate, placedFirst, passes, Nat.lt_of_not_le passes]

theorem placedFirst_take (rank : Nat) (l : List Candidate) :
    placedFirst rank (l.take 4) = placedFirst rank l := by
  cases l <;> rfl

theorem topRankOf_append (s : State) (l : List SlotIx) (i : SlotIx) :
    topRankOf s (l ++ [i]) = max (topRankOf s l) (s.slot i).entry.rank := by
  simp [topRankOf]

theorem rank_le_topRankOf {s : State} {l : List SlotIx} {i : SlotIx} (h : i ∈ l) :
    (s.slot i).entry.rank ≤ topRankOf s l := by
  induction l using List.reverseRecOn with
  | nil => simp at h
  | append_singleton l j ih =>
    rw [topRankOf_append]
    rcases List.mem_append.mp h with h | h
    · exact (ih h).trans (le_max_left _ _)
    · cases List.mem_singleton.mp h
      exact le_max_right _ _

/-- The tally that stands for the fitting slots `l` seen so far (R37). -/
structure TallyOf (s : State) (l : List SlotIx) (t : Tally) : Prop where
  candidates : t.candidates = ((rankedSlots s l).map (candidateOf s)).take 4
  length : (rankedSlots s l).length = l.length
  matchCount : t.matchCount = l.length
  first : ∀ i, (rankedSlots s l).head? = some i → t.firstGeneration = (s.slot i).generation
  topRank : t.topRank = if l = [] then none else some (topRankOf s l)
  topCount : t.topCount = l.countP fun i => (s.slot i).entry.rank == topRankOf s l

theorem tallyOf_empty (s : State) : TallyOf s [] emptyTally where
  candidates := rfl
  length := rfl
  matchCount := rfl
  first := fun _ h => nomatch h
  topRank := rfl
  topCount := rfl

theorem rankedSlots_append {s : State} {i : SlotIx} (l : List SlotIx)
    (h : (s.slot i).entry.rank ≤ 15) :
    placeCandidate (candidateOf s i) ((rankedSlots s l).map (candidateOf s))
      = (rankedSlots s (l ++ [i])).map (candidateOf s) :=
  placeCandidate_rankedBelow l (Nat.lt_succ_of_le h)

/-- The tally after one more fitting slot. -/
theorem TallyOf.append {s : State} {l : List SlotIx} {t : Tally} (h : TallyOf s l t) {i : SlotIx}
    (rank : (s.slot i).entry.rank ≤ 15) : TallyOf s (l ++ [i]) (tallyFit i (s.slot i) t) := by
  have placed := rankedSlots_append l rank
  have heads := congrArg List.head? placed
  rw [head?_placeCandidate] at heads
  have firstAll : placedFirst (s.slot i).entry.rank t.candidates
      = placedFirst (s.slot i).entry.rank ((rankedSlots s l).map (candidateOf s)) := by
    rw [h.candidates, placedFirst_take]
  refine ⟨?_, ?_, ?_, fun j hj => ?_, ?_, ?_⟩
  · change (placeCandidate (candidateOf s i) t.candidates).take 4 = _
    rw [h.candidates, take_placeCandidate, placed]
  · have lengths := congrArg List.length placed
    rw [length_placeCandidate, List.length_map, List.length_map, h.length] at lengths
    rw [← lengths, List.length_append]
    rfl
  · change t.matchCount + 1 = _
    rw [h.matchCount, List.length_append]
    rfl
  · have found : ((rankedSlots s (l ++ [i])).map (candidateOf s)).head? = some (candidateOf s j) := by
      rw [List.head?_map, hj]
      rfl
    rw [found] at heads
    change (if placedFirst (s.slot i).entry.rank t.candidates then (s.slot i).generation
      else t.firstGeneration) = _
    rw [firstAll]
    split
    · next isFirst =>
      rw [show placedFirst (candidateOf s i).rank ((rankedSlots s l).map (candidateOf s)) = true
        from isFirst, if_pos rfl] at heads
      rw [show i = j from congrArg Candidate.slot (Option.some.inj heads)]
    · next notFirst =>
      rw [show placedFirst (candidateOf s i).rank ((rankedSlots s l).map (candidateOf s)) = false
        from Bool.eq_false_iff.mpr notFirst, if_neg (by simp), List.head?_map] at heads
      obtain ⟨k, hk, same⟩ := Option.map_eq_some_iff.mp heads
      rw [h.first k hk, show k = j from congrArg Candidate.slot same]
  · have top := h.topRank
    rw [if_neg (by simp), topRankOf_append]
    by_cases none : l = []
    · subst none
      rw [if_pos rfl] at top
      simp [tallyFit, top, topRankOf]
    · rw [if_neg none] at top
      simp [tallyFit, top]
  · have top := h.topRank
    rw [topRankOf_append, List.countP_append]
    by_cases none : l = []
    · subst none
      rw [if_pos rfl] at top
      simp [tallyFit, top, topRankOf]
    rw [if_neg none] at top
    rcases lt_trichotomy (topRankOf s l) (s.slot i).entry.rank with above | same | below
    · have nobody : (l.countP fun j => (s.slot j).entry.rank == (s.slot i).entry.rank) = 0 := by
        refine List.countP_eq_zero.mpr fun j hj => ?_
        have := rank_le_topRankOf (s := s) hj
        simp only [beq_iff_eq]
        omega
      simp [tallyFit, top, above, max_eq_right above.le, nobody]
    · have count := h.topCount
      rw [same] at count
      simp [tallyFit, top, same, count]
    · have count := h.topCount
      simp [tallyFit, top, Nat.not_lt.mpr below.le, below.ne', max_eq_left below.le, count, below.ne]

/-- The tally over a list of slots (R37). -/
def tallyOver (s : State) (m : SyncSet) (l : List SlotIx) (t : Tally) : Tally :=
  l.foldl (fun t i => tallySlot i (s.slot i) m t) t

theorem TallyOf.over {s : State} {m : SyncSet} {k : List SlotIx} {t : Tally} (law : CatalogLaw s)
    (h : TallyOf s k t) (l : List SlotIx) :
    TallyOf s (k ++ l.filter fun i => (s.slot i).state == .active && fits (s.slot i).entry m)
      (tallyOver s m l t) := by
  induction l generalizing k t with
  | nil => simpa [tallyOver] using h
  | cons i l ih =>
    by_cases fit : (s.slot i).state = .active ∧ fits (s.slot i).entry m = true
    · have legal := (law.1 i).2.2 (by simp [fit.1])
      obtain ⟨-, -, rank, -⟩ := legal
      have next := ih (h.append rank)
      rw [List.filter_cons_of_pos (by simpa using fit), List.append_cons]
      rw [← tallySlot_fit (m := m) fit] at next
      exact next
    · have next := ih h
      rw [List.filter_cons_of_neg (by simpa using fit)]
      rw [← tallySlot_unfit (i := i) (t := t) fit] at next
      exact next

/-- The examinations that are left tally the slots that are left. -/
theorem examineSteps_search {s : State} (k : Nat) {p : Pass} (kind : p.kind = .search)
    (left : p.position + k = 64) :
    examineSteps s k p =
      { p with
        position := 64
        tally := p.tally.map (tallyOver s p.set.sync (allSlots.drop p.position)) } := by
  induction k generalizing p with
  | zero =>
    have ended : p.position = 64 := left
    have none : allSlots.drop 64 = [] := rfl
    have same : p.tally.map (tallyOver s p.set.sync []) = p.tally := by cases p.tally <;> rfl
    rw [examineSteps, ended, none, same, ← ended]
  | succ k ih =>
    have inside : p.position < 64 := by omega
    have next : allSlots.drop p.position = ⟨p.position, inside⟩ :: allSlots.drop (p.position + 1) := by
      rw [List.drop_eq_getElem_cons (by simpa [allSlots] using inside)]
      simp [allSlots]
    have stepped := examineStep_search (s := s) (i := ⟨p.position, inside⟩) kind rfl
    rw [examineSteps, stepped]
    refine (ih (p := { p with
      position := p.position + 1
      tally := p.tally.map (tallySlot ⟨p.position, inside⟩ (s.slot ⟨p.position, inside⟩) p.set.sync) })
      kind (by simp only; omega)).trans ?_
    rw [next, Option.map_map]
    rfl

/-- Settles O40: the tally over all 64 slots is that of the ACTIVE fitting slots. -/
theorem searchFindsReferenceResult : Obligations.SearchFindsReferenceResult := by
  intro s r q law kind
  have granted : (grantedPass r q).tally = some emptyTally := by
    simp only [grantedPass, kind]
  have final := examineSteps_search (s := s) 64 (p := grantedPass r q) kind rfl
  have tally : TallyOf s (fittingSlots s q.set.sync) (tallyOver s q.set.sync allSlots emptyTally) :=
    (tallyOf_empty s).over law allSlots
  have result : passResult (examineSteps s 64 (grantedPass r q))
      = searchResult (tallyOver s q.set.sync allSlots emptyTally) := by
    rw [final, granted]
    unfold passResult
    simp only [grantedPass, kind]
    rfl
  rw [result, searchResult, referenceSearch, tally.matchCount]
  generalize fittingSlots s q.set.sync = l at tally
  have length := tally.length
  have first := tally.first
  have candidates := tally.candidates
  cases ranked : rankedSlots s l with
  | nil =>
    rw [ranked] at length
    exact if_pos length.symm
  | cons i rest =>
    rw [ranked] at length first candidates
    have some : l ≠ [] := by
      rintro rfl
      simp at length
    rw [if_neg fun e => some (List.length_eq_zero_iff.mp e), first i rfl, candidates,
      tally.topCount, ← List.map_take,
      List.map_map]
    congr 2
    exact List.map_id' _

/-! ### Verifies -/

theorem notFree_iff (x : SlotState) : (x != .free) = (x == .active || x == .suspended) := by
  cases x <;> rfl

/-- Settles O41: a verify reads the record of its own input. -/
theorem verifyStepExaminesOneSlot : Obligations.VerifyStepExaminesOneSlot := by
  intro s p n hp r position
  refine ⟨fun kind => ?_, fun kind => ?_⟩
  · rw [exec_classifierStep hp (by rw [kind, position]; decide),
      examineStep_verify r position (by rw [kind]; decide), if_pos kind]
    cases (s.tracker n).binding with
    | none => rfl
    | some b => simp only [examineBound, notFree_iff]
  · have hexec := exec_classifierStep hp (by rw [kind, position]; decide)
    rw [examineStep_verify r position (by rw [kind]; decide), if_neg (by rw [kind]; decide)] at hexec
    refine ⟨_, hexec, fun i g => ?_⟩
    cases h : (s.tracker n).recallRef with
    | none => simp [examineRecall]
    | some ref =>
      obtain ⟨slot, generation⟩ := ref
      simp only [examineRecall, Bool.and_eq_true, decide_eq_true_eq, Option.some.injEq,
        Recall.mk.injEq]
      constructor
      · intro passed
        split at passed
        · next found =>
          cases passed
          exact ⟨⟨rfl, found.1.2.symm⟩, found.1.1, rfl, found.2⟩
        · exact nomatch passed
      · rintro ⟨⟨rfl, rfl⟩, active, same, fit⟩
        rw [if_pos ⟨⟨active, same⟩, fit⟩, same]

end Sys2Proof.Machine
end

