-- ==== Sys2Proof/Proofs/Faults.lean ====
section
/-! A fault that reaches a tracker: the latch, the release and the change to FAULT. -/

namespace Sys2Proof.Machine

variable {n : InputIx} {k : FaultKind} {tick : Nat} {s : State}

/-- The tracker that a fault of kind `k` takes into FAULT at `tick` (R102, R105, R130). -/
def faultTracker (k : FaultKind) (tick : Nat) (t : Tracker) : Tracker :=
  { t with
    state := .fault, held := none, settleRef := none, settleCounter := 0
    coast := 0, recheck := false, binding := none
    latch := t.latch.add k
    reqSeq := t.reqSeq + 1
    recallRef := if t.binding = none then t.recallRef else none
    lastLoss :=
      match t.binding with
      | some b => lossOf .fault b
      | none =>
        if t.lossTick = some tick then t.lastLoss.map fun l => { l with reason := .fault }
        else t.lastLoss
    lossTick := if t.binding = none then t.lossTick else none }

theorem latchFault_live (live : isLiveState (s.tracker n).state) :
    latchFault n k tick s
      = (changeState n .fault (releaseForFault n tick (addToLatch n k s))).setNotice n .fault := by
  obtain ⟨idle, fault⟩ := live
  unfold latchFault
  cases h : (s.tracker n).state
  case idle => exact absurd h idle
  case fault => exact absurd h fault
  all_goals rfl

theorem latchFault_fault (fault : (s.tracker n).state = .fault) :
    latchFault n k tick s = (addToLatch n k s).setNotice n .fault := by
  unfold latchFault
  rw [fault]

theorem addToLatch_tracker :
    (addToLatch n k s).tracker n = { s.tracker n with latch := (s.tracker n).latch.add k } := by
  simp [addToLatch]

theorem Tracker.StateLaw.of_kept {t x : Tracker} (h : t.StateLaw) (state : x.state = t.state)
    (held : x.held = t.held) (settleRef : x.settleRef = t.settleRef)
    (counter : x.settleCounter = t.settleCounter) (coast : x.coast = t.coast)
    (recheck : x.recheck = t.recheck) : x.StateLaw where
  held := by rw [held, state]; exact h.held
  settleRef := by rw [settleRef, state]; exact h.settleRef
  counter := by rw [counter, state]; exact h.counter
  coast := by rw [coast, state]; exact h.coast
  recheck := by rw [recheck, state]; exact h.recheck

theorem nameFault_latched {t : Tracker} (hb : t.binding = none) (f : FaultSet) :
    nameFault tick { t with latch := f } =
      { t with
        binding := none, latch := f
        lastLoss :=
          if t.lossTick = some tick then t.lastLoss.map fun l => { l with reason := .fault }
          else t.lastLoss } := by
  rw [← hb]
  unfold nameFault
  by_cases same : t.lossTick = some tick <;> simp [same]

/-- The tracker after the fault's own release, if it has a binding, or with its record renamed. -/
theorem releaseForFault_addToLatch_tracker :
    (releaseForFault n tick (addToLatch n k s)).tracker n =
      { s.tracker n with
        binding := none
        latch := (s.tracker n).latch.add k
        recallRef := if (s.tracker n).binding = none then (s.tracker n).recallRef else none
        lastLoss :=
          match (s.tracker n).binding with
          | some b => lossOf .fault b
          | none =>
            if (s.tracker n).lossTick = some tick then
              (s.tracker n).lastLoss.map fun l => { l with reason := .fault }
            else (s.tracker n).lastLoss
        lossTick := if (s.tracker n).binding = none then (s.tracker n).lossTick else none } := by
  have latched := addToLatch_tracker (n := n) (k := k) (s := s)
  cases hb : (s.tracker n).binding with
  | none =>
    have unbound : ((addToLatch n k s).tracker n).binding = none := by rw [latched]; exact hb
    rw [releaseForFault_none _ tick unbound, tracker_withTracker_self, latched]
    rw [nameFault_latched hb, if_pos rfl, if_pos rfl]
  | some b =>
    have bound : ((addToLatch n k s).tracker n).binding = some b := by rw [latched]; exact hb
    rw [releaseForFault_tracker_self _ tick bound, latched]
    rfl

/-- The tracker that a latched fault leaves. -/
theorem latchFault_tracker (law : (s.tracker n).StateLaw) (live : isLiveState (s.tracker n).state) :
    (latchFault n k tick s).tracker n = faultTracker k tick (s.tracker n) := by
  have released := releaseForFault_addToLatch_tracker (n := n) (k := k) (tick := tick) (s := s)
  have kept : ((releaseForFault n tick (addToLatch n k s)).tracker n).StateLaw := by
    rw [released]
    exact law.of_kept rfl rfl rfl rfl rfl rfl
  rw [latchFault_live live]
  change (changeState n .fault (releaseForFault n tick (addToLatch n k s))).tracker n = _
  rw [changeState_tracker_self, kept.changedTracker_eq, released]
  rfl

/-- The requests after a latched fault: the tracker's own is withdrawn. -/
theorem latchFault_requests (live : isLiveState (s.tracker n).state) :
    (latchFault n k tick s).request (inputRequester n) = none
      ∧ otherRequestsKept (inputRequester n) s (latchFault n k tick s) := by
  rw [latchFault_live live]
  have classifier : ((changeState n .fault (releaseForFault n tick (addToLatch n k s))).setNotice n
      .fault).classifier
        = (changeState n .fault (releaseForFault n tick (addToLatch n k s))).classifier := rfl
  refine ⟨request_changeState classifier ?_,
    otherRequestsKept_changeState (releaseForFault_classifier (addToLatch n k s) n tick) classifier⟩
  cases ((releaseForFault n tick (addToLatch n k s)).tracker n).state <;> rfl

/-- Without a binding a latched fault touches no slot, and raises FAULT alone. -/
theorem latchFault_unbound (live : isLiveState (s.tracker n).state)
    (unbound : (s.tracker n).binding = none) :
    (latchFault n k tick s).catalog = s.catalog
      ∧ noticesRaised n (inputNoticeBit .fault) s (latchFault n k tick s) := by
  have unbound' : ((addToLatch n k s).tracker n).binding = none := by
    rw [addToLatch_tracker]; exact unbound
  rw [latchFault_live live, releaseForFault_none _ tick unbound']
  exact ⟨by simp [addToLatch], noticesRaised_setNotice (by simp [State.setNotice, addToLatch])⟩

/-- Two notices raised in turn. -/
theorem noticesRaised_trans {x y : BitVec 6} {t u : State} (h : noticesRaised n x s t)
    (h' : noticesRaised n y t u) : noticesRaised n (x ||| y) s u := by
  obtain ⟨flags, others, masks, globalFlags, globalMasks⟩ := h
  obtain ⟨flags', others', masks', globalFlags', globalMasks'⟩ := h'
  exact ⟨by rw [flags', flags, BitVec.or_assoc], fun m hm => (others' m hm).trans (others m hm),
    masks'.trans masks, globalFlags'.trans globalFlags, globalMasks'.trans globalMasks⟩

/-- With a binding a latched fault releases it, with LOST and FAULT. -/
theorem latchFault_bound (live : isLiveState (s.tracker n).state) {b : Binding}
    (bound : (s.tracker n).binding = some b) :
    bindingReleased n b (inputNoticeBit .lost ||| inputNoticeBit .fault) s (latchFault n k tick s)
      ∧ otherNoticesKept n s (latchFault n k tick s) := by
  have bound' : ((addToLatch n k s).tracker n).binding = some b := by
    rw [addToLatch_tracker]; exact bound
  rw [latchFault_live live]
  obtain ⟨slot, slots⟩ := release_unclaims (s := addToLatch n k s) (reason := .fault)
    (t := (changeState n .fault (releaseForFault n tick (addToLatch n k s))).setNotice n .fault)
    bound' (by simp)
  have lost : noticesRaised n (inputNoticeBit .lost) s
      (changeState n .fault (releaseForFault n tick (addToLatch n k s))) :=
    noticesRaised_setNotice (by
      rw [changeState_notices, releaseForFault_notices, release_notices bound' (by decide)]
      rfl)
  obtain ⟨flags, others⟩ := noticesRaised_trans lost (noticesRaised_setNotice
    (t := (changeState n .fault (releaseForFault n tick (addToLatch n k s))).setNotice n .fault) rfl)
  exact ⟨⟨slot, slots, flags⟩, others⟩

/-- A detection at an enabled input (R98, R101, R102, R105, R130). -/
theorem detectionTaken_takeDetection (law : (s.tracker n).StateLaw)
    (on : (s.tracker n).state ≠ .idle) :
    detectionTaken n k tick s (takeDetection n k tick s) := by
  refine ⟨fun disabled => ?_, fun enabled ne => ?_, fun enabled fault => ?_⟩
  · have same : takeDetection n k tick s = s := if_neg (by simp [disabled])
    rw [same]
    exact ⟨rfl, rfl, rfl, rfl⟩
  · have live : isLiveState (s.tracker n).state := ⟨on, ne⟩
    have same : takeDetection n k tick s = latchFault n k tick s := if_pos enabled
    rw [same]
    obtain ⟨request, requests⟩ := latchFault_requests (n := n) (k := k) (tick := tick) live
    exact ⟨latchFault_tracker law live, request, requests, fun b => latchFault_bound live,
      latchFault_unbound live⟩
  · have same : takeDetection n k tick s = (addToLatch n k s).setNotice n .fault :=
      (if_pos enabled).trans (latchFault_fault fault)
    rw [same]
    exact ⟨addToLatch_tracker, noticesRaised_setNotice rfl, rfl, rfl⟩

/-- A fault at the tick of a result's release (R105, assumption log 31). -/
theorem faultJoinsResult_of_released {b : Binding} {reason : Reason} (law : (s.tracker n).StateLaw)
    (live : isLiveState (s.tracker n).state) (unbound : (s.tracker n).binding = none)
    (lossTick : (s.tracker n).lossTick = some tick) (loss : (s.tracker n).lastLoss = lossOf reason b) :
    faultJoinsResult n b tick s := by
  intro k enabled
  have same : takeReport n tick s (.detected k) = latchFault n k tick s := if_pos enabled
  have tracker := latchFault_tracker (k := k) (tick := tick) law live
  obtain ⟨catalog, notices⟩ := latchFault_unbound (k := k) (tick := tick) live unbound
  refine ⟨_, same, ?_⟩
  rw [tracker]
  refine ⟨rfl, rfl, rfl, if_pos unbound, ?_, (latchFault_requests live).1, notices, catalog⟩
  simp only [faultTracker, unbound, lossTick, if_true, loss, lossOf, Option.map_some]

end Sys2Proof.Machine
end

