-- ==== Sys2Proof/Proofs/Completions.lean ====
section
/-! The completion of a start: orphaned, restarted, or delivered to the tracker or to the mailbox. -/

namespace Sys2Proof.Machine

/-! ### The end of a pass -/

theorem exec_passComplete {s : State} {p : Pass} {c : Completion} (hp : s.classifier.pass = some p)
    (finished : passLength p.kind ≤ p.position) :
    exec (.passComplete c) s = .next (noteChange s (completeStart c p s)) := by
  have done : passFinished p = true := decide_eq_true finished
  have completed : passComplete c s = completeStart c p s := by
    unfold passComplete
    simp only [hp, done, if_true]
  rw [← completed]
  rfl

/-- The end of a pass touches the classifier alone. -/
theorem endPass_eq (c : Completion) (p : Pass) (s : State) :
    endPass c p s = { s with classifier := (endPass c p s).classifier } := by
  unfold endPass
  dsimp only
  split <;> rfl

/-- The classifier after the end of a pass, the receiver having touched nothing there but requests. -/
theorem passEnded_endPass {s u : State} {p : Pass} {c : Completion}
    {requests : Vector (Option Request) 7}
    (classifier : u.classifier = { s.classifier with requests := requests })
    (mailbox : u.mailbox.state = s.mailbox.state) :
    passEnded p c.order c.tick requests s (noteChange s (endPass c p u)) := by
  have ended : (clearPass c.tick p u).classifier =
      { s.classifier with
        requests := requests, pass := none
        gate := if p.start = 3 then .opened else s.classifier.gate
        endTick := some c.tick } := by
    change { u.classifier with
      pass := none, gate := if p.start = 3 then .opened else u.classifier.gate
      endTick := some c.tick } = _
    rw [classifier]
  rw [passEnded, noteChange_classifier, endPass]
  dsimp only
  rw [mailbox, ← ended]
  by_cases waits : p.start = 3 ∧ s.mailbox.state = .held ∧ c.order = .heldFirst
  · rw [if_pos waits, if_pos (by simpa [and_assoc] using waits)]
  · rw [if_neg waits, if_neg (by simpa [and_assoc] using waits), arbitrate_classifier]

theorem passCurrent_eq_false {s : State} {p : Pass}
    (h : match requesterInput p.requester with
      | some n => p.seq ≠ some (s.tracker n).reqSeq
      | none => p.probeCurrent ≠ some true) : passCurrent s p = false := by
  unfold passCurrent
  cases hr : requesterInput p.requester with
  | some n => rw [hr] at h; exact beq_false_of_ne h
  | none => rw [hr] at h; exact beq_false_of_ne h

theorem currentAtEnd.current {s : State} {p : Pass} (h : currentAtEnd p s) :
    passCurrent s p = true := by
  obtain ⟨-, -, wanted⟩ := h
  unfold passCurrent
  cases hr : requesterInput p.requester with
  | some n => rw [hr] at wanted; exact beq_iff_eq.mpr wanted
  | none => rw [hr] at wanted; exact beq_iff_eq.mpr wanted

/-- Settles O43: orphaning comes before the disturbed mark, and a restart keeps everything else. -/
theorem staleOrDisturbedPassAtCompletion : Obligations.StaleOrDisturbedPassAtCompletion := by
  refine ⟨fun s p order tick hp finished stale => ?stale, fun s p order tick current disturbed =>
    ?disturbed⟩
  case stale =>
    have orphaned : completeStart ⟨order, tick⟩ p s = endPass ⟨order, tick⟩ p s := by
      unfold completeStart
      rw [passCurrent_eq_false stale]
      rfl
    have same := endPass_eq ⟨order, tick⟩ p s
    have unseen : noteChange s (endPass ⟨order, tick⟩ p s) = endPass ⟨order, tick⟩ p s :=
      noteChange_of_same (endPass_catalog _ p s) (endPass_inputs _ p s)
    refine ⟨_, exec_passComplete hp finished, ?_⟩
    rw [orphaned]
    refine ⟨passEnded_endPass (c := ⟨order, tick⟩) rfl rfl, ?_⟩
    rw [unseen]
    exact same
  case disturbed =>
    have wanted := current.current
    obtain ⟨hp, finished, -⟩ := current
    have restarted : completeStart ⟨order, tick⟩ p s = restartPass p s := by
      unfold completeStart
      rw [wanted, disturbed]
      rfl
    rw [exec_passComplete hp finished, restarted]
    unfold restartPass
    dsimp only
    split
    · rw [noteChange_of_same (s := s) ?_ ?_]
      · rfl
      · rfl
      · rfl
    · rw [noteChange_of_same (s := s) ?_ ?_]
      · rfl
      · rfl
      · rfl

/-! ### Delivery to a tracker -/

/-- A result delivered to a tracker, and the end of its pass. -/
theorem exec_delivered {s : State} {p : Pass} {order : OpeningOrder} {tick : Nat} {n : InputIx}
    (current : currentAtEnd p s) (undisturbed : p.disturbed = false)
    (r : p.requester = inputRequester n) :
    exec (.passComplete ⟨order, tick⟩) s
      = .next (noteChange s (endPass ⟨order, tick⟩ p (takeResult n tick p s))) := by
  have wanted := current.current
  obtain ⟨hp, finished, -⟩ := current
  have own : requesterInput p.requester = some n := requesterInput_eq_some.mpr r
  have delivered : completeStart ⟨order, tick⟩ p s
      = endPass ⟨order, tick⟩ p (takeResult n tick p s) := by
    unfold completeStart deliver
    rw [wanted, undisturbed, own]
    rfl
  rw [exec_passComplete hp finished, delivered]

/-- The state after a delivery that has made `u` of the state. -/
def delivered (s : State) (p : Pass) (c : Completion) (u : State) : State :=
  noteChange s (endPass c p u)

theorem delivered_inputs (s : State) (p : Pass) (c : Completion) (u : State) :
    (delivered s p c u).inputs = u.inputs := endPass_inputs c p u

theorem delivered_catalog (s : State) (p : Pass) (c : Completion) (u : State) :
    (delivered s p c u).catalog = u.catalog := endPass_catalog c p u

theorem delivered_notices (s : State) (p : Pass) (c : Completion) (u : State) :
    (delivered s p c u).notices = u.notices :=
  (congrArg State.notices (endPass_eq c p u) :)

/-- What a delivery to one tracker keeps, whatever the result. -/
theorem delivered_frame {s u : State} {n : InputIx} (frame : TrackerFrame n s u) (p : Pass)
    (c : Completion) :
    unitsKept s (delivered s p c u) ∧ otherInputsKept n s (delivered s p c u)
      ∧ (delivered s p c u).mailbox = s.mailbox ∧ portKept s (delivered s p c u)
      ∧ (delivered s p c u).freeIndex = s.freeIndex := by
  have inputs := delivered_inputs s p c u
  have same := endPass_eq c p u
  have port : (endPass c p u).port = s.port := (congrArg State.port same).trans frame.port
  refine ⟨fun m => ?_, fun m hm => ?_, (endPass_mailbox c p u).trans frame.mailbox, ?_,
    (congrArg State.freeIndex same).trans frame.freeIndex⟩
  · obtain ⟨config, pins, unit⟩ := frame.unitsKept m
    have own := input_of_inputs inputs m
    refine ⟨(congrArg Input.config own).trans config, ?_, (congrArg Input.unit own).trans unit⟩
    rw [← pins]
    funext pin
    cases pin
    · exact congrArg Input.hPin own
    · exact congrArg Input.vPin own
  · exact (input_of_inputs inputs m).trans (frame.others m hm)
  · rw [portKept, delivered, noteChange_port, port]

theorem takeResult_of_matched {n : InputIx} {tick : Nat} {p : Pass} {m : Match} {via : Via} {s : State}
    (h : (passResult p = .matched m ∧ via = .search) ∨ (passResult p = .recalled m ∧ via = .byRecall))
    (pending : (s.tracker n).state = .pending) : takeResult n tick p s = bindTo n via m s := by
  unfold takeResult
  obtain ⟨result, rfl⟩ | ⟨result, rfl⟩ := h
  · rw [result]
    simp only [takeMatch, pending]
  · rw [result]
    simp only [takeMatch, pending]

/-- Settles O45: a claim, the record, a change to BOUND and its notice. -/
theorem matchBindsInput : Obligations.MatchBindsInput := by
  intro s p order tick n m i rest via current undisturbed r pending law result candidates
  have hexec := exec_delivered (order := order) (tick := tick) current undisturbed r
  have frame := (takeResult_moves n s tick p).frame
  rw [takeResult_of_matched result pending] at hexec frame
  have bound : bindTo n via m s = (changeState n .bound ((claim i (· + 1) s).withTracker n
      { (claim i (· + 1) s).tracker n with
        binding := some (bindingOf via i m), recallRef := none })).setNotice n .bound := by
    unfold bindTo
    rw [candidates]
  have claimed : (claim i (· + 1) s).tracker n = s.tracker n := tracker_of_inputs (claim_inputs s i _) n
  have tracker : (bindTo n via m s).tracker n =
      { s.tracker n with
        state := .bound, recallRef := none, reqSeq := (s.tracker n).reqSeq + 1
        binding := some
          { slot := i, generation := m.generation, via := via, ambiguity := m.ambiguity
            candidates := m.candidates, overflow := m.overflow } } := by
    rw [bound, claimed]
    simp [changeState_tracker_self, changedTracker, pending, dropsHeld, bindingOf]
  have catalog : (bindTo n via m s).catalog = (claim i (· + 1) s).catalog := by rw [bound]; simp
  have notices : (bindTo n via m s).notices = (s.setNotice n .bound).notices := by
    rw [bound]; simp [State.setNotice]
  have classifier : (bindTo n via m s).classifier = { s.classifier with
      requests := s.classifier.requests.set (inputRequester n) none } := by
    rw [bound, claimed]
    simp [changeState_classifier, changedRequest, keepsRequest, pending]
  obtain ⟨units, inputs, mailbox, port, free⟩ := delivered_frame frame p ⟨order, tick⟩
  have ended := passEnded_endPass (c := ⟨order, tick⟩) (p := p) classifier
    (congrArg Mailbox.state frame.mailbox)
  have tracker' := (tracker_of_inputs (delivered_inputs s p ⟨order, tick⟩ (bindTo n via m s)) n).trans
    tracker
  have catalog' := (delivered_catalog s p ⟨order, tick⟩ (bindTo n via m s)).trans catalog
  have notices' := (delivered_notices s p ⟨order, tick⟩ (bindTo n via m s)).trans notices
  refine ⟨_, hexec, tracker', ?_, ⟨fun j hj => ?_, ?_, ?_⟩, noticesRaised_setNotice notices', units,
    inputs, ended, mailbox, port, free⟩
  · exact (slot_of_catalog (s := claim i (· + 1) s) catalog' i).trans
      ((slot_withSlot s i i _).trans (if_pos rfl))
  · exact (slot_of_catalog (s := claim i (· + 1) s) catalog' j).trans
      ((slot_withSlot s i j _).trans (if_neg hj))
  · exact (congrArg Catalog.occupancy catalog' :)
  · exact (congrArg Catalog.tagMap catalog' :)

/-- Settles O46: a change to UNMATCHED, or the reference cleared and a search. -/
theorem failedSearchAndRecall : Obligations.FailedSearchAndRecall := by
  intro s p order tick n current undisturbed r pending law
  have hexec := exec_delivered (order := order) (tick := tick) current undisturbed r
  have frame := (takeResult_moves n s tick p).frame
  obtain ⟨hp, -, -⟩ := current
  refine ⟨fun result => ?noMatch, fun h result held => ?recallFailed⟩
  case noMatch =>
    have taken : takeResult n tick p s = (changeState n .unmatched s).setNotice n .unmatched := by
      unfold takeResult takeNoMatch
      simp only [result, pending]
    rw [taken] at hexec frame
    have tracker : ((changeState n .unmatched s).setNotice n .unmatched).tracker n =
        { s.tracker n with state := .unmatched, reqSeq := (s.tracker n).reqSeq + 1 } := by
      simp [changeState_tracker_self, changedTracker, pending, dropsHeld]
    have classifier : ((changeState n .unmatched s).setNotice n .unmatched).classifier =
        { s.classifier with
          requests := s.classifier.requests.set (inputRequester n) none } := by
      simp [changeState_classifier, changedRequest, keepsRequest, pending]
    have catalog : ((changeState n .unmatched s).setNotice n .unmatched).catalog = s.catalog := by simp
    have notices : ((changeState n .unmatched s).setNotice n .unmatched).notices
        = (s.setNotice n .unmatched).notices := by simp [State.setNotice]
    generalize (changeState n .unmatched s).setNotice n .unmatched = u at *
    obtain ⟨units, inputs, mailbox, port, free⟩ := delivered_frame frame p ⟨order, tick⟩
    exact ⟨_, hexec, (tracker_of_inputs (delivered_inputs s p ⟨order, tick⟩ u) n).trans tracker,
      noticesRaised_setNotice ((delivered_notices s p ⟨order, tick⟩ u).trans notices),
      passEnded_endPass (c := ⟨order, tick⟩) classifier (congrArg Mailbox.state frame.mailbox),
      (delivered_catalog s p ⟨order, tick⟩ u).trans catalog, units, inputs, mailbox, port, free⟩
  case recallFailed =>
    have taken : takeResult n tick p s
        = submitHeld n .search (s.withTracker n { s.tracker n with recallRef := none }) := by
      unfold takeResult takeRecallFail
      simp only [result, pending]
    have submitted := submitHeld_of_held (n := n) (k := .search) (m := h)
      (s := s.withTracker n { s.tracker n with recallRef := none }) (by simpa using held)
    rw [taken, submitted, submit_busy _ (p := p) (by simpa using hp)] at hexec
    rw [taken, submitted, submit_busy _ (p := p) (by simpa using hp)] at frame
    have number : ((s.withTracker n { s.tracker n with recallRef := none }).tracker n).reqSeq
        = (s.tracker n).reqSeq := by simp
    rw [number] at hexec frame
    generalize hu : (s.withTracker n { s.tracker n with recallRef := none }).withRequest
      (inputRequester n) (some
        { kind := .search, set := .measured h, seq := some (s.tracker n).reqSeq }) = u at *
    have tracker : u.tracker n = { s.tracker n with recallRef := none } := by rw [← hu]; simp
    have classifier : u.classifier = { s.classifier with
        requests := s.classifier.requests.set (inputRequester n) (some
          { kind := .search, set := .measured h, seq := some (s.tracker n).reqSeq }) } := by
      rw [← hu]; rfl
    have catalog : u.catalog = s.catalog := by rw [← hu]; simp
    have notices : u.notices = s.notices := by rw [← hu]; simp
    obtain ⟨units, inputs, mailbox, port, free⟩ := delivered_frame frame p ⟨order, tick⟩
    exact ⟨_, hexec, (tracker_of_inputs (delivered_inputs s p ⟨order, tick⟩ u) n).trans tracker,
      passEnded_endPass (c := ⟨order, tick⟩) classifier (congrArg Mailbox.state frame.mailbox),
      (delivered_notices s p ⟨order, tick⟩ u).trans notices,
      (delivered_catalog s p ⟨order, tick⟩ u).trans catalog, units, inputs, mailbox, port, free⟩

/-! ### Delivery to the mailbox -/

/-- The completion of a probe: the mailbox is DONE by then, so nothing holds the arbitration back. -/
theorem endPass_completeCommand (c : Completion) (p : Pass) (r : Executed) :
    endPass c p (completeCommand r) = { completeCommand r with
      classifier := arbitrateClassifier
        { r.state.classifier with
          pass := none, gate := if p.start = 3 then .opened else r.state.classifier.gate
          endTick := some c.tick } } := by
  have done : ((clearPass c.tick p (completeCommand r)).mailbox.state == .held) = false := rfl
  unfold endPass
  dsimp only
  rw [show (completeCommand r).mailbox.state = .done from rfl]
  rw [if_neg (by simp)]
  rfl

/-- Settles O48: the mailbox is the receiver of the probe's result. -/
theorem probeResultCompletesProbe : Obligations.ProbeResultCompletesProbe := by
  intro s p order tick current undisturbed r waiting
  have wanted := current.current
  obtain ⟨hp, finished, -⟩ := current
  have own : requesterInput p.requester = none := requesterInput_eq_none.mpr r
  have completed : completeStart ⟨order, tick⟩ p s
      = endPass ⟨order, tick⟩ p (takeProbeResult (passResult p) s) := by
    unfold completeStart deliver
    rw [wanted, undisturbed, own]
    rfl
  refine ⟨fun m result => ?_, fun result => ?_⟩
  · have taken : takeProbeResult (passResult p) s
        = completeCommand { state := s, code := .ok, data := probeReport m } := by
      unfold takeProbeResult
      rw [waiting, result]
    rw [exec_passComplete hp finished, completed, taken, endPass_completeCommand,
      noteChange_of_same (s := s) ?_ ?_]
    · rfl
    · rfl
    · rfl
  · have taken : takeProbeResult (passResult p) s = completeCommand (refuse .noMatch [] s) := by
      unfold takeProbeResult
      rw [waiting, result]
    rw [exec_passComplete hp finished, completed, taken, endPass_completeCommand,
      noteChange_of_same (s := s) ?_ ?_]
    · rfl
    · rfl
    · rfl

end Sys2Proof.Machine
end

