-- ==== Sys2Proof/Proofs/Settling.lean ====
section
/-! Settling: the set that starts it, and the one that completes it. -/

namespace Sys2Proof.Machine

variable {n : InputIx} {m : MeasSet} {c : Nat} {s : State}

theorem settleWith_below (below : c < (s.config n).settle.toNat) :
    settleWith n c m s
      = s.withTracker n { s.tracker n with settleCounter := c, settleRef := some m } := by
  unfold settleWith
  exact if_neg (by omega)

theorem completeSettling_eq : completeSettling n m s =
    submitSet n (if (s.tracker n).recallRef = none then .search else .verifyRecall) m
      (holdSet n (some m) (changeState n .pending s)) := by
  have recalls : ((holdSet n (some m) (changeState n .pending s)).tracker n).recallRef
      = (s.tracker n).recallRef := by
    simp [holdSet, changeState_tracker_self, changedTracker]
  have submitted (k : PassKind) : submitHeld n k (holdSet n (some m) (changeState n .pending s))
      = submitSet n k m (holdSet n (some m) (changeState n .pending s)) := by
    unfold submitHeld
    simp [holdSet]
  unfold completeSettling
  dsimp only
  rw [recalls]
  cases (s.tracker n).recallRef with
  | none => exact submitted .search
  | some r => exact submitted .verifyRecall

/-- The tracker that a completed settling leaves (R118). -/
def settledTracker (m : MeasSet) (t : Tracker) : Tracker :=
  { t with
    state := .pending, held := some m, settleRef := none, settleCounter := 0, coast := 0
    recheck := false, reqSeq := t.reqSeq + 1 }

/-- The request of a completed settling (R118). -/
def settledRequest (m : MeasSet) (t : Tracker) : Request :=
  { kind := if t.recallRef = none then .search else .verifyRecall
    set := .measured m, seq := some (t.reqSeq + 1) }

/-- A settling completed: PENDING and the request. -/
theorem settleWith_done (law : (s.tracker n).StateLaw) (settling : (s.tracker n).state = .settling)
    (reached : (s.config n).settle.toNat ≤ c) :
    (settleWith n c m s).tracker n = settledTracker m (s.tracker n)
      ∧ ∃ v : State, v.classifier = { s.classifier with
          requests := s.classifier.requests.set (inputRequester n) none }
        ∧ (settleWith n c m s).classifier
          = (submit (inputRequester n) (settledRequest m (s.tracker n)) v).classifier := by
  have counted : Tracker.StateLaw { s.tracker n with settleCounter := c, settleRef := some m } :=
    { law with settleRef := fun _ => settling, counter := fun _ => settling }
  have tracker : (holdSet n (some m) (changeState n .pending (s.withTracker n
      { s.tracker n with settleCounter := c, settleRef := some m }))).tracker n
        = settledTracker m (s.tracker n) := by
    rw [holdSet, tracker_withTracker_self, changeState_tracker_self, tracker_withTracker_self,
      counted.changedTracker_eq]
    rfl
  have classifier : (holdSet n (some m) (changeState n .pending (s.withTracker n
      { s.tracker n with settleCounter := c, settleRef := some m }))).classifier = { s.classifier with
          requests := s.classifier.requests.set (inputRequester n) none } := by
    simp [holdSet, changeState_classifier, changedRequest, keepsRequest, settling]
  have done : settleWith n c m s = submit (inputRequester n) (settledRequest m (s.tracker n))
      (holdSet n (some m) (changeState n .pending (s.withTracker n
        { s.tracker n with settleCounter := c, settleRef := some m }))) := by
    unfold settleWith
    dsimp only
    rw [if_pos reached, completeSettling_eq, submitSet, tracker, tracker_withTracker_self]
    rfl
  rw [done]
  exact ⟨(tracker_of_inputs (submit_inputs _ _ _) n).trans tracker, _, classifier, rfl⟩

/-- The tracker in SETTLING after the first set of a count (R117). -/
def settlingTracker (m : MeasSet) (t : Tracker) : Tracker :=
  { t with
    state := .settling, held := none, settleRef := some m, settleCounter := 1, coast := 0
    recheck := false, reqSeq := t.reqSeq + 1 }

theorem settleAfresh_below (law : (s.tracker n).StateLaw)
    (below : 1 < (s.config n).settle.toNat) :
    (settleAfresh n m s).tracker n = settlingTracker m (s.tracker n)
      ∧ (settleAfresh n m s).classifier = { s.classifier with
          requests := s.classifier.requests.set (inputRequester n) none } := by
  have free : keepsRequest (s.tracker n).state .settling = false :=
    keepsRequest_free (.inr (.inl rfl))
  rw [settleAfresh, settleWith_below (by simpa using below)]
  refine ⟨?_, ?_⟩
  · rw [tracker_withTracker_self, changeState_tracker_self, law.changedTracker_eq]
    rfl
  · change (changeState n .settling s).classifier = _
    rw [changeState_classifier, changedRequest_of_not_kept free]

/-- With a settle count of 1 the first set completes the count at once. -/
theorem settleAfresh_done (law : (s.tracker n).StateLaw) (one : (s.config n).settle.toNat = 1) :
    (settleAfresh n m s).tracker n =
        { settledTracker m (s.tracker n) with reqSeq := (s.tracker n).reqSeq + 1 + 1 }
      ∧ ∃ v : State, v.classifier = { s.classifier with
          requests := s.classifier.requests.set (inputRequester n) none }
        ∧ (settleAfresh n m s).classifier
          = (submit (inputRequester n)
              { settledRequest m (s.tracker n) with seq := some ((s.tracker n).reqSeq + 1 + 1) }
              v).classifier := by
  have free : keepsRequest (s.tracker n).state .settling = false :=
    keepsRequest_free (.inr (.inl rfl))
  have changed := changeState_tracker_self s n .settling
  rw [law.changedTracker_eq] at changed
  obtain ⟨tracker, v, classifier, submitted⟩ := settleWith_done (n := n) (m := m) (c := 1)
    (s := changeState n .settling s) (by rw [changeState_tracker_self]; exact law.changed _)
    (by simp) (by simp [one])
  rw [changed] at tracker submitted
  rw [changeState_classifier, changedRequest_of_not_kept free] at classifier
  exact ⟨tracker, v, classifier.trans (by simp), submitted⟩

end Sys2Proof.Machine
end

