-- ==== Sys2Proof/Proofs/EditCheck.lean ====
section
/-! The edit check: what the PASS and the FAIL of a bound verify do. -/

namespace Sys2Proof.Machine

variable {n : InputIx} {tick : Nat} {pass : Bool} {g : Byte} {m : MeasSet} {b : Binding} {s : State}

/-- The edit check of a bound or coasting input, by its table (R142). -/
theorem takeVerify_of_bound (bound : isBoundState (s.tracker n).state)
    (hb : (s.tracker n).binding = some b) : takeVerify n tick pass g m s =
      if pass then takeVerifyPass n g b s
      else if g = b.generation then takeDeviation n tick m s
      else takeEdited n tick m s := by
  unfold takeVerify
  rcases bound with e | e
  · simp only [e, hb]
  · simp only [e, hb]

theorem takeResult_of_bound {p : Pass} (result : passResult p = .bound pass g)
    (set : p.set = .measured m) : takeResult n tick p s = takeVerify n tick pass g m s := by
  unfold takeResult
  simp only [result, set]

/-! ### The PASS -/

theorem takeVerifyPass_bound (bound : (s.tracker n).state = .bound) : takeVerifyPass n g b s =
    s.withTracker n { s.tracker n with binding := some { b with generation := g } } := by
  unfold takeVerifyPass
  exact if_neg (by simp [bound])

theorem takeVerifyPass_coasting (coasting : (s.tracker n).state = .coasting) :
    takeVerifyPass n g b s = changeState n .bound
      (s.withTracker n { s.tracker n with binding := some { b with generation := g } }) := by
  unfold takeVerifyPass
  exact if_pos coasting

theorem takeVerifyPass_coasting_outcome (coasting : (s.tracker n).state = .coasting) :
    (takeVerifyPass n g b s).tracker n =
        { s.tracker n with
          state := .bound, coast := 0, reqSeq := (s.tracker n).reqSeq + 1
          binding := some { b with generation := g } }
      ∧ (takeVerifyPass n g b s).classifier = { s.classifier with
          requests := s.classifier.requests.set (inputRequester n)
            ((s.request (inputRequester n)).map fun q =>
              { q with seq := some ((s.tracker n).reqSeq + 1) }) } := by
  rw [takeVerifyPass_coasting coasting]
  refine ⟨?_, ?_⟩
  · simp [changeState_tracker_self, changedTracker, coasting, dropsHeld]
  · simp [changeState_classifier, changedRequest, keepsRequest, coasting]

theorem takeVerifyPass_kept : (takeVerifyPass n g b s).catalog = s.catalog
    ∧ (takeVerifyPass n g b s).notices = s.notices := by
  unfold takeVerifyPass
  split <;> simp

/-! ### The FAIL -/

/-- A deviation within the budget (R124, R125). -/
theorem takeDeviation_coasts (law : (s.tracker n).LawAt (s.config n) (s.request (inputRequester n)))
    (bound : isBoundState (s.tracker n).state)
    (within : (s.tracker n).coast + 1 ≤ (s.config n).budget.toNat) :
    (takeDeviation n tick m s).tracker n =
        { s.tracker n with
          state := .coasting, coast := (s.tracker n).coast + 1
          reqSeq :=
            if (s.tracker n).state = .bound then (s.tracker n).reqSeq + 1
            else (s.tracker n).reqSeq }
      ∧ (takeDeviation n tick m s).classifier = { s.classifier with
          requests :=
            if (s.tracker n).state = .bound then
              s.classifier.requests.set (inputRequester n)
                ((s.request (inputRequester n)).map fun q =>
                  { q with seq := some ((s.tracker n).reqSeq + 1) })
            else s.classifier.requests }
      ∧ (takeDeviation n tick m s).notices = (s.setNotice n .disrupt).notices
      ∧ (takeDeviation n tick m s).catalog = s.catalog := by
  unfold takeDeviation
  dsimp only
  rw [if_pos within]
  rcases bound with e | e
  · rw [if_pos e, if_pos e, if_pos e]
    have recheck : (s.tracker n).recheck = false :=
      Bool.eq_false_iff.mpr fun marked => by simpa [e] using law.recheck marked
    refine ⟨?_, ?_, by simp [State.setNotice], by simp⟩
    · simp [changeState_tracker_self, changedTracker, e, dropsHeld]
    · simp [changeState_classifier, changedRequest, keepsRequest, e]
  · have other : (s.tracker n).state ≠ .bound := by simp [e]
    rw [if_neg other, if_neg other, if_neg other]
    refine ⟨?_, by simp, by simp [State.setNotice], by simp⟩
    rw [← e]
    simp

theorem takeDeviation_past (past : (s.config n).budget.toNat < (s.tracker n).coast + 1) :
    takeDeviation n tick m s = settleAfresh n m (releaseByResult n .deviated tick s) := by
  unfold takeDeviation
  exact if_neg (by omega)

theorem releaseByResult_stateLaw (law : (s.tracker n).StateLaw) (reason : Reason)
    (hb : (s.tracker n).binding = some b) :
    ((releaseByResult n reason tick s).tracker n).StateLaw := by
  rw [releaseByResult_tracker_self s reason tick hb]
  exact law.of_kept rfl rfl rfl rfl rfl rfl

/-- What a bound or coasting tracker holds of the other states' parts: nothing (R108). -/
theorem Tracker.LawAt.bound_parts {c : InputConfig} {t : Tracker} {q : Option Request}
    (law : t.LawAt c q) (bound : isBoundState t.state) :
    t.settleRef = none ∧ t.settleCounter = 0 ∧ t.recheck = false := by
  have settling : t.state ≠ .settling := by rcases bound with e | e <;> simp [e]
  have unmatched : t.state ≠ .unmatched := by rcases bound with e | e <;> simp [e]
  exact ⟨Option.not_isSome_iff_eq_none.mp fun h => settling (law.settleRef h),
    not_not.mp fun h => settling (law.counter h),
    Bool.eq_false_iff.mpr fun h => unmatched (law.recheck h)⟩

theorem releaseByResult_config (reason : Reason) :
    (releaseByResult n reason tick s).config n = s.config n := by
  simp [releaseByResult]

/-- A deviation past the budget settles from the failing set. -/
theorem takeDeviation_settles (law : (s.tracker n).LawAt (s.config n) (s.request (inputRequester n)))
    (bound : isBoundState (s.tracker n).state) (hb : (s.tracker n).binding = some b)
    (past : (s.config n).budget.toNat < (s.tracker n).coast + 1)
    (more : 1 < (s.config n).settle.toNat) :
    (takeDeviation n tick m s).tracker n =
        { s.tracker n with
          state := .settling, held := none, settleRef := some m, settleCounter := 1
          coast := 0, binding := none
          recallRef := some { slot := b.slot, generation := b.generation }
          lastLoss := lossOf .deviated b, lossTick := some tick
          reqSeq := (s.tracker n).reqSeq + 1 }
      ∧ (takeDeviation n tick m s).classifier = { s.classifier with
          requests := s.classifier.requests.set (inputRequester n) none } := by
  obtain ⟨-, -, recheck⟩ := law.bound_parts bound
  obtain ⟨tracker, classifier⟩ := settleAfresh_below (m := m)
    (releaseByResult_stateLaw (tick := tick) law.toStateLaw .deviated hb)
    (by rw [releaseByResult_config]; exact more)
  rw [takeDeviation_past past]
  refine ⟨tracker.trans ?_, by rw [classifier, releaseByResult_classifier]⟩
  rw [releaseByResult_tracker_self s .deviated tick hb]
  simp [settlingTracker, releasedTracker, recallAfter, lossOf, recheck]

/-- With a settle count of 1 it goes on to PENDING with a recall verify. -/
theorem takeDeviation_recalls {p : Pass} (busy : s.classifier.pass = some p)
    (law : (s.tracker n).LawAt (s.config n) (s.request (inputRequester n)))
    (bound : isBoundState (s.tracker n).state) (hb : (s.tracker n).binding = some b)
    (past : (s.config n).budget.toNat < (s.tracker n).coast + 1)
    (one : (s.config n).settle.toNat = 1) :
    (takeDeviation n tick m s).tracker n =
        { s.tracker n with
          state := .pending, held := some m, coast := 0, binding := none
          recallRef := some { slot := b.slot, generation := b.generation }
          lastLoss := lossOf .deviated b, lossTick := some tick
          reqSeq := (s.tracker n).reqSeq + 1 + 1 }
      ∧ (takeDeviation n tick m s).classifier = { s.classifier with
          requests := s.classifier.requests.set (inputRequester n)
            (some
              { kind := .verifyRecall, set := .measured m
                seq := some ((s.tracker n).reqSeq + 1 + 1) }) } := by
  obtain ⟨settleRef, counter, recheck⟩ := law.bound_parts bound
  obtain ⟨tracker, v, classifier, submitted⟩ := settleAfresh_done (m := m)
    (releaseByResult_stateLaw (tick := tick) law.toStateLaw .deviated hb)
    (by rw [releaseByResult_config]; exact one)
  rw [releaseByResult_tracker_self s .deviated tick hb] at tracker submitted
  rw [releaseByResult_classifier] at classifier
  rw [submit_classifier_busy (p := p) (by rw [classifier]; exact busy), classifier] at submitted
  rw [takeDeviation_past past]
  refine ⟨tracker.trans ?_, submitted.trans ?_⟩
  · simp [settledTracker, releasedTracker, recallAfter, lossOf, settleRef, counter, recheck]
  · simp [settledRequest, releasedTracker, recallAfter]

/-- A failed verify of an edited entry (R142). -/
theorem takeEdited_searches {p : Pass} (busy : s.classifier.pass = some p)
    (law : (s.tracker n).LawAt (s.config n) (s.request (inputRequester n)))
    (bound : isBoundState (s.tracker n).state) (hb : (s.tracker n).binding = some b) :
    (takeEdited n tick m s).tracker n =
        { s.tracker n with
          state := .pending, held := some m, coast := 0, binding := none
          recallRef := none, lastLoss := lossOf .entryEdited b
          lossTick := some tick, reqSeq := (s.tracker n).reqSeq + 1 }
      ∧ (takeEdited n tick m s).classifier = { s.classifier with
          requests := s.classifier.requests.set (inputRequester n)
            (some
              { kind := .search, set := .measured m
                seq := some ((s.tracker n).reqSeq + 1) }) } := by
  obtain ⟨settleRef, counter, recheck⟩ := law.bound_parts bound
  have tracker : (holdSet n (some m) (changeState n .pending
      (releaseByResult n .entryEdited tick s))).tracker n =
        { s.tracker n with
          state := .pending, held := some m, coast := 0, binding := none
          recallRef := none, lastLoss := lossOf .entryEdited b
          lossTick := some tick, reqSeq := (s.tracker n).reqSeq + 1 } := by
    have changed := changeState_tracker_self (releaseByResult n .entryEdited tick s) n .pending
    rw [(releaseByResult_stateLaw law.toStateLaw .entryEdited hb).changedTracker_eq,
      releaseByResult_tracker_self s .entryEdited tick hb] at changed
    rw [holdSet, tracker_withTracker_self, changed, ← settleRef, ← counter, ← recheck]
    rfl
  have submitted := submitHeld_of_held (k := .search) (congrArg Tracker.held tracker :)
  rw [congrArg Tracker.reqSeq tracker] at submitted
  have classifier : (holdSet n (some m) (changeState n .pending
      (releaseByResult n .entryEdited tick s))).classifier = { s.classifier with
        requests := s.classifier.requests.set (inputRequester n) none } := by
    have free := keepsRequest_free (x := ((releaseByResult n .entryEdited tick s).tracker n).state)
      (y := .pending) (.inr (.inr (.inl rfl)))
    change (changeState n .pending (releaseByResult n .entryEdited tick s)).classifier = _
    rw [changeState_classifier, changedRequest_of_not_kept free, releaseByResult_classifier]
  unfold takeEdited
  rw [submitted]
  refine ⟨(tracker_of_inputs (submit_inputs _ _ _) n).trans tracker, ?_⟩
  rw [submit_classifier_busy (p := p) (by rw [classifier]; exact busy), classifier]
  simp

/-- A release by a result at the catalog and the notice unit. -/
theorem takeDeviation_releases (past : (s.config n).budget.toNat < (s.tracker n).coast + 1) :
    (takeDeviation n tick m s).catalog = (release n .deviated s).catalog
      ∧ (takeDeviation n tick m s).notices = (release n .deviated s).notices := by
  rw [takeDeviation_past past]
  exact ⟨by simp, by simp⟩

theorem takeEdited_releases :
    (takeEdited n tick m s).catalog = (release n .entryEdited s).catalog
      ∧ (takeEdited n tick m s).notices = (release n .entryEdited s).notices := by
  unfold takeEdited
  exact ⟨by simp, by simp⟩

/-! ### The obligation -/

theorem tracker_delivered (s : State) (p : Pass) (c : Completion) (u : State) (n : InputIx) :
    (delivered s p c u).tracker n = u.tracker n := tracker_of_inputs (delivered_inputs s p c u) n

/-- A release that a delivery has made, and the state in which a fault of its tick finds it. -/
theorem releasing_delivered {p : Pass} {order : OpeningOrder} {u : State} {reason : Reason}
    {requests : Vector (Option Request) 7} {t : Tracker}
    (hb : (s.tracker n).binding = some b) (ne : reason ≠ .coreRestart)
    (frame : TrackerFrame n s u) (law : TrackerLawAt n u) (tracker : u.tracker n = t)
    (live : isLiveState t.state) (unbound : t.binding = none) (lossTick : t.lossTick = some tick)
    (loss : t.lastLoss = lossOf reason b)
    (classifier : u.classifier = { s.classifier with requests := requests })
    (released : u.catalog = (release n reason s).catalog ∧ u.notices = (release n reason s).notices) :
    (delivered s p ⟨order, tick⟩ u).tracker n = t
      ∧ faultJoinsResult n b tick (delivered s p ⟨order, tick⟩ u)
      ∧ passEnded p order tick requests s (delivered s p ⟨order, tick⟩ u)
      ∧ bindingReleased n b (inputNoticeBit .lost) s (delivered s p ⟨order, tick⟩ u)
      ∧ otherNoticesKept n s (delivered s p ⟨order, tick⟩ u) := by
  have same := (tracker_delivered s p ⟨order, tick⟩ u n).trans tracker
  have stateLaw := ((trackerLawAt_iff n u).mp law).toStateLaw
  rw [tracker] at stateLaw
  subst tracker
  exact ⟨same, faultJoinsResult_of_released (reason := reason) (same ▸ stateLaw) (same ▸ live)
      (same ▸ unbound) (same ▸ lossTick) (same ▸ loss),
    passEnded_endPass (c := ⟨order, tick⟩) classifier (congrArg Mailbox.state frame.mailbox),
    bindingReleased_release hb ne ((delivered_catalog s p ⟨order, tick⟩ u).trans released.1)
      ((delivered_notices s p ⟨order, tick⟩ u).trans released.2)⟩

/-- Settles O47: the four rows of the edit check, one lemma each. -/
theorem editCheckJudgesVerify : Obligations.EditCheckJudgesVerify := by
  refine ⟨fun s p order tick n b g m current undisturbed r laws hb result set => ?pass,
    fun s p order tick n b g m current undisturbed r laws hb result set => ?fail⟩
  all_goals
    have hexec := exec_delivered (order := order) (tick := tick) current undisturbed r
    have frame := (takeResult_moves n s tick p).frame
    have law := (trackerLawAt_iff n s).mp (laws n)
    have bound : isBoundState (s.tracker n).state := law.binding.mp (by rw [hb]; rfl)
    have busy := current.1
    have after := (laws n).takeResult tick p
    rw [takeResult_of_bound result set, takeVerify_of_bound bound hb] at hexec frame after
    obtain ⟨units, inputs, mailbox, port, free⟩ := delivered_frame frame p ⟨order, tick⟩
  case pass =>
    simp only [if_true] at hexec frame units inputs mailbox port free
    obtain ⟨catalog, notices⟩ := takeVerifyPass_kept (n := n) (g := g) (b := b) (s := s)
    have ended {requests : Vector (Option Request) 7}
        (classifier : (takeVerifyPass n g b s).classifier
          = { s.classifier with requests := requests }) :=
      passEnded_endPass (c := ⟨order, tick⟩) (p := p) classifier
        (congrArg Mailbox.state frame.mailbox)
    have tracker := tracker_delivered s p ⟨order, tick⟩ (takeVerifyPass n g b s) n
    refine ⟨_, hexec, fun e => ⟨tracker.trans ?_, ended ?_⟩, fun e => ?_,
      (delivered_catalog s p ⟨order, tick⟩ _).trans catalog,
      (delivered_notices s p ⟨order, tick⟩ _).trans notices, units, inputs, mailbox, port, free⟩
    · rw [takeVerifyPass_bound e, tracker_withTracker_self]
    · rw [takeVerifyPass_bound e]
      rfl
    · obtain ⟨changed, classifier⟩ := takeVerifyPass_coasting_outcome (g := g) (b := b) e
      exact ⟨tracker.trans changed, ended classifier⟩
  case fail =>
    simp only [Bool.false_eq_true, if_false] at hexec frame after units inputs mailbox port free
    by_cases same : g = b.generation
    · simp only [if_pos same] at hexec frame after units inputs mailbox port free
      have coasts := takeDeviation_coasts (tick := tick) (m := m) law bound
      have settles := takeDeviation_settles (tick := tick) (m := m) law bound hb
      have recalls := takeDeviation_recalls (tick := tick) (m := m) busy law bound hb
      have releases := takeDeviation_releases (n := n) (tick := tick) (m := m) (s := s)
      generalize takeDeviation n tick m s = u at *
      refine ⟨_, hexec, fun _ within => ?_, fun _ past more => ?_, fun _ past one => ?_,
        fun differs => absurd same differs, units, inputs, mailbox, port, free⟩
      · obtain ⟨tracker, classifier, notices, catalog⟩ := coasts within
        exact ⟨(tracker_delivered s p ⟨order, tick⟩ u n).trans tracker,
          passEnded_endPass (c := ⟨order, tick⟩) classifier (congrArg Mailbox.state frame.mailbox),
          noticesRaised_setNotice ((delivered_notices s p ⟨order, tick⟩ u).trans notices),
          (delivered_catalog s p ⟨order, tick⟩ u).trans catalog⟩
      · obtain ⟨tracker, classifier⟩ := settles past more
        exact releasing_delivered (reason := .deviated) hb (by decide) frame after tracker
          (by simp [isLiveState]) rfl rfl rfl classifier (releases past)
      · obtain ⟨tracker, classifier⟩ := recalls past one
        exact releasing_delivered (reason := .deviated) hb (by decide) frame after tracker
          (by simp [isLiveState]) rfl rfl rfl classifier (releases past)
    · simp only [if_neg same] at hexec frame after units inputs mailbox port free
      obtain ⟨tracker, classifier⟩ := takeEdited_searches (tick := tick) (m := m) busy law bound hb
      have releases := takeEdited_releases (n := n) (tick := tick) (m := m) (s := s)
      generalize takeEdited n tick m s = u at *
      exact ⟨_, hexec, fun e => absurd e same, fun e => absurd e same, fun e => absurd e same,
        fun _ => releasing_delivered (reason := .entryEdited) hb (by decide) frame after tracker
          (by simp [isLiveState]) rfl rfl rfl classifier releases, units, inputs, mailbox, port, free⟩

end Sys2Proof.Machine
end

