-- ==== Sys2Proof/Proofs/Measured.lean ====
section
/-! An event of a measurement unit as the whole block sees it: what it leaves alone, and how a report
reaches the tracker. -/

namespace Sys2Proof.Machine

variable {n : InputIx} {tick : Nat} {pin : Pin} {s t : State}

/-! ### Frames of a unit's event -/

/-- What an event of the unit of input `n` leaves alone, the unit being `u` after it. -/
structure UnitFrame (n : InputIx) (u : MeasUnit) (s t : State) : Prop where
  unit : t.unit n = u
  config : configKept n s t
  others : otherInputsKept n s t
  mailbox : t.mailbox = s.mailbox
  port : portKept s t
  freeIndex : t.freeIndex = s.freeIndex

/-- An event of a unit and its reports, as the view notes them. -/
theorem unitFrame_measured (n : InputIx) (tick : Nat) (r : Measured) (s base : State) :
    UnitFrame n r.1 base (noteChange s (applyMeasured n tick r base)) := by
  have frame : TrackerFrame n (base.withUnit n r.1) (applyMeasured n tick r base) :=
    (takeReports_moves n (base.withUnit n r.1) tick r.2).frame
  refine ⟨(frame.unit n).trans (unit_withUnit_self base n r.1), ⟨?_, ?_⟩, fun m hm => ?_,
    frame.mailbox, ?_, frame.freeIndex⟩
  · exact (frame.config n).trans (config_withUnit base n n r.1)
  · exact (frame.pinLevel n).trans (pinLevel_withUnit base n n r.1)
  · exact (frame.others m hm).trans (input_withUnit_ne base hm r.1)
  · rw [portKept, noteChange_port, frame.port]
    rfl

/-- What the law of a tracker's reports speaks of beside the unit. -/
structure TrackingSame (n : InputIx) (s t : State) : Prop where
  config : t.config n = s.config n
  tracker : t.tracker n = s.tracker n
  catalog : t.catalog = s.catalog
  notices : t.notices = s.notices
  classifier : t.classifier = s.classifier

theorem trackingSame_withUnit (s : State) (u : MeasUnit) : TrackingSame n s (s.withUnit n u) :=
  ⟨config_withUnit s n n u, tracker_withUnit s n n u, rfl, rfl, rfl⟩

theorem trackingSame_noteChange (s t : State) : TrackingSame n t (noteChange s t) :=
  ⟨rfl, rfl, rfl, rfl, rfl⟩

theorem TrackingSame.symm (h : TrackingSame n s t) : TrackingSame n t s :=
  ⟨h.config.symm, h.tracker.symm, h.catalog.symm, h.notices.symm, h.classifier.symm⟩

section
variable {s' t' : State} (hs : TrackingSame n s' s) (ht : TrackingSame n t' t)

include hs ht

theorem TrackingSame.bindingReleased {b : Binding} {raised : BitVec 6}
    (h : bindingReleased n b raised s' t' ∧ otherNoticesKept n s' t') :
    Machine.bindingReleased n b raised s t ∧ otherNoticesKept n s t := by
  simp only [Machine.bindingReleased, otherSlotsKept, otherNoticesKept, State.slot] at h ⊢
  rw [hs.catalog, ht.catalog, hs.notices, ht.notices]
  exact h

theorem TrackingSame.otherRequestsKept {r : Requester} (h : otherRequestsKept r s' t') :
    Machine.otherRequestsKept r s t := by
  simp only [Machine.otherRequestsKept, State.request] at h ⊢
  rw [hs.classifier, ht.classifier]
  exact h

theorem TrackingSame.noticesRaised {raised : BitVec 6} (h : noticesRaised n raised s' t') :
    Machine.noticesRaised n raised s t := by
  simp only [Machine.noticesRaised, otherNoticesKept] at h ⊢
  rw [hs.notices, ht.notices]
  exact h

theorem TrackingSame.detectionTaken {k : FaultKind} (h : detectionTaken n k tick s' t') :
    Machine.detectionTaken n k tick s t := by
  obtain ⟨disabled, live, fault⟩ := h
  rw [Machine.detectionTaken, hs.config, hs.tracker, ht.tracker, hs.catalog, ht.catalog, hs.notices,
    ht.notices, hs.classifier, ht.classifier]
  refine ⟨disabled, fun on ne => ?_, fun on eq => ?_⟩
  · obtain ⟨tracker, request, requests, bound, unbound⟩ := live on ne
    refine ⟨tracker, (request_of_classifier ht.classifier _).trans request,
      hs.otherRequestsKept ht requests,
      fun b hb => hs.bindingReleased ht (bound b hb), fun hb => ?_⟩
    exact ⟨(unbound hb).1, hs.noticesRaised ht (unbound hb).2⟩
  · obtain ⟨tracker, notices, rest⟩ := fault on eq
    exact ⟨tracker, hs.noticesRaised ht notices, rest⟩

theorem TrackingSame.horizontalLossTaken (h : horizontalLossTaken n s' t') :
    Machine.horizontalLossTaken n s t := by
  obtain ⟨fault, live⟩ := h
  rw [Machine.horizontalLossTaken, hs.tracker, ht.tracker, hs.catalog, ht.catalog, hs.notices,
    ht.notices, hs.classifier, ht.classifier]
  refine ⟨fault, fun ne => ?_⟩
  obtain ⟨tracker, request, requests, bound, unbound⟩ := live ne
  exact ⟨tracker, (request_of_classifier ht.classifier _).trans request,
      hs.otherRequestsKept ht requests,
    fun b hb => hs.bindingReleased ht (bound b hb), unbound⟩

theorem TrackingSame.verticalLossTaken (h : verticalLossTaken n s' t') :
    Machine.verticalLossTaken n s t := by
  obtain ⟨fault, settling, settled⟩ := h
  rw [Machine.verticalLossTaken, hs.tracker, ht.tracker, hs.catalog, ht.catalog, hs.notices,
    ht.notices, hs.classifier, ht.classifier]
  refine ⟨fault, settling, fun live => ?_⟩
  obtain ⟨tracker, request, requests, bound, unbound⟩ := settled live
  exact ⟨tracker, (request_of_classifier ht.classifier _).trans request,
      hs.otherRequestsKept ht requests,
    fun b hb => hs.bindingReleased ht (bound b hb), unbound⟩

end

/-! ### The acceptance of a waiting transition -/

/-- The order of an expiry and a line where nothing expires: it makes no difference. -/
def plainOrder : ExpiryOrder := { first := true, stands := true, ringAfter := true }

theorem exec_transitionAccepted (n : InputIx) (pin : Pin) (s : State) :
    exec (.transitionAccepted n pin) s = .next (noteChange s (acceptPin n pin s)) := rfl

theorem acceptPin_of_not_due (h : expiryDue pin (s.unit n) = false) : acceptPin n pin s =
    applyMeasured n (acceptTick pin (s.unit n)) (acceptTransition plainOrder pin (s.unit n)) s := by
  rw [acceptPin, expiryChoice_of_not_due s h, spendChoice_of_not_due s h]
  rfl

/-- An acceptance that reports nothing changes the unit alone. -/
theorem exec_accepted_quietly {u : MeasUnit} (due : expiryDue pin (s.unit n) = false)
    (accepted : acceptTransition plainOrder pin (s.unit n) = (u, []))
    (lastSet : u.lastSet = (s.unit n).lastSet) :
    exec (.transitionAccepted n pin) s = .next (s.withUnit n u) := by
  have alone : applyMeasured n (acceptTick pin (s.unit n)) (u, []) s = s.withUnit n u := rfl
  rw [exec_transitionAccepted, acceptPin_of_not_due due, accepted, alone,
    noteChange_withUnit s lastSet]

/-- An acceptance with one report. -/
theorem exec_accepted_reporting {u : MeasUnit} {r : Report}
    (due : expiryDue pin (s.unit n) = false)
    (accepted : acceptTransition plainOrder pin (s.unit n) = (u, [r])) :
    exec (.transitionAccepted n pin) s =
      .next (noteChange s (takeReport n (acceptTick pin (s.unit n)) (s.withUnit n u) r)) := by
  rw [exec_transitionAccepted, acceptPin_of_not_due due, accepted]
  rfl

theorem unitFrame_reporting (n : InputIx) (tick : Nat) (u : MeasUnit) (r : Report) (s base : State) :
    UnitFrame n u base (noteChange s (takeReport n tick (base.withUnit n u) r)) :=
  unitFrame_measured n tick (u, [r]) s base

/-- A detection that a unit's event reports. -/
theorem detectionTaken_reported {k : FaultKind} {base : State} (u : MeasUnit)
    (law : (base.tracker n).StateLaw) (on : (base.tracker n).state ≠ .idle) :
    detectionTaken n k tick base
      (noteChange s (takeReport n tick (base.withUnit n u) (.detected k))) := by
  have same := trackingSame_withUnit (n := n) base u
  exact same.symm.detectionTaken (trackingSame_noteChange s _)
    (detectionTaken_takeDetection (by rw [same.tracker]; exact law) (by rw [same.tracker]; exact on))

theorem TrackerLaw.stateLaw (h : TrackerLaw s) (n : InputIx) : (s.tracker n).StateLaw :=
  ((trackerLawAt_iff n s).mp (h n)).toStateLaw

/-- The tracker of an input whose unit runs is not in IDLE. -/
theorem LinkLaw.not_idle (h : LinkLaw s) (hu : (s.unit n).state ≠ .off) :
    (s.tracker n).state ≠ .idle := fun idle => hu ((h n).1.mpr idle)

end Sys2Proof.Machine
end

