-- ==== Sys2Proof/Proofs/Sets.lean ====
section
/-! What a tracker does with a published set, by its state. -/

namespace Sys2Proof.Machine

variable {n : InputIx} {tick : Nat} {m h : MeasSet} {s : State}

/-! ### Verifies of a bound input -/

/-- A bound input's verify waits or is granted, or takes the place of one granted at its tick. -/
theorem verifySubmitted_of_classifier {t : State}
    (ht : t.classifier = (submitVerify n tick m s).classifier) : verifySubmitted n tick m s t := by
  refine ⟨fun p hp ended gone own seq start => ?_, fun other => ?_⟩
  · have supersedes : supersedesGranted (inputRequester n)
        { kind := .verifyBound, set := .measured m, seq := some (s.tracker n).reqSeq } tick s p
          = true := by
      simp [supersedesGranted, ended, gone, own, seq, start]
    rw [ht, submitVerify, submitAt_granted s hp supersedes]
    simp [grantedPass, probeRequester_ne_inputRequester, eq_comm]
    rfl
  · have fresh (p : Pass) (hp : s.classifier.pass = some p) :
        supersedesGranted (inputRequester n)
          { kind := .verifyBound, set := .measured m, seq := some (s.tracker n).reqSeq } tick s p
            = false := by
      have := other p hp
      by_contra taken
      rw [Bool.not_eq_false] at taken
      simp only [supersedesGranted, Bool.and_eq_true, beq_iff_eq, Option.isNone_iff_eq_none] at taken
      tauto
    rw [submitVerify, submitAt_other s fresh] at ht
    exact requestSubmitted_of_classifier ht

/-! ### Settling afresh -/

/-- A set that starts a new count, in a state that holds no coast. -/
theorem settledAfresh_settleAfresh
    (law : (s.tracker n).LawAt (s.config n) (s.request (inputRequester n)))
    (state : (s.tracker n).state = .pending ∨ (s.tracker n).state = .unmatched) :
    settledAfresh n m s (settleAfresh n m s) := by
  have settling : (s.tracker n).state ≠ .settling := by rcases state with e | e <;> simp [e]
  have coast : (s.tracker n).coast = 0 :=
    law.coast_eq (by rcases state with e | e <;> simp [e])
  have settleRef : (s.tracker n).settleRef = none :=
    Option.not_isSome_iff_eq_none.mp fun some => settling (law.settleRef some)
  have counter : (s.tracker n).settleCounter = 0 := not_not.mp fun ne => settling (law.counter ne)
  refine ⟨fun more => ?_, fun one => ?_⟩
  · obtain ⟨tracker, classifier⟩ := settleAfresh_below (m := m) law.toStateLaw more
    refine ⟨tracker.trans ?_, ?_, fun q hq => ?_, ?_⟩
    · simp [settlingTracker, coast]
    · rw [State.request, classifier]
      exact Vector.getElem_set_self ..
    · rw [State.request, classifier]
      exact getElem_set_of_ne s.classifier.requests hq _
    · rw [classifier]
      exact ⟨rfl, rfl, rfl, rfl⟩
  · obtain ⟨tracker, v, classifier, submitted⟩ := settleAfresh_done (m := m) law.toStateLaw one
    refine ⟨tracker.trans ?_, requestSubmitted_of_set classifier submitted⟩
    simp [settledTracker, coast, settleRef, counter]

/-! ### The states of the tracker -/

theorem takeSet_of_settling (state : (s.tracker n).state = .settling) :
    takeSet n tick m s = settleWith n (nextSettle (s.tracker n) m) m s := by
  unfold takeSet
  simp only [state]

theorem takeSet_of_pending (state : (s.tracker n).state = .pending)
    (held : (s.tracker n).held = some h) : takeSet n tick m s =
      if consistent h m then s else settleAfresh n m s := by
  have same : consistentWithHeld (s.tracker n) m = consistent h m := by
    unfold consistentWithHeld
    rw [held]
  unfold takeSet
  simp only [state, same]

theorem takeSet_of_unmatched (state : (s.tracker n).state = .unmatched)
    (held : (s.tracker n).held = some h) : takeSet n tick m s =
      if consistent h m then
        if (s.tracker n).recheck then submitHeld n .search (changeState n .pending s) else s
      else settleAfresh n m s := by
  have same : consistentWithHeld (s.tracker n) m = consistent h m := by
    unfold consistentWithHeld
    rw [held]
  unfold takeSet
  simp only [state, same]

theorem takeSet_of_bound (bound : isBoundState (s.tracker n).state) :
    takeSet n tick m s = submitVerify n tick m s := by
  unfold takeSet
  rcases bound with e | e
  · simp only [e]
  · simp only [e]

theorem takeSet_ignored (state : (s.tracker n).state ∈ [TrackerState.idle, .silent, .fault]) :
    takeSet n tick m s = s := by
  unfold takeSet
  simp only [List.mem_cons, List.not_mem_nil, or_false] at state
  rcases state with e | e | e
  · simp only [e]
  · simp only [e]
  · simp only [e]

/-- Settles O55: one case a state, each by its own lemma. -/
theorem publishedSetsAreTakenByState : Obligations.PublishedSetsAreTakenByState := by
  intro n tick m s laws
  have law := (trackerLawAt_iff n s).mp (laws n)
  have frame := (takeReport_moves n s tick (.published m)).frame
  have catalog : (takeSet n tick m s).catalog = s.catalog := by simp
  have notices : (takeSet n tick m s).notices = s.notices := by simp
  refine ⟨takeSet n tick m s, rfl, fun state => ⟨nextSettle (s.tracker n) m, rfl, ?_, ?_⟩,
    fun h held => ⟨?_, ?_, ?_, ?_, ?_⟩,
    fun bound => ?_, takeSet_ignored, frame.others, frame.unitsKept, catalog, notices,
    frame.mailbox, frame.port, frame.freeIndex⟩
  · intro below
    rw [takeSet_of_settling state, settleWith_below below]
    exact ⟨tracker_withTracker_self .., rfl⟩
  · intro reached
    have coast : (s.tracker n).coast = 0 := law.coast_eq (by simp [state])
    have recheck : (s.tracker n).recheck = false :=
      Bool.eq_false_iff.mpr fun marked => by simpa [state] using law.recheck marked
    obtain ⟨tracker, v, classifier, submitted⟩ := settleWith_done (m := m) law.toStateLaw state reached
    rw [takeSet_of_settling state]
    refine ⟨tracker.trans ?_, requestSubmitted_of_set classifier submitted⟩
    simp [settledTracker, coast, recheck]
  · intro state same
    rw [takeSet_of_pending state held, if_pos same]
  · intro state differs
    rw [takeSet_of_pending state held, if_neg (by simp [differs])]
    exact settledAfresh_settleAfresh law (.inl state)
  · intro state differs
    rw [takeSet_of_unmatched state held, if_neg (by simp [differs])]
    exact settledAfresh_settleAfresh law (.inr state)
  · intro state same unmarked
    rw [takeSet_of_unmatched state held, if_pos same, if_neg (by simp [unmarked])]
  · intro state same marked
    rw [takeSet_of_unmatched state held, if_pos same, if_pos marked]
    exact rebindUnmatched_outcome laws state held
  · rw [takeSet_of_bound bound]
    exact ⟨tracker_of_inputs (submitVerify_inputs s n tick m) n, verifySubmitted_of_classifier rfl⟩

end Sys2Proof.Machine
end

