-- ==== Sys2Proof/Proofs/VerticalEdges.lean ====
section
/-! Vertical edges: what opens and closes a period, the composed set, and the V pin's own edges. -/

namespace Sys2Proof.Machine

variable {u : MeasUnit} {e : VEdge} {p : OpenPeriod}

/-! ### Readings at an edge -/

theorem halfLineAt_iff {offset : Nat} : halfLineAt u offset = true ↔ isHalfLine u offset := by
  rw [halfLineAt, Bool.and_eq_true, decide_eq_true_iff, decide_eq_true_iff]
  rfl

theorem vPinOffset_eq {w a : Nat} (h : lastEdgeBefore u w a) : vPinOffset u w = w - a := by
  unfold vPinOffset
  obtain ⟨last, before⟩ | ⟨b, last, later, prev⟩ := h
  · rw [last]
    exact if_pos before
  · rw [last, prev]
    exact if_neg (by omega)

theorem ringPolarity_eq {newest : Line} (h : u.ring.getLast? = some newest) :
    ringPolarity u = newest.polarity := by
  unfold ringPolarity
  rw [h]

/-- The set that the model composes is the one the manual describes (R81, R88). -/
theorem composedFrom_composeSet {newest : Line} {form : SyncForm}
    (ring : u.ring.getLast? = some newest)
    (hform : form = match e.source with | .vPin => .separate | .separator => .composite) :
    composedFrom u p newest e.count (p.width.getD e.count) e.offset form (composeSet u p e) := by
  have polarity := ringPolarity_eq ring
  subst hform
  refine ⟨rfl, rfl, rfl, polarity, rfl, rfl, ?_, rfl, halfLineAt_iff, ?_, decide_eq_true_iff⟩
  · cases hs : e.source <;> simp [composeSet, hs, polarity]
  · change (if u.halfLineRef = some (halfLineAt u e.offset) then Scan.progressive else .interlaced)
      = .progressive ↔ u.halfLineRef = some (halfLineAt u e.offset)
    split <;> simp_all

/-! ### Closing edges -/

theorem verticalEdge_unprimed (state : u.state = .unprimed) :
    verticalEdge e u = (openPeriodAt e { u with state := .priming }, []) := by
  unfold verticalEdge
  simp only [state]

theorem verticalEdge_open (state : isOpenState u.state) (period : u.period = some p) :
    verticalEdge e u = closePeriod p e u := by
  unfold verticalEdge
  rcases state with e | e <;> simp only [e, period]

theorem closePeriod_long (long : 16 ≤ e.count) : closePeriod p e u = closeTested p.faults p e u := by
  unfold closePeriod
  exact if_neg (by omega)

theorem closeTested_wrong {record : FaultSet} (wrong : referenceWrong p e = true) :
    closeTested record p e u = (invertVRef u, []) := by
  unfold closeTested
  exact if_pos wrong

/-- A SHORT_FRAME is reported alone, whether the reference stands or not (R96). -/
theorem closePeriod_short (short : e.count < 16) : closePeriod p e u =
    (if referenceWrong p e then invertVRef u else openPeriodAt e u, [.detected .shortFrame]) := by
  unfold closePeriod closeTested
  simp only [if_pos short]
  split <;> rfl

theorem closeTested_publishing {record : FaultSet} (stands : referenceWrong p e = false)
    (long : 16 ≤ e.count) (state : u.state = .publishing) :
    closeTested record p e u = closeWithSet record p e u := by
  unfold closeTested
  rw [if_neg (by simp [stands]), if_neg (by omega), if_pos state]

theorem closeTested_priming {record : FaultSet} (stands : referenceWrong p e = false)
    (long : 16 ≤ e.count) (state : u.state = .priming) :
    closeTested record p e u = (openPeriodAt e
      { u with state := .publishing, halfLineRef := some (halfLineAt u e.offset) }, []) := by
  unfold closeTested
  rw [if_neg (by simp [stands]), if_neg (by omega), if_neg (by simp [state])]

theorem publishes_eq {record : FaultSet} (short : record.shortFrame = false)
    (flip : record.polarityFlip = false) : publishes record = true := by
  simp [publishes, short, flip]

theorem publishes_eq_false {record : FaultSet}
    (h : record.shortFrame = true ∨ record.polarityFlip = true) : publishes record = false := by
  rcases h with e | e <;> simp [publishes, e]

/-- The unit that a set leaves behind its references: a changed reference abandons the line (R77). -/
theorem setHRef_eq {q : Polarity} :
    setHRef q u = { u with hRef := q, line := if u.hRef = q then u.line else none } := by
  unfold setHRef
  split
  · next same => rw [← same]
  · rfl

theorem closeWithSet_published {record : FaultSet} {newest : Line} (publishes : publishes record = true)
    (ring : u.ring.getLast? = some newest) : closeWithSet record p e u =
      ({ u with
          lineCounter := e.newCount, setSeq := (composeSet u p e).seq
          lastSet := some (composeSet u p e), halfLineRef := some (composeSet u p e).halfLine
          hRef := newest.polarity
          line := if u.hRef = newest.polarity then u.line else none
          period := some (periodOpenedAt e.tick) },
        [.published (composeSet u p e)]) := by
  unfold closeWithSet
  dsimp only
  rw [if_pos publishes, show (composeSet u p e).sync.hPolarity = newest.polarity from
    ringPolarity_eq ring, setHRef_eq]
  rfl

theorem closeWithSet_withheld {record : FaultSet} {newest : Line}
    (withheld : publishes record = false) (ring : u.ring.getLast? = some newest) :
    closeWithSet record p e u =
      ({ u with
          lineCounter := e.newCount, halfLineRef := some (halfLineAt u e.offset)
          hRef := newest.polarity
          line := if u.hRef = newest.polarity then u.line else none
          period := some (periodOpenedAt e.tick) }, []) := by
  unfold closeWithSet
  dsimp only
  rw [if_neg (by simp [withheld]), show (composeSet u p e).sync.hPolarity = newest.polarity from
    ringPolarity_eq ring, setHRef_eq]
  rfl

/-! ### The edges of the V pin -/

/-- The vertical edge that the V pin's transition at `w` makes. -/
def vPinEdge (u : MeasUnit) (w : Nat) : VEdge :=
  { source := .vPin, tick := w, offset := vPinOffset u w, count := u.lineCounter, newCount := 0 }

theorem referenceWrong_vPinEdge {w : Nat} : referenceWrong p (vPinEdge u w) =
    decide (u.lineCounter - p.width.getD u.lineCounter < p.width.getD u.lineCounter) := rfl

/-- A unit whose V pin's filter has passed its waiting transition on (R71). -/
def vPassed (u : MeasUnit) : MeasUnit :=
  { u with vFilter := { passed := otherLevel u.vFilter.passed, waiting := none } }

/-- The waiting transition and the level it brings. -/
theorem acceptTransition_vTransition {w : Nat} {active : Bool} (order : ExpiryOrder)
    (waits : vTransitionWaits u w active) :
    acceptTransition order .v u = vTransition (otherLevel u.vFilter.passed) w (vPassed u) := by
  obtain ⟨running, waiting, -⟩ := waits
  obtain ⟨x, hx, rfl⟩ := Option.map_eq_some_iff.mp waiting
  exact acceptTransition_v order (ne_off_of_isRunning running) hx

/-- The V pin becomes the source in the unit that the separator's rule leaves (R84). -/
def vPinResumed (u : MeasUnit) : MeasUnit :=
  { vPinTaken u with state := .unprimed, period := none, halfLineRef := none }

theorem vPinSeen_vPin (source : u.vQuiet < 4096) : vPinSeen (vPassed u) = vPinTaken u := by
  have own : vSourceOf (vPassed u) = .vPin := if_pos source
  unfold vPinSeen
  rw [own]
  rfl

theorem vPinSeen_separator (source : u.vQuiet = 4096) : vPinSeen (vPassed u) = vPinResumed u := by
  have own : vSourceOf (vPassed u) = .separator := if_neg (by simp [vPassed, source])
  unfold vPinSeen
  rw [own]
  rfl

theorem endVPulse_eq : endVPulse u =
    { u with
      period := u.period.map fun p =>
        { p with width := some (p.width.getD u.lineCounter) } } := by
  have width (p : OpenPeriod) :
      (match p.width with | none => some u.lineCounter | some w => some w)
        = some (p.width.getD u.lineCounter) := by
    cases p.width <;> rfl
  exact congrArg (fun f : OpenPeriod → OpenPeriod => { u with period := u.period.map f })
    (funext fun p => congrArg (fun x => { p with width := x }) (width p))

/-- What a transition does, by its level: the unit has seen the pin first. -/
theorem vTransition_running {level : Level} {t : Nat} (running : isRunning u = true) :
    vTransition level t u =
      if level = activeLevel (vPinSeen u).vRef then
        verticalEdge (vPinEdge (vPinSeen u) t) (vPinSeen u)
      else (endVPulse (vPinSeen u), []) := by
  unfold vTransition
  exact if_pos running

theorem accepted_v_vPin {w : Nat} {active : Bool} (order : ExpiryOrder)
    (waits : vTransitionWaits u w active) (source : u.vQuiet < 4096) :
    acceptTransition order .v u =
      if active then verticalEdge (vPinEdge u w) (vPinTaken u)
      else (endVPulse (vPinTaken u), []) := by
  have ⟨running, _, level⟩ := waits
  rw [acceptTransition_vTransition order waits, vTransition_running (u := vPassed u) running,
    vPinSeen_vPin source]
  exact if_congr level.symm rfl rfl

theorem accepted_v_separator {w : Nat} {active : Bool} (order : ExpiryOrder)
    (waits : vTransitionWaits u w active) (source : u.vQuiet = 4096) :
    acceptTransition order .v u =
      if active then verticalEdge (vPinEdge u w) (vPinResumed u)
      else (vPinResumed u, []) := by
  have ⟨running, _, level⟩ := waits
  rw [acceptTransition_vTransition order waits, vTransition_running (u := vPassed u) running,
    vPinSeen_separator source]
  exact if_congr level.symm rfl rfl

/-- Settles O2: each clause by what the edge finds. -/
theorem vPinTransitionsWithoutReport : Obligations.VPinTransitionsWithoutReport := by
  refine ⟨fun n s w waits source => ?_, fun n s w waits source => ?_, fun n s w waits source => ?_,
    fun n s w waits source state => ?_, fun n s w p a waits source state period long stands before =>
      ?_⟩
  · exact exec_accepted_quietly rfl (accepted_v_separator plainOrder waits source) rfl
  · refine exec_accepted_quietly rfl ((accepted_v_separator plainOrder waits source).trans ?_) rfl
    rw [if_pos rfl, verticalEdge_unprimed rfl]
    rfl
  · refine exec_accepted_quietly rfl ((accepted_v_vPin plainOrder waits source).trans ?_) rfl
    rw [if_neg (by simp), endVPulse_eq]
    rfl
  · refine exec_accepted_quietly rfl ((accepted_v_vPin plainOrder waits source).trans ?_) rfl
    rw [if_pos rfl, verticalEdge_unprimed (u := vPinTaken (s.unit n)) state]
    rfl
  · refine ⟨halfLineAt (s.unit n) (w - a), halfLineAt_iff, ?_⟩
    refine exec_accepted_quietly rfl ((accepted_v_vPin plainOrder waits source).trans ?_) rfl
    have right : referenceWrong p (vPinEdge (s.unit n) w) = false := by
      rw [referenceWrong_vPinEdge]
      exact decide_eq_false (by omega)
    rw [if_pos rfl, verticalEdge_open (u := vPinTaken (s.unit n)) (.inl state) period,
      closePeriod_long (e := vPinEdge (s.unit n) w) long,
      closeTested_priming (u := vPinTaken (s.unit n)) right long state,
      ← vPinOffset_eq before]
    rfl

/-- Settles O21: the three closing edges that compose no set or withhold it. -/
theorem closingEdgesThatPublishNothing : Obligations.ClosingEdgesThatPublishNothing := by
  refine ⟨fun n s w p state source waits period long wrong => ?_,
    fun n s w p laws links state source waits period short => ?_,
    fun n s w p newest a state source waits period long stands withheld ring before => ?_⟩
  · have inverted : referenceWrong p (vPinEdge (s.unit n) w) = true := by
      rw [referenceWrong_vPinEdge]
      exact decide_eq_true wrong
    refine exec_accepted_quietly rfl ((accepted_v_vPin plainOrder waits source).trans ?_) rfl
    rw [if_pos rfl, verticalEdge_open (u := vPinTaken (s.unit n)) state period,
      closePeriod_long (e := vPinEdge (s.unit n) w) long, closeTested_wrong inverted]
    rfl
  · have accepted := (accepted_v_vPin plainOrder waits source).trans ((if_pos rfl).trans
      ((verticalEdge_open (u := vPinTaken (s.unit n)) state period).trans
        (closePeriod_short (e := vPinEdge (s.unit n) w) short)))
    obtain ⟨unit, config, others, mailbox, port, free⟩ := unitFrame_reporting n
      (acceptTick .v (s.unit n)) (if referenceWrong p (vPinEdge (s.unit n) w) then
        invertVRef (vPinTaken (s.unit n))
        else openPeriodAt (vPinEdge (s.unit n) w) (vPinTaken (s.unit n))) (.detected .shortFrame) s s
    refine ⟨_, exec_accepted_reporting rfl accepted, detectionTaken_reported _ (laws.stateLaw n)
      (links.not_idle (ne_off_of_isRunning waits.1)), unit.trans ?_, config, others, mailbox, port,
      free⟩
    rw [referenceWrong_vPinEdge]
    exact if_congr decide_eq_true_iff rfl rfl
  · refine ⟨halfLineAt (s.unit n) (w - a), halfLineAt_iff, ?_⟩
    refine exec_accepted_quietly rfl ((accepted_v_vPin plainOrder waits source).trans ?_) rfl
    have right : referenceWrong p (vPinEdge (s.unit n) w) = false := by
      rw [referenceWrong_vPinEdge]
      exact decide_eq_false (by omega)
    rw [if_pos rfl, verticalEdge_open (u := vPinTaken (s.unit n)) (.inr state) period,
      closePeriod_long (e := vPinEdge (s.unit n) w) long,
      closeTested_publishing (u := vPinTaken (s.unit n)) right long state,
      closeWithSet_withheld (u := vPinTaken (s.unit n)) (publishes_eq_false withheld) ring,
      ← vPinOffset_eq before]
    rfl

end Sys2Proof.Machine
end

