-- ==== Sys2Proof/Proofs/PublishedSets.lean ====
section
/-! The publication of a composed set, and the closing edge of the V pin that publishes one. -/

namespace Sys2Proof.Machine

variable {n : InputIx} {tick : Nat} {m : MeasSet} {s : State}

theorem TrackingSame.verifySubmitted {s' t' t : State} (hs : TrackingSame n s' s)
    (ht : TrackingSame n t' t) (h : verifySubmitted n tick m s' t') :
    Machine.verifySubmitted n tick m s t := by
  simp only [Machine.verifySubmitted, requestSubmitted, State.request] at h ⊢
  rw [hs.classifier, hs.tracker, ht.classifier]
  exact h

/-- A set that is an event's one report reaches the tracker, and nothing else happens. -/
theorem setReachesTracker_reporting (u : MeasUnit) : setReachesTracker n tick m s
    (noteChange s (takeReport n tick (s.withUnit n u) (.published m))) := by
  have frame := unitFrame_reporting n tick u (.published m) s s
  have port : (takeReport n tick (s.withUnit n u) (.published m)).port = s.port :=
    (takeReport_moves n (s.withUnit n u) tick (.published m)).frame.port
  refine ⟨?_, frame.port⟩
  rw [frame.unit, ← port]
  rfl

/-- A bound input's set: a verify, and no change of the tracker. -/
theorem published_bound (u : MeasUnit) (bound : isBoundState (s.tracker n).state) :
    (noteChange s (takeReport n tick (s.withUnit n u) (.published m))).tracker n = s.tracker n
      ∧ (noteChange s (takeReport n tick (s.withUnit n u) (.published m))).notices = s.notices
      ∧ verifySubmitted n tick m s
        (noteChange s (takeReport n tick (s.withUnit n u) (.published m))) := by
  have same := trackingSame_withUnit (n := n) s u
  have taken : takeReport n tick (s.withUnit n u) (.published m)
      = submitVerify n tick m (s.withUnit n u) :=
    takeSet_of_bound (by rw [same.tracker]; exact bound)
  rw [taken]
  refine ⟨?_, ?_, same.symm.verifySubmitted (trackingSame_noteChange s _)
    (verifySubmitted_of_classifier rfl)⟩
  · exact (tracker_of_inputs (submitVerify_inputs _ n tick m) n).trans same.tracker
  · rw [noteChange_notices, submitVerify_notices, same.notices]

/-- Settles O54: the edge composes, the reports reach the tracker. -/
theorem closingEdgePublishesSet : Obligations.ClosingEdgePublishesSet := by
  intro n s w p newest a state source waits period long stands short flip ring before
  have right : referenceWrong p (vPinEdge (s.unit n) w) = false := by
    rw [referenceWrong_vPinEdge]
    exact decide_eq_false (by omega)
  have accepted := (accepted_v_vPin plainOrder waits source).trans ((if_pos rfl).trans
    ((verticalEdge_open (u := vPinTaken (s.unit n)) (.inr state) period).trans
      ((closePeriod_long (e := vPinEdge (s.unit n) w) long).trans
        ((closeTested_publishing (u := vPinTaken (s.unit n)) right long state).trans
          (closeWithSet_published (u := vPinTaken (s.unit n)) (publishes_eq short flip) ring)))))
  have composed := composedFrom_composeSet (u := vPinTaken (s.unit n)) (p := p)
    (e := vPinEdge (s.unit n) w) (form := .separate) ring rfl
  have offset : (vPinEdge (s.unit n) w).offset = w - a := vPinOffset_eq before
  rw [offset] at composed
  have hexec := exec_accepted_reporting rfl accepted
  generalize composeSet (vPinTaken (s.unit n)) p (vPinEdge (s.unit n) w) = m at *
  have frame (u : MeasUnit) := unitFrame_reporting n (acceptTick .v (s.unit n)) u (.published m) s s
  refine ⟨_, m, hexec, composed, (frame _).unit, setReachesTracker_reporting _, (frame _).config,
    (frame _).others, ?_, (frame _).mailbox, (frame _).freeIndex, published_bound _⟩
  exact (takeSet_catalog _ n _ m).trans rfl

end Sys2Proof.Machine
end

