-- ==== Sys2Proof/Proofs/HorizontalEdges.lean ====
section
/-! Accepted transitions of the H pin: which edge it is, and the edges that close no line. -/

namespace Sys2Proof.Machine

variable {u : MeasUnit} {w a : Nat} {l : ClosedLine}

/-! ### Which edge it is -/

/-- A waiting edge, accepted, is the edge at its tick. -/
theorem accepted_h (order : ExpiryOrder) (on : u.state ≠ .off) (waits : waitingHEdge u = some w) :
    acceptTransition order .h u = horizontalEdge order w (hPinTaken u) := by
  obtain ⟨waiting, level⟩ := waitingHEdge_eq_some.mp waits
  obtain ⟨x, hx, rfl⟩ := Option.map_eq_some_iff.mp waiting
  rw [acceptTransition_h order on hx, if_pos level]

/-- A waiting transition out of the active level ends the active phase. -/
theorem accepted_h_out (order : ExpiryOrder) {x : Waiting} (on : u.state ≠ .off)
    (waits : u.hFilter.waiting = some x) (out : otherLevel u.hFilter.passed ≠ activeLevel u.hRef) :
    acceptTransition order .h u = (endActivePhase x.tick (hPinTaken u), []) := by
  rw [acceptTransition_h order on waits, if_neg out]

theorem hEdgeAt_hPinTaken : hEdgeAt (hPinTaken u) w = hEdgeAt u w := rfl

theorem hEdgeAt_first (none : u.lastHEdge = none) : hEdgeAt u w = .opens := by
  unfold hEdgeAt
  rw [none]

theorem hEdgeAt_reopens (last : u.lastHEdge = some a) (low : a + 160 ≤ w) (high : w < a + 8192)
    (line : u.line = none) : hEdgeAt u w = .opens := by
  unfold hEdgeAt
  simp only [last, line]
  rw [if_neg (by omega), if_neg (by omega)]

theorem hEdgeAt_dropped (last : u.lastHEdge = some a) (close : w < a + 160) :
    hEdgeAt u w = .dropped := by
  unfold hEdgeAt
  simp only [last]
  exact if_pos (by omega)

theorem hEdgeAt_late (last : u.lastHEdge = some a) (late : a + 8192 ≤ w) :
    hEdgeAt u w = .late := by
  unfold hEdgeAt
  simp only [last]
  rw [if_neg (by omega), if_pos (by omega)]

theorem horizontalEdge_opens (order : ExpiryOrder) (edge : hEdgeAt u w = .opens) :
    horizontalEdge order w (hPinTaken u) = (lineOpenedAt w u.lineCounter u, []) := by
  unfold horizontalEdge
  rw [hEdgeAt_hPinTaken, edge]
  rfl

theorem horizontalEdge_dropped (order : ExpiryOrder) (edge : hEdgeAt u w = .dropped) :
    horizontalEdge order w (hPinTaken u) = countRejection (hPinTaken u) := by
  unfold horizontalEdge
  rw [hEdgeAt_hPinTaken, edge]

theorem horizontalEdge_late (order : ExpiryOrder) (edge : hEdgeAt u w = .late) :
    horizontalEdge order w (hPinTaken u) =
      (startLine w (expireHorizontal (hPinTaken u)).1, (expireHorizontal (hPinTaken u)).2) := by
  unfold horizontalEdge
  rw [hEdgeAt_hPinTaken, edge]

/-- A closing edge in QUIET raises the gain count, and elsewhere hands the line on. -/
theorem horizontalEdge_closes (order : ExpiryOrder) (edge : hEdgeAt u w = .closes l) :
    horizontalEdge order w (hPinTaken u) =
      (settleOpenCount (if isRunning u then lineClosed order l (lineOpenedAt w u.lineCounter u)
          else gainLine l.line (lineOpenedAt w u.lineCounter u)).1,
        (if isRunning u then lineClosed order l (lineOpenedAt w u.lineCounter u)
          else gainLine l.line (lineOpenedAt w u.lineCounter u)).2) := by
  unfold horizontalEdge
  rw [hEdgeAt_hPinTaken, edge]
  rfl

/-! ### The line that an acceptance closes -/

theorem closingLine_of_closes (on : u.state ≠ .off) (waits : waitingHEdge u = some w)
    (edge : hEdgeAt u w = .closes l) : closingLine u = some l := by
  unfold closingLine
  cases state : u.state with
  | off => exact absurd state on
  | quiet | unprimed | priming | publishing => simp only [waits, edge]

theorem closingLine_of_no_close (waits : waitingHEdge u = some w)
    (edge : ∀ l, hEdgeAt u w ≠ .closes l) : closingLine u = none := by
  unfold closingLine
  rw [waits]
  cases state : u.state with
  | off => rfl
  | quiet | unprimed | priming | publishing =>
    cases h : hEdgeAt u w with
    | closes l => exact absurd h (edge l)
    | opens | dropped | late => simp only [h]

theorem closingLine_none (waits : waitingHEdge u = none) : closingLine u = none := by
  unfold closingLine
  rw [waits]
  cases u.state <;> rfl

theorem hEdgeAt_of_closingLine (on : u.state ≠ .off) (waits : waitingHEdge u = some w)
    (closing : closingLine u = some l) : hEdgeAt u w = .closes l := by
  cases edge : hEdgeAt u w with
  | closes k =>
    have same := (closingLine_of_closes on waits edge).symm.trans closing
    rw [Option.some.inj same]
  | opens | dropped | late =>
    have gone := closingLine_of_no_close waits (by simp [edge])
    exact nomatch gone.symm.trans closing

theorem expiryDue_of_no_line (none : closingLine u = none) : expiryDue .h u = false := by
  simp [expiryDue, none]

theorem expiryDue_of_counters (lines : u.lineCounter < 4095) (quiet : u.vQuiet ≠ 4095) :
    expiryDue .h u = false := by
  simp [expiryDue, quiet, Nat.not_le_of_lt lines]

theorem expiryDue_of_not_running (h : isRunning u = false) : expiryDue .h u = false := by
  simp [expiryDue, h]

/-! ### Rejections -/

/-- A rejection short of NOISE (R73). -/
theorem countRejection_counted
    (short : ∀ p, u.period = some p → p.rejections ≠ 31 ∨ p.faults.noise = true) :
    countRejection u =
      ({ u with
          period := u.period.map fun p => { p with rejections := min 255 (p.rejections + 1) } },
        []) := by
  unfold countRejection
  cases period : u.period with
  | none =>
    dsimp only [Option.map_none]
    rw [← period]
  | some p =>
    have detects : (p.rejections == 31 && !p.faults.noise) = false := by
      rcases short p period with h | h <;> simp [h]
    simp [detects]

/-- The 32nd rejection of a period (R95). -/
theorem countRejection_noise {p : OpenPeriod} (period : u.period = some p)
    (rejections : p.rejections = 31) (fresh : p.faults.noise = false) :
    countRejection u =
      ({ u with
          period := some { p with rejections := 32, faults := { p.faults with noise := true } } },
        [.detected .noise]) := by
  have detects : ((31 : Nat) == 31 && !p.faults.noise) = true := by simp [fresh]
  unfold countRejection
  simp only [period, detects, if_true, rejections]
  rfl

theorem endActivePhase_eq : endActivePhase w u =
    { u with line := u.line.map fun o => { o with activeEnd := some (o.activeEnd.getD w) } } := by
  have ends (o : OpenLine) : (match o.activeEnd with | none => some w | some a => some a)
      = some (o.activeEnd.getD w) := by
    cases o.activeEnd <;> rfl
  exact congrArg (fun f : OpenLine → OpenLine => { u with line := u.line.map f })
    (funext fun o => congrArg (fun x => { o with activeEnd := x }) (ends o))

/-- Settles O51: the end of a phase, an opening edge, a dropped one. -/
theorem hTransitionsThatCloseNoLine : Obligations.HTransitionsThatCloseNoLine := by
  refine ⟨fun n s x on waits out => ?_, fun n s w waits opening => ?_,
    fun n s w a on waits last _ close short => ?_⟩
  · have none : waitingHEdge (s.unit n) = none := if_neg out
    refine exec_accepted_quietly (expiryDue_of_no_line (closingLine_none none))
      ((accepted_h_out plainOrder on waits out).trans ?_) rfl
    rw [endActivePhase_eq]
    rfl
  · have edge : hEdgeAt (s.unit n) w = .opens := by
      obtain ⟨-, first⟩ | ⟨-, line, a, last, low, high⟩ := opening
      · exact hEdgeAt_first first
      · exact hEdgeAt_reopens last low high line
    have on : (s.unit n).state ≠ .off := by
      obtain ⟨quiet, -⟩ | ⟨running, -⟩ := opening
      · simp [quiet]
      · exact ne_off_of_isRunning running
    exact exec_accepted_quietly
      (expiryDue_of_no_line (closingLine_of_no_close waits (by simp [edge])))
      ((accepted_h plainOrder on waits).trans (horizontalEdge_opens plainOrder edge)) rfl
  · have edge := hEdgeAt_dropped (w := w) last close
    refine exec_accepted_quietly
      (expiryDue_of_no_line (closingLine_of_no_close waits (by simp [edge])))
      ((accepted_h plainOrder on waits).trans ((horizontalEdge_dropped plainOrder edge).trans
        (countRejection_counted (u := hPinTaken (s.unit n)) short))) rfl

end Sys2Proof.Machine
end

