-- ==== Sys2Proof/Proofs/Lines.lean ====
section
/-! Closed lines: how they are characterised, admitted to the ring, counted and handed on. -/

namespace Sys2Proof.Machine

variable {u : MeasUnit} {l : ClosedLine} {w : Nat}

/-! ### Admission -/

theorem isShort_eq_false (long : 3 * (u.ring.map Line.period).sum ≤ 32 * l.line.period) :
    isShort u l.line = false := decide_eq_false (Nat.not_lt.mpr long)

theorem isShort_eq_true (short : 32 * l.line.period < 3 * (u.ring.map Line.period).sum) :
    isShort u l.line = true := decide_eq_true short

theorem admitLine_broad (broad : l.broad = true) : admitLine .separator l u = u := by
  unfold admitLine
  rw [broad]
  rfl

/-- A line that the separator's rule does not keep out. -/
theorem admitLine_of_taken {src : VSource} (taken : (l.broad && src == .separator) = false) :
    admitLine src l u =
      if isShort u l.line then
        if 8 ≤ (u.shortLines ++ [l.line]).length then
          { u with ring := u.shortLines ++ [l.line], shortLines := [] }
        else { u with shortLines := u.shortLines ++ [l.line] }
      else { u with ring := u.ring.drop 1 ++ [l.line], shortLines := [] } := by
  unfold admitLine
  rw [if_neg (by simp [taken])]

section
variable {src : VSource} (taken : (l.broad && src == .separator) = false)

include taken

theorem admitLine_long (long : 3 * (u.ring.map Line.period).sum ≤ 32 * l.line.period) :
    admitLine src l u = { u with ring := u.ring.drop 1 ++ [l.line], shortLines := [] } := by
  rw [admitLine_of_taken taken, if_neg (by simp [isShort_eq_false long])]

theorem admitLine_short (short : 32 * l.line.period < 3 * (u.ring.map Line.period).sum)
    (more : u.shortLines.length < 7) :
    admitLine src l u = { u with shortLines := u.shortLines ++ [l.line] } := by
  rw [admitLine_of_taken taken, if_pos (isShort_eq_true short),
    if_neg (by simp only [List.length_append, List.length_singleton]; omega)]

theorem admitLine_refills (short : 32 * l.line.period < 3 * (u.ring.map Line.period).sum)
    (last : u.shortLines.length = 7) :
    admitLine src l u = { u with ring := u.shortLines ++ [l.line], shortLines := [] } := by
  rw [admitLine_of_taken taken, if_pos (isShort_eq_true short),
    if_pos (by simp only [List.length_append, List.length_singleton]; omega)]

end

/-- Admission writes the ring and the short-line run alone. -/
theorem admitLine_eq (src : VSource) (l : ClosedLine) (u : MeasUnit) :
    admitLine src l u =
      { u with
        ring := (admitLine src l u).ring, shortLines := (admitLine src l u).shortLines } := by
  unfold admitLine
  split
  · rfl
  · split
    · dsimp only
      split <;> rfl
    · rfl

/-! ### The separator -/

theorem separatorTakes_plain {src : VSource} (plain : l.broad = false) :
    separatorTakes src l u = (endRun src u, []) := by
  unfold separatorTakes
  exact if_neg (by simp [plain])

theorem extendRun_third : (min 4095 (u.sepRun + 1) == 3) = true ↔ u.sepRun = 2 := by
  rw [beq_iff_eq]
  omega

/-- A broad line that is not the third of an armed run makes no edge. -/
theorem separatorTakes_extends {src : VSource} (broad : l.broad = true)
    (no : ¬ (u.sepArmed = true ∧ u.sepRun = 2)) :
    separatorTakes src l u = (extendRun l u, []) := by
  have third : ¬ (u.sepArmed && (extendRun l u).sepRun == 3) = true := by
    rw [Bool.and_eq_true]
    exact fun ⟨armed, run⟩ => no ⟨armed, extendRun_third.mp run⟩
  unfold separatorTakes
  dsimp only
  rw [if_pos broad, if_neg third]

theorem extendRun_armed (armed : u.sepArmed = true) (run : u.sepRun = 2) :
    (u.sepArmed && (extendRun l u).sepRun == 3) = true := by
  rw [Bool.and_eq_true]
  exact ⟨armed, extendRun_third.mpr run⟩

/-- The third broad line of an armed run makes the separator's edge (R86). -/
theorem separatorTakes_third {r : RunStart} (broad : l.broad = true) (armed : u.sepArmed = true)
    (run : u.sepRun = 2) (start : u.runStart = some r) :
    separatorTakes .separator l u =
      verticalEdge (separatorEdge r) { u with sepRun := 3, sepArmed := false } := by
  have extended : extendRun l u = { u with sepRun := 3 } := by simp [extendRun, run]
  unfold separatorTakes
  dsimp only
  rw [if_pos broad, if_pos (extendRun_armed armed run)]
  simp only [extended, start]

/-- Under the V pin it makes none, but disarms all the same. -/
theorem separatorTakes_vPin_third (broad : l.broad = true) (armed : u.sepArmed = true)
    (run : u.sepRun = 2) :
    separatorTakes .vPin l u = ({ extendRun l u with sepArmed := false }, []) := by
  unfold separatorTakes
  dsimp only
  rw [if_pos broad, if_pos (extendRun_armed armed run)]

theorem endRunPulse_separator (run : Nat) (p : OpenPeriod) :
    endRunPulse .separator run p = { p with width := some (p.width.getD run) } := by
  obtain ⟨openTick, width, rejections, faults, prevPolarity⟩ := p
  cases width <;> rfl

theorem endRunPulse_vPin (run : Nat) (p : OpenPeriod) : endRunPulse .vPin run p = p := by
  unfold endRunPulse
  rfl

/-- The end of a run under the separator gives an open period its width (R86). -/
theorem endRun_separator : endRun .separator u =
    { u with
      sepRun := 0, sepArmed := true, runStart := none
      period :=
        if 0 < u.sepRun then
          u.period.map fun p => { p with width := some (p.width.getD u.sepRun) }
        else u.period } := by
  have pulse : endRunPulse .separator u.sepRun
      = fun p => { p with width := some (p.width.getD u.sepRun) } :=
    funext (endRunPulse_separator u.sepRun)
  unfold endRun
  rw [pulse]

/-- Under the V pin the run has no pulse. -/
theorem endRun_vPin : endRun .vPin u =
    { u with sepRun := 0, sepArmed := true, runStart := none } := by
  have pulse : endRunPulse .vPin u.sepRun = id := funext (endRunPulse_vPin u.sepRun)
  unfold endRun
  rw [pulse, Option.map_id, id, ite_self]

/-! ### Counting, and what a line short of every expiry does -/

theorem countLine_separator (source : u.vQuiet = 4096) :
    countLine u = { u with lineCounter := u.lineCounter + 1 } := by
  simp [countLine, source]

theorem countLine_vPin (source : u.vQuiet < 4096) :
    countLine u = { u with lineCounter := u.lineCounter + 1, vQuiet := u.vQuiet + 1 } := by
  have quiet : min 4096 (u.vQuiet + 1) = u.vQuiet + 1 := by omega
  rw [countLine, quiet]

theorem flipTest_separator : flipTest .separator l u = (u, []) := by
  unfold flipTest
  rfl

theorem handOnLine_separator : handOnLine .separator l u = separatorTakes .separator l u := by
  unfold handOnLine
  dsimp only
  rw [flipTest_separator, List.append_nil]

/-- Short of the counters' expiry the order makes no difference: the plain one. -/
theorem lineClosed_plain (short : u.lineCounter < 4095) : lineClosed plainOrder l u =
    handOnLine (vSourceOf (countLine (admitLine (ringSource plainOrder u) l u))) l
      (countLine (admitLine (ringSource plainOrder u) l u)) := by
  have below : ¬ 4096 ≤ (countLine (admitLine (ringSource plainOrder u) l u)).lineCounter := by
    rw [admitLine_eq]
    change ¬ 4096 ≤ u.lineCounter + 1
    omega
  unfold lineClosed
  dsimp only
  rw [if_pos (show plainOrder.first = true from rfl), if_neg below]

/-- A line that closes under the separator. -/
theorem lineClosed_separator (source : u.vQuiet = 4096) (short : u.lineCounter < 4095) :
    lineClosed plainOrder l u =
      separatorTakes .separator l
        { admitLine .separator l u with lineCounter := u.lineCounter + 1 } := by
  have own : vSourceOf u = .separator := if_neg (by omega)
  have ring : ringSource plainOrder u = .separator :=
    (ringSource_of_not_due (by omega) plainOrder).trans own
  have counted : countLine (admitLine .separator l u)
      = { admitLine .separator l u with lineCounter := u.lineCounter + 1 } := by
    have quiet : (admitLine .separator l u).vQuiet = 4096 := by rw [admitLine_eq]; exact source
    have lines : (admitLine .separator l u).lineCounter = u.lineCounter := by rw [admitLine_eq]
    rw [countLine_separator quiet, lines]
  have after : vSourceOf { admitLine .separator l u with lineCounter := u.lineCounter + 1 }
      = .separator := by
    rw [admitLine_eq]
    exact own
  rw [lineClosed_plain short, ring, counted, after, handOnLine_separator]

/-- A line that closes under the V pin, well short of its quiet. -/
theorem lineClosed_vPin (source : u.vQuiet < 4095) (short : u.lineCounter < 4095) :
    lineClosed plainOrder l u =
      handOnLine .vPin l
        { admitLine .vPin l u with
          lineCounter := u.lineCounter + 1, vQuiet := u.vQuiet + 1 } := by
  have own : vSourceOf u = .vPin := if_pos (by omega)
  have ring : ringSource plainOrder u = .vPin :=
    (ringSource_of_not_due (by omega) plainOrder).trans own
  have counted : countLine (admitLine .vPin l u)
      = { admitLine .vPin l u with
          lineCounter := u.lineCounter + 1, vQuiet := u.vQuiet + 1 } := by
    have quiet : (admitLine .vPin l u).vQuiet = u.vQuiet := by rw [admitLine_eq]
    have lines : (admitLine .vPin l u).lineCounter = u.lineCounter := by rw [admitLine_eq]
    rw [countLine_vPin (by omega), quiet, lines]
  have after : vSourceOf { admitLine .vPin l u with
      lineCounter := u.lineCounter + 1, vQuiet := u.vQuiet + 1 } = .vPin :=
    if_pos (show u.vQuiet + 1 < 4096 by omega)
  rw [lineClosed_plain short, ring, counted, after]

/-! ### The acceptance of an edge that closes a line -/

theorem accepted_h_closes (order : ExpiryOrder) (running : isRunning u = true)
    (waits : waitingHEdge u = some w) (closing : closingLine u = some l) :
    acceptTransition order .h u =
      (settleOpenCount (lineClosed order l (lineOpenedAt w u.lineCounter u)).1,
        (lineClosed order l (lineOpenedAt w u.lineCounter u)).2) := by
  have on := ne_off_of_isRunning running
  rw [accepted_h order on waits,
    horizontalEdge_closes order (hEdgeAt_of_closingLine on waits closing), if_pos running]

/-- RING_REFILL is the acceptance where the short-line run is full. -/
theorem exec_ringRefill {n : InputIx} {s : State} {order : ExpiryOrder}
    (choice : expiryChoice n .h s = order) (closing : closingLine (s.unit n) = some l)
    (running : isRunning (s.unit n) = true)
    (taken : (l.broad && ringSource order (s.unit n) == .separator) = false)
    (short : 32 * l.line.period < 3 * ((s.unit n).ring.map Line.period).sum)
    (last : (s.unit n).shortLines.length = 7) :
    exec (.ringRefill n) s = exec (.transitionAccepted n .h) s := by
  have due : refillDue (expiryChoice n .h s) (s.unit n) = true := by
    unfold refillDue
    simp only [closing, choice, running, taken, isShort_eq_true short, last]
    rfl
  have spelt : exec (.ringRefill n) s = .next (if refillDue (expiryChoice n .h s) (s.unit n) then
      noteChange s (acceptPin n .h s) else s) := rfl
  rw [spelt, if_pos due]
  rfl

/-- What an edge that closes a line under the separator makes of the unit. -/
theorem exec_accepted_separator {n : InputIx} {s : State} {x v : MeasUnit}
    (running : isRunning (s.unit n) = true) (waits : waitingHEdge (s.unit n) = some w)
    (closing : closingLine (s.unit n) = some l) (source : (s.unit n).vQuiet = 4096)
    (short : (s.unit n).lineCounter < 4095)
    (admitted : admitLine .separator l (lineOpenedAt w (s.unit n).lineCounter (s.unit n)) = x)
    (taken : separatorTakes .separator l { x with lineCounter := (s.unit n).lineCounter + 1 }
      = (v, []))
    (lastSet : v.lastSet = (s.unit n).lastSet) :
    exec (.transitionAccepted n .h) s = .next (s.withUnit n (settleOpenCount v)) := by
  refine exec_accepted_quietly (expiryDue_of_counters short (by omega))
    ((accepted_h_closes plainOrder running waits closing).trans ?_) lastSet
  rw [lineClosed_separator (u := lineOpenedAt w (s.unit n).lineCounter (s.unit n)) source short,
    admitted]
  exact congrArg (fun r : Measured => (settleOpenCount r.1, r.2)) taken

/-- R75, by arithmetic on the two phases. -/
theorem characterise_phases {o : OpenLine} {e t : Nat} (ends : o.activeEnd = some e)
    (began : o.openTick ≤ e) (ended : e ≤ t) :
    (characterise u o t).line.period = t - o.openTick
      ∧ (characterise u o t).line.width =
        (if e - o.openTick = t - e then (t - o.openTick) / 2
        else min (e - o.openTick) (t - e))
      ∧ (characterise u o t).line.polarity =
        (if e - o.openTick ≤ t - e then u.hRef else otherPolarity u.hRef)
      ∧ ((characterise u o t).broad = true ↔ t - o.openTick < 4 * (e - o.openTick)) := by
  have idle : t - o.openTick - (e - o.openTick) = t - e := by omega
  simp only [characterise, ends, Option.getD_some, idle, decide_eq_true_iff, and_self]

/-- Settles O53: the characterisation by arithmetic, the lines by their admission and the run. -/
theorem linesEnterRing : Obligations.LinesEnterRing := by
  refine ⟨fun u o e t ends began ended => ?_, fun n s w l u running waits closing source short hu =>
    ⟨fun plain => ⟨fun long => ?_, fun shorter => ⟨fun more => ?_, fun last => ?_⟩⟩,
      fun broad no => ?_⟩⟩
  · obtain ⟨period, width, polarity, broad⟩ := characterise_phases (u := u) ends began ended
    refine ⟨period, fun less => ⟨?_, ?_⟩, fun same => ⟨?_, ?_⟩, fun more => ⟨?_, ?_⟩, broad, rfl, rfl,
      fun a prev => ?_⟩
    · rw [width, if_neg (by omega)]; omega
    · rw [polarity, if_pos (by omega)]
    · rw [width, if_pos same]
    · rw [polarity, if_pos (by omega)]
    · rw [width, if_neg (by omega)]; omega
    · rw [polarity, if_neg (by omega)]
    · simp only [characterise, prev]
  all_goals subst hu
  · have taken : (l.broad && VSource.separator == .separator) = false := by simp [plain]
    exact exec_accepted_separator running waits closing source short
      (admitLine_long (u := lineOpenedAt w (s.unit n).lineCounter (s.unit n)) taken long)
      ((separatorTakes_plain plain).trans (congrArg (·, []) endRun_separator)) rfl
  · have taken : (l.broad && VSource.separator == .separator) = false := by simp [plain]
    exact exec_accepted_separator running waits closing source short
      (admitLine_short (u := lineOpenedAt w (s.unit n).lineCounter (s.unit n)) taken shorter more)
      ((separatorTakes_plain plain).trans (congrArg (·, []) endRun_separator)) rfl
  · have taken : (l.broad && VSource.separator == .separator) = false := by simp [plain]
    have accepted := exec_accepted_separator running waits closing source short
      (admitLine_refills (u := lineOpenedAt w (s.unit n).lineCounter (s.unit n)) taken shorter last)
      ((separatorTakes_plain plain).trans (congrArg (·, []) endRun_separator)) rfl
    have refill := exec_ringRefill (order := plainOrder)
      (expiryChoice_of_not_due s (expiryDue_of_counters short (by omega))) closing running
      (by simp [plain]) shorter last
    intro c hc
    simp only [List.mem_cons, List.not_mem_nil, or_false] at hc
    rcases hc with rfl | rfl
    · exact refill.trans accepted
    · exact accepted
  · exact exec_accepted_separator running waits closing source short (admitLine_broad broad)
      (separatorTakes_extends broad no) rfl

end Sys2Proof.Machine
end

