-- ==== Sys2Proof/Proofs/VPinLines.lean ====
section
/-! Closed lines while the V pin is the source: the run without an edge, and POLARITY_FLIP. -/

namespace Sys2Proof.Machine

variable {u : MeasUnit} {l : ClosedLine} {p : OpenPeriod} {w : Nat}

/-! ### The run -/

/-- The separator's run after a line under the V pin (R86): it makes no edge there. -/
def runTaken (l : ClosedLine) (u : MeasUnit) : MeasUnit :=
  { u with
    sepRun := if l.broad then min 4095 (u.sepRun + 1) else 0
    sepArmed := if l.broad then (if u.sepRun = 2 then false else u.sepArmed) else true
    runStart := if l.broad then (if u.sepRun = 0 then some l.start else u.runStart) else none }

theorem separatorTakes_vPin : separatorTakes .vPin l u = (runTaken l u, []) := by
  cases broad : l.broad with
  | false =>
    rw [separatorTakes_plain broad, endRun_vPin]
    simp [runTaken, broad]
  | true =>
    by_cases third : u.sepArmed = true ∧ u.sepRun = 2
    · rw [separatorTakes_vPin_third broad third.1 third.2]
      simp [runTaken, extendRun, broad, third.2]
    · rw [separatorTakes_extends broad third]
      have armed : (if u.sepRun = 2 then false else u.sepArmed) = u.sepArmed := by
        split
        · next run => exact (Bool.eq_false_iff.mpr fun armed => third ⟨armed, run⟩).symm
        · rfl
      simp [runTaken, extendRun, broad, armed]

theorem handOnLine_vPin : handOnLine .vPin l u = flipTest .vPin l (runTaken l u) := by
  unfold handOnLine
  rw [separatorTakes_vPin]
  rfl

/-! ### POLARITY_FLIP -/

/-- The test writes the period alone. -/
theorem flipTest_eq (src : VSource) (l : ClosedLine) (u : MeasUnit) :
    (flipTest src l u).1 = { u with period := (flipTest src l u).1.period } := by
  unfold flipTest
  split <;> rfl

theorem flipTest_no_period (none : u.period = none) : flipTest .vPin l u = (u, []) := by
  unfold flipTest
  rw [none]

/-- Whether a line's polarity is a POLARITY_FLIP that the record does not hold (R97). -/
theorem flipTest_vPin (period : u.period = some p) : flipTest .vPin l u =
    if ∃ q, p.prevPolarity = some q ∧ q ≠ l.line.polarity ∧ p.faults.polarityFlip = false then
      ({ u with
          period := some
            { p with
              prevPolarity := some l.line.polarity
              faults := { p.faults with polarityFlip := true } } },
        [.detected .polarityFlip])
    else ({ u with period := some { p with prevPolarity := some l.line.polarity } }, []) := by
  unfold flipTest
  rw [period]
  cases prev : p.prevPolarity with
  | none => simp [prev]
  | some q =>
    by_cases flips : q ≠ l.line.polarity ∧ p.faults.polarityFlip = false
    · simp [prev, flips, FaultSet.add]
    · have still : (q != l.line.polarity && !p.faults.polarityFlip) = false := by
        rw [← Bool.not_eq_true]
        simpa using flips
      simp [prev, flips, still]

/-! ### The obligation -/

/-- The unit as the V pin's flip test finds it: the edge at `w` has closed the line and opened the next,
the line is admitted, counted and taken by the run. -/
def closedUnderVPin (w : Nat) (l : ClosedLine) (ring shorts : List Line) (u : MeasUnit) : MeasUnit :=
  runTaken l
    { lineOpenedAt w u.lineCounter u with
      ring := ring, shortLines := shorts
      lineCounter := u.lineCounter + 1, vQuiet := u.vQuiet + 1 }

theorem accepted_h_vPin (running : isRunning u = true) (waits : waitingHEdge u = some w)
    (closing : closingLine u = some l) (source : u.vQuiet < 4095) (short : u.lineCounter < 4095)
    {ring shorts : List Line}
    (admitted : admitLine .vPin l (lineOpenedAt w u.lineCounter u) =
      { lineOpenedAt w u.lineCounter u with ring := ring, shortLines := shorts }) :
    acceptTransition plainOrder .h u =
      (settleOpenCount (flipTest .vPin l (closedUnderVPin w l ring shorts u)).1,
        (flipTest .vPin l (closedUnderVPin w l ring shorts u)).2) := by
  rw [accepted_h_closes plainOrder running waits closing,
    lineClosed_vPin (u := lineOpenedAt w u.lineCounter u) source short, admitted, handOnLine_vPin]
  rfl

/-- The reports of a test that finds nothing new leave the other blocks alone. -/
theorem applied_silently {n : InputIx} {tick : Nat} {v : MeasUnit} {rs : List Report} {s : State}
    (silent : rs = []) :
    (noteChange s (applyMeasured n tick (v, rs) s)).tracker n = s.tracker n
      ∧ (noteChange s (applyMeasured n tick (v, rs) s)).catalog = s.catalog
      ∧ (noteChange s (applyMeasured n tick (v, rs) s)).classifier = s.classifier
      ∧ (noteChange s (applyMeasured n tick (v, rs) s)).notices = s.notices := by
  subst silent
  exact ⟨tracker_withUnit s n n v, rfl, rfl, rfl⟩

/-- Settles O24: the line's admission, its run, and the flip test, whose report is taken. -/
theorem lineUnderVPinIsJudged : Obligations.LineUnderVPinIsJudged := by
  intro n s w l laws links running source short waits closing
  obtain ⟨ring, shorts, admitted⟩ : ∃ ring shorts,
      admitLine .vPin l (lineOpenedAt w (s.unit n).lineCounter (s.unit n)) =
        { lineOpenedAt w (s.unit n).lineCounter (s.unit n) with
          ring := ring, shortLines := shorts } := ⟨_, _, admitLine_eq _ _ _⟩
  have taken : (l.broad && VSource.vPin == .separator) = false := by cases l.broad <;> rfl
  have due := expiryDue_of_counters (u := s.unit n) short (by omega)
  have hexec : exec (.transitionAccepted n .h) s = .next (noteChange s (applyMeasured n
      (acceptTick .h (s.unit n)) (acceptTransition plainOrder .h (s.unit n)) s)) := by
    rw [exec_transitionAccepted, acceptPin_of_not_due due]
  have refill := exec_ringRefill (order := plainOrder) (expiryChoice_of_not_due s due) closing running
    (by rw [ringSource_of_not_due (by omega), show vSourceOf (s.unit n) = .vPin from
      if_pos (by omega)]; exact taken)
  rw [accepted_h_vPin running waits closing source short admitted] at hexec
  have written := flipTest_eq .vPin l (closedUnderVPin w l ring shorts (s.unit n))
  have noPeriod (none : (s.unit n).period = none) :=
    flipTest_no_period (l := l) (u := closedUnderVPin w l ring shorts (s.unit n)) none
  have tested (p : OpenPeriod) (period : (s.unit n).period = some p) :=
    flipTest_vPin (l := l) (u := closedUnderVPin w l ring shorts (s.unit n)) period
  generalize flipTest .vPin l (closedUnderVPin w l ring shorts (s.unit n)) = r at *
  obtain ⟨v, rs⟩ := r
  obtain ⟨unit, config, others, mailbox, port, free⟩ := unitFrame_measured n
    (acceptTick .h (s.unit n)) (settleOpenCount v, rs) s s
  have same (p : OpenPeriod) (period : (s.unit n).period = some p)
      (still : p.prevPolarity = none ∨ p.prevPolarity = some l.line.polarity
        ∨ p.faults.polarityFlip = true) := (tested p period).trans (if_neg (by
      rintro ⟨q, prev, differs, fresh⟩
      rcases still with h | h | h
      · exact nomatch h.symm.trans prev
      · exact differs (Option.some.inj (prev.symm.trans h))
      · exact Bool.false_ne_true (fresh.symm.trans h)))
  refine ⟨_, ring, shorts, (runTaken l (s.unit n)).sepRun, (runTaken l (s.unit n)).sepArmed,
    (runTaken l (s.unit n)).runStart, v.period, hexec, ?_, fun long => ?_,
    fun shorter => ⟨fun more => ?_, fun last => ?_⟩, fun plain => ?_, fun broad => ?_,
    fun none => ?_, fun p period flips => ?_, fun p period still => ?_, fun still => ?_,
    config, others, mailbox, port, free⟩
  · exact unit.trans ((congrArg settleOpenCount written).trans rfl)
  · have kept := admitted.symm.trans (admitLine_long taken long)
    exact ⟨(congrArg MeasUnit.ring kept :), (congrArg MeasUnit.shortLines kept :)⟩
  · have kept := admitted.symm.trans (admitLine_short taken shorter more)
    exact ⟨(congrArg MeasUnit.ring kept :), (congrArg MeasUnit.shortLines kept :)⟩
  · have kept := admitted.symm.trans (admitLine_refills taken shorter last)
    exact ⟨(congrArg MeasUnit.ring kept :), (congrArg MeasUnit.shortLines kept :),
      (refill shorter last).trans hexec⟩
  · simp [runTaken, plain]
  · simp [runTaken, broad]
  · exact (congrArg (fun r : Measured => r.1.period) (noPeriod none)).trans none
  · obtain ⟨rfl, rfl⟩ := Prod.mk.inj ((tested p period).trans (if_pos flips))
    exact ⟨rfl, detectionTaken_reported _ (laws.stateLaw n)
      (links.not_idle (ne_off_of_isRunning running))⟩
  · exact (congrArg (fun r : Measured => r.1.period) (same p period still) :)
  · refine applied_silently ?_
    cases period : (s.unit n).period with
    | none => exact (congrArg Prod.snd (noPeriod period) :)
    | some p => exact (congrArg Prod.snd (same p period (still p period)) :)

end Sys2Proof.Machine
end

