-- ==== Sys2Proof/Proofs/Gains.lean ====
section
/-! The gain count in QUIET and the gain of horizontal activity. -/

namespace Sys2Proof.Machine

variable {u : MeasUnit} {l : ClosedLine} {w : Nat} {n : InputIx} {tick : Nat} {s : State}

theorem gainLine_more {x : Line} (more : u.gainLines.length < 7) :
    gainLine x u = ({ u with gainLines := u.gainLines ++ [x] }, []) := by
  unfold gainLine
  dsimp only
  rw [if_neg (by simp only [List.length_append, List.length_singleton]; omega)]

theorem gainLine_eighth {x : Line} (eighth : u.gainLines.length = 7) :
    gainLine x u = gainHorizontal (u.gainLines ++ [x]) x u := by
  unfold gainLine
  dsimp only
  rw [if_pos (by simp only [List.length_append, List.length_singleton]; omega)]

theorem accepted_h_gains (order : ExpiryOrder) (quiet : u.state = .quiet)
    (waits : waitingHEdge u = some w) (closing : closingLine u = some l) :
    acceptTransition order .h u =
      (settleOpenCount (gainLine l.line (lineOpenedAt w u.lineCounter u)).1,
        (gainLine l.line (lineOpenedAt w u.lineCounter u)).2) := by
  have on : u.state ≠ .off := by simp [quiet]
  have still : ¬ isRunning u = true := by simp [isRunning, quiet]
  rw [accepted_h order on waits,
    horizontalEdge_closes order (hEdgeAt_of_closingLine on waits closing), if_neg still]

theorem not_due_of_quiet (quiet : u.state = .quiet) : expiryDue .h u = false :=
  expiryDue_of_not_running (by simp [isRunning, quiet])

/-- The unit at the gain of activity by the edge at `w` that closes the line `x` (R79). -/
def gainedUnit (w : Nat) (x : Line) (u : MeasUnit) : MeasUnit :=
  { hPinTaken u with
    state := .unprimed, gainLines := [], ring := u.gainLines ++ [x], shortLines := []
    lineCounter := 0, vQuiet := 4096, sepRun := 0, sepArmed := true, runStart := none
    halfLineRef := none, hRef := x.polarity, lastHEdge := some w, prevHEdge := u.lastHEdge
    line :=
      if u.hRef = x.polarity then some { openTick := w, openCount := 0, activeEnd := none }
      else none }

theorem gainHorizontal_eq {x : Line} :
    (settleOpenCount (gainHorizontal (u.gainLines ++ [x]) x (lineOpenedAt w u.lineCounter u)).1,
      (gainHorizontal (u.gainLines ++ [x]) x (lineOpenedAt w u.lineCounter u)).2)
      = (gainedUnit w x u, [.hGained]) := by
  unfold gainHorizontal
  rw [setHRef_eq]
  by_cases same : u.hRef = x.polarity
  · simp [settleOpenCount, gainedUnit, lineOpenedAt, hPinTaken, same]
  · simp [settleOpenCount, gainedUnit, lineOpenedAt, hPinTaken, same]

/-! ### The tracker -/

theorem takeHGained_silent (silent : (s.tracker n).state = .silent) :
    takeHGained n s = (changeState n .settling s).setNotice n .acquired := by
  unfold takeHGained
  rw [silent]

/-- A tracker in SILENT that hears of the gain: SETTLING with ACQUIRED, and no request to withdraw. -/
theorem takeHGained_outcome (law : (s.tracker n).LawAt (s.config n) (s.request (inputRequester n)))
    (silent : (s.tracker n).state = .silent) :
    (takeHGained n s).tracker n =
        { s.tracker n with state := .settling, reqSeq := (s.tracker n).reqSeq + 1 }
      ∧ (takeHGained n s).notices = (s.setNotice n .acquired).notices
      ∧ (takeHGained n s).catalog = s.catalog ∧ (takeHGained n s).classifier = s.classifier := by
  have held : (s.tracker n).held = none :=
    Option.not_isSome_iff_eq_none.mp fun some => by
      simpa [silent, isSettledState] using law.held some
  have request : s.request (inputRequester n) = none := by
    refine Option.eq_none_iff_forall_ne_some.mpr fun q hq => ?_
    obtain ⟨-, ⟨pending, -⟩ | ⟨bound, -⟩⟩ := law.request q hq
    · simp [silent] at pending
    · simp [silent, isBoundState] at bound
  have free := keepsRequest_free (x := (s.tracker n).state) (y := .settling) (.inr (.inl rfl))
  rw [takeHGained_silent silent]
  refine ⟨?_, by simp [State.setNotice], by simp, ?_⟩
  · change (changeState n .settling s).tracker n = _
    rw [changeState_tracker_self]
    simp [changedTracker, silent, held]
  · change (changeState n .settling s).classifier = _
    rw [changeState_classifier, changedRequest_of_not_kept free,
      set_of_getElem s.classifier.requests request]

/-- H_ACTIVITY_GAINED is the acceptance of the edge that closes the eighth line. -/
theorem exec_hActivityGained (quiet : (s.unit n).state = .quiet)
    (eighth : (s.unit n).gainLines.length = 7) (closing : closingLine (s.unit n) = some l) :
    exec (.hActivityGained n) s = exec (.transitionAccepted n .h) s := by
  have due : gainDue (s.unit n) = true := by
    unfold gainDue
    simp only [closing, quiet, eighth]
    rfl
  have spelt : exec (.hActivityGained n) s = .next (if gainDue (s.unit n) then
      noteChange s (acceptPin n .h s) else s) := rfl
  rw [spelt, if_pos due]
  rfl

/-- Settles O56: seven lines are kept, the eighth gains. -/
theorem gainCountLeadsToActivity : Obligations.GainCountLeadsToActivity := by
  refine ⟨fun n s w l quiet more waits closing => ?_,
    fun n s w l quiet eighth waits closing silent laws => ?_⟩
  · refine exec_accepted_quietly (not_due_of_quiet quiet)
      ((accepted_h_gains plainOrder quiet waits closing).trans ?_) rfl
    rw [gainLine_more (u := lineOpenedAt w (s.unit n).lineCounter (s.unit n)) more]
    rfl
  · have accepted := (accepted_h_gains plainOrder quiet waits closing)
    rw [gainLine_eighth (u := lineOpenedAt w (s.unit n).lineCounter (s.unit n)) eighth] at accepted
    have hexec := (exec_hActivityGained quiet eighth closing).trans
      (exec_accepted_reporting (not_due_of_quiet quiet) (accepted.trans gainHorizontal_eq))
    obtain ⟨unit, config, others, mailbox, port, -⟩ := unitFrame_reporting n
      (acceptTick .h (s.unit n)) (gainedUnit w l.line (s.unit n)) .hGained s s
    have same := trackingSame_withUnit (n := n) s (gainedUnit w l.line (s.unit n))
    have law := (trackerLawAt_iff n s).mp (laws n)
    obtain ⟨tracker, notices, catalog, classifier⟩ := takeHGained_outcome
      (s := s.withUnit n (gainedUnit w l.line (s.unit n)))
      (by rw [same.tracker, same.config]; exact law) (by rw [same.tracker]; exact silent)
    rw [same.tracker] at tracker
    refine ⟨_, hexec, ?_⟩
    rw [unit]
    exact ⟨rfl, rfl, rfl, rfl, rfl, rfl, rfl, rfl, rfl, rfl, rfl, rfl, rfl, rfl, rfl, rfl, tracker,
      noticesRaised_setNotice notices, config, others, catalog, classifier, mailbox, port⟩

end Sys2Proof.Machine
end

