-- ==== Sys2Proof/Proofs/Losses.lean ====
section
/-! The losses of horizontal and of vertical activity: what the trackers make of them, and the
timeouts and counters that bring them about. -/

namespace Sys2Proof.Machine

variable {n : InputIx} {tick : Nat} {s : State}

/-! ### The trackers -/

/-- A tracker that a loss of activity takes to `new`, a binding released with SIGNAL_LOST first (R115,
R116, R146). -/
def lostTracker (new : TrackerState) (t : Tracker) : Tracker :=
  { t with
    state := new, held := none, settleRef := none, settleCounter := 0, coast := 0
    recheck := false, binding := none, reqSeq := t.reqSeq + 1
    recallRef :=
      match t.binding with
      | some b => some { slot := b.slot, generation := b.generation }
      | none => t.recallRef
    lastLoss :=
      match t.binding with
      | some b => lossOf .signalLost b
      | none => t.lastLoss
    lossTick := if t.binding = none then t.lossTick else none }

theorem changedTracker_lost {new : TrackerState} {t : Tracker} (law : t.StateLaw)
    (drops : dropsHeld new = true) :
    changedTracker new (afterRelease .signalLost t) = lostTracker new t := by
  rw [(law.afterRelease _).changedTracker_eq, drops]
  cases hb : t.binding with
  | none =>
    rw [afterRelease_none _ hb]
    simp [lostTracker, hb]
  | some b =>
    rw [afterRelease_some _ hb]
    simp [lostTracker, hb, releasedTracker, recallAfter, lossOf]

/-- A release with SIGNAL_LOST and a change to a state without a binding. -/
theorem lostTo_outcome {new : TrackerState} (law : (s.tracker n).StateLaw)
    (drops : dropsHeld new = true) (free : isFreeState new) :
    (changeState n new (release n .signalLost s)).tracker n = lostTracker new (s.tracker n)
      ∧ (changeState n new (release n .signalLost s)).request (inputRequester n) = none
      ∧ otherRequestsKept (inputRequester n) s (changeState n new (release n .signalLost s))
      ∧ (∀ b, (s.tracker n).binding = some b →
          bindingReleased n b (inputNoticeBit .lost) s (changeState n new (release n .signalLost s))
            ∧ otherNoticesKept n s (changeState n new (release n .signalLost s)))
      ∧ ((s.tracker n).binding = none →
          (changeState n new (release n .signalLost s)).catalog = s.catalog
            ∧ (changeState n new (release n .signalLost s)).notices = s.notices) := by
  refine ⟨?_, request_changeState rfl (keepsRequest_free free),
    otherRequestsKept_changeState (release_classifier s n .signalLost) rfl,
    fun b hb => bindingReleased_release (reason := .signalLost) hb (by decide) (by simp)
      (by simp), fun unbound => ?_⟩
  · rw [changeState_tracker_self, release_tracker, changedTracker_lost law drops]
  · rw [changeState_catalog, changeState_notices, release_none s unbound]
    exact ⟨rfl, rfl⟩

theorem takeHLost_fault (fault : (s.tracker n).state = .fault) : takeHLost n s = s := by
  unfold takeHLost
  rw [fault]

/-- A loss of horizontal activity at a tracker that is enabled and not in SILENT (R115, R131). -/
theorem horizontalLossTaken_takeHLost (law : (s.tracker n).StateLaw)
    (on : (s.tracker n).state ≠ .idle) (active : (s.tracker n).state ≠ .silent) :
    horizontalLossTaken n s (takeHLost n s) := by
  refine ⟨fun fault => ?_, fun live => ?_⟩
  · rw [takeHLost_fault fault]
    exact ⟨rfl, rfl, rfl, rfl⟩
  · have taken : takeHLost n s = changeState n .silent (release n .signalLost s) := by
      unfold takeHLost
      cases state : (s.tracker n).state with
      | idle => exact absurd state on
      | silent => exact absurd state active
      | fault => exact absurd state live
      | settling | pending | bound | coasting | unmatched => rfl
    rw [taken]
    exact lostTo_outcome law rfl (.inl rfl)

theorem takeVLost_settled (settled : isSettledState (s.tracker n).state) :
    takeVLost n s = changeState n .settling (release n .signalLost s) := by
  unfold takeVLost
  rcases settled with e | e | e | e <;> rw [e]

theorem Tracker.StateLaw.settled_parts {t : Tracker} (law : t.StateLaw)
    (settled : isSettledState t.state) : t.settleRef = none ∧ t.settleCounter = 0 := by
  have ne : t.state ≠ .settling := by rcases settled with e | e | e | e <;> simp [e]
  exact ⟨Option.not_isSome_iff_eq_none.mp fun some => ne (law.settleRef some),
    not_not.mp fun counted => ne (law.counter counted)⟩

/-- A loss of vertical activity (R116, R131). -/
theorem verticalLossTaken_takeVLost (law : (s.tracker n).StateLaw) :
    verticalLossTaken n s (takeVLost n s) := by
  refine ⟨fun fault => ?_, fun settling => ?_, fun settled => ?_⟩
  · have same : takeVLost n s = s := by
      unfold takeVLost
      rw [fault]
    rw [same]
    exact ⟨rfl, rfl, rfl, rfl⟩
  · have restarted : takeVLost n s
        = s.withTracker n { s.tracker n with settleCounter := 0, settleRef := none } := by
      unfold takeVLost
      rw [settling]
    rw [restarted]
    exact ⟨tracker_withTracker_self .., rfl, rfl, rfl⟩
  · obtain ⟨settleRef, counter⟩ := law.settled_parts settled
    obtain ⟨tracker, rest⟩ := lostTo_outcome (new := .settling) law rfl (.inr (.inl rfl))
    rw [takeVLost_settled settled]
    refine ⟨tracker.trans ?_, rest⟩
    cases hb : (s.tracker n).binding with
    | none => simp [lostTracker, hb, settleRef, counter]
    | some b => simp [lostTracker, hb, settleRef, counter]

/-! ### The timeouts of the horizontal edges -/

theorem expiryStands_of {u : MeasUnit} {a : Nat} (last : u.lastHEdge = some a)
    (late : ∀ w, waitingHEdge u = some w → a + 8192 ≤ w) : expiryStands u = true := by
  unfold expiryStands
  rw [last]
  cases waits : waitingHEdge u with
  | none => rfl
  | some w => exact decide_eq_true (late w waits)

/-- The tracker of an input whose unit runs is not in SILENT. -/
theorem LinkLaw.active (links : LinkLaw s) (running : isRunning (s.unit n) = true) :
    (s.tracker n).state ≠ .silent := fun silent => by
  have quiet := (links n).2.1 silent
  simp [isRunning, quiet] at running

/-- A loss of horizontal activity that a unit's event reports from a running unit. -/
theorem horizontalLossTaken_reported {base : State} (u : MeasUnit) (laws : TrackerLaw base)
    (links : LinkLaw base) (running : isRunning (base.unit n) = true) :
    horizontalLossTaken n base (noteChange s (takeReport n tick (base.withUnit n u) .hLost)) := by
  have same := trackingSame_withUnit (n := n) base u
  have on := links.not_idle (ne_off_of_isRunning running)
  have active := links.active running
  exact same.symm.horizontalLossTaken (trackingSame_noteChange s _) (horizontalLossTaken_takeHLost
    (by rw [same.tracker]; exact laws.stateLaw n) (by rw [same.tracker]; exact on)
    (by rw [same.tracker]; exact active))

/-- Settles O57: each timeout where its expiry stands. -/
theorem horizontalTimeouts : Obligations.HorizontalTimeouts := by
  refine ⟨fun n s a quiet last late => ?_, fun n s a laws links running last late => ?_⟩
  · have stands : ((s.unit n).state == .quiet && expiryStands (s.unit n)) = true := by
      rw [quiet, expiryStands_of last late]
      rfl
    have spelt : exec (.gainCountTimeout n) s = .next
        (if (s.unit n).state == .quiet && expiryStands (s.unit n) then
          noteChange s (onUnit n (expiryTick (s.unit n)) (fun u => (gainTimeout u, [])) s)
        else s) := rfl
    rw [spelt, if_pos stands]
    exact congrArg _ (noteChange_withUnit s (u := gainTimeout (s.unit n)) rfl)
  · have stands : (isRunning (s.unit n) && expiryStands (s.unit n)) = true := by
      rw [running, expiryStands_of last late]
      rfl
    have spelt : exec (.hActivityLost n) s = .next
        (if isRunning (s.unit n) && expiryStands (s.unit n) then
          noteChange s (onUnit n (expiryTick (s.unit n)) loseHorizontal s)
        else s) := rfl
    rw [if_pos stands] at spelt
    obtain ⟨unit, config, others, mailbox, port, free⟩ := unitFrame_reporting n
      (expiryTick (s.unit n)) (quietUnit (s.unit n)) .hLost s s
    exact ⟨_, spelt, unit, horizontalLossTaken_reported (tick := expiryTick (s.unit n))
      _ laws links running, config, others, mailbox,
      port, free⟩

end Sys2Proof.Machine
end

