-- ==== Sys2Proof/Proofs/Counters.lean ====
section
/-! The expiry of the line counter and of the V pin's quiet counter. -/

namespace Sys2Proof.Machine

variable {u : MeasUnit} {l : ClosedLine} {w : Nat} {n : InputIx} {tick : Nat} {pin : Pin}
variable {order : ExpiryOrder} {s : State}

/-! ### The free values -/

theorem acceptPin_eq (n : InputIx) (pin : Pin) (s : State) :
    acceptPin n pin s = applyMeasured n (acceptTick pin (s.unit n))
      (acceptTransition (expiryChoice n pin s) pin (s.unit n)) (spendChoice n pin s) := by
  rw [acceptPin, onUnit, spendChoice_unit]

theorem spendChoice_cases (n : InputIx) (pin : Pin) (s : State) :
    spendChoice n pin s = s ∨ spendChoice n pin s = s.nextFree := by
  unfold spendChoice
  split
  · exact .inr rfl
  · exact .inl rfl

/-- The free values that an expiry spends are no part of an event's frame but for their own index. -/
theorem unitFrame_spent (n : InputIx) (tick : Nat) (r : Measured) (pin : Pin) (s : State) :
    (noteChange s (applyMeasured n tick r (spendChoice n pin s))).unit n = r.1
      ∧ configKept n s (noteChange s (applyMeasured n tick r (spendChoice n pin s)))
      ∧ otherInputsKept n s (noteChange s (applyMeasured n tick r (spendChoice n pin s)))
      ∧ (noteChange s (applyMeasured n tick r (spendChoice n pin s))).mailbox = s.mailbox
      ∧ portKept s (noteChange s (applyMeasured n tick r (spendChoice n pin s))) := by
  have frame := unitFrame_measured n tick r s (spendChoice n pin s)
  obtain same | spent := spendChoice_cases n pin s
  · rw [same] at frame ⊢
    exact ⟨frame.unit, frame.config, frame.others, frame.mailbox, frame.port⟩
  · rw [spent] at frame ⊢
    exact ⟨frame.unit, frame.config, frame.others, frame.mailbox, frame.port⟩

theorem trackingSame_spendChoice (n : InputIx) (pin : Pin) (s : State) :
    TrackingSame n (spendChoice n pin s) s := by
  obtain same | spent := spendChoice_cases n pin s
  · rw [same]
    exact ⟨rfl, rfl, rfl, rfl, rfl⟩
  · rw [spent]
    exact ⟨rfl, rfl, rfl, rfl, rfl⟩

/-- An event that publishes nothing shows in no view, whatever free values it has spent. -/
theorem noteChange_spent {v : MeasUnit} (lastSet : v.lastSet = (s.unit n).lastSet) :
    (noteChange s ((spendChoice n pin s).withUnit n v)).port = s.port := by
  have shown := congrArg State.port (noteChange_withUnit s (u := v) lastSet)
  obtain same | spent := spendChoice_cases n pin s
  · rw [same]
    exact shown
  · rw [spent]
    exact shown

/-! ### The loss of vertical activity -/

theorem loseVertical_eq (p : Polarity) : loseVertical p u =
    ({ u with
        state := .unprimed, period := none, halfLineRef := none, lineCounter := 0, sepRun := 0
        sepArmed := true, runStart := none, hRef := p
        line := if u.hRef = p then u.line else none }, [.vLost]) := by
  unfold loseVertical
  rw [setHRef_eq]

/-- Admission and counting write the ring, the short-line run and the two counters (R80, R82). -/
theorem countLine_admitLine (src : VSource) (l : ClosedLine) (u : MeasUnit) :
    ∃ ring shorts, countLine (admitLine src l u) =
      { u with
        ring := ring, shortLines := shorts, lineCounter := u.lineCounter + 1
        vQuiet := min 4096 (u.vQuiet + 1) } :=
  ⟨(admitLine src l u).ring, (admitLine src l u).shortLines,
    (congrArg countLine (admitLine_eq src l u)).trans rfl⟩

/-- A line that is not broad, handed on under the separator. -/
theorem handOnLine_plain (plain : l.broad = false) :
    handOnLine .separator l u = (endRun .separator u, []) := by
  rw [handOnLine_separator, separatorTakes_plain plain]

/-- The line counter's expiry under the separator at a line that is not broad: the loss comes after the
run's end or before it, to the same effect (R83, assumption log 6). -/
theorem lineClosed_loses (plain : l.broad = false) (source : u.vQuiet = 4096)
    (full : u.lineCounter = 4095) :
    ∃ x : MeasUnit, lineClosed order l u = loseVertical l.line.polarity x
      ∧ x.vRef = u.vRef ∧ x.lastSet = u.lastSet ∧ x.setSeq = u.setSeq
      ∧ x.lastHEdge = u.lastHEdge := by
  obtain ⟨ring, shorts, counted⟩ := countLine_admitLine (ringSource order u) l u
  rw [full, source] at counted
  have before : vSourceOf u = .separator := if_neg (by omega)
  unfold lineClosed
  dsimp only
  rw [counted, before]
  cases order.first with
  | true =>
    exact ⟨_, (if_pos rfl).trans (if_pos (le_refl 4096)), rfl, rfl, rfl, rfl⟩
  | false =>
    rw [handOnLine_plain plain]
    exact ⟨_, (if_neg (by simp)).trans (if_pos rfl), rfl, rfl, rfl, rfl⟩

/-- V_ACTIVITY_LOST is the acceptance whose reports hold the loss. -/
theorem exec_vActivityLost {v : MeasUnit}
    (accepted : acceptTransition (expiryChoice n .h s) .h (s.unit n) = (v, [.vLost])) :
    exec (.vActivityLost n) s = .next (noteChange s (applyMeasured n (acceptTick .h (s.unit n))
      (v, [.vLost]) (spendChoice n .h s))) := by
  have due : verticalLossDue (expiryChoice n .h s) (s.unit n) = true := by
    unfold verticalLossDue
    rw [accepted]
    rfl
  have spelt : exec (.vActivityLost n) s = .next
      (if verticalLossDue (expiryChoice n .h s) (s.unit n) then
        noteChange s (acceptPin n .h s) else s) := rfl
  rw [spelt, if_pos due, acceptPin_eq, accepted]

theorem verticalLossTaken_reported {base : State} (v : MeasUnit) (law : (base.tracker n).StateLaw) :
    verticalLossTaken n base
      (noteChange s (applyMeasured n tick (v, [.vLost]) base)) := by
  have same := trackingSame_withUnit (n := n) base v
  exact same.symm.verticalLossTaken (trackingSame_noteChange s _)
    (verticalLossTaken_takeVLost (by rw [same.tracker]; exact law))

/-! ### The V pin's quiet -/

/-- The V pin's quiet expires at a line that is not broad, with no period open: the separator becomes
the source, whichever it is by which the line is judged (R84, assumption log 6). -/
theorem lineClosed_quiets (plain : l.broad = false) (source : u.vQuiet = 4095)
    (short : u.lineCounter < 4095) (closed : u.period = none) :
    ∃ ring shorts, lineClosed order l u =
      ({ u with
          ring := ring, shortLines := shorts, lineCounter := u.lineCounter + 1, vQuiet := 4096
          sepRun := 0, sepArmed := true, runStart := none, period := none }, []) := by
  obtain ⟨ring, shorts, counted⟩ := countLine_admitLine (ringSource order u) l u
  rw [source, show min 4096 (4095 + 1) = 4096 from rfl] at counted
  have ended (src : VSource) : endRun src
      { u with
        ring := ring, shortLines := shorts, lineCounter := u.lineCounter + 1, vQuiet := 4096 } =
      { u with
        ring := ring, shortLines := shorts, lineCounter := u.lineCounter + 1, vQuiet := 4096
        sepRun := 0, sepArmed := true, runStart := none, period := none } := by
    simp [endRun, closed]
  have below : ¬ 4096 ≤ u.lineCounter + 1 := by omega
  refine ⟨ring, shorts, ?_⟩
  have before : vSourceOf u = .vPin := if_pos (by omega)
  unfold lineClosed
  dsimp only
  rw [counted, before]
  cases order.first with
  | true =>
    refine (if_pos rfl).trans ((if_neg below).trans ?_)
    have after : vSourceOf { u with
        ring := ring, shortLines := shorts, lineCounter := u.lineCounter + 1, vQuiet := 4096 }
          = .separator := rfl
    rw [after, handOnLine_plain plain, ended]
  | false =>
    have handed : handOnLine .vPin l
        { u with
          ring := ring, shortLines := shorts, lineCounter := u.lineCounter + 1, vQuiet := 4096 } =
        ({ u with
            ring := ring, shortLines := shorts, lineCounter := u.lineCounter + 1, vQuiet := 4096
            sepRun := 0, sepArmed := true, runStart := none, period := none }, []) := by
      rw [handOnLine, separatorTakes_plain plain, ended]
      exact congrArg (fun r : Measured => (r.1, [] ++ r.2)) (flipTest_no_period rfl)
    rw [handed]
    exact (if_neg (by simp)).trans (if_neg (by simp [below]))

/-- VPIN_QUIET_TIMEOUT is the acceptance that brings the quiet counter to 4096. -/
theorem exec_vpinQuietTimeout (running : isRunning (s.unit n) = true)
    (closing : closingLine (s.unit n) = some l) (source : (s.unit n).vQuiet = 4095) :
    exec (.vpinQuietTimeout n) s = .next (noteChange s (acceptPin n .h s)) := by
  have due : quietTimeoutDue (s.unit n) = true := by
    unfold quietTimeoutDue
    simp only [closing, running, source]
    rfl
  have spelt : exec (.vpinQuietTimeout n) s = .next
      (if quietTimeoutDue (s.unit n) then noteChange s (acceptPin n .h s) else s) := rfl
  rw [spelt, if_pos due]

/-- Settles O58: neither expiry depends on the order here. -/
theorem lineCountersRunOut : Obligations.LineCountersRunOut := by
  refine ⟨fun n s w l laws running waits closing plain source full => ?_,
    fun n s w l state closed waits closing plain source short => ?_⟩
  · obtain ⟨x, lost, vRef, lastSet, setSeq, lastHEdge⟩ := lineClosed_loses
      (u := lineOpenedAt w (s.unit n).lineCounter (s.unit n)) (order := expiryChoice n .h s)
      plain source full
    have accepted := accepted_h_closes (expiryChoice n .h s) running waits closing
    rw [lost, loseVertical_eq] at accepted
    have hexec := exec_vActivityLost accepted
    obtain ⟨unit, config, others, mailbox, port⟩ := unitFrame_spent n (acceptTick .h (s.unit n))
      (_, [.vLost]) .h s
    have same := trackingSame_spendChoice n .h s
    refine ⟨_, hexec, ?_⟩
    rw [unit]
    exact ⟨rfl, rfl, rfl, rfl, rfl, rfl, rfl, lastHEdge, vRef, lastSet, setSeq,
      same.verticalLossTaken ⟨rfl, rfl, rfl, rfl, rfl⟩ (verticalLossTaken_reported _
        (by rw [← same.tracker]; exact laws.stateLaw n)), config, others, mailbox, port⟩
  · have running : isRunning (s.unit n) = true := by simp [isRunning, state]
    obtain ⟨ring, shorts, quieted⟩ := lineClosed_quiets
      (u := lineOpenedAt w (s.unit n).lineCounter (s.unit n)) (order := expiryChoice n .h s)
      plain source short closed
    have accepted := accepted_h_closes (expiryChoice n .h s) running waits closing
    rw [quieted] at accepted
    have hexec := exec_vpinQuietTimeout running closing source
    rw [acceptPin_eq, accepted] at hexec
    obtain ⟨unit, config, others, mailbox, -⟩ := unitFrame_spent n (acceptTick .h (s.unit n))
      (_, []) .h s
    have same := trackingSame_spendChoice n .h s
    refine ⟨_, hexec, if_pos (by omega), ?_⟩
    rw [unit]
    exact ⟨rfl, rfl, state, rfl, rfl, rfl, rfl, rfl, rfl, rfl, rfl, rfl, rfl,
      (tracker_withUnit _ n n _).trans same.tracker.symm, config, others, same.catalog.symm,
      same.classifier.symm, mailbox, same.notices.symm, noteChange_spent rfl⟩

end Sys2Proof.Machine
end

