-- ==== Sys2Proof/Proofs/SeparatorEdges.lean ====
section
/-! The separator's vertical edge at the third broad line of a run. -/

namespace Sys2Proof.Machine

variable {u : MeasUnit} {l : ClosedLine} {w : Nat} {p : OpenPeriod} {r : RunStart} {n : InputIx}
variable {s : State}

/-- The unit as the separator's edge finds it: the edge at `w` has closed the third broad line and opened
the next, and the run has disarmed the separator. -/
def separatorDisarmed (w : Nat) (u : MeasUnit) : MeasUnit :=
  { lineOpenedAt w u.lineCounter u with
    lineCounter := u.lineCounter + 1, sepRun := 3, sepArmed := false }

theorem accepted_h_third (running : isRunning u = true) (waits : waitingHEdge u = some w)
    (closing : closingLine u = some l) (broad : l.broad = true) (source : u.vQuiet = 4096)
    (armed : u.sepArmed = true) (run : u.sepRun = 2) (start : u.runStart = some r)
    (short : u.lineCounter < 4095) :
    acceptTransition plainOrder .h u =
      (settleOpenCount (verticalEdge (separatorEdge r) (separatorDisarmed w u)).1,
        (verticalEdge (separatorEdge r) (separatorDisarmed w u)).2) := by
  rw [accepted_h_closes plainOrder running waits closing,
    lineClosed_separator (u := lineOpenedAt w u.lineCounter u) source short, admitLine_broad broad]
  exact congrArg (fun x : Measured => (settleOpenCount x.1, x.2)) (separatorTakes_third (u :=
    { lineOpenedAt w u.lineCounter u with lineCounter := u.lineCounter + 1 }) broad armed run start)

/-- SEPARATOR_VERTICAL_EDGE is the acceptance that closes the third broad line. -/
theorem exec_separatorVerticalEdge (running : isRunning (s.unit n) = true)
    (closing : closingLine (s.unit n) = some l) (broad : l.broad = true)
    (source : (s.unit n).vQuiet = 4096) (armed : (s.unit n).sepArmed = true)
    (run : (s.unit n).sepRun = 2) (short : (s.unit n).lineCounter < 4095) :
    exec (.separatorVerticalEdge n) s = .next (noteChange s (applyMeasured n
      (acceptTick .h (s.unit n)) (acceptTransition plainOrder .h (s.unit n)) s)) := by
  have due := expiryDue_of_counters (u := s.unit n) short (by omega)
  have after : vSourceOf (countLine (s.unit n)) = .separator := by
    rw [countLine_separator source]
    exact if_neg (show ¬ (s.unit n).vQuiet < 4096 by omega)
  have below : decide (4095 ≤ (s.unit n).lineCounter) = false := decide_eq_false (by omega)
  have edge : separatorEdgeDue plainOrder (s.unit n) = true := by
    unfold separatorEdgeDue
    simp only [closing, running, broad, armed, run, plainOrder, if_true, after, below]
    rfl
  have spelt : exec (.separatorVerticalEdge n) s = .next
      (if separatorEdgeDue (expiryChoice n .h s) (s.unit n) then
        noteChange s (acceptPin n .h s) else s) := rfl
  rw [spelt, expiryChoice_of_not_due s due]
  exact congrArg _ ((if_pos edge).trans (by rw [acceptPin_of_not_due due]))

theorem referenceWrong_separatorEdge : referenceWrong p (separatorEdge r) = false := rfl

/-- Settles O59: the edge by unit state and by the lines it closes. -/
theorem thirdBroadLineMakesEdge : Obligations.ThirdBroadLineMakesEdge := by
  intro n s w l r laws links running waits closing broad source armed run start short
  have hexec := exec_separatorVerticalEdge running closing broad source armed run short
  rw [accepted_h_third running waits closing broad source armed run start short] at hexec
  have unprimed (state : (s.unit n).state = .unprimed) :=
    verticalEdge_unprimed (u := separatorDisarmed w (s.unit n)) (e := separatorEdge r) state
  have closed (p : OpenPeriod) (state : isOpenState (s.unit n).state)
      (period : (s.unit n).period = some p) :=
    verticalEdge_open (u := separatorDisarmed w (s.unit n)) (e := separatorEdge r) state period
  generalize verticalEdge (separatorEdge r) (separatorDisarmed w (s.unit n)) = x at *
  obtain ⟨v, rs⟩ := x
  obtain ⟨unit, config, others, mailbox, port, free⟩ := unitFrame_measured n
    (acceptTick .h (s.unit n)) (settleOpenCount v, rs) s s
  refine ⟨_, hexec, config, others, mailbox, port, free, fun state => ?_,
    fun p state period few => ?_, fun p state period many => ?_,
    fun p newest state period many clear still ring => ?_⟩
  · obtain ⟨rfl, rfl⟩ := Prod.mk.inj (unprimed state)
    exact ⟨unit, applied_silently rfl⟩
  · have edge := (closed p state period).trans (closePeriod_short (e := separatorEdge r) few)
    obtain ⟨rfl, rfl⟩ := Prod.mk.inj edge
    exact ⟨unit, detectionTaken_reported _ (laws.stateLaw n)
      (links.not_idle (ne_off_of_isRunning running))⟩
  · have edge := (closed p (.inl state) period).trans
      ((closePeriod_long (e := separatorEdge r) many).trans
        (closeTested_priming (u := separatorDisarmed w (s.unit n))
          referenceWrong_separatorEdge many state))
    obtain ⟨rfl, rfl⟩ := Prod.mk.inj edge
    exact ⟨⟨halfLineAt (s.unit n) r.offset, halfLineAt_iff, unit⟩, applied_silently rfl⟩
  · have edge := (closed p (.inr state) period).trans
      ((closePeriod_long (e := separatorEdge r) many).trans
        ((closeTested_publishing (u := separatorDisarmed w (s.unit n))
          referenceWrong_separatorEdge many state).trans (closeWithSet_published
            (u := separatorDisarmed w (s.unit n)) (publishes_eq clear still) ring)))
    have composed := composedFrom_composeSet (u := separatorDisarmed w (s.unit n)) (p := p)
      (e := separatorEdge r) (form := .composite) ring rfl
    generalize composeSet (separatorDisarmed w (s.unit n)) p (separatorEdge r) = m at *
    obtain ⟨rfl, rfl⟩ := Prod.mk.inj edge
    refine ⟨m, composed, unit.trans ?_, setReachesTracker_reporting _⟩
    by_cases same : (s.unit n).hRef = newest.polarity
    · simp [settleOpenCount, separatorDisarmed, lineOpenedAt, hPinTaken, separatorEdge, same]
    · simp [settleOpenCount, separatorDisarmed, lineOpenedAt, hPinTaken, separatorEdge, same]

end Sys2Proof.Machine
end

