-- ==== Sys2Proof/Proofs/Pins.lean ====
section
/-! Changes of a pin: the transition waits, or its pulse is rejected. -/

namespace Sys2Proof.Machine

variable {u : MeasUnit} {n : InputIx} {pin : Pin} {level : Level} {tick : Nat} {w : Waiting}
variable {order : ExpiryOrder} {s : State} {p : OpenPeriod}

/-! ### A pin that moves -/

theorem exec_pinTransition (moved : s.pinLevel n pin ≠ level) :
    exec (.pinTransition n pin level tick) s = .next (noteChange s (applyMeasured n
      (changeTick pin tick (s.unit n))
      (pinChange (expiryChoice n pin s) pin level tick (s.config n).glitch (s.unit n))
      (spendChoice n pin (s.withPin n pin level)))) := by
  have unit : (spendChoice n pin (s.withPin n pin level)).unit n = s.unit n :=
    (spendChoice_unit n n pin _).trans (unit_withPin s n n pin level)
  have spelt : exec (.pinTransition n pin level tick) s
      = .next (noteChange s (movePin n pin level tick s)) := rfl
  rw [spelt, movePin, if_neg moved, onUnit, unit]

theorem pinLevel_withPin (s : State) (n : InputIx) (pin : Pin) (level : Level) (other : Pin) :
    (s.withPin n pin level).pinLevel n other = if other = pin then level else s.pinLevel n other := by
  cases pin <;> cases other <;> simp [State.pinLevel, State.withPin]

theorem input_withPin_ne {m : InputIx} (h : m ≠ n) (s : State) (pin : Pin) (level : Level) :
    (s.withPin n pin level).input m = s.input m := by
  cases pin
  · exact input_withInput_ne s h _
  · exact input_withInput_ne s h _

/-- What the change of a pin of input `n` leaves alone, the unit being `u` after it. -/
structure PinFrame (n : InputIx) (pin : Pin) (level : Level) (u : MeasUnit) (s t : State) : Prop where
  unit : t.unit n = u
  moved : t.pinLevel n pin = level
  pins : ∀ other, other ≠ pin → t.pinLevel n other = s.pinLevel n other
  config : t.config n = s.config n
  others : otherInputsKept n s t
  mailbox : t.mailbox = s.mailbox
  port : portKept s t

theorem State.pinLevel_of_inputs {s t : State} (h : t.inputs = s.inputs) (n : InputIx) :
    t.pinLevel n = s.pinLevel n := by
  funext pin
  have same := input_of_inputs h n
  cases pin
  · exact congrArg Input.hPin same
  · exact congrArg Input.vPin same

/-- The frame of a unit's event from a state in which the pin has moved. -/
theorem UnitFrame.ofPin {base t : State} (frame : UnitFrame n u base t)
    (inputs : base.inputs = (s.withPin n pin level).inputs) (mailbox : base.mailbox = s.mailbox)
    (port : base.port = s.port) : PinFrame n pin level u s t := by
  have pins := State.pinLevel_of_inputs inputs n
  refine ⟨frame.unit, ?_, fun other ne => ?_, ?_, fun m hm => ?_, frame.mailbox.trans mailbox, ?_⟩
  · rw [frame.config.2, pins, pinLevel_withPin, if_pos rfl]
  · rw [frame.config.2, pins, pinLevel_withPin, if_neg ne]
  · rw [frame.config.1, config_of_inputs inputs n, config_withPin]
  · rw [frame.others m hm, input_of_inputs inputs m, input_withPin_ne hm]
  · have kept := frame.port
    rw [portKept, port] at kept
    exact kept

theorem pinFrame_measured (n : InputIx) (pin : Pin) (level : Level) (tick : Nat) (r : Measured)
    (s : State) : PinFrame n pin level r.1 s
      (noteChange s (applyMeasured n tick r (spendChoice n pin (s.withPin n pin level)))) := by
  have frame := unitFrame_measured n tick r s (spendChoice n pin (s.withPin n pin level))
  obtain same | spent := spendChoice_cases n pin (s.withPin n pin level)
  · rw [same] at frame ⊢
    exact frame.ofPin rfl (by cases pin <;> rfl) (by cases pin <;> rfl)
  · rw [spent] at frame ⊢
    exact frame.ofPin rfl (by cases pin <;> rfl) (by cases pin <;> rfl)

theorem trackingSame_withPin (n : InputIx) (pin : Pin) (level : Level) (s : State) :
    TrackingSame n (s.withPin n pin level) s :=
  ⟨(config_withPin s n n pin level).symm, (tracker_withPin s n n pin level).symm, by cases pin <;> rfl,
    by cases pin <;> rfl, by cases pin <;> rfl⟩

theorem TrackingSame.trans {t v : State} (h : TrackingSame n s t) (h' : TrackingSame n t v) :
    TrackingSame n s v :=
  ⟨h'.config.trans h.config, h'.tracker.trans h.tracker, h'.catalog.trans h.catalog,
    h'.notices.trans h.notices, h'.classifier.trans h.classifier⟩

/-- The base on which the change of a pin works, and the state before it. -/
theorem trackingSame_pinBase (n : InputIx) (pin : Pin) (level : Level) (s : State) :
    TrackingSame n (spendChoice n pin (s.withPin n pin level)) s :=
  (trackingSame_spendChoice n pin _).trans (trackingSame_withPin n pin level s)

/-! ### Events that report nothing -/

/-- An event that changes no entry, no tracker and no last published set shows in no view. -/
theorem recordChanged_eq_false {s t : State} (catalog : t.catalog = s.catalog)
    (tracker : ∀ m, t.tracker m = s.tracker m)
    (lastSet : ∀ m, (t.unit m).lastSet = (s.unit m).lastSet) : recordChanged s t = false := by
  have shown (r : ViewRecord) : shownRecord t r = shownRecord s r := by
    cases r with
    | catalogEntry i => simp [shownRecord, slot_of_catalog catalog]
    | inputStatus m => simp [shownRecord, tracker]
    | measurement m => simp [shownRecord, lastSet]
  unfold recordChanged
  split
  · rfl
  · rw [shown, bne_self_eq_false]

/-- A pin's event that reports nothing changes the pin, the filter's unit and nothing else. -/
theorem pin_silently (pin : Pin) (level : Level) (v : MeasUnit)
    (lastSet : v.lastSet = (s.unit n).lastSet) :
    let t := noteChange s (applyMeasured n tick (v, [])
      (spendChoice n pin (s.withPin n pin level)))
    t.tracker n = s.tracker n ∧ t.catalog = s.catalog ∧ t.classifier = s.classifier
      ∧ t.notices = s.notices ∧ t.port = s.port := by
  have same := trackingSame_pinBase n pin level s
  have core := spendChoice_same n pin (s.withPin n pin level)
  have port : (spendChoice n pin (s.withPin n pin level)).port = s.port := by
    obtain e | e := spendChoice_cases n pin (s.withPin n pin level)
    · rw [e]; cases pin <;> rfl
    · rw [e]; cases pin <;> rfl
  have unseen : recordChanged s ((spendChoice n pin (s.withPin n pin level)).withUnit n v) = false := by
    refine recordChanged_eq_false same.catalog.symm (fun m => ?_) fun m => ?_
    · rw [tracker_withUnit, core.tracker, tracker_withPin]
    · by_cases own : m = n
      · rw [own, unit_withUnit_self, lastSet]
      · rw [unit_withUnit_ne own, core.unit, unit_withPin]
  refine ⟨(tracker_withUnit _ n n v).trans same.tracker.symm, same.catalog.symm,
    same.classifier.symm, same.notices.symm, ?_⟩
  have noted : (noteChange s ((spendChoice n pin (s.withPin n pin level)).withUnit n v)).port
      = (spendChoice n pin (s.withPin n pin level)).port := by
    rw [noteChange_port, unseen, Bool.or_false]
    rfl
  exact noted.trans port

/-! ### Pulses -/

/-- A pulse that returns inside its window is rejected. -/
def pulseInside (u : MeasUnit) (pin : Pin) (w : Waiting) (tick : Nat) : Prop :=
  (filterOf u pin).waiting = some w ∧ w.tick ≤ tick ∧ tick < w.tick + w.window.toNat

theorem pulseRejected_of_inside (on : u.state ≠ .off) (inside : pulseInside u pin w tick) :
    pulseRejected pin tick u = true := by
  obtain ⟨waits, after, before⟩ := inside
  unfold pulseRejected
  rw [waits]
  cases state : u.state with
  | off => exact absurd state on
  | quiet | unprimed | priming | publishing => exact decide_eq_true (by omega)

theorem changeTick_of_inside (on : u.state ≠ .off) (inside : pulseInside u pin w tick) :
    changeTick pin tick u = tick := if_pos (pulseRejected_of_inside on inside)

theorem pinChange_of_inside (on : u.state ≠ .off) (inside : pulseInside u pin w tick)
    (window : BitVec 4) : pinChange order pin level tick window u = rejectPulse pin tick u := by
  obtain ⟨waits, after, before⟩ := inside
  rw [pinChange_some order level tick window on waits, if_pos (by omega)]

/-- A rejection for which no expiry has waited. -/
theorem rejectPulse_counted (still : pin = .h → expiryWaited u tick = false) :
    rejectPulse pin tick u = countRejection (withWaiting u pin none) := by
  have none : ¬ (decide (pin = .h) && expiryWaited u tick) = true := by
    rw [Bool.and_eq_true, decide_eq_true_iff]
    exact fun ⟨own, waited⟩ => Bool.false_ne_true ((still own).symm.trans waited)
  unfold rejectPulse
  exact if_neg none

/-- A rejection for which the expiry has waited: the loss takes place after it (R76). -/
theorem rejectPulse_expires (waited : expiryWaited u tick = true) :
    rejectPulse .h tick u =
      ((expireHorizontal (countRejection (withWaiting u .h none)).1).1,
        (countRejection (withWaiting u .h none)).2
          ++ (expireHorizontal (countRejection (withWaiting u .h none)).1).2) := by
  unfold rejectPulse
  exact if_pos (by rw [waited]; rfl)

/-- Settles O52: the transition waits, or its pulse is counted. -/
theorem pinTransitionWaitsOrIsRejected : Obligations.PinTransitionWaitsOrIsRejected := by
  intro n pin level tick s on moved
  have hexec := exec_pinTransition (tick := tick) moved
  obtain ⟨unit, level', pins, config, others, mailbox, -⟩ := pinFrame_measured n pin level
    (changeTick pin tick (s.unit n))
    (pinChange (expiryChoice n pin s) pin level tick (s.config n).glitch (s.unit n)) s
  refine ⟨_, hexec, level', pins, config, fun none away => ?_,
    fun w waits before after still short => ?_⟩
  · have waiting := (pinChange_none (expiryChoice n pin s) level tick (s.config n).glitch on none).trans
      (if_neg away)
    rw [waiting] at unit ⊢
    obtain ⟨tracker, catalog, classifier, notices, port⟩ := pin_silently (tick :=
      changeTick pin tick (s.unit n)) pin level (withWaiting (s.unit n) pin
        (some { tick := tick, window := (s.config n).glitch })) (withFilter_lastSet ..)
    rw [waiting] at others mailbox
    exact ⟨unit, tracker, others, catalog, classifier, mailbox, notices, port⟩
  · have counted := (pinChange_of_inside (order := expiryChoice n pin s) (level := level) on
      ⟨waits, after, before⟩ (s.config n).glitch).trans
        ((rejectPulse_counted still).trans (countRejection_counted
          (u := withWaiting (s.unit n) pin none) (by cases pin <;> exact short)))
    rw [counted] at unit others mailbox ⊢
    obtain ⟨tracker, catalog, classifier, notices, port⟩ := pin_silently (n := n) (s := s) (tick :=
      changeTick pin tick (s.unit n)) pin level
        { withWaiting (s.unit n) pin none with
          period := (withWaiting (s.unit n) pin none).period.map fun p =>
            { p with rejections := min 255 (p.rejections + 1) } } (by cases pin <;> rfl)
    exact ⟨unit.trans (by cases pin <;> rfl), tracker, others, catalog, classifier, mailbox, notices,
      port⟩

end Sys2Proof.Machine
end

