-- ==== Sys2Proof/Proofs/Noise.lean ====
section
/-! NOISE: the 32nd rejection of a period, by a pulse too short or an edge too close. -/

namespace Sys2Proof.Machine

variable {u : MeasUnit} {n : InputIx} {pin : Pin} {level : Level} {tick : Nat} {w : Waiting}
variable {s : State} {p : OpenPeriod}

theorem noiseDue_of (period : u.period = some p) (rejections : p.rejections = 31)
    (fresh : p.faults.noise = false) : noiseDue u = true := by
  unfold noiseDue
  simp only [period, rejections, fresh]
  rfl

/-- NOISE by an edge too close is the acceptance that drops the edge. -/
theorem exec_noise_closeEdge {a x : Nat} (on : (s.unit n).state ≠ .off)
    (waits : waitingHEdge (s.unit n) = some x) (last : (s.unit n).lastHEdge = some a)
    (close : x < a + 160) (due : noiseDue (s.unit n) = true) :
    exec (.noise n .closeEdge) s = exec (.transitionAccepted n .h) s := by
  have dropped : closeEdgeDropped (s.unit n) = true := by
    unfold closeEdgeDropped
    rw [waits]
    cases state : (s.unit n).state with
    | off => exact absurd state on
    | quiet | unprimed | priming | publishing =>
      exact beq_iff_eq.mpr (hEdgeAt_dropped last close)
  have spelt : exec (.noise n .closeEdge) s = .next
      (if closeEdgeDropped (s.unit n) && noiseDue (s.unit n) then
        noteChange s (acceptPin n .h s) else s) := rfl
  rw [spelt, dropped, due]
  rfl

/-- NOISE by a pulse too short is the change of the pin that rejects it. -/
theorem exec_noise_glitch (on : (s.unit n).state ≠ .off) (moved : s.pinLevel n pin ≠ level)
    (inside : pulseInside (s.unit n) pin w tick) (due : noiseDue (s.unit n) = true) :
    exec (.noise n (.glitch pin level tick)) s = exec (.pinTransition n pin level tick) s := by
  have changed : (s.pinLevel n pin != level) = true := bne_iff_ne.mpr moved
  have spelt : exec (.noise n (.glitch pin level tick)) s = .next
      (if s.pinLevel n pin != level && pulseRejected pin tick (s.unit n) && noiseDue (s.unit n) then
        noteChange s (movePin n pin level tick s) else s) := rfl
  rw [spelt, changed, pulseRejected_of_inside on inside, due]
  rfl

/-- A filter's own write leaves the rest of the unit. -/
theorem withWaiting_kept (u : MeasUnit) (pin : Pin) (x : Option Waiting) :
    (withWaiting u pin x).state = u.state ∧ (withWaiting u pin x).ring = u.ring
      ∧ (withWaiting u pin x).line = u.line ∧ (withWaiting u pin x).lineCounter = u.lineCounter
      ∧ (withWaiting u pin x).lastHEdge = u.lastHEdge
      ∧ (withWaiting u pin x).lastSet = u.lastSet := by
  cases pin <;> exact ⟨rfl, rfl, rfl, rfl, rfl, rfl⟩

/-- Settles O60: the dropped edge by its acceptance, the pulse by the change of its pin. -/
theorem thirtySecondRejectionIsNoise : Obligations.ThirtySecondRejectionIsNoise := by
  intro n s cause p laws links period rejections fresh running how
  have on := ne_off_of_isRunning running
  have due := noiseDue_of period rejections fresh
  have live := links.not_idle on
  obtain ⟨a, x, rfl, last, waits, -, close⟩ | ⟨pin, level, tick, w, rfl, moved, waits, after, before,
    still⟩ := how
  · have edge := hEdgeAt_dropped (w := x) last close
    have accepted := (accepted_h plainOrder on waits).trans ((horizontalEdge_dropped plainOrder edge).trans
      (countRejection_noise (u := hPinTaken (s.unit n)) period rejections fresh))
    have hexec := exec_accepted_reporting
      (expiryDue_of_no_line (closingLine_of_no_close waits (by simp [edge]))) accepted
    obtain ⟨unit, config, others, mailbox, port, -⟩ := unitFrame_reporting n
      (acceptTick .h (s.unit n)) { hPinTaken (s.unit n) with
        period := some { p with rejections := 32, faults := { p.faults with noise := true } } }
      (.detected .noise) s s
    refine ⟨_, (exec_noise_closeEdge on waits last close due).trans hexec,
      detectionTaken_reported _ (laws.stateLaw n) live, ?_⟩
    rw [unit]
    exact ⟨rfl, rfl, rfl, rfl, rfl, rfl, rfl, config.1, others, mailbox, port, fun _ => hexec,
      fun _ _ _ other => nomatch other⟩
  · have inside : pulseInside (s.unit n) pin w tick := ⟨waits, after, before⟩
    have counted := (pinChange_of_inside (order := expiryChoice n pin s) (level := level) on inside
      (s.config n).glitch).trans ((rejectPulse_counted still).trans (countRejection_noise
        (u := withWaiting (s.unit n) pin none) (p := p) (by cases pin <;> exact period)
        rejections fresh))
    have hexec := exec_pinTransition (tick := tick) moved
    rw [counted, changeTick_of_inside on inside] at hexec
    obtain ⟨unit, -, -, config, others, mailbox, port⟩ := pinFrame_measured n pin level tick
      ({ withWaiting (s.unit n) pin none with
        period := some { p with rejections := 32, faults := { p.faults with noise := true } } },
        [.detected .noise]) s
    have same := trackingSame_pinBase n pin level s
    have taken := detectionTaken_reported (k := .noise) (tick := tick) (s := s)
      (base := spendChoice n pin (s.withPin n pin level)) { withWaiting (s.unit n) pin none with
        period := some { p with rejections := 32, faults := { p.faults with noise := true } } }
      (by rw [← same.tracker]; exact laws.stateLaw n) (by rw [← same.tracker]; exact live)
    refine ⟨_, (exec_noise_glitch on moved inside due).trans hexec,
      same.detectionTaken ⟨rfl, rfl, rfl, rfl, rfl⟩ taken, ?_⟩
    rw [unit]
    obtain ⟨state, ring, line, lineCounter, lastHEdge, lastSet⟩ := withWaiting_kept (s.unit n) pin none
    refine ⟨rfl, state, ring, line, lineCounter, lastHEdge, lastSet, config, others, mailbox, port,
      fun other => (nomatch other), fun _ _ _ own => ?_⟩
    cases own
    exact hexec

end Sys2Proof.Machine
end

