-- ==== Sys2Proof/Proofs/ExpiryWaits.lean ====
section
/-! An expiry of the 8192 ticks with an edge waiting in the filter. -/

namespace Sys2Proof.Machine

variable {u v : MeasUnit} {n : InputIx} {tick a : Nat} {w : Waiting} {s x : State}

/-! ### What an expiry does, by the unit's state -/

theorem expireHorizontal_running (running : isRunning u = true) :
    expireHorizontal u = (quietUnit u, [.hLost]) := by
  unfold expireHorizontal
  rcases isRunning_iff.mp running with e | e | e <;> rw [e] <;> rfl

theorem expireHorizontal_quiet (quiet : u.state = .quiet) :
    expireHorizontal u = (gainTimeout u, []) := by
  unfold expireHorizontal
  rw [quiet]

/-- A rejection writes the period alone. -/
theorem countRejection_eq (u : MeasUnit) :
    ∃ q, (countRejection u).1 = { u with period := q } := by
  refine ⟨(countRejection u).1.period, ?_⟩
  unfold countRejection
  split <;> rfl

theorem quietUnit_countRejection (u : MeasUnit) : quietUnit (countRejection u).1 = quietUnit u := by
  obtain ⟨q, written⟩ := countRejection_eq u
  rw [written]
  rfl

theorem expiryStands_eq_false (last : u.lastHEdge = some a) (waits : waitingHEdge u = some w.tick)
    (early : w.tick < a + 8192) : expiryStands u = false := by
  unfold expiryStands
  rw [last, waits]
  exact decide_eq_false (by omega)

theorem expiryWaited_eq_true (last : u.lastHEdge = some a) (waits : waitingHEdge u = some w.tick)
    (early : w.tick < a + 8192) (due : a + 8192 ≤ tick) : expiryWaited u tick = true := by
  unfold expiryWaited
  rw [waits, last]
  simp [early, due]

/-! ### NOISE before the loss -/

/-- A NOISE that is not there, or not enabled, leaves the tracker to the loss. -/
theorem rejection_silent (enables : x.config n = s.config n)
    (mild : ∀ p, u.period = some p →
      p.rejections ≠ 31 ∨ p.faults.noise = true ∨ (s.config n).enables.noise = false) :
    (countRejection u).2.foldl (takeReport n tick) x = x := by
  cases period : u.period with
  | none =>
    rw [countRejection_counted (by simp [period])]
    rfl
  | some p =>
    by_cases detects : p.rejections = 31 ∧ p.faults.noise = false
    · have disabled : (x.config n).enables.has .noise = false := by
        rcases mild p period with h | h | h
        · exact absurd detects.1 h
        · exact nomatch detects.2.symm.trans h
        · rw [enables]
          exact h
      rw [countRejection_noise period detects.1 detects.2]
      exact if_neg (by simp [disabled])
    · rw [countRejection_counted fun q own => ?_]
      · rfl
      · obtain rfl : p = q := Option.some.inj (period.symm.trans own)
        by_cases rejections : p.rejections = 31
        · exact .inr (by simpa [rejections] using detects)
        · exact .inl rejections

/-- A NOISE that latches has the tracker in FAULT, and the loss is ignored there. -/
theorem takeHLost_takeDetection {k : FaultKind} (law : (x.tracker n).StateLaw)
    (on : (x.tracker n).state ≠ .idle) (enabled : (x.config n).enables.has k = true) :
    takeHLost n (takeDetection n k tick x) = takeDetection n k tick x := by
  obtain ⟨-, live, already⟩ := detectionTaken_takeDetection (k := k) (tick := tick) law on
  by_cases fault : (x.tracker n).state = .fault
  · exact takeHLost_fault ((congrArg Tracker.state (already enabled fault).1).trans fault)
  · exact takeHLost_fault (congrArg Tracker.state (live enabled fault).1)

/-! ### The two ends of the wait -/

/-- While the edge waits neither timeout does anything. -/
theorem exec_timeouts_wait (last : (s.unit n).lastHEdge = some a)
    (waits : waitingHEdge (s.unit n) = some w.tick) (early : w.tick < a + 8192) :
    exec (.hActivityLost n) s = .next s ∧ exec (.gainCountTimeout n) s = .next s := by
  have stands := expiryStands_eq_false last waits early
  have lost : exec (.hActivityLost n) s = .next
      (if isRunning (s.unit n) && expiryStands (s.unit n) then
        noteChange s (onUnit n (expiryTick (s.unit n)) loseHorizontal s)
      else s) := rfl
  have gain : exec (.gainCountTimeout n) s = .next
      (if (s.unit n).state == .quiet && expiryStands (s.unit n) then
        noteChange s (onUnit n (expiryTick (s.unit n)) (fun u => (gainTimeout u, [])) s)
      else s) := rfl
  rw [lost, gain, stands, Bool.and_false, Bool.and_false]
  exact ⟨rfl, rfl⟩

/-- An edge accepted after its expiry (R76): the loss first, then the first line of a new count. -/
theorem accepted_h_late (order : ExpiryOrder) (on : u.state ≠ .off)
    (waits : waitingHEdge u = some w.tick) (last : u.lastHEdge = some a)
    (late : a + 8192 ≤ w.tick) :
    acceptTransition order .h u =
      (startLine w.tick (expireHorizontal (hPinTaken u)).1, (expireHorizontal (hPinTaken u)).2) :=
  (accepted_h order on waits).trans (horizontalEdge_late order (hEdgeAt_late last late))

/-- The pulse of a waiting edge whose expiry has waited, rejected in a running unit (R76). -/
theorem rejectPulse_loses (running : isRunning u = true) (waited : expiryWaited u tick = true) :
    rejectPulse .h tick u =
      ({ quietUnit u with hFilter := { passed := u.hFilter.passed, waiting := none } },
        (countRejection (withWaiting u .h none)).2 ++ [.hLost]) := by
  have still : isRunning (countRejection (withWaiting u .h none)).1 = true :=
    (isRunning_congr (countRejection_state _)).trans running
  rw [rejectPulse_expires waited, expireHorizontal_running still, quietUnit_countRejection]
  rfl

theorem rejectPulse_restarts (quiet : u.state = .quiet) (closed : u.period = none)
    (waited : expiryWaited u tick = true) :
    rejectPulse .h tick u =
      ({ u with
          gainLines := [], line := none, lastHEdge := none, prevHEdge := none
          hFilter := { passed := u.hFilter.passed, waiting := none } }, []) := by
  have counted : countRejection (withWaiting u .h none) = (withWaiting u .h none, []) := by
    unfold countRejection
    rw [show (withWaiting u .h none).period = none from closed]
  rw [rejectPulse_expires waited, counted,
    expireHorizontal_quiet (u := (withWaiting u .h none, ([] : List Report)).1) quiet]
  rfl

/-- The loss reaches the tracker behind a rejection that latches nothing. -/
theorem lossTaken_after_rejection {base : State} (same : TrackingSame n base s) (laws : TrackerLaw s)
    (on : (s.tracker n).state ≠ .idle) (active : (s.tracker n).state ≠ .silent)
    (mild : ∀ p, u.period = some p →
      p.rejections ≠ 31 ∨ p.faults.noise = true ∨ (s.config n).enables.noise = false) :
    horizontalLossTaken n s (noteChange s (applyMeasured n tick
      (v, (countRejection u).2 ++ [.hLost]) base)) := by
  have unit := trackingSame_withUnit (n := n) base v
  have own := unit.symm.trans same
  have reports : applyMeasured n tick (v, (countRejection u).2 ++ [.hLost]) base
      = takeHLost n (base.withUnit n v) := by
    rw [applyMeasured, List.foldl_append, rejection_silent own.symm.config mild]
    rfl
  rw [reports]
  exact own.horizontalLossTaken (trackingSame_noteChange s _) (horizontalLossTaken_takeHLost
    (by rw [← own.tracker]; exact laws.stateLaw n) (by rw [← own.tracker]; exact on)
    (by rw [← own.tracker]; exact active))

/-- The NOISE that the rejection latches leaves nothing to the loss. -/
theorem noiseTaken_before_loss {base : State} {p : OpenPeriod} (same : TrackingSame n base s)
    (laws : TrackerLaw s) (on : (s.tracker n).state ≠ .idle) (period : u.period = some p)
    (rejections : p.rejections = 31) (fresh : p.faults.noise = false)
    (enabled : (s.config n).enables.noise = true) :
    detectionTaken n .noise tick s (noteChange s (applyMeasured n tick
      (v, (countRejection u).2 ++ [.hLost]) base)) := by
  have unit := trackingSame_withUnit (n := n) base v
  have own := unit.symm.trans same
  have law : ((base.withUnit n v).tracker n).StateLaw := by
    rw [← own.tracker]; exact laws.stateLaw n
  have live : ((base.withUnit n v).tracker n).state ≠ .idle := by rw [← own.tracker]; exact on
  have reports : applyMeasured n tick (v, (countRejection u).2 ++ [.hLost]) base
      = takeDetection n .noise tick (base.withUnit n v) := by
    rw [applyMeasured, countRejection_noise period rejections fresh]
    exact takeHLost_takeDetection law live (by rw [← own.config]; exact enabled)
  rw [reports]
  exact own.detectionTaken (trackingSame_noteChange s _) (detectionTaken_takeDetection law live)

/-- Settles O44: the wait, its end by a rejection, and the edge that comes too late. -/
theorem expiryWaitsForFilter : Obligations.ExpiryWaitsForFilter := by
  intro n s a w laws links last waiting waits
  refine ⟨fun early => ?early, fun late => ?late⟩
  case early =>
    obtain ⟨lost, gain⟩ := exec_timeouts_wait last waits early
    refine ⟨lost, gain, fun level tick moved after before due => ?_⟩
    have inside : pulseInside (s.unit n) .h w tick := ⟨waiting, after, before⟩
    have waited := expiryWaited_eq_true last waits early due
    have changed (on : (s.unit n).state ≠ .off) := pinChange_of_inside
      (order := expiryChoice n .h s) (level := level) on inside (s.config n).glitch
    have hexec := exec_pinTransition (tick := tick) moved
    have frame := pinFrame_measured n .h level (changeTick .h tick (s.unit n))
      (pinChange (expiryChoice n .h s) .h level tick (s.config n).glitch (s.unit n)) s
    have same := trackingSame_pinBase n .h level s
    refine ⟨_, hexec, frame.moved, frame.pins .v (by decide), frame.config, frame.others,
      frame.mailbox, frame.port, fun quiet closed => ?_, fun running => ?_,
      fun p on period rejections fresh => ?_⟩
    · have rejected := (changed (by simp [quiet])).trans (rejectPulse_restarts quiet closed waited)
      rw [rejected] at frame ⊢
      obtain ⟨tracker, catalog, classifier, notices, -⟩ := pin_silently (n := n) (s := s)
        (tick := changeTick .h tick (s.unit n)) .h level
        { s.unit n with
          gainLines := [], line := none, lastHEdge := none, prevHEdge := none
          hFilter := { passed := (s.unit n).hFilter.passed, waiting := none } } rfl
      exact ⟨frame.unit, tracker, catalog, classifier, notices⟩
    · have on := ne_off_of_isRunning running
      have rejected := (changed on).trans (rejectPulse_loses running waited)
      rw [rejected, changeTick_of_inside on inside] at frame ⊢
      exact ⟨frame.unit, fun p period rejections fresh enabled => noiseTaken_before_loss
          (u := withWaiting (s.unit n) .h none) same laws (links.not_idle on) period rejections fresh
          enabled,
        lossTaken_after_rejection (u := withWaiting (s.unit n) .h none) same laws (links.not_idle on)
          (links.active running)⟩
    · exact (exec_noise_glitch on moved inside (noiseDue_of period rejections fresh)).trans hexec
  case late =>
    have edge := hEdgeAt_late (w := w.tick) last late
    have due := expiryDue_of_no_line (closingLine_of_no_close waits (by simp [edge]))
    have hexec := exec_transitionAccepted n .h s
    rw [acceptPin_of_not_due due] at hexec
    obtain ⟨unit, config, others, mailbox, port, free⟩ := unitFrame_measured n
      (acceptTick .h (s.unit n)) (acceptTransition plainOrder .h (s.unit n)) s s
    refine ⟨_, hexec, config, others, mailbox, port, free, fun running => ?_, fun quiet => ?_⟩
    · have accepted := accepted_h_late plainOrder (ne_off_of_isRunning running) waits last late
      rw [expireHorizontal_running (u := hPinTaken (s.unit n)) running] at accepted
      rw [accepted] at unit ⊢
      exact ⟨unit, horizontalLossTaken_reported (tick := acceptTick .h (s.unit n)) _ laws links running⟩
    · have accepted := accepted_h_late plainOrder (by simp [quiet]) waits last late
      rw [expireHorizontal_quiet (u := hPinTaken (s.unit n)) quiet] at accepted
      rw [accepted] at unit ⊢
      exact ⟨unit, applied_silently rfl⟩

end Sys2Proof.Machine
end
